-- ==== Sys2Proof/Word.lean ====
section
/-! DEFINITION. The word types of HUFCORE (spec 00 R8: every value is an unsigned integer of a stated width). -/

namespace Sys2Proof

/-- A byte, which is the same thing as a symbol (00 R8). -/
abbrev Byte := BitVec 8

/-- A 32-bit word of the register bus (10 section 4). -/
abbrev Word := BitVec 32

/-- A 64-bit quantity: SIZE, PROGRESS, a FREQ or WEIGHT entry, CNT (00 R6). -/
abbrev DWord := BitVec 64

/-- A node handle, 9 bits (00 R6 HW, 10 R41). -/
abbrev Handle := BitVec 9

/-- A byte offset into the register space (20 R71: 16 bits). -/
abbrev Offset := BitVec 16

/-- The storage of one code (00 R6 CODEW, 10 R46). -/
abbrev CodeWord := BitVec 256

end Sys2Proof
end

