-- ==== Sys2Proof/Syntax.lean ====
section
/-! DEFINITION. The commands of HUFCORE: one constructor per row of spec/opcode_table.json (30 R103).
A command has no operand field (30 R100): its operands are the block's state and the IN stream. -/

namespace Sys2Proof

/-- The fourteen commands (30 R103). -/
inductive Instr where
  /-- 0x00, acknowledge (40 R131). -/
  | nop
  /-- 0x01, clear the run state (40 R132). -/
  | clr
  /-- 0x02, empty both queues (40 R133). -/
  | flush
  /-- 0x10, frequency scan of one stream (41 R141). -/
  | count
  /-- 0x11, build the tree from FREQ (42 R157). -/
  | build
  /-- 0x12, derive the code table from the tree (43 R171). -/
  | gencode
  /-- 0x13, serialize the tree to OUT (44 R181). -/
  | sertree
  /-- 0x14, write the size field to OUT (44 R188). -/
  | wrsize
  /-- 0x15, encode one stream to OUT (45 R201). -/
  | encode
  /-- 0x20, deserialize a tree from IN (44 R184). -/
  | destree
  /-- 0x21, read the size field from IN (44 R189). -/
  | rdsize
  /-- 0x22, decode SIZE symbols from IN to OUT (46 R211). -/
  | decode
  /-- 0x40, the source's `compress` (47 R222). -/
  | compress
  /-- 0x41, the source's `decompress` (47 R223). -/
  | decompress
  deriving DecidableEq, Repr

end Sys2Proof
end

