-- ==== Sys2Proof/WellFormed.lean ====
section
/-! DEFINITION. What is well-formed: a command, a command word (30 R100, R103, R110), a bus access (20 R93). -/

namespace Sys2Proof

/-- A command has no operand field (30 R100), so every command is well-formed. -/
def Instr.wellFormed : Instr → Bool
  | .nop | .clr | .flush | .count | .build | .gencode | .sertree
  | .wrsize | .encode | .destree | .rdsize | .decode | .compress | .decompress => true

/-- Bits 31:8 of a command word must be 0 (30 R100). -/
def wordReservedZero (v : Word) : Bool := v.extractLsb' 8 24 == 0

/-- The opcodes of the command map (30 R103, listed in R110). -/
def listedOpcodes : List Byte :=
  [0x00, 0x01, 0x02, 0x10, 0x11, 0x12, 0x13, 0x14, 0x15, 0x20, 0x21, 0x22, 0x40, 0x41]

/-- Bits 7:0 of a command word must be a listed opcode (30 R110). -/
def wordOpcodeListed (v : Word) : Bool := listedOpcodes.contains (v.extractLsb' 0 8)

/-- A command word that is not illegal (30 R110). -/
def wordWellFormed (v : Word) : Bool := wordReservedZero v && wordOpcodeListed v

/-- A bus access must be 32 bits wide (20 R93). -/
def accessWidthOk (bits : Nat) : Bool := bits == 32

/-- A bus access must be at an offset that is a multiple of 4 (20 R93). -/
def accessAligned (off : Offset) : Bool := off.toNat % 4 == 0

/-- A bus access the block does not refuse for its shape (20 R76 item 1). -/
def accessWellFormed (bits : Nat) (off : Offset) : Bool := accessWidthOk bits && accessAligned off

end Sys2Proof
end

