-- ==== Sys2Proof/Decode.lean ====
section
/-! DEFINITION. Decoding and encoding of command words (30 R100, R103, R110). -/

namespace Sys2Proof

/-- Why a word written to CMD is no command (30 R110): the names of decoding's rejections. -/
inductive DecodeError where
  /-- Bits 31:8 are not all 0. Raised by `decode`; the block turns it into ERR 0x51 (safe). -/
  | reservedBitsSet
  /-- Bits 7:0 are not an opcode of the map. Raised by `decode`; the block turns it into ERR 0x51 (safe). -/
  | unknownOpcode
  deriving DecidableEq, Repr

/-- The opcode map read from OPCODE to command (30 R103). -/
def decodeOpcode (op : Byte) : Option Instr :=
  match op.toNat with
  | 0x00 => some .nop
  | 0x01 => some .clr
  | 0x02 => some .flush
  | 0x10 => some .count
  | 0x11 => some .build
  | 0x12 => some .gencode
  | 0x13 => some .sertree
  | 0x14 => some .wrsize
  | 0x15 => some .encode
  | 0x20 => some .destree
  | 0x21 => some .rdsize
  | 0x22 => some .decode
  | 0x40 => some .compress
  | 0x41 => some .decompress
  | _ => none

/-- The command a word written to CMD stands for (30 R100, R101, R110). Total: every other word is rejected by name. -/
def decode (v : Word) : Except DecodeError Instr :=
  if v.extractLsb' 8 24 ≠ 0 then .error .reservedBitsSet
  else match decodeOpcode (v.extractLsb' 0 8) with
    | some i => .ok i
    | none => .error .unknownOpcode

/-- The opcode of a command (30 R103). -/
def opcodeOf : Instr → Byte
  | .nop => 0x00
  | .clr => 0x01
  | .flush => 0x02
  | .count => 0x10
  | .build => 0x11
  | .gencode => 0x12
  | .sertree => 0x13
  | .wrsize => 0x14
  | .encode => 0x15
  | .destree => 0x20
  | .rdsize => 0x21
  | .decode => 0x22
  | .compress => 0x40
  | .decompress => 0x41

/-- The word of a command: the opcode in bits 7:0, zeros above (30 R100). -/
def encode (i : Instr) : Word := (opcodeOf i).setWidth 32

/-- The command `decode` reads from a row of spec/opcode_table.json whose bits are `w`: a command is one 32-bit word
(30 R100), so `nbits` is 32, and a row given in fewer bits has zeros above them. -/
def decodeTableWord (nbits w : Nat) : Option Instr :=
  if nbits ≤ 32 then
    match decode (BitVec.ofNat 32 (w % 2 ^ nbits)) with
    | .ok i => some i
    | .error _ => none
  else none

end Sys2Proof
end

