-- ==== Sys2Proof/Config.lean ====
section
/-! DEFINITION. What an implementation fixes and the spec leaves open, and the free values.
Every `opaque` here has no body: no proof can see its value. -/

namespace Sys2Proof

/-- One less than the capacity of IN (DESIGN CHOICE, entry 6). -/
opaque Config.inDepthLessOne : Nat

/-- One less than the capacity of OUT (DESIGN CHOICE, entry 6). -/
opaque Config.outDepthLessOne : Nat

/-- IN_DEPTH, any integer of at least 1 (00 R6, 92 D5; DESIGN CHOICE, entry 6). -/
def Config.inDepth : Nat := Config.inDepthLessOne + 1

/-- OUT_DEPTH, any integer of at least 1 (00 R6, 92 D5; DESIGN CHOICE, entry 6). -/
def Config.outDepth : Nat := Config.outDepthLessOne + 1

/-- The free value of the n-th undefined register or window read: "a fresh 32-bit draw" (93 U3; DESIGN CHOICE, entry 3). -/
opaque Config.freeWord : Nat → Word

/-- The free value of the n-th PROGRESS read while BUSY, before it is brought into its bounds (60 R252, 93 U4;
DESIGN CHOICE, entry 8). -/
opaque Config.freeCount : Nat → Nat

end Sys2Proof
end

