-- ==== Sys2Proof/Machine/State.lean ====
section
/-! DEFINITION. The state of HUFCORE (spec file 10), the model's own fields beside it, the reset state (10 R55),
and the reasons a step can stop. State is plain data. -/

namespace Sys2Proof.Machine

/-- STATE (10 R23). -/
inductive RunState where
  /-- 0: no command has run since reset or acknowledge. -/
  | idle
  /-- 1: a command is running, stepping or holding. -/
  | busy
  /-- 2: the last command completed. -/
  | done
  /-- 3: the last command failed; ERR holds the code. -/
  | error
  deriving DecidableEq, Repr

/-- PHASE (10 R26). The values 12 to 15 are never taken and are left out. -/
inductive Phase where
  | none | count | build | gencode | sertree | wrsize | encode | destree | rdsize | decode | clear | flush
  deriving DecidableEq, Repr

/-- ERR (60 R231). Unlisted codes are never produced and are left out. -/
inductive Err where
  /-- 0x00: no error. -/
  | ok
  /-- 0x20: COUNT's stream has zero bytes. -/
  | emptyInput
  /-- 0x21: every FREQ entry is 0. -/
  | noSymbols
  /-- 0x30: EOS where a marker or symbol was expected. -/
  | treeEof
  /-- 0x31: a marker other than 0x30 and 0x31. -/
  | treeBadMarker
  /-- 0x32: a 512th node marker. -/
  | treeTooLarge
  /-- 0x33: EOS before 8 size bytes. -/
  | sizeShort
  /-- 0x34: EOS before SIZE symbols were decoded. -/
  | payloadTruncated
  /-- 0x40: an input byte with CODE_LEN = 0. -/
  | noCode
  /-- 0x41: reserved, never raised (46 R216). -/
  | badTopology
  /-- 0x42: bytes encoded differ from SIZE. -/
  | lengthMismatch
  /-- 0x43: a count or weight would reach 2^64. -/
  | countOverflow
  /-- 0x50: TV or CV precondition not met. -/
  | badSequence
  /-- 0x51: the word is not in the opcode table. -/
  | illegalCommand
  deriving DecidableEq, Repr

/-- A token of the IN queue (20 R72). -/
inductive Token where
  | byte (b : Byte)
  | eos
  deriving DecidableEq, Repr

/-- One of the block's table memories: (index, value) pairs in ONE canonical form, indices strictly rising and no
entry equal to 0, which is what an unlisted index reads as (DESIGN CHOICE, entry 4). -/
abbrev Memory (w : Nat) := List (Nat × BitVec w)

/-- An entry of the traversal stack (10 R48). Every user stacks a handle `h`; GENCODE adds the depth and the path,
DESTREE the bit "left child already attached". -/
structure StkEntry where
  h : Handle
  leftDone : Bool := false
  depth : BitVec 9 := 0
  path : CodeWord := 0
  deriving DecidableEq, Repr

/-- The procedures of files 40 to 47 that a command is a sequence of (30 R121); `needTv` and `needCv` are the
precondition checks of 30 R106. -/
inductive Proc where
  | needTv | needCv | clear | flush | count | build | gencode | sertree | wrsize | encode | destree | rdsize | decode
  | release
  deriving DecidableEq, Repr

/-- The `in_next()` the engine stands at, with the locals its procedure still needs. -/
inductive InPoint where
  /-- COUNT's `in_next` (41 R141). -/
  | count
  /-- ENCODE's `in_next` (45 R201). -/
  | encode
  /-- DESTREE's `in_next` for a marker (44 R184). -/
  | marker
  /-- DESTREE's `in_next` for the symbol of the leaf in slot `h` (44 R184). -/
  | symbol (h : Handle)
  /-- RDSIZE's `in_next` for byte `i`, with the assembly register V so far (44 R189). -/
  | sizeByte (i : Nat) (v : DWord)
  /-- DECODE's `in_next` (46 R211). -/
  | decode
  deriving DecidableEq, Repr

/-- The `out_put(b)` the engine stands at, with the locals its procedure still needs after it. -/
inductive OutPoint where
  /-- SERTREE's leaf marker of slot `h`; the symbol byte follows (44 R181). -/
  | leafMarker (h : Handle)
  /-- SERTREE's symbol byte; the next stack entry follows (44 R181). -/
  | leafSymbol
  /-- SERTREE's internal marker of slot `h`; its children are pushed after it (44 R181). -/
  | innerMarker (h : Handle)
  /-- WRSIZE's byte `i` (44 R188). -/
  | sizeByte (i : Nat)
  /-- ENCODE's full byte inside the code of symbol `s`, with the path bits `left - 1` down to 0 still to add (45 R201). -/
  | codeBits (s : Byte) (left : Nat)
  /-- ENCODE's padded last byte (45 R201). -/
  | padded
  /-- DECODE's symbol of a single-leaf tree (46 R213). -/
  | rootSymbol
  /-- DECODE's symbol of the leaf at CUR (46 R211). -/
  | leafReached
  deriving DecidableEq, Repr

/-- The resume point (10 R27, 20 R82), with the procedures of the command still to run after the present one. -/
inductive Resume where
  /-- The engine is idle. -/
  | idle
  /-- At start: the command was just accepted. -/
  | start (todo : List Proc)
  /-- At one particular `in_next()`. -/
  | inNext (at_ : InPoint) (todo : List Proc)
  /-- At one particular `out_put(b)`. -/
  | outPut (b : Byte) (at_ : OutPoint) (todo : List Proc)
  /-- Inside a loop that never ends: only GENCODE over an arena that is not well-formed at ROOT (DESIGN CHOICE, entry 9). -/
  | stuck
  deriving DecidableEq, Repr

/-- SIZE_ENDIAN (20 R91). -/
inductive Endian where
  | little | big
  deriving DecidableEq, Repr

/-- What the host does next (10 R21): a bus transaction of some width (20 R74, R75) or a pulse on `rst` (70 R260). -/
inductive HostAct where
  | read (bits : Nat) (off : Offset)
  | write (bits : Nat) (off : Offset) (v : Word)
  | reset
  deriving DecidableEq, Repr

/-- What a bus transaction answers (20 R74, R75). -/
structure BusResp where
  data : Word
  berr : Bool
  deriving DecidableEq, Repr

/-- The state of the block and of the model around it. -/
structure State where
  /-- STATE (10 R23). -/
  state : RunState
  /-- CMD_CUR (10 R24). -/
  cmdCur : Byte
  /-- PHASE (10 R26). -/
  phase : Phase
  /-- ERR (10 R25). -/
  err : Err
  /-- TV (10 R29). -/
  tv : Bool
  /-- CV (10 R30). -/
  cv : Bool
  /-- CTRL.IE (10 R33). -/
  ie : Bool
  /-- SIZE (10 R34). -/
  size : DWord
  /-- ROOT (10 R35). -/
  root : Handle
  /-- NODE_N (10 R35). -/
  nodeN : BitVec 9
  /-- PROGRESS, the internal value (60 R252). -/
  progress : DWord
  /-- FREQ (10 R40). -/
  freq : Memory 64
  /-- NODE (10 R42). -/
  node : Memory 32
  /-- WEIGHT (10 R43). -/
  weight : Memory 64
  /-- CODE_LEN (10 R45). -/
  codeLen : Memory 9
  /-- CODE_BITS (10 R46). -/
  codeBits : Memory 256
  /-- IN, oldest token first (20 R72). -/
  inq : List Token
  /-- OUT, oldest byte first (20 R73). -/
  outq : List Byte
  /-- HEAP[0 .. HEAP_N - 1]; HEAP_N is the length (10 R47, DESIGN CHOICE, entry 5). -/
  heap : List Handle
  /-- STK, top first; SP is the length (10 R48, DESIGN CHOICE, entry 5). -/
  stk : List StkEntry
  /-- ACC (10 R49). -/
  acc : Byte
  /-- NACC (10 R49). -/
  nacc : Nat
  /-- CNT (10 R49, R50). -/
  cnt : DWord
  /-- CUR (10 R50). -/
  cur : Handle
  /-- BITBUF (10 R50). -/
  bitbuf : Byte
  /-- NBITS (10 R50). -/
  nbits : Nat
  /-- The resume point (10 R27). -/
  resume : Resume
  /-- IN_DEPTH, a parameter (00 R6; DESIGN CHOICE, entry 6). -/
  inDepth : Nat
  /-- OUT_DEPTH, a parameter (00 R6; DESIGN CHOICE, entry 6). -/
  outDepth : Nat
  /-- SIZE_ENDIAN, a parameter (20 R91; DESIGN CHOICE, entry 7). -/
  sizeEndian : Endian
  /-- The model's own: what the host will still do, oldest first (10 R53; DESIGN CHOICE, entry 1). -/
  host : List HostAct
  /-- The model's own: how many engine steps the engine takes in each coming step; when the list is exhausted the
  engine runs until it holds or stops (20 R83; DESIGN CHOICE, entry 2). -/
  turns : List Nat
  /-- The model's own: the answer of the last bus transaction (20 R74, R75; DESIGN CHOICE, entry 1). -/
  resp : BusResp
  /-- The model's own: how many free values have been drawn (93 U3, U4; DESIGN CHOICE, entry 3). -/
  draws : Nat
  /-- The model's own: the least value a PROGRESS read may return while BUSY (60 R252; DESIGN CHOICE, entry 8). -/
  published : DWord
  deriving DecidableEq, Repr

/-- The machine right after hardware reset (10 R55, 70 R260). -/
def State.reset : State where
  state := .idle
  cmdCur := 0
  phase := .none
  err := .ok
  tv := false
  cv := false
  ie := false
  size := 0
  root := 0
  nodeN := 0
  progress := 0
  freq := []
  node := []
  weight := []
  codeLen := []
  codeBits := []
  inq := []
  outq := []
  heap := []
  stk := []
  acc := 0
  nacc := 0
  cnt := 0
  cur := 0
  bitbuf := 0
  nbits := 0
  resume := .idle
  inDepth := Config.inDepth
  outDepth := Config.outDepth
  sizeEndian := .little
  host := []
  turns := []
  resp := ⟨0, false⟩
  draws := 0
  published := 0

/-- The reasons a step stops with a fault: none. Every situation of the spec has a next state; the block's own
errors are next states with STATE = ERROR (60 R240), and a refused bus transaction is one with berr = 1 (20 R76). -/
inductive Fault where
  deriving DecidableEq, Repr

/-- The reasons a step is refused. -/
inductive Refusal where
  /-- The command has no meaning yet. Raised by `exec`'s arms of commands not modelled, of which there is none (safe). -/
  | notModelled (mnemonic : String)
  deriving DecidableEq, Repr

end Sys2Proof.Machine
end

