-- ==== Sys2Proof/Machine/Ops.lean ====
section
/-! DEFINITION. The named operations over the table memories, the queues, the sequencer and the bus answer, and the two
ways a command ends: `fail` (60 R240, the block's exception entry) and `complete` (60 R242), with `release` (47 R224)
and `acknowledge` (40 R131, the block's return from an error) beside them. -/

namespace Sys2Proof.Machine

/-! ## Table memories (DESIGN CHOICE, entry 4) -/

/-- Entry `i` of a table: an unlisted index reads as 0. -/
def Memory.read {w : Nat} (m : Memory w) (i : Nat) : BitVec w :=
  match m with
  | [] => 0#w
  | (j, v) :: rest => if i = j then v else Memory.read rest i

/-- Write entry `i` of a table, keeping the canonical form: writing 0 removes the entry. -/
def Memory.write {w : Nat} (m : Memory w) (i : Nat) (v : BitVec w) : Memory w :=
  match m with
  | [] => if v = 0#w then [] else [(i, v)]
  | (j, u) :: rest =>
    if i < j then (if v = 0#w then (j, u) :: rest else (i, v) :: (j, u) :: rest)
    else if i = j then (if v = 0#w then rest else (i, v) :: rest)
    else (j, u) :: Memory.write rest i v

/-- The canonical form: indices strictly rising, no entry equal to 0, every index below `cap`. -/
def Memory.wf {w : Nat} (cap : Nat) (m : Memory w) : Bool :=
  match m with
  | [] => true
  | (j, v) :: rest => decide (j < cap) && decide (v ≠ 0#w) && rest.all (fun e => decide (j < e.1)) && Memory.wf cap rest

/-! ## Sequencer -/

/-- PHASE <- p (00 R12). A new phase also starts a new row of PROGRESS reads (60 R252, DESIGN CHOICE, entry 8). -/
def State.setPhase (p : Phase) (s : State) : State := { s with phase := p, published := 0 }

/-- `fail E` (60 R240): the shared way a command ends in an error. Under a macro it also releases. -/
def State.fail (e : Err) (s : State) : State :=
  { s with
    err := e
    state := .error
    heap := []
    stk := []
    tv := if s.cmdCur = 0x40 ∨ s.cmdCur = 0x41 then false else s.tv
    cv := if s.cmdCur = 0x40 ∨ s.cmdCur = 0x41 then false else s.cv
    resume := .idle }

/-- `complete` (60 R242): STATE <- DONE and the engine stops. -/
def State.complete (s : State) : State := { s with state := .done, resume := .idle }

/-- `release()` (47 R224). -/
def State.release (s : State) : State := { s with tv := false, cv := false }

/-- `clear()` (40 R132). -/
def State.clear (s : State) : State :=
  { s.setPhase .clear with
    freq := []
    size := 0
    tv := false
    cv := false
    root := 0
    nodeN := 0
    progress := 0
    heap := []
    stk := []
    acc := 0
    nacc := 0
    cnt := 0
    cur := 0
    bitbuf := 0
    nbits := 0 }

/-- Emptying both queues (40 R133). -/
def State.flushQueues (s : State) : State := { s.setPhase .flush with inq := [], outq := [] }

/-! ## The bus answer -/

/-- An accepted transaction answers `data` with berr = 0 (20 R74, R75). -/
def State.answer (data : Word) (s : State) : State := { s with resp := ⟨data, false⟩ }

/-- A refused transaction changes no state of the block and answers data 0 with berr = 1 (20 R76). -/
def State.refuse (s : State) : State := { s with resp := ⟨0, true⟩ }

/-- An undefined read answers a fresh free value (93 U3; DESIGN CHOICE, entry 3). -/
def State.answerFree (s : State) : State :=
  { s with resp := ⟨Config.freeWord s.draws, false⟩, draws := s.draws + 1 }

/-! ## Accepting a command (30 R101) -/

/-- The part of command issue every accepted word shares (30 R101): CMD_CUR, PHASE and ERR, and the write's answer. -/
def State.takeWord (op : Byte) (s : State) : State :=
  { s.setPhase .none with cmdCur := op, err := .ok, resp := ⟨0, false⟩ }

/-- A legal command other than NOP is accepted (30 R101): STATE <- BUSY, at the start of its procedure. -/
def State.accept (op : Byte) (todo : List Proc) (s : State) : State :=
  { s.takeWord op with state := .busy, resume := .start todo }

/-- NOP inside its write transaction (40 R131). -/
def State.acknowledge (s : State) : State := { s.takeWord 0x00 with state := .idle }

/-- An illegal word written to CMD when STATE is not BUSY (30 R110). -/
def State.illegal (v : Word) (s : State) : State :=
  { s.takeWord (v.extractLsb' 0 8) with state := .error, err := .illegalCommand }

/-! ## Reset (70 R260, R261) -/

/-- Both kinds of reset: every piece of the block's state takes its reset value; the parameters stay, and so do the
model's own fields, which are not the block's (DESIGN CHOICE, entry 1). -/
def State.resetBlock (s : State) : State :=
  { State.reset with
    inDepth := s.inDepth
    outDepth := s.outDepth
    sizeEndian := s.sizeEndian
    host := s.host
    turns := s.turns
    resp := s.resp
    draws := s.draws }

/-! ## Queues (20 R72, R73) -/

/-- A host push to IN: refused when IN holds IN_DEPTH tokens (20 R86, R87, R76 item 7). -/
def State.pushIn (t : Token) (s : State) : State :=
  if s.inq.length < s.inDepth then ({ s with inq := s.inq ++ [t] }).answer 0 else s.refuse

/-- A host pop of OUT (20 R88): bit 31 says whether a byte was there. -/
def State.popOut (s : State) : State :=
  match s.outq with
  | [] => s.answer 0
  | b :: rest => ({ s with outq := rest }).answer (0x80000000 ||| b.setWidth 32)

end Sys2Proof.Machine
end

