-- ==== Sys2Proof/Machine/Operands.lean ====
section
/-! DEFINITION. The operand forms of HUFCORE. A command has no operand field (30 R100); what its procedure reads are
fields of a NODE word (10 R42), halves of 64-bit entries (20 R77), bytes of SIZE (20 R91) and bits of a code (10 R46). -/

namespace Sys2Proof.Machine

/-! ## NODE words (10 R42) -/

/-- The word of a leaf of symbol `b`: 0x8000_0000 | b. -/
def leafWord (b : Byte) : Word := 0x80000000 ||| b.setWidth 32

/-- The word of an internal node: (right << 16) | left. -/
def innerWord (left right : Handle) : Word := (right.setWidth 32 <<< 16) ||| left.setWidth 32

/-- LEAF, bit 31. -/
def wordIsLeaf (n : Word) : Bool := n.getLsbD 31

/-- SYM, bits 7:0. -/
def wordSym (n : Word) : Byte := n.extractLsb' 0 8

/-- LEFT, bits 8:0. -/
def wordLeft (n : Word) : Handle := n.extractLsb' 0 9

/-- RIGHT, bits 24:16. -/
def wordRight (n : Word) : Handle := n.extractLsb' 16 9

/-- NODE[p][8:0] <- c (44 R184). -/
def wordSetLeft (n : Word) (c : Handle) : Word := (n &&& 0xFFFFFE00) ||| c.setWidth 32

/-- NODE[p][24:16] <- c (44 R184). -/
def wordSetRight (n : Word) (c : Handle) : Word := (n &&& 0xFE00FFFF) ||| (c.setWidth 32 <<< 16)

/-- NODE[h]. -/
def State.nodeAt (s : State) (h : Handle) : Word := Memory.read s.node h.toNat

/-- leaf(h) (10 R42). -/
def State.isLeaf (s : State) (h : Handle) : Bool := wordIsLeaf (s.nodeAt h)

/-- sym(h) (10 R42). -/
def State.symOf (s : State) (h : Handle) : Byte := wordSym (s.nodeAt h)

/-- left(h) (10 R42). -/
def State.leftOf (s : State) (h : Handle) : Handle := wordLeft (s.nodeAt h)

/-- right(h) (10 R42). -/
def State.rightOf (s : State) (h : Handle) : Handle := wordRight (s.nodeAt h)

/-- NODE[h] <- n. -/
def State.setNode (h : Handle) (n : Word) (s : State) : State := { s with node := Memory.write s.node h.toNat n }

/-- WEIGHT[h] <- v. -/
def State.setWeight (h : Handle) (v : DWord) (s : State) : State := { s with weight := Memory.write s.weight h.toNat v }

/-- h <- NODE_N; NODE_N <- NODE_N + 1, with NODE[h] and WEIGHT[h] filled (42 R157, 44 R184). -/
def State.newNode (n : Word) (v : DWord) (s : State) : State :=
  { (s.setNode s.nodeN n).setWeight s.nodeN v with nodeN := s.nodeN + 1 }

/-! ## Entries of the other tables -/

/-- FREQ[b]. -/
def State.freqAt (s : State) (b : Byte) : DWord := Memory.read s.freq b.toNat

/-- CODE_LEN[b]. -/
def State.lenAt (s : State) (b : Byte) : BitVec 9 := Memory.read s.codeLen b.toNat

/-- CODE_BITS[b]. -/
def State.bitsAt (s : State) (b : Byte) : CodeWord := Memory.read s.codeBits b.toNat

/-- CODE_LEN[b] <- d and CODE_BITS[b] <- p (43 R171). -/
def State.setCode (b : Byte) (d : BitVec 9) (p : CodeWord) (s : State) : State :=
  { s with codeLen := Memory.write s.codeLen b.toNat d, codeBits := Memory.write s.codeBits b.toNat p }

/-! ## Halves of 64-bit quantities and words of a code (20 R77, R92) -/

/-- The low half (`hi = false`) at the lower offset, the high half above it. -/
def halfOf (hi : Bool) (v : DWord) : Word := if hi then v.extractLsb' 32 32 else v.extractLsb' 0 32

/-- `v` with one half replaced and the other unchanged (20 R79, 10 R34). -/
def withHalf (hi : Bool) (v : DWord) (w : Word) : DWord :=
  if hi then w ++ v.extractLsb' 0 32 else v.extractLsb' 32 32 ++ w

/-- CODE_BITS word `j`: bits 32j+31 : 32j (20 R77). -/
def codeWordAt (j : Nat) (c : CodeWord) : Word := c.extractLsb' (32 * j) 32

/-! ## Bytes of the size field (20 R91, 30 R116) -/

/-- Which byte of SIZE is the `i`-th of the size field: byte `i` if little, byte `7 - i` if big. -/
def sizeBytePos (e : Endian) (i : Nat) : Nat :=
  match e with
  | .little => i
  | .big => 7 - i

/-- The `i`-th byte of the size field of `v`. -/
def sizeFieldByte (e : Endian) (v : DWord) (i : Nat) : Byte := v.extractLsb' (8 * sizeBytePos e i) 8

/-- V with the `i`-th byte of the size field put in (44 R189). -/
def sizeFieldPut (e : Endian) (v : DWord) (i : Nat) (b : Byte) : DWord :=
  v ||| (b.setWidth 64 <<< (8 * sizeBytePos e i))

end Sys2Proof.Machine
end

