-- ==== Sys2Proof/Machine/Flags.lean ====
section
/-! DEFINITION. The flags and status fields: the numbers of STATE, PHASE and ERR, the `irq` level, and the words of
STATUS, CTRL, TREEINFO and FIFO_STAT. HUFCORE has no arithmetic condition codes (10 R28). -/

namespace Sys2Proof.Machine

/-- The number of STATE (10 R23). -/
def stateCode : RunState → BitVec 2
  | .idle => 0
  | .busy => 1
  | .done => 2
  | .error => 3

/-- The number of PHASE (10 R26). -/
def phaseCode : Phase → BitVec 4
  | .none => 0
  | .count => 1
  | .build => 2
  | .gencode => 3
  | .sertree => 4
  | .wrsize => 5
  | .encode => 6
  | .destree => 7
  | .rdsize => 8
  | .decode => 9
  | .clear => 10
  | .flush => 11

/-- The code of ERR (60 R231). -/
def errCode : Err → Byte
  | .ok => 0x00
  | .emptyInput => 0x20
  | .noSymbols => 0x21
  | .treeEof => 0x30
  | .treeBadMarker => 0x31
  | .treeTooLarge => 0x32
  | .sizeShort => 0x33
  | .payloadTruncated => 0x34
  | .noCode => 0x40
  | .badTopology => 0x41
  | .lengthMismatch => 0x42
  | .countOverflow => 0x43
  | .badSequence => 0x50
  | .illegalCommand => 0x51

/-- STATE = BUSY. -/
def State.busy (s : State) : Bool := s.state == .busy

/-- The `irq` output: IE and (STATE = DONE or STATE = ERROR) (60 R250). -/
def State.irq (s : State) : Bool := s.ie && (s.state == .done || s.state == .error)

/-- STATUS (10 R32). -/
def State.statusWord (s : State) : Word :=
  (0 : BitVec 7) ++ BitVec.ofBool s.irq ++ s.cmdCur ++ errCode s.err ++ phaseCode s.phase
    ++ BitVec.ofBool s.cv ++ BitVec.ofBool s.tv ++ stateCode s.state

/-- CTRL as read (10 R33): IE in bit 0, all else 0. -/
def State.ctrlWord (s : State) : Word := (BitVec.ofBool s.ie).setWidth 32

/-- TREEINFO (10 R35): ROOT in bits 8:0, NODE_N in bits 24:16, all else 0. -/
def State.treeInfoWord (s : State) : Word := (0 : BitVec 7) ++ s.nodeN ++ (0 : BitVec 7) ++ s.root

/-- A queue level in 16 bits, saturating at 0xFFFF (20 R89). -/
def level16 (n : Nat) : BitVec 16 := BitVec.ofNat 16 (min n 0xFFFF)

/-- FIFO_STAT (20 R89): tokens of IN in bits 15:0, bytes of OUT in bits 31:16. -/
def State.fifoWord (s : State) : Word := level16 s.outq.length ++ level16 s.inq.length

/-- ID (10 R36), a constant. -/
def idWord : Word := 0x48554631

end Sys2Proof.Machine
end

