-- ==== Sys2Proof/Machine/Run.lean ====
section
/-! DEFINITION. How far a procedure runs in one engine step (20 R82): up to its next stream primitive, or to its end. -/

namespace Sys2Proof.Machine

/-- Where a stretch of pseudocode stops. -/
inductive Run where
  /-- The procedure returned. -/
  | done (s : State)
  /-- It stands at an `in_next()` (20 R80). -/
  | waitIn (k : InPoint) (s : State)
  /-- It stands at `out_put(b)` (20 R81). -/
  | waitOut (b : Byte) (k : OutPoint) (s : State)
  /-- It meets `fail e` (60 R240). -/
  | failed (e : Err) (s : State)
  /-- It is in a loop that never ends (DESIGN CHOICE, entry 9). -/
  | endless (s : State)
  deriving DecidableEq, Repr

/-- Go on with `f` if the first part returned; any other outcome stands. -/
def Run.andThen (r : Run) (f : State → Run) : Run :=
  match r with
  | .done s => f s
  | .waitIn k s => .waitIn k s
  | .waitOut b k s => .waitOut b k s
  | .failed e s => .failed e s
  | .endless s => .endless s

end Sys2Proof.Machine
end

