-- ==== Sys2Proof/Machine/Builder.lean ====
section
/-! DEFINITION. The priority queue (42 R151 to R154) and the tree builder: the procedure `build()` (42 R157). -/

namespace Sys2Proof.Machine

/-! ## The array heap over node weights (42 R151) -/

/-- HEAP[i]. -/
def heapAt (q : List Handle) (i : Nat) : Handle := q.getD i 0

/-- The key of entry `i`: WEIGHT[HEAP[i]] (42 R151). -/
def heapKey (wt : Memory 64) (q : List Handle) (i : Nat) : DWord := Memory.read wt (heapAt q i).toNat

/-- swap HEAP[i], HEAP[j]. -/
def heapSwap (q : List Handle) (i j : Nat) : List Handle := (q.set i (heapAt q j)).set j (heapAt q i)

/-- Sift up from index `i` (42 R153): rise while strictly lighter than the parent. `fuel` bounds the levels: each one
more than halves the distance to the top, so `i` levels are always enough. -/
def siftUp (wt : Memory 64) (fuel : Nat) (q : List Handle) (i : Nat) : List Handle :=
  match fuel with
  | 0 => q
  | n + 1 =>
    if i = 0 then q
    else if heapKey wt q i < heapKey wt q ((i - 1) / 2) then siftUp wt n (heapSwap q i ((i - 1) / 2)) ((i - 1) / 2)
    else q

/-- The child of `i` that a sinking entry is compared with: the right one only if it exists and is strictly lighter (42 R154). -/
def lighterChild (wt : Memory 64) (q : List Handle) (i : Nat) : Nat :=
  if 2 * i + 2 < q.length ∧ heapKey wt q (2 * i + 2) < heapKey wt q (2 * i + 1) then 2 * i + 2 else 2 * i + 1

/-- Sift down from index `i` (42 R154): sink while a child is strictly lighter. `fuel` bounds the levels by the length. -/
def siftDown (wt : Memory 64) (fuel : Nat) (q : List Handle) (i : Nat) : List Handle :=
  match fuel with
  | 0 => q
  | n + 1 =>
    if q.length ≤ 2 * i + 1 then q
    else if heapKey wt q (lighterChild wt q i) < heapKey wt q i then
      siftDown wt n (heapSwap q i (lighterChild wt q i)) (lighterChild wt q i)
    else q

/-- PQ.insert(h) (42 R153). -/
def heapInsert (wt : Memory 64) (q : List Handle) (h : Handle) : List Handle :=
  siftUp wt q.length (q ++ [h]) q.length

/-- What PQ.extract_min leaves in the heap (42 R154): the last entry moves to the top and sinks. -/
def heapRest (wt : Memory 64) (q : List Handle) : List Handle :=
  if q.length - 1 = 0 then []
  else siftDown wt q.length ((q.take (q.length - 1)).set 0 (heapAt q (q.length - 1))) 0

/-- PQ.insert(h) on the state (42 R153). -/
def State.pqInsert (h : Handle) (s : State) : State := { s with heap := heapInsert s.weight s.heap h }

/-- The handle PQ.extract_min() returns (42 R154): the top. -/
def State.pqTop (s : State) : Handle := heapAt s.heap 0

/-- The state after PQ.extract_min() (42 R154). -/
def State.pqDrop (s : State) : State := { s with heap := heapRest s.weight s.heap }

/-! ## build() (42 R157) -/

/-- One symbol of the leaf loop: a leaf with its count as weight, if the count is not 0. -/
def State.addLeaf (s : State) (b : Byte) : State :=
  if s.freqAt b = 0 then s
  else (s.newNode (leafWord b) (s.freqAt b)).pqInsert s.nodeN

/-- The symbols in ascending order (42 R157, 92 D11). -/
def allSymbols : List Byte := (List.range 256).map (BitVec.ofNat 8)

/-- WEIGHT[A] + WEIGHT[B], a 65-bit sum (42 R157). -/
def State.weightSum (a b : Handle) (s : State) : Nat :=
  (Memory.read s.weight a.toNat).toNat + (Memory.read s.weight b.toNat).toNat

/-- The rest of a merge once A and B are extracted (42 R157): left = A, right = B, weight the exact sum; a sum of 2^64 or
more fails (42 R158). -/
def mergePair (a b : Handle) (s : State) : Run :=
  if 2 ^ 64 ≤ s.weightSum a b then .failed .countOverflow { s with heap := [] }
  else .done ((s.newNode (innerWord a b) (BitVec.ofNat 64 (s.weightSum a b))).pqInsert s.nodeN)

/-- One merge (42 R157): A then B in extraction order. -/
def State.mergeOnce (s : State) : Run := mergePair s.pqTop s.pqDrop.pqTop s.pqDrop.pqDrop

/-- The merge loop (42 R157): while HEAP_N > 1. Each merge shortens the heap by one, so HEAP_N rounds are enough. -/
def mergeLoop (fuel : Nat) (s : State) : Run :=
  match fuel with
  | 0 => .done s
  | n + 1 => if 1 < s.heap.length then s.mergeOnce.andThen (mergeLoop n) else .done s

/-- The end of `build()`: the entry left is the root (42 R157). -/
def State.takeRoot (s : State) : State := { s.pqDrop with root := s.pqTop, tv := true }

/-- The start of `build()`: flags and counters cleared (42 R157). -/
def State.buildInit (s : State) : State :=
  { s.setPhase .build with tv := false, cv := false, nodeN := 0, heap := [], root := 0 }

/-- `build()` after the leaf loop (42 R157): no leaf fails (42 R159), else the merges and the root. -/
def mergeAll (s : State) : Run :=
  if s.heap.length = 0 then .failed .noSymbols s
  else (mergeLoop s.heap.length s).andThen (fun t => .done t.takeRoot)

/-- `build()` (42 R157): no stream primitive, so it never stops at one. -/
def buildRun (s : State) : Run := mergeAll (allSymbols.foldl State.addLeaf s.buildInit)

end Sys2Proof.Machine
end

