-- ==== Sys2Proof/Machine/CodeGen.lean ====
section
/-! DEFINITION. The code generator: the procedure `gencode()` (43 R171). -/

namespace Sys2Proof.Machine

/-- The start of `gencode()`: CV cleared and the whole code table zeroed (43 R171). -/
def State.gencodeInit (s : State) : State :=
  { s.setPhase .gencode with cv := false, codeLen := [], codeBits := [] }

/-- One entry (h, d, p) taken off the stack (43 R171): a leaf gets its code, an internal node stacks its children, the
left one on top. -/
def State.walkOnce (e : StkEntry) (rest : List StkEntry) (s : State) : State :=
  if s.isLeaf e.h then ({ s with stk := rest }).setCode (s.symOf e.h) e.depth e.path
  else
    { s with
      stk := { h := s.leftOf e.h, depth := e.depth + 1, path := e.path <<< 1 }
        :: { h := s.rightOf e.h, depth := e.depth + 1, path := (e.path <<< 1) ||| 1 } :: rest }

/-- The walk (43 R171): while SP > 0. A well-formed arena (10 R44) has at most 511 slots and is visited slot by slot at
most once, so a walk that pops more is over an arena that is not well-formed (DESIGN CHOICE, entry 9). -/
def codeWalk (fuel : Nat) (s : State) : Run :=
  match s.stk with
  | [] => .done s
  | e :: rest =>
    match fuel with
    | 0 => .endless s
    | n + 1 => codeWalk n (s.walkOnce e rest)

/-- The end of `gencode()`: CV <- 1 (43 R171). -/
def State.codesValid (s : State) : State := { s with cv := true }

/-- `gencode()` after its start (43 R171): the single-leaf tree (43 R173), or the walk from (ROOT, 0, 0). -/
def gencodeTree (s : State) : Run :=
  if s.isLeaf s.root then .done (s.setCode (s.symOf s.root) 1 0).codesValid
  else (codeWalk 511 { s with stk := [{ h := s.root }] }).andThen (fun u => .done u.codesValid)

/-- `gencode()` (43 R171): no stream primitive. -/
def gencodeRun (s : State) : Run := gencodeTree s.gencodeInit

end Sys2Proof.Machine
end

