-- ==== Sys2Proof/Machine/Counter.lean ====
section
/-! DEFINITION. The frequency counter: the procedure `count()` (41 R141). -/

namespace Sys2Proof.Machine

/-- `count()` up to its first `in_next` (41 R141). -/
def countStart (s : State) : Run :=
  .waitIn .count { s.setPhase .count with tv := false, cv := false, freq := [], size := 0, progress := 0 }

/-- One byte counted: FREQ[b], SIZE and PROGRESS (41 R141). -/
def State.countByte (b : Byte) (s : State) : State :=
  { s with
    freq := Memory.write s.freq b.toNat (Memory.read s.freq b.toNat + 1)
    size := s.size + 1
    progress := s.size + 1 }

/-- The rest of `count()` after a token was taken: the checks of 41 R143 and R144. -/
def countToken (t : Token) (s : State) : Run :=
  match t with
  | .eos => if s.size = 0 then .failed .emptyInput s else .done s
  | .byte b =>
    if s.size = BitVec.allOnes 64 then .failed .countOverflow s
    else .waitIn .count (s.countByte b)

end Sys2Proof.Machine
end

