-- ==== Sys2Proof/Machine/Decoder.lean ====
section
/-! DEFINITION. The bit stream decoder: the procedure `decode()` (46 R211). -/

namespace Sys2Proof.Machine

/-- One bit taken from BITBUF (46 R211). -/
def State.takeBit (s : State) : State := { s with bitbuf := s.bitbuf <<< 1, nbits := s.nbits - 1 }

/-- One edge of the walk (46 R211): right for bit 1, left for bit 0. -/
def State.walkEdge (bit : Bool) (s : State) : State :=
  { s with cur := if bit then s.rightOf s.cur else s.leftOf s.cur }

/-- After an edge (46 R211): the symbol if a leaf is reached, else `next`. -/
def decodeAt (next : State → Run) (s : State) : Run :=
  if s.isLeaf s.cur then .waitOut (s.symOf s.cur) .leafReached s else next s

/-- One bit and what it leads to (46 R211): in a single-leaf tree the symbol, whatever the bit (46 R213); otherwise one
edge of the walk. -/
def decodeBit (next : State → Run) (s : State) : Run :=
  if s.isLeaf s.root then .waitOut (s.symOf s.root) .rootSymbol s.takeBit
  else decodeAt next (s.takeBit.walkEdge (s.bitbuf.getLsbD 7))

/-- The loop `while CNT != SIZE` with `bits` unconsumed bits in BITBUF (46 R211, R214): the condition is tested before
any token is taken. -/
def decodeLoop (bits : Nat) (s : State) : Run :=
  if s.cnt = s.size then .done s
  else
    match bits with
    | 0 => .waitIn .decode s
    | n + 1 => decodeBit (decodeLoop n) s

/-- `decode()` up to its first primitive. -/
def decodeStart (s : State) : Run :=
  decodeLoop 0 { s.setPhase .decode with cnt := 0, cur := s.root, nbits := 0, bitbuf := 0, progress := 0 }

/-- After a token: EOS means the payload is truncated (46 R215); a byte fills BITBUF and its first bit is taken. -/
def decodeToken (t : Token) (s : State) : Run :=
  match t with
  | .eos => .failed .payloadTruncated s
  | .byte b => decodeBit (decodeLoop 7) { s with bitbuf := b, nbits := 8 }

/-- CNT and PROGRESS count the symbol just put (46 R211). -/
def State.countSymbol (s : State) : State := { s with cnt := s.cnt + 1, progress := s.cnt + 1 }

/-- After the symbol of a single-leaf tree was put. -/
def decodeAfterRoot (s : State) : Run := decodeLoop s.nbits s.countSymbol

/-- After the symbol of a reached leaf was put: the walk restarts at the root. -/
def decodeAfterLeaf (s : State) : Run := decodeLoop s.nbits ({ s with cur := s.root }).countSymbol

end Sys2Proof.Machine
end

