-- ==== Sys2Proof/Machine/Encoder.lean ====
section
/-! DEFINITION. The bit stream encoder: the procedure `encode()` (45 R201). -/

namespace Sys2Proof.Machine

/-- `encode()` up to its first `in_next`. -/
def encodeStart (s : State) : Run :=
  .waitIn .encode { s.setPhase .encode with acc := 0, nacc := 0, cnt := 0, progress := 0 }

/-- One path bit shifted into ACC (45 R201). -/
def State.addBit (bit : Bool) (s : State) : State :=
  { s with acc := (s.acc <<< 1) ||| (BitVec.ofBool bit).setWidth 8, nacc := s.nacc + 1 }

/-- The bits `left - 1` down to 0 of the code of symbol `b`, first path bit first; a full byte stands at its `out_put`,
with ACC and NACC already cleared (DEDUCED, entry 11). After the last bit CNT and PROGRESS count the byte. -/
def encodeBits (b : Byte) (left : Nat) (s : State) : Run :=
  match left with
  | 0 => .waitIn .encode { s with cnt := s.cnt + 1, progress := s.cnt + 1 }
  | j + 1 =>
    if s.nacc + 1 = 8 then
      .waitOut (s.addBit ((s.bitsAt b).getLsbD j)).acc (.codeBits b j) { s with acc := 0, nacc := 0 }
    else encodeBits b j (s.addBit ((s.bitsAt b).getLsbD j))

/-- The length check at the end (45 R204). -/
def encodeEnd (s : State) : Run := if s.cnt = s.size then .done s else .failed .lengthMismatch s

/-- After a token (45 R201): at EOS the pending bits are padded with zeros and put; a byte needs a code (45 R203) and
room in CNT (45 R204). -/
def encodeToken (t : Token) (s : State) : Run :=
  match t with
  | .eos => if 0 < s.nacc then .waitOut (s.acc <<< (8 - s.nacc)) .padded s else encodeEnd s
  | .byte b =>
    if s.lenAt b = 0 then .failed .noCode s
    else if s.cnt = BitVec.allOnes 64 then .failed .lengthMismatch s
    else encodeBits b (s.lenAt b).toNat s

/-- After the padded byte was put (45 R201). -/
def encodeAfterPad (s : State) : Run := encodeEnd { s with acc := 0, nacc := 0 }

end Sys2Proof.Machine
end

