-- ==== Sys2Proof/Machine/TreeCodec.lean ====
section
/-! DEFINITION. The tree codec and the size field: the procedures `sertree()` (44 R181), `destree()` (44 R184),
`wrsize()` (44 R188) and `rdsize()` (44 R189). -/

namespace Sys2Proof.Machine

/-! ## sertree() (44 R181) -/

/-- The top of the loop: pop a handle and stand at the `out_put` of its marker; an empty stack ends the procedure. -/
def serLoop (s : State) : Run :=
  match s.stk with
  | [] => .done s
  | e :: rest =>
    if s.isLeaf e.h then .waitOut 0x31 (.leafMarker e.h) { s with stk := rest }
    else .waitOut 0x30 (.innerMarker e.h) { s with stk := rest }

/-- `sertree()` up to its first `out_put`. -/
def sertreeStart (s : State) : Run := serLoop { s.setPhase .sertree with stk := [{ h := s.root }] }

/-- After a leaf's marker: its symbol byte, raw (30 R114). -/
def serAfterLeafMarker (h : Handle) (s : State) : Run := .waitOut (s.symOf h) .leafSymbol s

/-- After an internal marker: right and then left are pushed, so that left is popped first. -/
def serAfterInnerMarker (h : Handle) (s : State) : Run :=
  serLoop { s with stk := { h := s.leftOf h } :: { h := s.rightOf h } :: s.stk }

/-! ## destree() (44 R184) -/

/-- `destree()` up to its first `in_next`. -/
def destreeStart (s : State) : Run :=
  .waitIn .marker { s.setPhase .destree with tv := false, cv := false, nodeN := 0, root := 0, stk := [] }

/-- A finished subtree `c` is attached to the unfinished nodes of the stack `stk` (44 R184): as a left child the right
one is read next; as a right child its parent is finished in turn; with no parent it is the root. -/
def attach (stk : List StkEntry) (c : Handle) (s : State) : Run :=
  match stk with
  | [] => .done { s with stk := [], root := c, tv := true }
  | e :: rest =>
    if e.leftDone then attach rest e.h (s.setNode e.h (wordSetRight (s.nodeAt e.h) c))
    else .waitIn .marker
      { s.setNode e.h (wordSetLeft (s.nodeAt e.h) c) with stk := { e with leftDone := true } :: rest }

/-- After a marker token (44 R184): end of input, then marker value, then capacity (44 R185). -/
def destreeMarker (t : Token) (s : State) : Run :=
  match t with
  | .eos => .failed .treeEof s
  | .byte m =>
    if m ≠ 0x30 ∧ m ≠ 0x31 then .failed .treeBadMarker s
    else if s.nodeN = 511 then .failed .treeTooLarge s
    else if m = 0x30 then .waitIn .marker { s.newNode 0 0 with stk := { h := s.nodeN } :: s.stk }
    else .waitIn (.symbol s.nodeN) { s.setWeight s.nodeN 0 with nodeN := s.nodeN + 1 }

/-- After the symbol token of the leaf in slot `h` (44 R184). -/
def destreeSymbol (h : Handle) (t : Token) (s : State) : Run :=
  match t with
  | .eos => .failed .treeEof s
  | .byte b => attach s.stk h (s.setNode h (leafWord b))

/-! ## wrsize() and rdsize() (44 R188, R189) -/

/-- `wrsize()` up to its first `out_put`. -/
def wrsizeStart (s : State) : Run :=
  .waitOut (sizeFieldByte s.sizeEndian s.size 0) (.sizeByte 0) (s.setPhase .wrsize)

/-- After byte `i` was put: the next one, or the end after byte 7. -/
def wrsizeAfter (i : Nat) (s : State) : Run :=
  if i < 7 then .waitOut (sizeFieldByte s.sizeEndian s.size (i + 1)) (.sizeByte (i + 1)) s else .done s

/-- `rdsize()` up to its first `in_next`. -/
def rdsizeStart (s : State) : Run := .waitIn (.sizeByte 0 0) (s.setPhase .rdsize)

/-- After the token of byte `i`: SIZE is written only when all 8 bytes have come. -/
def rdsizeToken (i : Nat) (v : DWord) (t : Token) (s : State) : Run :=
  match t with
  | .eos => .failed .sizeShort s
  | .byte b =>
    if i < 7 then .waitIn (.sizeByte (i + 1) (sizeFieldPut s.sizeEndian v i b)) s
    else .done { s with size := sizeFieldPut s.sizeEndian v i b }

end Sys2Proof.Machine
end

