-- ==== Sys2Proof/Machine/Engine.lean ====
section
/-! DEFINITION. The engine: procedures started and resumed, one engine step (20 R82), the engine's turn (20 R83), and a
command issued (30 R101). -/

namespace Sys2Proof.Machine

/-- The precondition check of GENCODE, SERTREE and DECODE (30 R106): it precedes the phase. -/
def needTvRun (s : State) : Run := if s.tv then .done s else .failed .badSequence s

/-- The precondition check of ENCODE (30 R106). -/
def needCvRun (s : State) : Run := if s.cv then .done s else .failed .badSequence s

/-- A procedure from its start to its first stream primitive or its end. -/
def startProc (p : Proc) (s : State) : Run :=
  match p with
  | .needTv => needTvRun s
  | .needCv => needCvRun s
  | .clear => .done s.clear
  | .flush => .done s.flushQueues
  | .count => countStart s
  | .build => buildRun s
  | .gencode => gencodeRun s
  | .sertree => sertreeStart s
  | .wrsize => wrsizeStart s
  | .encode => encodeStart s
  | .destree => destreeStart s
  | .rdsize => rdsizeStart s
  | .decode => decodeStart s
  | .release => .done s.release

/-- A procedure resumed after its `in_next()` gave token `t`. -/
def afterIn (k : InPoint) (t : Token) (s : State) : Run :=
  match k with
  | .count => countToken t s
  | .encode => encodeToken t s
  | .marker => destreeMarker t s
  | .symbol h => destreeSymbol h t s
  | .sizeByte i v => rdsizeToken i v t s
  | .decode => decodeToken t s

/-- A procedure resumed after its `out_put` was done. -/
def afterOut (k : OutPoint) (s : State) : Run :=
  match k with
  | .leafMarker h => serAfterLeafMarker h s
  | .leafSymbol => serLoop s
  | .innerMarker h => serAfterInnerMarker h s
  | .sizeByte i => wrsizeAfter i s
  | .codeBits b left => encodeBits b left s
  | .padded => encodeAfterPad s
  | .rootSymbol => decodeAfterRoot s
  | .leafReached => decodeAfterLeaf s

/-- Run on from where a procedure stopped, with the procedures `todo` after it: a returned procedure hands over to the
next one, the last one completes the command; a primitive becomes the resume point; a failure ends the command. -/
def runOn (todo : List Proc) (r : Run) : State :=
  match todo, r with
  | [], .done s => s.complete
  | p :: rest, .done s => runOn rest (startProc p s)
  | todo, .waitIn k s => { s with resume := .inNext k todo }
  | todo, .waitOut b k s => { s with resume := .outPut b k todo }
  | _, .failed e s => s.fail e
  | _, .endless s => { s with resume := .stuck }

/-- Whether the engine has a step now (00 R14, 20 R80, R81): BUSY, and at start, or at an `in_next()` with IN not empty,
or at an `out_put` with room in OUT. -/
def State.enabled (s : State) : Bool :=
  s.busy &&
    match s.resume with
    | .idle => false
    | .start _ => true
    | .inNext _ _ => !s.inq.isEmpty
    | .outPut _ _ _ => decide (s.outq.length < s.outDepth)
    | .stuck => false

/-- One engine step (20 R82): the pending primitive, then the pseudocode up to the next one. A holding or idle engine has
no step and the state stays as it is. -/
def engineStep (s : State) : State :=
  if s.enabled then
    match s.resume, s.inq with
    | .start todo, _ => runOn todo (.done s)
    | .inNext k todo, t :: rest => runOn todo (afterIn k t { s with inq := rest })
    | .outPut b k todo, _ => runOn todo (afterOut k { s with outq := s.outq ++ [b] })
    | _, _ => s
  else s

/-- Up to `n` engine steps, stopping early when the engine holds or stops. -/
def runEngine (n : Nat) (s : State) : State :=
  match n with
  | 0 => s
  | k + 1 => if s.enabled then runEngine k (engineStep s) else s

/-- A number of engine steps after which the engine holds or has stopped: each step but the first takes a token of IN
or fills a place of OUT. -/
def State.fullTurn (s : State) : Nat := s.inq.length + s.outDepth + 2

/-- The engine's turn (20 R83; DESIGN CHOICE, entry 2): as many steps as the schedule grants, or, when the schedule is
exhausted, until the engine holds or stops. -/
def takeTurn (s : State) : State :=
  match s.turns with
  | [] => runEngine s.fullTurn s
  | n :: rest => runEngine n { s with turns := rest }

/-- A command other than NOP issued (30 R101): refused while BUSY, otherwise accepted; the engine's turn follows. -/
def issue (op : Byte) (todo : List Proc) (s : State) : State :=
  takeTurn (if s.busy then s.refuse else s.accept op todo)

end Sys2Proof.Machine
end

