-- ==== Sys2Proof/Machine/Bus.lean ====
section
/-! DEFINITION. The register space and the host's acts: address decoding (20 R71, R77, R96), bus reads (20 R74), bus writes
(20 R75), refusals (20 R76), the reset input (70 R260) and the soft reset (70 R261). -/

namespace Sys2Proof.Machine

/-- A mapped word of the register space (10 R39, 20 R77). `hi` names the upper half of a 64-bit entry. -/
inductive Loc where
  | cmd | status | ctrl | id
  | size (hi : Bool)
  | inData | inEos | outData | fifoStat | treeInfo
  | progress (hi : Bool)
  | freq (b : Byte) (hi : Bool)
  | node (h : Handle)
  | codeLen (b : Byte)
  | weight (h : Handle) (hi : Bool)
  | codeBits (b : Byte) (j : Nat)
  deriving DecidableEq, Repr

/-- The registers below 0x0034 (10 R39). -/
def locateReg (n : Nat) : Option Loc :=
  match n with
  | 0x0000 => some .cmd
  | 0x0004 => some .status
  | 0x0008 => some .ctrl
  | 0x000C => some .id
  | 0x0010 => some (.size false)
  | 0x0014 => some (.size true)
  | 0x0018 => some .inData
  | 0x001C => some .inEos
  | 0x0020 => some .outData
  | 0x0024 => some .fifoStat
  | 0x0028 => some .treeInfo
  | 0x002C => some (.progress false)
  | 0x0030 => some (.progress true)
  | _ => none

/-- The windows (20 R77, R96); `none` is unmapped. -/
def locateWindow (n : Nat) : Option Loc :=
  if 0x0800 ≤ n ∧ n < 0x1000 then some (.freq (BitVec.ofNat 8 ((n - 0x0800) / 8)) (n / 4 % 2 == 1))
  else if 0x1000 ≤ n ∧ n < 0x17FC then some (.node (BitVec.ofNat 9 ((n - 0x1000) / 4)))
  else if 0x1800 ≤ n ∧ n < 0x1C00 then some (.codeLen (BitVec.ofNat 8 ((n - 0x1800) / 4)))
  else if 0x2000 ≤ n ∧ n < 0x2FF8 then some (.weight (BitVec.ofNat 9 ((n - 0x2000) / 8)) (n / 4 % 2 == 1))
  else if 0x4000 ≤ n ∧ n < 0x6000 then some (.codeBits (BitVec.ofNat 8 ((n - 0x4000) / 32)) (n / 4 % 8))
  else none

/-- The word an access of `bits` bits at offset `off` names: none if it is not a 32-bit access at a multiple of 4
(20 R93), or the offset is unmapped (20 R96). -/
def locate (bits : Nat) (off : Offset) : Option Loc :=
  if bits = 32 ∧ off.toNat % 4 = 0 then
    if off.toNat < 0x0034 then locateReg off.toNat else locateWindow off.toNat
  else none

/-- The value a PROGRESS read publishes while BUSY: at least what was published before in this phase, at most the
internal value, and free in between (60 R252; DESIGN CHOICE, entry 8). -/
def State.publishedNext (s : State) : DWord :=
  let lo := min s.published.toNat s.progress.toNat
  BitVec.ofNat 64 (lo + Config.freeCount s.draws % (s.progress.toNat - lo + 1))

/-- A PROGRESS read (60 R252): the internal value when not BUSY, a published one while BUSY. -/
def State.readProgress (hi : Bool) (s : State) : State :=
  if s.busy then
    ({ s with published := s.publishedNext, draws := s.draws + 1 }).answer (halfOf hi s.publishedNext)
  else s.answer (halfOf hi s.progress)

/-- A read whose value is defined only if `ok` (20 R78, 10 R34, R35): otherwise a free value (93 U3). -/
def State.answerIf (ok : Bool) (data : Word) (s : State) : State := if ok then s.answer data else s.answerFree

/-- When a slot of NODE or WEIGHT may be relied on (20 R78). -/
def State.slotDefined (h : Handle) (s : State) : Bool := !s.busy && s.tv && decide (h < s.nodeN)

/-- A read of a mapped word (10 section 4, 20 R77, R78, R88, R89). -/
def readLoc (l : Loc) (s : State) : State :=
  match l with
  | .cmd | .inData | .inEos => s.refuse
  | .status => s.answer s.statusWord
  | .ctrl => s.answer s.ctrlWord
  | .id => s.answer idWord
  | .size hi => s.answerIf (!s.busy) (halfOf hi s.size)
  | .outData => s.popOut
  | .fifoStat => s.answer s.fifoWord
  | .treeInfo => s.answerIf (!s.busy && s.tv) s.treeInfoWord
  | .progress hi => s.readProgress hi
  | .freq b hi => s.answerIf (!s.busy) (halfOf hi (s.freqAt b))
  | .node h => s.answerIf (s.slotDefined h) (s.nodeAt h)
  | .codeLen b => s.answerIf (!s.busy && s.cv) ((s.lenAt b).setWidth 32)
  | .weight h hi => s.answerIf (s.slotDefined h) (halfOf hi (Memory.read s.weight h.toNat))
  | .codeBits b j => s.answerIf (!s.busy && s.cv) (codeWordAt j (s.bitsAt b))

/-- A CTRL write (10 R33): bit 31 is the soft reset (70 R261), which discards bit 0; otherwise bit 0 is IE. -/
def writeCtrl (v : Word) (s : State) : State :=
  if v.getLsbD 31 then s.resetBlock.answer 0 else ({ s with ie := v.getLsbD 0 }).answer 0

/-- A CMD write of a word that is no command (30 R110); a legal word reaches its meaning through `commandOf`. -/
def writeIllegal (v : Word) (s : State) : State := if s.busy then s.refuse else s.illegal v

/-- A FREQ window write (20 R79): one half replaced, TV and CV cleared; refused while BUSY. -/
def writeFreq (b : Byte) (hi : Bool) (v : Word) (s : State) : State :=
  if s.busy then s.refuse
  else ({ s with
    freq := Memory.write s.freq b.toNat (withHalf hi (s.freqAt b) v), tv := false, cv := false }).answer 0

/-- A SIZE write (10 R34): that half replaced; refused while BUSY. -/
def writeSize (hi : Bool) (v : Word) (s : State) : State :=
  if s.busy then s.refuse else ({ s with size := withHalf hi s.size v }).answer 0

/-- A write to a mapped word (10 section 4, 20 R76, R79, R86, R87). -/
def writeLoc (l : Loc) (v : Word) (s : State) : State :=
  match l with
  | .cmd => writeIllegal v s
  | .ctrl => writeCtrl v s
  | .size hi => writeSize hi v s
  | .inData => s.pushIn (.byte (v.extractLsb' 0 8))
  | .inEos => s.pushIn .eos
  | .freq b hi => writeFreq b hi v s
  | .status | .id | .outData | .fifoStat | .treeInfo | .progress _ | .node _ | .codeLen _ | .weight _ _ | .codeBits _ _ =>
    s.refuse

/-- One act of the host on the block (20 R74, R75, R76; 70 R260). -/
def hostAct (a : HostAct) (s : State) : State :=
  match a with
  | .read bits off =>
    match locate bits off with
    | some l => readLoc l s
    | none => s.refuse
  | .write bits off v =>
    match locate bits off with
    | some l => writeLoc l v s
    | none => s.refuse
  | .reset => s.resetBlock

/-- The command an act issues, if it is a write of a legal word to CMD (30 R100, R101). -/
def commandOf (a : HostAct) : Option Instr :=
  match a with
  | .write bits off v =>
    if locate bits off = some .cmd then
      match decode v with
      | .ok i => some i
      | .error _ => none
    else none
  | .read _ _ => none
  | .reset => none

end Sys2Proof.Machine
end

