-- ==== Sys2Proof/Machine/ControlCommands.lean ====
section
/-! DEFINITION. The control commands NOP, CLR, FLUSH (spec file 40). -/

namespace Sys2Proof.Machine

/-- NOP (40 R131): acknowledged inside the write, with no engine step; refused while BUSY. -/
def execNop (s : State) : Host.Outcome State Fault Refusal :=
  .next (takeTurn (if s.busy then s.refuse else s.acknowledge))

/-- CLR (40 R132). -/
def execClr (s : State) : Host.Outcome State Fault Refusal := .next (issue 0x01 [.clear] s)

/-- FLUSH (40 R133). -/
def execFlush (s : State) : Host.Outcome State Fault Refusal := .next (issue 0x02 [.flush] s)

end Sys2Proof.Machine
end

