-- ==== Sys2Proof/Machine/MacroCommands.lean ====
section
/-! DEFINITION. The macro commands COMPRESS and DECOMPRESS (spec file 47): fixed sequences of unit operations (30 R121). -/

namespace Sys2Proof.Machine

/-- COMPRESS (47 R222). -/
def execCompress (s : State) : Host.Outcome State Fault Refusal :=
  .next (issue 0x40 [.clear, .count, .build, .gencode, .sertree, .wrsize, .encode, .release] s)

/-- DECOMPRESS (47 R223). -/
def execDecompress (s : State) : Host.Outcome State Fault Refusal :=
  .next (issue 0x41 [.clear, .destree, .rdsize, .decode, .release] s)

end Sys2Proof.Machine
end

