-- ==== Sys2Proof/Machine/UnitCommands.lean ====
section
/-! DEFINITION. The unit commands (spec files 41 to 46): each is its precondition check (30 R106) and its procedure. -/

namespace Sys2Proof.Machine

/-- COUNT (41 R141). -/
def execCount (s : State) : Host.Outcome State Fault Refusal := .next (issue 0x10 [.count] s)

/-- BUILD (42 R157). -/
def execBuild (s : State) : Host.Outcome State Fault Refusal := .next (issue 0x11 [.build] s)

/-- GENCODE (43 R171). -/
def execGencode (s : State) : Host.Outcome State Fault Refusal := .next (issue 0x12 [.needTv, .gencode] s)

/-- SERTREE (44 R181). -/
def execSertree (s : State) : Host.Outcome State Fault Refusal := .next (issue 0x13 [.needTv, .sertree] s)

/-- WRSIZE (44 R188). -/
def execWrsize (s : State) : Host.Outcome State Fault Refusal := .next (issue 0x14 [.wrsize] s)

/-- ENCODE (45 R201). -/
def execEncode (s : State) : Host.Outcome State Fault Refusal := .next (issue 0x15 [.needCv, .encode] s)

/-- DESTREE (44 R184). -/
def execDestree (s : State) : Host.Outcome State Fault Refusal := .next (issue 0x20 [.destree] s)

/-- RDSIZE (44 R189). -/
def execRdsize (s : State) : Host.Outcome State Fault Refusal := .next (issue 0x21 [.rdsize] s)

/-- DECODE (46 R211). -/
def execDecode (s : State) : Host.Outcome State Fault Refusal := .next (issue 0x22 [.needTv, .decode] s)

end Sys2Proof.Machine
end

