-- ==== Sys2Proof/Machine/Dispatch.lean ====
section
/-! DEFINITION. One arm per command: its meaning when it is written to CMD (30 R101). -/

namespace Sys2Proof.Machine

/-- The meaning of a command in a state. -/
def exec (i : Instr) (s : State) : Host.Outcome State Fault Refusal :=
  match i with
  | .nop => Sys2Proof.Machine.execNop s
  | .clr => Sys2Proof.Machine.execClr s
  | .flush => Sys2Proof.Machine.execFlush s
  | .count => Sys2Proof.Machine.execCount s
  | .build => Sys2Proof.Machine.execBuild s
  | .gencode => Sys2Proof.Machine.execGencode s
  | .sertree => Sys2Proof.Machine.execSertree s
  | .wrsize => Sys2Proof.Machine.execWrsize s
  | .encode => Sys2Proof.Machine.execEncode s
  | .destree => Sys2Proof.Machine.execDestree s
  | .rdsize => Sys2Proof.Machine.execRdsize s
  | .decode => Sys2Proof.Machine.execDecode s
  | .compress => Sys2Proof.Machine.execCompress s
  | .decompress => Sys2Proof.Machine.execDecompress s

end Sys2Proof.Machine
end

