-- ==== Sys2Proof/Machine/Step.lean ====
section
/-! DEFINITION. One step: the host's next act, if it has one, and the engine's turn after it (20 R83). -/

namespace Sys2Proof.Machine

/-- One step. A legal command word runs its meaning, which takes the engine's turn itself; after any other act, and
when the host does nothing, the engine takes its turn. -/
def step (s : State) : Host.Outcome State Fault Refusal :=
  match s.host with
  | [] => .next (takeTurn s)
  | a :: rest =>
    match commandOf a with
    | some i => exec i { s with host := rest }
    | none => .next (takeTurn (hostAct a { s with host := rest }))

/-- `s` with a CMD write of the word `w` as the host's very next act (DESIGN CHOICE, entry 14): the next step
runs that command. -/
def State.withFetchWord (s : State) (nbits w : Nat) : State :=
  { s with host := .write 32 0x0000 (BitVec.ofNat 32 (w % 2 ^ nbits)) :: s.host }

end Sys2Proof.Machine
end

