-- ==== Sys2Proof/Safety.lean ====
section
/-! DEFINITION. The terms claims are stated in: abstract trees and the archive format (30 R112 to R119), what the arena
holds (10 R44), codes (43 R172), decoding (46 R212), the heap order (42 R151), the merge relation (42 R164), the program of
each command (30 R121), the refusals of 20 R76, and the invariants of reachable states (10 R54). -/

namespace Sys2Proof.Machine

/-! ## Trees and the archive format -/

/-- The abstract tree (00 R11). -/
inductive Tree where
  | leaf (sym : Byte)
  | node (left right : Tree)
  deriving DecidableEq, Repr

/-- The number of nodes. -/
def Tree.size : Tree → Nat
  | .leaf _ => 1
  | .node l r => 1 + l.size + r.size

/-- The leaf symbols from left to right. -/
def Tree.leaves : Tree → List Byte
  | .leaf b => [b]
  | .node l r => l.leaves ++ r.leaves

/-- `ser` (30 R113). -/
def Tree.ser : Tree → List Byte
  | .leaf b => [0x31, b]
  | .node l r => 0x30 :: (l.ser ++ r.ser)

/-- `size8` (30 R116), in the byte order `e`. -/
def size8 (e : Endian) (v : DWord) : List Byte := (List.range 8).map (sizeFieldByte e v)

/-- Payload byte `k` of a bit sequence (30 R117): bit `8k + j` goes to bit `7 - j`; positions past the end are 0. -/
def packByte (bits : List Bool) (k : Nat) : Byte :=
  BitVec.ofNat 8 ((List.range 8).map (fun j => if bits.getD (8 * k + j) false then 2 ^ (7 - j) else 0)).sum

/-- `pack` (30 R117): ceil(B / 8) bytes, padded with zero bits. -/
def pack (bits : List Bool) : List Byte := (List.range ((bits.length + 7) / 8)).map (packByte bits)

/-- ACC while the bits of an unfinished byte wait in it (45 R201, R202): those after the last whole byte, the first of them
highest. -/
def pendingByte (bits : List Bool) : Byte :=
  (bits.drop (8 * (bits.length / 8))).foldl (fun a b => (a <<< 1) ||| (BitVec.ofBool b).setWidth 8) 0

/-- The bits of payload bytes, bit 7 of each byte first (20 R90). -/
def bytesBits (ys : List Byte) : List Bool := ys.flatMap (fun b => (List.range 8).map (fun j => b.getLsbD (7 - j)))

/-- The marker bytes among the first bytes of a serialized tree (44 R184): the byte after a leaf marker is its symbol. -/
def nodesBegun : List Byte → Nat
  | [] => 0
  | [_] => 1
  | m :: b :: rest => if m = 0x31 then 1 + nodesBegun rest else 1 + nodesBegun (b :: rest)

/-- The bytes as tokens of a stream, without its end. -/
def byteTokens (xs : List Byte) : List Token := xs.map Token.byte

/-! ## Codes (43 R172) -/

/-- The path to the rightmost leaf that carries `b` (43 R172, R176): `false` is left. -/
def Tree.pathOf (b : Byte) : Tree → Option (List Bool)
  | .leaf c => if b = c then some [] else none
  | .node l r =>
    match r.pathOf b with
    | some q => some (true :: q)
    | none => (l.pathOf b).map (fun q => false :: q)

/-- The code of `b` in a tree (43 R172): a single leaf has the length-1 code 0 (43 R173). -/
def Tree.code (t : Tree) (b : Byte) : Option (List Bool) :=
  match t with
  | .leaf c => if b = c then some [false] else none
  | .node l r => (Tree.node l r).pathOf b

/-- The code the table holds for `b` (10 R46). -/
def State.codeOf (s : State) (b : Byte) : List Bool :=
  (List.range (s.lenAt b).toNat).map (fun i => (s.bitsAt b).getLsbD ((s.lenAt b).toNat - 1 - i))

/-- The table holds the codes of `t` and no other, and the bits of an entry at and above its length are 0 (43 R172, 10 R46). -/
def State.tabulates (s : State) (t : Tree) : Prop :=
  ∀ b : Byte,
    (match t.code b with
      | some q => s.codeOf b = q ∧ (s.lenAt b).toNat = q.length
      | none => s.lenAt b = 0)
      ∧ ∀ i, (s.lenAt b).toNat ≤ i → (s.bitsAt b).getLsbD i = false

/-! ## Decoding (46 R212) -/

/-- `walk` (46 R212): the symbol reached and the bits left, or none when the bits run out. -/
def Tree.walk : Tree → List Bool → Option (Byte × List Bool)
  | .leaf b, bs => some (b, bs)
  | .node _ _, [] => none
  | .node l r, b :: bs => if b then r.walk bs else l.walk bs

/-- One symbol: at least one bit, of any value in a single-leaf tree (46 R212, R213). -/
def Tree.nextSymbol (t : Tree) (bs : List Bool) : Option (Byte × List Bool) :=
  match t, bs with
  | _, [] => none
  | .leaf b, _ :: rest => some (b, rest)
  | .node l r, b :: rest => if b then r.walk rest else l.walk rest

/-- `dec` (46 R212): the symbols emitted, and the bits left if all `n` were, none if the bits ran out. -/
def Tree.dec (t : Tree) : Nat → List Bool → List Byte × Option (List Bool)
  | 0, bs => ([], some bs)
  | n + 1, bs =>
    match t.nextSymbol bs with
    | none => ([], none)
    | some (b, rest) => (b :: (t.dec n rest).1, (t.dec n rest).2)

/-! ## What the arena holds (10 R44) -/

/-- `tree_of(h) = t`, with every slot below NODE_N (10 R44). -/
def holdsTree (node : Memory 32) (nodeN : BitVec 9) : Tree → Handle → Prop
  | .leaf b, h => h < nodeN ∧ wordIsLeaf (Memory.read node h.toNat) = true ∧ wordSym (Memory.read node h.toNat) = b
  | .node l r, h =>
    h < nodeN ∧ wordIsLeaf (Memory.read node h.toNat) = false
      ∧ holdsTree node nodeN l (wordLeft (Memory.read node h.toNat))
      ∧ holdsTree node nodeN r (wordRight (Memory.read node h.toNat))

/-- The slots `tree_of(h)` visits when it reads a tree of the shape `t`. -/
def visited (node : Memory 32) : Tree → Handle → List Handle
  | .leaf _, h => [h]
  | .node l r, h =>
    h :: (visited node l (wordLeft (Memory.read node h.toNat)) ++ visited node r (wordRight (Memory.read node h.toNat)))

/-- The arena is well-formed at ROOT and holds `t` there (10 R44): every slot is visited at most once. -/
def State.rootTree (s : State) (t : Tree) : Prop :=
  holdsTree s.node s.nodeN t s.root ∧ (visited s.node t s.root).Nodup

/-- WEIGHT of every slot `tree_of(h)` visits is the sum of `f` over the leaves under it (42 R160 item 4). -/
def weighs (node : Memory 32) (weight : Memory 64) (f : Byte → Nat) : Tree → Handle → Prop
  | .leaf b, h => (Memory.read weight h.toNat).toNat = f b
  | .node l r, h =>
    (Memory.read weight h.toNat).toNat = ((l.leaves ++ r.leaves).map f).sum
      ∧ weighs node weight f l (wordLeft (Memory.read node h.toNat))
      ∧ weighs node weight f r (wordRight (Memory.read node h.toNat))

/-- The unfinished nodes of DESTREE's stack, top first (44 R184): each is an internal node below NODE_N, and one whose left
child is attached holds a tree there. `used` lists their slots and the slots of the attached trees. -/
def openNodes (node : Memory 32) (nodeN : BitVec 9) : List StkEntry → List Handle → Prop
  | [], used => used = []
  | e :: rest, used =>
    e.h < nodeN ∧ wordIsLeaf (Memory.read node e.h.toNat) = false
      ∧ ∃ below, openNodes node nodeN rest below
          ∧ ((e.leftDone = false ∧ used = e.h :: below)
            ∨ (e.leftDone = true ∧ ∃ l, holdsTree node nodeN l (wordLeft (Memory.read node e.h.toNat))
                ∧ used = e.h :: (visited node l (wordLeft (Memory.read node e.h.toNat)) ++ below)))

/-! ## Histograms and the merge relation (42 R164) -/

/-- The sum of the histogram (42 R160 item 4). -/
def State.freqSum (s : State) : Nat := (allSymbols.map (fun b => (s.freqAt b).toNat)).sum

/-- The symbols with FREQ > 0, ascending. -/
def State.present (s : State) : List Byte := allSymbols.filter (fun b => s.freqAt b ≠ 0)

/-- A forest: (tree, weight) pairs, whose order does not matter (42 R164). -/
abbrev Forest := List (Tree × Nat)

/-- `init(FREQ)` (42 R164). -/
def State.forest (s : State) : Forest := s.present.map (fun b => (.leaf b, (s.freqAt b).toNat))

/-- The merges of 42 R164 lead from a forest to the one tree `t` of weight `w`: each takes a lightest element `a`, then a
lightest element `b` of the others, and puts their node, left `a` and right `b`, in their place. Equal weights may fall
either way (42 R150). -/
inductive Huffman : Forest → Tree → Nat → Prop where
  | one (t : Tree) (w : Nat) : Huffman [(t, w)] t w
  | merge (f rest : Forest) (a b t : Tree) (wa wb w : Nat) :
      f.Perm ((a, wa) :: (b, wb) :: rest) → (∀ x ∈ f, wa ≤ x.2) → (∀ x ∈ rest, wb ≤ x.2) →
      Huffman ((.node a b, wa + wb) :: rest) t w → Huffman f t w

/-! ## The heap (42 R151) -/

/-- The heap property (42 R151). -/
def heapOrdered (wt : Memory 64) (q : List Handle) : Prop :=
  ∀ i, 1 ≤ i → i < q.length → heapKey wt q ((i - 1) / 2) ≤ heapKey wt q i

/-! ## The program of each command and the points of the engine -/

/-- The procedures a command runs in order (30 R106, R121). -/
def programOf : Instr → List Proc
  | .nop => []
  | .clr => [.clear]
  | .flush => [.flush]
  | .count => [.count]
  | .build => [.build]
  | .gencode => [.needTv, .gencode]
  | .sertree => [.needTv, .sertree]
  | .wrsize => [.wrsize]
  | .encode => [.needCv, .encode]
  | .destree => [.destree]
  | .rdsize => [.rdsize]
  | .decode => [.needTv, .decode]
  | .compress => [.clear, .count, .build, .gencode, .sertree, .wrsize, .encode, .release]
  | .decompress => [.clear, .destree, .rdsize, .decode, .release]

/-- The procedure an `in_next()` stands in. -/
def procOfIn : InPoint → Proc
  | .count => .count
  | .encode => .encode
  | .marker => .destree
  | .symbol _ => .destree
  | .sizeByte _ _ => .rdsize
  | .decode => .decode

/-- The procedure an `out_put` stands in. -/
def procOfOut : OutPoint → Proc
  | .leafMarker _ => .sertree
  | .leafSymbol => .sertree
  | .innerMarker _ => .sertree
  | .sizeByte _ => .wrsize
  | .codeBits _ _ => .encode
  | .padded => .encode
  | .rootSymbol => .decode
  | .leafReached => .decode

/-- The engine stands at a point of command `i`: at its start, or in one of its procedures with the rest of its program
still to run. -/
def Resume.within (r : Resume) (i : Instr) : Bool :=
  match r with
  | .idle => false
  | .start todo => decide (todo = programOf i)
  | .inNext k todo => decide ((procOfIn k :: todo) <:+ programOf i)
  | .outPut _ k todo => decide ((procOfOut k :: todo) <:+ programOf i)
  | .stuck => decide (Proc.gencode ∈ programOf i)

/-- The procedures the engine still has to start. -/
def Resume.todo (r : Resume) : List Proc :=
  match r with
  | .idle => []
  | .start todo => todo
  | .inNext _ todo => todo
  | .outPut _ _ todo => todo
  | .stuck => []

/-- CMD_CUR names the running command, and the engine stands at a point of it. -/
def State.runningCommand (s : State) : Prop := ∃ i, s.cmdCur = opcodeOf i ∧ s.resume.within i = true

/-- Whether the engine stands in a procedure that uses the stack across its steps (10 R48). -/
def Resume.usesStack (r : Resume) : Bool :=
  match r with
  | .inNext .marker _ => true
  | .inNext (.symbol _) _ => true
  | .outPut _ (.leafMarker _) _ => true
  | .outPut _ .leafSymbol _ => true
  | .outPut _ (.innerMarker _) _ => true
  | .stuck => true
  | _ => false

/-! ## Invariants of reachable states (10 R54) -/

/-- 10 R54 items 1, 4 and 6, and that the engine has a resume point exactly while BUSY. -/
def State.SequencerInv (s : State) : Prop :=
  (s.state = .error ↔ s.err ≠ .ok)
    ∧ (s.state = .busy ↔ s.resume ≠ .idle)
    ∧ s.heap = []
    ∧ (s.resume.usesStack = false → s.stk = [])
    ∧ s.nacc ≤ 7
    ∧ s.nbits ≤ 8

/-- The first half of 10 R54 item 3, with what makes it hold in every step: a BUSY engine stands at a point of the
command CMD_CUR names. -/
def State.FlagInv (s : State) : Prop :=
  (s.cv = true → s.tv = true) ∧ (s.state = .busy → s.runningCommand)

/-- Every table memory keeps its canonical form, with no entry outside the table (DESIGN CHOICE, entry 4). The handles DESTREE has
stacked or is filling name slots of the arena. -/
def State.TableInv (s : State) : Prop :=
  Memory.wf 256 s.freq = true
    ∧ Memory.wf 511 s.node = true
    ∧ Memory.wf 511 s.weight = true
    ∧ Memory.wf 256 s.codeLen = true
    ∧ Memory.wf 256 s.codeBits = true
    ∧ (∀ k todo, s.resume = .inNext k todo → procOfIn k = .destree →
        (∀ h, k = .symbol h → h.toNat < 511) ∧ ∀ e ∈ s.stk, e.h.toNat < 511)

/-- 10 R54 items 2 and 3: a valid tree is well-formed at ROOT, and a valid code table holds its codes. What makes it hold in
every step: the tables are canonical, and while DESTREE reads a tree its stack and the part of the arena already filled
fit together. -/
def State.TreeInv (s : State) : Prop :=
  s.FlagInv ∧ s.TableInv
    ∧ (s.tv = true → ∃ t, s.rootTree t)
    ∧ (s.cv = true → ∀ t, s.rootTree t → s.tabulates t)
    ∧ (s.state = .busy → ∀ k todo, s.resume = .inNext k todo → procOfIn k = .destree →
        s.tv = false ∧ s.cv = false
          ∧ ∃ used, openNodes s.node s.nodeN s.stk used
              ∧ match k with
                | .symbol h => h < s.nodeN ∧ (h :: used).Nodup
                | _ => used.Nodup)

/-- What keeps a published PROGRESS at most the internal one (60 R252): while BUSY the internal value only rises within a
phase, because it is the count of COUNT, ENCODE or DECODE, which stops before it wraps. -/
def State.ProgressInv (s : State) : Prop :=
  s.state = .busy →
    s.published ≤ s.progress
      ∧ match s.resume with
        | .inNext .count _ => s.progress = s.size
        | .inNext .encode _ => s.progress = s.cnt
        | .outPut _ (.codeBits _ _) _ => s.progress = s.cnt ∧ s.cnt ≠ BitVec.allOnes 64
        | .inNext .decode _ => s.progress = s.cnt ∧ s.cnt < s.size
        | .outPut _ .rootSymbol _ => s.progress = s.cnt ∧ s.cnt < s.size
        | .outPut _ .leafReached _ => s.progress = s.cnt ∧ s.cnt < s.size
        | _ => True

/-- The queues hold no more than their depths (20 R72, R73). -/
def State.QueueInv (s : State) : Prop := s.inq.length ≤ s.inDepth ∧ s.outq.length ≤ s.outDepth

/-! ## The refusals of 20 R76 -/

/-- The unmapped offsets among the multiples of 4 (20 R96). -/
def unmappedOffset (n : Nat) : Bool :=
  decide ((0x0034 ≤ n ∧ n < 0x0800) ∨ (0x17FC ≤ n ∧ n < 0x1800) ∨ (0x1C00 ≤ n ∧ n < 0x2000)
    ∨ (0x2FF8 ≤ n ∧ n < 0x4000) ∨ 0x6000 ≤ n)

/-- The read-only registers and windows (20 R76 item 4). -/
def readOnlyOffset (n : Nat) : Bool :=
  decide (n = 0x0004 ∨ n = 0x000C ∨ n = 0x0020 ∨ n = 0x0024 ∨ n = 0x0028 ∨ n = 0x002C ∨ n = 0x0030
    ∨ (0x1000 ≤ n ∧ n < 0x17FC) ∨ (0x1800 ≤ n ∧ n < 0x1C00) ∨ (0x2000 ≤ n ∧ n < 0x2FF8) ∨ (0x4000 ≤ n ∧ n < 0x6000))

/-- The NODE window (20 R77). -/
abbrev inNodeWindow (off : Offset) : Prop := 0x1000 ≤ off.toNat ∧ off.toNat < 0x17FC

/-- The WEIGHT window (20 R77). -/
abbrev inWeightWindow (off : Offset) : Prop := 0x2000 ≤ off.toNat ∧ off.toNat < 0x2FF8

/-- The CODE_LEN and CODE_BITS windows (20 R77). -/
abbrev inCodeWindow (off : Offset) : Prop :=
  (0x1800 ≤ off.toNat ∧ off.toNat < 0x1C00) ∨ (0x4000 ≤ off.toNat ∧ off.toNat < 0x6000)

/-- The seven refusals of 20 R76, read off its list. -/
def refusedAct (a : HostAct) (s : State) : Bool :=
  match a with
  | .reset => false
  | .read bits off =>
    bits != 32 || off.toNat % 4 != 0 || unmappedOffset off.toNat
      || decide (off.toNat = 0x0000 ∨ off.toNat = 0x0018 ∨ off.toNat = 0x001C)
  | .write bits off _ =>
    bits != 32 || off.toNat % 4 != 0 || unmappedOffset off.toNat || readOnlyOffset off.toNat
      || (s.busy && decide (off.toNat = 0x0000 ∨ off.toNat = 0x0010 ∨ off.toNat = 0x0014
            ∨ (0x0800 ≤ off.toNat ∧ off.toNat < 0x1000)))
      || (decide (off.toNat = 0x0018 ∨ off.toNat = 0x001C) && decide (s.inDepth ≤ s.inq.length))

/-- The errors a command may end in (60 R233). -/
def possibleErrors : Instr → List Err
  | .nop => []
  | .clr => []
  | .flush => []
  | .count => [.emptyInput, .countOverflow]
  | .build => [.noSymbols, .countOverflow]
  | .gencode => [.badSequence]
  | .sertree => [.badSequence]
  | .wrsize => []
  | .encode => [.badSequence, .noCode, .lengthMismatch]
  | .destree => [.treeEof, .treeBadMarker, .treeTooLarge]
  | .rdsize => [.sizeShort]
  | .decode => [.badSequence, .payloadTruncated]
  | .compress => [.emptyInput, .countOverflow, .noCode, .lengthMismatch]
  | .decompress => [.treeEof, .treeBadMarker, .treeTooLarge, .sizeShort, .payloadTruncated]

/-- 60 R233: an error is one of the command CMD_CUR names, or ILLEGAL_COMMAND. What makes it hold in every step: a BUSY
engine stands at a point of the command CMD_CUR names, and while COUNT runs SIZE is the sum of FREQ, so that BUILD in
COMPRESS finds a symbol (47 R222). -/
def State.ErrorInv (s : State) : Prop :=
  s.FlagInv ∧ Memory.wf 256 s.freq = true
    ∧ (s.state = .busy → ∀ todo, s.resume = .inNext .count todo → s.freqSum = s.size.toNat)
    ∧ (s.state = .error → s.err = .illegalCommand ∨ ∃ i, s.cmdCur = opcodeOf i ∧ s.err ∈ possibleErrors i)

end Sys2Proof.Machine
end

