-- ==== Sys2Proof/Certificates/Slice0/Obligations.lean ====
section
/-! DEFINITION. The statements for the provers. `s.turns = []` in a hypothesis says that the schedule lets the engine run
until it holds or stops (20 R83, entry 2); `resp`, `published`, `turns`, `host` and `draws` are the model's own fields. -/

open Sys2Proof Sys2Proof.Machine

/-! ## Encoding and the step -/

/-- 30 R100, R103, R110: `decode` accepts a word as a command exactly when it is that command's word, over all 2^32 words. -/
def Obligations.DecodeAcceptsExactlyTheCommandWords : Prop :=
  ∀ (v : Word) (i : Instr), decode v = .ok i ↔ v = encode i

/-- 30 R103: the word of one command of each kind, read from the opcode map. -/
def Obligations.ListedWordsDecode : Prop :=
  decode 0x00000002#32 = .ok .flush ∧ decode 0x00000012#32 = .ok .gencode ∧ decode 0x00000022#32 = .ok .decode
    ∧ decode 0x00000041#32 = .ok .decompress ∧ decode 0x00000140#32 = .error .reservedBitsSet
    ∧ decode 0x00000016#32 = .error .unknownOpcode

/-- A step whose host act is a CMD write of a word that decodes to a command is the meaning of that command, in the state
without that act; after any other act, and with no act, the engine takes its turn. That a step is one act of the list `host`
and then one turn of the engine, or a turn alone, is the model's choice (log entries 1, 2 and 14); 30 R101 says what such a
write does and 20 R83 that acts and engine steps interleave. -/
def Obligations.StepRunsTheDecodedCommand : Prop :=
  (∀ (s : State) (v : Word) (i : Instr) (rest : List HostAct),
      s.host = .write 32 0x0000 v :: rest → decode v = .ok i → step s = exec i { s with host := rest })
    ∧ (∀ (s : State) (a : HostAct) (rest : List HostAct),
      s.host = a :: rest → commandOf a = none → step s = .next (takeTurn (hostAct a { s with host := rest })))
    ∧ (∀ s : State, s.host = [] → step s = .next (takeTurn s))

/-- 30 R101: a command written while BUSY is refused, and otherwise CMD_CUR, PHASE and ERR are set and a command other than
NOP makes the block BUSY at the start of its program; the engine's turn follows. -/
def Obligations.CommandIssue : Prop :=
  (∀ (s : State) (i : Instr), s.state = .busy → exec i s = .next (takeTurn { s with resp := ⟨0, true⟩ }))
    ∧ (∀ (s : State) (i : Instr), s.state ≠ .busy → i ≠ .nop →
      exec i s = .next (takeTurn { s with
        cmdCur := opcodeOf i, phase := .none, err := .ok, state := .busy, resume := .start (programOf i),
        resp := ⟨0, false⟩, published := 0 }))

/-- 30 R110: a word that is no command, written to CMD when STATE is not BUSY, sets STATE = ERROR, ERR = 0x51, CMD_CUR and
PHASE and has no other effect; while BUSY the write is refused. -/
def Obligations.IllegalWordIsAnError : Prop :=
  ∀ (s : State) (v : Word) (rest : List HostAct), s.host = .write 32 0x0000 v :: rest → (∀ i, v ≠ encode i) →
    (s.state ≠ .busy → step s = .next { s with
        host := rest, turns := s.turns.tail, cmdCur := v.extractLsb' 0 8, phase := .none, err := .illegalCommand,
        state := .error, resp := ⟨0, false⟩, published := 0 })
      ∧ (s.state = .busy → step s = .next (takeTurn { s with host := rest, resp := ⟨0, true⟩ }))

/-! ## Control commands -/

/-- 40 R131: NOP sets CMD_CUR, PHASE and ERR to 0 and STATE to IDLE inside the write and changes nothing else, so `irq` is 0;
while BUSY the write is refused. -/
def Obligations.NopAcknowledges : Prop :=
  ∀ s : State,
    (s.state ≠ .busy → ∃ u : State,
        exec .nop s = .next u
          ∧ u = { s with
              cmdCur := 0, phase := .none, err := .ok, state := .idle, resp := ⟨0, false⟩, published := 0,
              turns := s.turns.tail }
          ∧ u.irq = false)
      ∧ (s.state = .busy → exec .nop s = .next (takeTurn { s with resp := ⟨0, true⟩ }))

/-- 40 R132: CLR gives the run state its cleared values and leaves IN, OUT, IE, NODE, WEIGHT, CODE_LEN and CODE_BITS. -/
def Obligations.ClrClearsTheRunState : Prop :=
  ∀ s : State, s.state ≠ .busy → s.turns = [] →
    exec .clr s = .next { s with
      state := .done, cmdCur := 0x01, phase := .clear, err := .ok, freq := [], size := 0, tv := false, cv := false,
      root := 0, nodeN := 0, progress := 0, heap := [], stk := [], acc := 0, nacc := 0, cnt := 0, cur := 0, bitbuf := 0,
      nbits := 0, resume := .idle, resp := ⟨0, false⟩, published := 0 }

/-- 40 R133: FLUSH empties IN and OUT, completes, and changes nothing else. -/
def Obligations.FlushEmptiesBothQueues : Prop :=
  ∀ s : State, s.state ≠ .busy → s.turns = [] →
    exec .flush s = .next { s with
      state := .done, cmdCur := 0x02, phase := .flush, err := .ok, inq := [], outq := [], resume := .idle,
      resp := ⟨0, false⟩, published := 0 }

/-! ## COUNT -/

/-- 41 R141: COUNT on a non-empty stream of fewer than 2^64 bytes makes FREQ its histogram and SIZE its length, consumes
the EOS, and changes nothing but the fields named. -/
def Obligations.CountMakesTheHistogram : Prop :=
  ∀ (s : State) (xs : List Byte) (rest : List Token),
    s.state ≠ .busy → s.turns = [] → s.inq = byteTokens xs ++ .eos :: rest → xs ≠ [] → xs.length < 2 ^ 64 →
    ∃ fr : Memory 64,
      exec .count s = .next { s with
        state := .done, cmdCur := 0x10, phase := .count, err := .ok, tv := false, cv := false, freq := fr,
        size := BitVec.ofNat 64 xs.length, progress := BitVec.ofNat 64 xs.length, inq := rest, resume := .idle,
        resp := ⟨0, false⟩, published := 0 }
        ∧ ∀ b : Byte, Memory.read fr b.toNat = BitVec.ofNat 64 (xs.count b)

/-- 41 R144, 47 R222: a first stream of no bytes makes COUNT, and COMPRESS in its phase COUNT, fail with EMPTY_INPUT, FREQ
all zero and SIZE 0; only the EOS is consumed, and OUT is untouched. -/
def Obligations.EmptyInputIsRejected : Prop :=
  ∀ (s : State) (rest : List Token), s.state ≠ .busy → s.turns = [] → s.inq = .eos :: rest →
    exec .count s = .next { s with
        state := .error, cmdCur := 0x10, phase := .count, err := .emptyInput, tv := false, cv := false, freq := [],
        size := 0, progress := 0, inq := rest, heap := [], stk := [], resume := .idle, resp := ⟨0, false⟩,
        published := 0 }
      ∧ exec .compress s = .next { s with
        state := .error, cmdCur := 0x40, phase := .count, err := .emptyInput, tv := false, cv := false, freq := [],
        size := 0, root := 0, nodeN := 0, progress := 0, inq := rest, heap := [], stk := [], acc := 0, nacc := 0,
        cnt := 0, cur := 0, bitbuf := 0, nbits := 0, resume := .idle, resp := ⟨0, false⟩, published := 0 }

/-- 41 R143, 60 R240: a byte that arrives when SIZE is 2^64 - 1 is consumed and not counted, and the command fails with
COUNT_OVERFLOW; FREQ and SIZE keep their values and the rest of the stream stays in IN. -/
def Obligations.CountOverflowKeepsTheCounts : Prop :=
  ∀ (s : State) (b : Byte) (rest : List Token) (todo : List Proc),
    s.state = .busy → s.resume = .inNext .count todo → s.inq = .byte b :: rest → s.size = BitVec.allOnes 64 →
    engineStep s = State.fail .countOverflow { s with inq := rest }
      ∧ (engineStep s).state = .error ∧ (engineStep s).err = .countOverflow ∧ (engineStep s).freq = s.freq
      ∧ (engineStep s).size = s.size ∧ (engineStep s).outq = s.outq

/-! ## Priority queue and BUILD -/

/-- 42 R150 with the heap property of R151: PQ.insert adds exactly one entry; PQ.extract_min takes an entry of minimal weight
and leaves exactly the others; both keep the heap property (R153, R154). -/
def Obligations.PriorityQueueContract : Prop :=
  (∀ (wt : Memory 64) (q : List Handle) (h : Handle), heapOrdered wt q →
      (heapInsert wt q h).Perm (h :: q) ∧ heapOrdered wt (heapInsert wt q h))
    ∧ (∀ (wt : Memory 64) (q : List Handle), heapOrdered wt q → q ≠ [] →
      q.Perm (heapAt q 0 :: heapRest wt q)
        ∧ (∀ g ∈ q, Memory.read wt (heapAt q 0).toNat ≤ Memory.read wt g.toNat)
        ∧ heapOrdered wt (heapRest wt q))

/-- 42 R159: with every FREQ entry 0 BUILD fails with NO_SYMBOLS, TV = 0 and NODE_N = 0. -/
def Obligations.BuildNeedsASymbol : Prop :=
  ∀ s : State, s.state ≠ .busy → s.turns = [] → (∀ b : Byte, s.freqAt b = 0) →
    exec .build s = .next { s with
      state := .error, cmdCur := 0x11, phase := .build, err := .noSymbols, tv := false, cv := false, nodeN := 0,
      root := 0, heap := [], stk := [], resume := .idle, resp := ⟨0, false⟩, published := 0 }

/-- 42 R161: with exactly one nonzero FREQ entry the sole leaf is the root. -/
def Obligations.BuildOfOneSymbol : Prop :=
  ∀ (s : State) (b : Byte), s.state ≠ .busy → s.turns = [] → s.freqAt b ≠ 0 → (∀ c : Byte, c ≠ b → s.freqAt c = 0) →
    exec .build s = .next { s with
      state := .done, cmdCur := 0x11, phase := .build, err := .ok, tv := true, cv := false, nodeN := 1, root := 0,
      node := Memory.write s.node 0 (leafWord b), weight := Memory.write s.weight 0 (s.freqAt b), heap := [],
      resume := .idle, resp := ⟨0, false⟩, published := 0 }

/-- 42 R157, R160 items 1 to 4, R164: from a histogram of `k` nonzero entries (at least one) with a sum below 2^64, BUILD
completes with NODE_N = 2k - 1 and ROOT = 2k - 2. Slots 0 to k - 1 are the leaves in ascending symbol order, slots k to
2k - 2 are internal with children of smaller handles; the arena is well-formed at ROOT, every slot below NODE_N is reached
from there, and the tree is one that the merges of the two lightest, first extracted left, make of the histogram, its leaves
the symbols with FREQ > 0, each once. Every slot weighs the sum of FREQ over the leaves under it. Nothing but the fields
named changes. -/
def Obligations.BuildMakesAPrefixTree : Prop :=
  ∀ s : State, s.state ≠ .busy → s.turns = [] → s.freqSum < 2 ^ 64 → (∃ b : Byte, s.freqAt b ≠ 0) →
    Memory.wf 511 s.node = true → Memory.wf 511 s.weight = true →
    ∃ (u : State) (t : Tree),
      exec .build s = .next u
        ∧ u = { s with
            state := .done, cmdCur := 0x11, phase := .build, err := .ok, tv := true, cv := false, nodeN := u.nodeN,
            root := u.root, node := u.node, weight := u.weight, heap := [], resume := .idle, resp := ⟨0, false⟩,
            published := 0 }
        ∧ u.nodeN.toNat = 2 * s.present.length - 1
        ∧ u.root.toNat = 2 * s.present.length - 2
        ∧ (∀ i, i < s.present.length →
            Memory.read u.node i = leafWord (s.present.getD i 0)
              ∧ Memory.read u.weight i = s.freqAt (s.present.getD i 0))
        ∧ (∀ h : Handle, s.present.length ≤ h.toNat → h < u.nodeN →
            u.isLeaf h = false ∧ u.leftOf h < h ∧ u.rightOf h < h)
        ∧ u.rootTree t
        ∧ (∀ h : Handle, h < u.nodeN → h ∈ visited u.node t u.root)
        ∧ Huffman s.forest t s.freqSum
        ∧ t.leaves.Perm s.present
        ∧ weighs u.node u.weight (fun b => (s.freqAt b).toNat) t u.root

/-- 42 R158: when the sum of the histogram is 2^64 or more, some merged weight does not fit in 64 bits: BUILD fails with
COUNT_OVERFLOW and TV = 0, and changes nothing but the fields named. -/
def Obligations.BuildOverflows : Prop :=
  ∀ s : State, s.state ≠ .busy → s.turns = [] → 2 ^ 64 ≤ s.freqSum →
    Memory.wf 511 s.node = true → Memory.wf 511 s.weight = true →
    ∃ u : State,
      exec .build s = .next u
        ∧ u = { s with
            state := .error, cmdCur := 0x11, phase := .build, err := .countOverflow, tv := false, cv := false,
            nodeN := u.nodeN, root := 0, node := u.node, weight := u.weight, heap := [], stk := [], resume := .idle,
            resp := ⟨0, false⟩, published := 0 }

/-! ## GENCODE -/

/-- 30 R102, R106: GENCODE, SERTREE and DECODE without TV, and ENCODE without CV, fail with BAD_SEQUENCE before any other
effect: PHASE stays 0. -/
def Obligations.PreconditionsFailBeforeAnyEffect : Prop :=
  ∀ (s : State) (i : Instr), s.state ≠ .busy → s.turns = [] →
    ((i = .gencode ∨ i = .sertree ∨ i = .decode) ∧ s.tv = false ∨ i = .encode ∧ s.cv = false) →
    exec i s = .next { s with
      state := .error, cmdCur := opcodeOf i, phase := .none, err := .badSequence, heap := [], stk := [], resume := .idle,
      resp := ⟨0, false⟩, published := 0 }

/-- 43 R173: in a single-leaf tree the sole symbol gets length 1 and the bit 0, and no other symbol has a code. -/
def Obligations.GencodeOfOneLeaf : Prop :=
  ∀ s : State, s.state ≠ .busy → s.turns = [] → s.tv = true → s.isLeaf s.root = true →
    exec .gencode s = .next { s with
      state := .done, cmdCur := 0x12, phase := .gencode, err := .ok, cv := true,
      codeLen := [((s.symOf s.root).toNat, 1)], codeBits := [], resume := .idle, resp := ⟨0, false⟩, published := 0 }

/-- 43 R172, R176, 10 R46: over an arena well-formed at ROOT (10 R44, NODE_N at most 511 by its width) GENCODE completes and
the table holds, for every symbol of the tree, the path to its rightmost leaf, and no code for any other symbol; the bits of
CODE_BITS at and above CODE_LEN are 0. -/
def Obligations.GencodeTabulatesThePaths : Prop :=
  ∀ (s : State) (t : Tree), s.state ≠ .busy → s.turns = [] → s.tv = true → s.rootTree t →
    ∃ u : State,
      exec .gencode s = .next u
        ∧ u = { s with
            state := .done, cmdCur := 0x12, phase := .gencode, err := .ok, cv := true, codeLen := u.codeLen,
            codeBits := u.codeBits, stk := if s.isLeaf s.root then s.stk else [], resume := .idle, resp := ⟨0, false⟩,
            published := 0 }
        ∧ u.tabulates t

/-! ## Tree codec and size field -/

/-- 44 R181: SERTREE appends exactly `ser(tree_of(ROOT))` to OUT and leaves the tree, TV and CV. -/
def Obligations.SertreeWritesTheTree : Prop :=
  ∀ (s : State) (t : Tree), s.state ≠ .busy → s.turns = [] → s.tv = true → holdsTree s.node s.nodeN t s.root →
    s.outq.length + t.ser.length ≤ s.outDepth →
    exec .sertree s = .next { s with
      state := .done, cmdCur := 0x13, phase := .sertree, err := .ok, outq := s.outq ++ t.ser, stk := [], resume := .idle,
      resp := ⟨0, false⟩, published := 0 }

/-- 44 R184, R186: DESTREE on the bytes of a serialized tree of at most 511 nodes consumes exactly them, and the arena
holds that tree at ROOT = 0, one slot per node, every weight 0. -/
def Obligations.DestreeReadsTheTreeBack : Prop :=
  ∀ (s : State) (t : Tree) (rest : List Token), s.state ≠ .busy → s.turns = [] →
    s.inq = byteTokens t.ser ++ rest → t.size ≤ 511 → Memory.wf 511 s.node = true → Memory.wf 511 s.weight = true →
    ∃ u : State,
      exec .destree s = .next u
        ∧ u = { s with
            state := .done, cmdCur := 0x20, phase := .destree, err := .ok, tv := true, cv := false,
            nodeN := BitVec.ofNat 9 t.size, root := 0, node := u.node, weight := u.weight, inq := rest, stk := [],
            resume := .idle, resp := ⟨0, false⟩, published := 0 }
        ∧ u.rootTree t
        ∧ ∀ i, i < t.size → Memory.read u.weight i = 0

/-- 44 R184, R190: a serialized tree of any size, cut short anywhere up to its 511th node and followed by EOS, makes DESTREE
fail with TREE_EOF and TV = 0; the EOS is consumed; FREQ, SIZE, OUT and the code table are untouched. -/
def Obligations.DestreeReportsATruncatedTree : Prop :=
  ∀ (s : State) (t : Tree) (front back : List Byte) (rest : List Token), s.state ≠ .busy → s.turns = [] →
    t.ser = front ++ back → back ≠ [] → nodesBegun front ≤ 511 → s.inq = byteTokens front ++ .eos :: rest →
    ∃ u : State,
      exec .destree s = .next u
        ∧ u = { s with
            state := .error, cmdCur := 0x20, phase := .destree, err := .treeEof, tv := false, cv := false,
            nodeN := u.nodeN, root := 0, node := u.node, weight := u.weight, inq := rest, heap := [], stk := [],
            resume := .idle, resp := ⟨0, false⟩, published := 0 }

/-- 44 R184, R185, 60 R238: the checks on a marker token come in the order end of input, marker value, capacity; a marker that
passes them takes the next slot. -/
def Obligations.MarkerChecksInOrder : Prop :=
  ∀ (s : State) (t : Token) (rest : List Token) (todo : List Proc),
    s.state = .busy → s.resume = .inNext .marker todo → s.inq = t :: rest →
    (t = .eos → engineStep s = State.fail .treeEof { s with inq := rest })
      ∧ (∀ m : Byte, t = .byte m → m ≠ 0x30 → m ≠ 0x31 →
          engineStep s = State.fail .treeBadMarker { s with inq := rest })
      ∧ (∀ m : Byte, t = .byte m → (m = 0x30 ∨ m = 0x31) → s.nodeN = 511 →
          engineStep s = State.fail .treeTooLarge { s with inq := rest })
      ∧ (t = .byte 0x30 → s.nodeN ≠ 511 →
          engineStep s = { s with
            inq := rest, nodeN := s.nodeN + 1, node := Memory.write s.node s.nodeN.toNat 0,
            weight := Memory.write s.weight s.nodeN.toNat 0, stk := { h := s.nodeN } :: s.stk,
            resume := .inNext .marker todo })
      ∧ (t = .byte 0x31 → s.nodeN ≠ 511 →
          engineStep s = { s with
            inq := rest, nodeN := s.nodeN + 1, weight := Memory.write s.weight s.nodeN.toNat 0,
            resume := .inNext (.symbol s.nodeN) todo })

/-- 44 R188: WRSIZE appends the eight bytes of SIZE to OUT. -/
def Obligations.WrsizeWritesTheSizeField : Prop :=
  ∀ s : State, s.state ≠ .busy → s.turns = [] → s.outq.length + 8 ≤ s.outDepth →
    exec .wrsize s = .next { s with
      state := .done, cmdCur := 0x14, phase := .wrsize, err := .ok, outq := s.outq ++ size8 s.sizeEndian s.size,
      resume := .idle, resp := ⟨0, false⟩, published := 0 }

/-- 44 R189: RDSIZE consumes the eight bytes of a size field and loads SIZE with the value they stand for; every 64-bit
value is legal. -/
def Obligations.RdsizeReadsTheSizeField : Prop :=
  ∀ (s : State) (v : DWord) (rest : List Token), s.state ≠ .busy → s.turns = [] →
    s.inq = byteTokens (size8 s.sizeEndian v) ++ rest →
    exec .rdsize s = .next { s with
      state := .done, cmdCur := 0x21, phase := .rdsize, err := .ok, size := v, inq := rest, resume := .idle,
      resp := ⟨0, false⟩, published := 0 }

/-- 44 R189: fewer than eight bytes before the EOS make RDSIZE fail with SIZE_SHORT; the EOS is consumed and SIZE keeps its
old value. -/
def Obligations.RdsizeReportsAShortField : Prop :=
  ∀ (s : State) (bs : List Byte) (rest : List Token), s.state ≠ .busy → s.turns = [] → bs.length < 8 →
    s.inq = byteTokens bs ++ .eos :: rest →
    exec .rdsize s = .next { s with
      state := .error, cmdCur := 0x21, phase := .rdsize, err := .sizeShort, inq := rest, heap := [], stk := [],
      resume := .idle, resp := ⟨0, false⟩, published := 0 }

/-! ## ENCODE -/

/-- 45 R201, R202, 30 R117: with a code for every byte of the stream and SIZE its length, ENCODE appends the packed codes
to OUT, consumes the EOS and completes. -/
def Obligations.EncodePacksTheCodes : Prop :=
  ∀ (s : State) (xs : List Byte) (rest : List Token), s.state ≠ .busy → s.turns = [] → s.cv = true →
    s.inq = byteTokens xs ++ .eos :: rest → (∀ b ∈ xs, s.lenAt b ≠ 0) → xs.length < 2 ^ 64 →
    s.size = BitVec.ofNat 64 xs.length → s.outq.length + (pack (xs.flatMap s.codeOf)).length ≤ s.outDepth →
    exec .encode s = .next { s with
      state := .done, cmdCur := 0x15, phase := .encode, err := .ok, outq := s.outq ++ pack (xs.flatMap s.codeOf),
      inq := rest, acc := 0, nacc := 0, cnt := s.size, progress := s.size, resume := .idle, resp := ⟨0, false⟩,
      published := 0 }

/-- 45 R203: at a byte with no code ENCODE fails with NO_CODE; only the whole bytes of the codes before it are in OUT, the
rest of the stream stays in IN, the bits of an unfinished byte stay in ACC, and PROGRESS counts the bytes before it. -/
def Obligations.EncodeStopsAtAByteWithoutCode : Prop :=
  ∀ (s : State) (xs : List Byte) (b : Byte) (rest : List Token), s.state ≠ .busy → s.turns = [] → s.cv = true →
    s.inq = byteTokens xs ++ .byte b :: rest → (∀ c ∈ xs, s.lenAt c ≠ 0) → s.lenAt b = 0 → xs.length < 2 ^ 64 →
    s.outq.length + (xs.flatMap s.codeOf).length / 8 ≤ s.outDepth →
    exec .encode s = .next { s with
      state := .error, cmdCur := 0x15, phase := .encode, err := .noCode, inq := rest,
      outq := s.outq ++ (pack (xs.flatMap s.codeOf)).take ((xs.flatMap s.codeOf).length / 8),
      acc := pendingByte (xs.flatMap s.codeOf), nacc := (xs.flatMap s.codeOf).length % 8,
      cnt := BitVec.ofNat 64 xs.length, progress := BitVec.ofNat 64 xs.length, heap := [], stk := [], resume := .idle,
      resp := ⟨0, false⟩, published := 0 }

/-- 45 R204: when the number of bytes encoded differs from SIZE, ENCODE fails with LENGTH_MISMATCH after the whole payload,
its padded last byte included, was written; and when CNT is 2^64 - 1 it fails so at the next byte that has a code, before any
bit of it. -/
def Obligations.EncodeReportsALengthMismatch : Prop :=
  (∀ (s : State) (xs : List Byte) (rest : List Token), s.state ≠ .busy → s.turns = [] → s.cv = true →
      s.inq = byteTokens xs ++ .eos :: rest → (∀ b ∈ xs, s.lenAt b ≠ 0) → xs.length < 2 ^ 64 →
      s.size ≠ BitVec.ofNat 64 xs.length → s.outq.length + (pack (xs.flatMap s.codeOf)).length ≤ s.outDepth →
      exec .encode s = .next { s with
        state := .error, cmdCur := 0x15, phase := .encode, err := .lengthMismatch, inq := rest,
        outq := s.outq ++ pack (xs.flatMap s.codeOf), acc := 0, nacc := 0, cnt := BitVec.ofNat 64 xs.length,
        progress := BitVec.ofNat 64 xs.length, heap := [], stk := [], resume := .idle, resp := ⟨0, false⟩,
        published := 0 })
    ∧ ∀ (s : State) (b : Byte) (rest : List Token) (todo : List Proc), s.state = .busy → s.resume = .inNext .encode todo →
      s.inq = .byte b :: rest → s.lenAt b ≠ 0 → s.cnt = BitVec.allOnes 64 →
      engineStep s = { s with
        inq := rest, err := .lengthMismatch, state := .error, heap := [], stk := [],
        tv := if s.cmdCur = 0x40 ∨ s.cmdCur = 0x41 then false else s.tv,
        cv := if s.cmdCur = 0x40 ∨ s.cmdCur = 0x41 then false else s.cv, resume := .idle }

/-! ## DECODE -/

/-- 46 R214: with SIZE = 0 DECODE completes at once, consuming nothing and emitting nothing. -/
def Obligations.DecodeOfNothing : Prop :=
  ∀ s : State, s.state ≠ .busy → s.turns = [] → s.tv = true → s.size = 0 →
    exec .decode s = .next { s with
      state := .done, cmdCur := 0x22, phase := .decode, err := .ok, cnt := 0, cur := s.root, nbits := 0, bitbuf := 0,
      progress := 0, resume := .idle, resp := ⟨0, false⟩, published := 0 }

/-- 46 R211, R212: when the payload bytes hold SIZE symbols, DECODE appends exactly these symbols to OUT, consumes exactly
ceil(B / 8) byte tokens for the B bits they take, and completes; the tree, TV, CV and SIZE are unchanged. -/
def Obligations.DecodeEmitsTheSymbols : Prop :=
  ∀ (s : State) (t : Tree) (ys xs : List Byte) (left : List Bool) (rest : List Token),
    s.state ≠ .busy → s.turns = [] → s.tv = true → holdsTree s.node s.nodeN t s.root →
    s.inq = byteTokens ys ++ rest → t.dec s.size.toNat (bytesBits ys) = (xs, some left) →
    s.outq.length + xs.length ≤ s.outDepth →
    ∃ u : State,
      exec .decode s = .next u
        ∧ u = { s with
            state := .done, cmdCur := 0x22, phase := .decode, err := .ok, outq := s.outq ++ xs,
            inq := byteTokens (ys.drop (((bytesBits ys).length - left.length + 7) / 8)) ++ rest, cnt := s.size,
            progress := s.size, cur := u.cur, bitbuf := u.bitbuf, nbits := u.nbits, resume := .idle,
            resp := ⟨0, false⟩, published := 0 }

/-- 46 R215: when the stream ends before SIZE symbols, DECODE fails with PAYLOAD_TRUNCATED; the symbols already decoded are
in OUT and PROGRESS counts them; the EOS is consumed. -/
def Obligations.DecodeReportsATruncatedPayload : Prop :=
  ∀ (s : State) (t : Tree) (ys xs : List Byte) (rest : List Token),
    s.state ≠ .busy → s.turns = [] → s.tv = true → holdsTree s.node s.nodeN t s.root →
    s.inq = byteTokens ys ++ .eos :: rest → t.dec s.size.toNat (bytesBits ys) = (xs, none) →
    s.outq.length + xs.length ≤ s.outDepth →
    ∃ u : State,
      exec .decode s = .next u
        ∧ u = { s with
            state := .error, cmdCur := 0x22, phase := .decode, err := .payloadTruncated, outq := s.outq ++ xs,
            inq := rest, cnt := BitVec.ofNat 64 xs.length, progress := BitVec.ofNat 64 xs.length, cur := u.cur,
            bitbuf := u.bitbuf, nbits := 0, heap := [], stk := [], resume := .idle, resp := ⟨0, false⟩,
            published := 0 }

/-! ## Macro commands -/

/-- 47 R222, R229 item 1: COMPRESS of `n` copies of one byte writes the leaf marker, the byte, the size field and
ceil(n / 8) zero bytes. -/
def Obligations.CompressOfOneSymbol : Prop :=
  ∀ (s : State) (b : Byte) (n : Nat) (rest : List Token), s.state ≠ .busy → s.turns = [] → 1 ≤ n → n < 2 ^ 64 →
    s.inq = byteTokens (List.replicate n b) ++ .eos :: (byteTokens (List.replicate n b) ++ .eos :: rest) →
    s.outq.length + 10 + (n + 7) / 8 ≤ s.outDepth → Memory.wf 511 s.node = true →
    exec .compress s = .next { s with
      state := .done, cmdCur := 0x40, phase := .encode, err := .ok, tv := false, cv := false,
      freq := [(b.toNat, BitVec.ofNat 64 n)], size := BitVec.ofNat 64 n, root := 0, nodeN := 1,
      progress := BitVec.ofNat 64 n, node := Memory.write s.node 0 (leafWord b),
      weight := Memory.write s.weight 0 (BitVec.ofNat 64 n), codeLen := [(b.toNat, 1)], codeBits := [],
      outq := s.outq ++ [0x31, b] ++ size8 s.sizeEndian (BitVec.ofNat 64 n) ++ List.replicate ((n + 7) / 8) 0,
      inq := rest, heap := [], stk := [], acc := 0, nacc := 0, cnt := BitVec.ofNat 64 n, cur := 0, bitbuf := 0,
      nbits := 0, resume := .idle, resp := ⟨0, false⟩, published := 0 }

/-- 47 R222, R225, R228: COMPRESS of a non-empty stream `xs` and a second stream of the same length over the symbols of the
first writes `ser(t) ++ size8(n) ++ pack(bits)`, the bits being those of the second stream, for a tree `t` that the merges of
42 R164 make of the histogram of `xs`. A second stream of another length over these symbols fails with LENGTH_MISMATCH after
its whole payload; a byte absent from `xs` fails with NO_CODE after the whole bytes of the codes before it. In each case FREQ
is the histogram of `xs`, TV and CV are 0, and nothing but the fields named changes. -/
def Obligations.CompressWritesTheArchive : Prop :=
  ∀ (s : State) (xs ys : List Byte) (after rest : List Token), s.state ≠ .busy → s.turns = [] → xs ≠ [] →
    xs.length < 2 ^ 64 → ys.length < 2 ^ 64 → (∀ b ∈ ys, b ∈ xs) →
    s.inq = byteTokens xs ++ .eos :: (byteTokens ys ++ after) →
    s.outq.length + 767 + 8 + 32 * ys.length ≤ s.outDepth → Memory.wf 511 s.node = true → Memory.wf 511 s.weight = true →
    ∃ (v : State) (t : Tree) (bits : List Bool),
      v = { s with
          cmdCur := 0x40, phase := .encode, tv := false, cv := false, freq := v.freq,
          size := BitVec.ofNat 64 xs.length, root := v.root, nodeN := v.nodeN, progress := BitVec.ofNat 64 ys.length,
          node := v.node, weight := v.weight, codeLen := v.codeLen, codeBits := v.codeBits, inq := rest, heap := [],
          stk := [], acc := 0, nacc := 0, cnt := BitVec.ofNat 64 ys.length, cur := 0, bitbuf := 0, nbits := 0,
          resume := .idle, resp := ⟨0, false⟩, published := 0 }
        ∧ (∀ b : Byte, Memory.read v.freq b.toNat = BitVec.ofNat 64 (xs.count b))
        ∧ Huffman v.forest t xs.length
        ∧ t.leaves.Nodup ∧ (∀ b, b ∈ t.leaves ↔ b ∈ xs)
        ∧ bits = ys.flatMap (fun b => (t.code b).getD [])
        ∧ (after = .eos :: rest → ys.length = xs.length → exec .compress s = .next { v with
            state := .done, err := .ok,
            outq := s.outq ++ t.ser ++ size8 s.sizeEndian (BitVec.ofNat 64 xs.length) ++ pack bits })
        ∧ (after = .eos :: rest → ys.length ≠ xs.length → exec .compress s = .next { v with
            state := .error, err := .lengthMismatch,
            outq := s.outq ++ t.ser ++ size8 s.sizeEndian (BitVec.ofNat 64 xs.length) ++ pack bits })
        ∧ ∀ b, b ∉ xs → after = .byte b :: rest → exec .compress s = .next { v with
            state := .error, err := .noCode, acc := pendingByte bits, nacc := bits.length % 8,
            outq := s.outq ++ t.ser ++ size8 s.sizeEndian (BitVec.ofNat 64 xs.length)
              ++ (pack bits).take (bits.length / 8) }

/-- 47 R223: DECOMPRESS of an archive completes with the original bytes appended to OUT, and leaves in IN what follows the
last payload byte needed; nothing but the fields named changes. -/
def Obligations.DecompressReadsTheArchive : Prop :=
  ∀ (s : State) (t : Tree) (n : DWord) (ys xs : List Byte) (left : List Bool) (rest : List Token),
    s.state ≠ .busy → s.turns = [] → t.size ≤ 511 →
    s.inq = byteTokens (t.ser ++ size8 s.sizeEndian n ++ ys) ++ rest →
    t.dec n.toNat (bytesBits ys) = (xs, some left) → s.outq.length + xs.length ≤ s.outDepth →
    Memory.wf 511 s.node = true → Memory.wf 511 s.weight = true →
    ∃ u : State,
      exec .decompress s = .next u
        ∧ u = { s with
            state := .done, cmdCur := 0x41, phase := .decode, err := .ok, tv := false, cv := false, freq := [],
            size := n, root := 0, nodeN := BitVec.ofNat 9 t.size, progress := n, node := u.node, weight := u.weight,
            outq := s.outq ++ xs,
            inq := byteTokens (ys.drop (((bytesBits ys).length - left.length + 7) / 8)) ++ rest, heap := [], stk := [],
            acc := 0, nacc := 0, cnt := n, cur := u.cur, bitbuf := u.bitbuf, nbits := u.nbits, resume := .idle,
            resp := ⟨0, false⟩, published := 0 }

/-- 47 R227: what COMPRESS writes for a non-empty stream, given with an EOS to DECOMPRESS in any block of the same byte
order, gives the stream back; the EOS stays in IN. -/
def Obligations.CompressThenDecompressIsTheIdentity : Prop :=
  ∀ (s : State) (xs : List Byte) (rest : List Token), s.state ≠ .busy → s.turns = [] → xs ≠ [] → xs.length < 2 ^ 64 →
    s.inq = byteTokens xs ++ .eos :: (byteTokens xs ++ .eos :: rest) →
    s.outq.length + 767 + 8 + 32 * xs.length ≤ s.outDepth → Memory.wf 511 s.node = true → Memory.wf 511 s.weight = true →
    ∃ (u : State) (archive : List Byte),
      exec .compress s = .next u ∧ u.state = .done ∧ u.outq = s.outq ++ archive
        ∧ ∀ (d : State) (after : List Token), d.state ≠ .busy → d.turns = [] → d.sizeEndian = s.sizeEndian →
            d.inq = byteTokens archive ++ .eos :: after → d.outq.length + xs.length ≤ d.outDepth →
            Memory.wf 511 d.node = true → Memory.wf 511 d.weight = true →
            ∃ v : State, exec .decompress d = .next v ∧ v.state = .done ∧ v.outq = d.outq ++ xs ∧ v.inq = .eos :: after

/-- 47 R224: when a running macro command ends, whether it completes or fails, TV and CV are 0. -/
def Obligations.MacrosReleaseTheTree : Prop :=
  ∀ s : State, s.state = .busy → (s.cmdCur = 0x40 ∨ s.cmdCur = 0x41) → s.runningCommand → (engineStep s).state ≠ .busy →
    (engineStep s).tv = false ∧ (engineStep s).cv = false

/-! ## Errors, flags and invariants -/

/-- 60 R240: `fail E` sets ERR, STATE, HEAP_N, SP and, under a macro, TV and CV, stops the engine, and changes nothing else. -/
def Obligations.FailChangesOnlyItsFields : Prop :=
  ∀ (e : Err) (s : State),
    ((s.cmdCur = 0x40 ∨ s.cmdCur = 0x41) →
        s.fail e = { s with
          err := e, state := .error, heap := [], stk := [], tv := false, cv := false, resume := .idle })
      ∧ (s.cmdCur ≠ 0x40 → s.cmdCur ≠ 0x41 →
        s.fail e = { s with err := e, state := .error, heap := [], stk := [], resume := .idle })

/-- 60 R233: every step keeps "an error is one of the command CMD_CUR names, or ILLEGAL_COMMAND", in whichever step of the
command the error is met; and a command that is accepted and ends in an error within the accepting step ends in one of its
own errors, from every state. NOP, CLR, FLUSH and WRSIZE have none, and COMPRESS has neither NO_SYMBOLS nor BAD_SEQUENCE. -/
def Obligations.EachCommandFailsOnlyWithItsErrors : Prop :=
  (∀ s t : State, s.ErrorInv → step s = .next t → t.ErrorInv)
    ∧ ∀ (s : State) (i : Instr), s.state ≠ .busy →
      ∃ t : State, exec i s = .next t ∧ (t.state = .error → t.err ∈ possibleErrors i)

/-- 46 R216: no step ever raises BAD_TOPOLOGY. -/
def Obligations.BadTopologyIsNeverRaised : Prop :=
  ∀ s : State, s.err ≠ .badTopology → ∃ t : State, step s = .next t ∧ t.err ≠ .badTopology

/-- 10 R55: the reset state; the engine has no step in it. -/
def Obligations.ResetValues : Prop :=
  State.reset.state = .idle ∧ State.reset.cmdCur = 0 ∧ State.reset.phase = .none ∧ State.reset.err = .ok
    ∧ State.reset.tv = false ∧ State.reset.cv = false ∧ State.reset.ie = false ∧ State.reset.size = 0
    ∧ State.reset.root = 0 ∧ State.reset.nodeN = 0 ∧ State.reset.progress = 0 ∧ (∀ b, State.reset.freqAt b = 0)
    ∧ State.reset.inq = [] ∧ State.reset.outq = [] ∧ State.reset.heap = [] ∧ State.reset.stk = []
    ∧ State.reset.acc = 0 ∧ State.reset.nacc = 0 ∧ State.reset.cnt = 0 ∧ State.reset.cur = 0 ∧ State.reset.bitbuf = 0
    ∧ State.reset.nbits = 0 ∧ State.reset.resume = .idle ∧ State.reset.irq = false ∧ State.reset.statusWord = 0
    ∧ idWord = 0x48554631 ∧ State.reset.enabled = false

/-- The reset state meets every invariant stated below. -/
def Obligations.ResetMeetsTheInvariants : Prop :=
  State.reset.SequencerInv ∧ State.reset.FlagInv ∧ State.reset.TableInv ∧ State.reset.QueueInv ∧ State.reset.TreeInv
    ∧ State.reset.ErrorInv ∧ State.reset.ProgressInv

/-- 10 R54 items 1, 4 and 6: every step keeps them, from every state that has them. -/
def Obligations.StepKeepsTheSequencerInvariant : Prop :=
  ∀ s t : State, s.SequencerInv → step s = .next t → t.SequencerInv

/-- 10 R54 items 2 and 3: every step keeps "CV implies TV" with the engine at a point of the command CMD_CUR names; and,
with canonical tables (log entry 4) and a stack of DESTREE that fits its arena, every step keeps "TV implies the arena is
well-formed at ROOT" and "CV implies the code table holds the codes of the tree at ROOT". -/
def Obligations.StepKeepsTheFlagInvariant : Prop :=
  (∀ s t : State, s.FlagInv → step s = .next t → t.FlagInv)
    ∧ (∀ s t : State, s.TreeInv → step s = .next t → t.TreeInv)
    ∧ ∀ (s : State) (t : Tree), s.TreeInv → s.cv = true → s.rootTree t → s.tv = true ∧ ∀ b ∈ t.leaves, 1 ≤ s.lenAt b

/-- Every step keeps every table memory in the canonical form, which is the model's choice (log entry 4), and inside its table
(10 R40 to R46). -/
def Obligations.StepKeepsTheTablesCanonical : Prop :=
  ∀ s t : State, s.TableInv → step s = .next t → t.TableInv

/-- 20 R72, R73: every step keeps the queues within their depths. -/
def Obligations.StepKeepsTheQueueBounds : Prop :=
  ∀ s t : State, s.QueueInv → step s = .next t → t.QueueInv

/-! ## The engine, its holds and its schedule -/

/-- 20 R80, R81: an engine at an `in_next()` with IN empty, or at an `out_put` with OUT full, has no step, however many are
granted. -/
def Obligations.HoldPassesNothing : Prop :=
  ∀ (s : State) (n : Nat),
    ((∃ k todo, s.resume = .inNext k todo ∧ s.inq = [])
      ∨ ∃ b k todo, s.resume = .outPut b k todo ∧ s.outDepth ≤ s.outq.length) →
    runEngine n s = s

/-- An engine that is not stopped by the schedule runs until it holds or stops (FLUSH is a command of its own, so no other
program holds it). That one step grants it as many engine steps as that takes is the model's choice (log entry 2) for the
fairness of 20 R83, and the resume point `stuck` of log entry 9 counts as a hold. -/
def Obligations.FullTurnEndsInAHoldOrAStop : Prop :=
  ∀ s : State, s.turns = [] → (Proc.flush ∈ s.resume.todo → s.resume = .start [.flush]) → (takeTurn s).enabled = false

/-- 20 R84: an engine step that is enabled and does not flush the queues commutes with a host push to IN and with a host
pop of OUT that finds a byte, so the schedule of these transactions changes no result. -/
def Obligations.EngineStepCommutesWithTheQueues : Prop :=
  ∀ s : State, s.enabled = true → Proc.flush ∉ s.resume.todo →
    (∀ tok : Token, engineStep { s with inq := s.inq ++ [tok] } = { engineStep s with inq := (engineStep s).inq ++ [tok] })
      ∧ (∀ (b : Byte) (rest : List Byte), s.outq = b :: rest →
          engineStep { s with outq := rest } = { engineStep s with outq := (engineStep s).outq.tail }
            ∧ (engineStep s).outq.head? = some b)

/-- 20 R72, R73: an engine step of a command that does not flush takes at most one token, from the head of IN, and appends
to OUT. -/
def Obligations.EngineTouchesTheQueuesAtTheirEnds : Prop :=
  ∀ s : State, Proc.flush ∉ s.resume.todo →
    ((engineStep s).inq = s.inq ∨ (engineStep s).inq = s.inq.tail)
      ∧ ((engineStep s).outq = s.outq ∨ ∃ b, (engineStep s).outq = s.outq ++ [b])

/-- 10 R33, R56, 00 R6: no command changes IE or the parameters. Of the model's own fields it leaves the host's coming acts
(log entry 1) and the count of free values drawn (log entry 3), and it uses up one turn of the schedule (log entry 2). -/
def Obligations.CommandsLeaveTheHostSide : Prop :=
  ∀ (s : State) (i : Instr),
    ∃ t : State, exec i s = .next t ∧ t.ie = s.ie ∧ t.inDepth = s.inDepth ∧ t.outDepth = s.outDepth
      ∧ t.sizeEndian = s.sizeEndian ∧ t.host = s.host ∧ t.draws = s.draws ∧ t.turns = s.turns.tail

/-! ## The register space -/

/-- 20 R74 to R76: a bus transaction answers berr = 1 exactly in the cases of the list of R76, and then the block's state is
unchanged. -/
def Obligations.RefusalsAreExactlyTheList : Prop :=
  ∀ (s : State) (a : HostAct) (rest : List HostAct), s.host = a :: rest → a ≠ .reset →
    (refusedAct a s = true → step s = .next (takeTurn { s with host := rest, resp := ⟨0, true⟩ }))
      ∧ (refusedAct a s = false → ∃ t : State, step s = .next t ∧ t.resp.berr = false)

/-- 10 R32, R33, R36, 20 R89: STATUS, CTRL, ID and FIFO_STAT are readable in every state, without side effect. -/
def Obligations.StatusReadsHaveNoSideEffect : Prop :=
  ∀ s : State,
    hostAct (.read 32 0x0004) s = { s with resp := ⟨s.statusWord, false⟩ }
      ∧ hostAct (.read 32 0x0008) s = { s with resp := ⟨if s.ie then 1 else 0, false⟩ }
      ∧ hostAct (.read 32 0x000C) s = { s with resp := ⟨0x48554631, false⟩ }
      ∧ hostAct (.read 32 0x0024) s = { s with
          resp := ⟨BitVec.ofNat 32 (min s.inq.length 0xFFFF + 0x10000 * min s.outq.length 0xFFFF), false⟩ }

/-- 10 R32, 60 R250: the fields of STATUS, and `irq` is IE and (STATE = DONE or STATE = ERROR); with the numbers of STATE
(10 R23), PHASE (10 R26) and ERR (60 R231). -/
def Obligations.StatusFields : Prop :=
  (∀ s : State,
    s.statusWord.extractLsb' 0 2 = stateCode s.state ∧ s.statusWord.getLsbD 2 = s.tv ∧ s.statusWord.getLsbD 3 = s.cv
      ∧ s.statusWord.extractLsb' 4 4 = phaseCode s.phase ∧ s.statusWord.extractLsb' 8 8 = errCode s.err
      ∧ s.statusWord.extractLsb' 16 8 = s.cmdCur ∧ s.statusWord.getLsbD 24 = s.irq ∧ s.statusWord.extractLsb' 25 7 = 0
      ∧ (s.irq = true ↔ s.ie = true ∧ (s.state = .done ∨ s.state = .error)))
    ∧ [RunState.idle, .busy, .done, .error].map stateCode = [0, 1, 2, 3]
    ∧ [Phase.none, .count, .build, .gencode, .sertree, .wrsize, .encode, .destree, .rdsize, .decode, .clear, .flush].map
        phaseCode = [0, 1, 2, 3, 4, 5, 6, 7, 8, 9, 10, 11]
    ∧ [Err.ok, .emptyInput, .noSymbols, .treeEof, .treeBadMarker, .treeTooLarge, .sizeShort, .payloadTruncated].map
        errCode = [0x00, 0x20, 0x21, 0x30, 0x31, 0x32, 0x33, 0x34]
    ∧ [Err.noCode, .badTopology, .lengthMismatch, .countOverflow, .badSequence, .illegalCommand].map
        errCode = [0x40, 0x41, 0x42, 0x43, 0x50, 0x51]

/-- 20 R77, R78, 10 R34, R35: a window, SIZE or TREEINFO read in its defined condition returns the table's word, the half of
SIZE, or ROOT in bits 8:0 and NODE_N in bits 24:16, and changes nothing. -/
def Obligations.WindowsShowTheTables : Prop :=
  ∀ s : State, s.state ≠ .busy →
    (∀ (b : Byte) (hi : Bool),
        hostAct (.read 32 (BitVec.ofNat 16 (0x0800 + 8 * b.toNat + if hi then 4 else 0))) s
          = { s with resp := ⟨halfOf hi (Memory.read s.freq b.toNat), false⟩ })
      ∧ (∀ h : Handle, s.tv = true → h < s.nodeN →
        hostAct (.read 32 (BitVec.ofNat 16 (0x1000 + 4 * h.toNat))) s
          = { s with resp := ⟨Memory.read s.node h.toNat, false⟩ })
      ∧ (∀ (h : Handle) (hi : Bool), s.tv = true → h < s.nodeN →
        hostAct (.read 32 (BitVec.ofNat 16 (0x2000 + 8 * h.toNat + if hi then 4 else 0))) s
          = { s with resp := ⟨halfOf hi (Memory.read s.weight h.toNat), false⟩ })
      ∧ (∀ b : Byte, s.cv = true →
        hostAct (.read 32 (BitVec.ofNat 16 (0x1800 + 4 * b.toNat))) s
          = { s with resp := ⟨(Memory.read s.codeLen b.toNat).setWidth 32, false⟩ })
      ∧ (∀ (b : Byte) (j : Nat), s.cv = true → j < 8 →
        hostAct (.read 32 (BitVec.ofNat 16 (0x4000 + 32 * b.toNat + 4 * j))) s
          = { s with resp := ⟨(Memory.read s.codeBits b.toNat).extractLsb' (32 * j) 32, false⟩ })
      ∧ hostAct (.read 32 0x0010) s = { s with resp := ⟨BitVec.ofNat 32 (s.size.toNat % 2 ^ 32), false⟩ }
      ∧ hostAct (.read 32 0x0014) s = { s with resp := ⟨BitVec.ofNat 32 (s.size.toNat / 2 ^ 32), false⟩ }
      ∧ (s.tv = true → hostAct (.read 32 0x0028) s
          = { s with resp := ⟨BitVec.ofNat 32 (s.root.toNat + 2 ^ 16 * s.nodeN.toNat), false⟩ })

/-- 20 R78, 10 R34, R35: outside its defined condition a window, SIZE or TREEINFO read is accepted, changes no state of the
block, and answers the next free value. -/
def Obligations.UndefinedReadsAreFree : Prop :=
  ∀ (s : State) (off : Offset), off.toNat % 4 = 0 →
    (s.state = .busy ∧ (off = 0x0010 ∨ off = 0x0014 ∨ off = 0x0028 ∨ 0x0800 ≤ off.toNat ∧ off.toNat < 0x1000
        ∨ inNodeWindow off ∨ inWeightWindow off ∨ inCodeWindow off)
      ∨ s.tv = false ∧ (off = 0x0028 ∨ inNodeWindow off ∨ inWeightWindow off)
      ∨ s.cv = false ∧ inCodeWindow off
      ∨ inNodeWindow off ∧ s.nodeN.toNat ≤ (off.toNat - 0x1000) / 4
      ∨ inWeightWindow off ∧ s.nodeN.toNat ≤ (off.toNat - 0x2000) / 8) →
    hostAct (.read 32 off) s = { s with resp := ⟨Config.freeWord s.draws, false⟩, draws := s.draws + 1 }

/-- 20 R79, 10 R34: a FREQ window write replaces one half of the entry, leaves the other half and every other entry, and
clears TV and CV; a SIZE write replaces that half only. Both when STATE is not BUSY; while BUSY they are refused. -/
def Obligations.HostWritesReplaceOneHalf : Prop :=
  (∀ (s : State) (b : Byte) (hi : Bool) (v : Word), s.state ≠ .busy → Memory.wf 256 s.freq = true →
      ∃ fr : Memory 64,
        hostAct (.write 32 (BitVec.ofNat 16 (0x0800 + 8 * b.toNat + if hi then 4 else 0)) v) s
            = { s with freq := fr, tv := false, cv := false, resp := ⟨0, false⟩ }
          ∧ halfOf hi (Memory.read fr b.toNat) = v
          ∧ halfOf (!hi) (Memory.read fr b.toNat) = halfOf (!hi) (Memory.read s.freq b.toNat)
          ∧ ∀ c : Byte, c ≠ b → Memory.read fr c.toNat = Memory.read s.freq c.toNat)
    ∧ (∀ (s : State) (v : Word), s.state ≠ .busy →
      hostAct (.write 32 0x0010 v) s = { s with size := s.size.extractLsb' 32 32 ++ v, resp := ⟨0, false⟩ }
        ∧ hostAct (.write 32 0x0014 v) s = { s with size := v ++ s.size.extractLsb' 0 32, resp := ⟨0, false⟩ })
    ∧ (∀ (s : State) (b : Byte) (hi : Bool) (v : Word), s.state = .busy →
      hostAct (.write 32 (BitVec.ofNat 16 (0x0800 + 8 * b.toNat + if hi then 4 else 0)) v) s
          = { s with resp := ⟨0, true⟩ }
        ∧ hostAct (.write 32 0x0010 v) s = { s with resp := ⟨0, true⟩ }
        ∧ hostAct (.write 32 0x0014 v) s = { s with resp := ⟨0, true⟩ })

/-- 20 R86, R87, R88: in every STATE a push appends the byte in bits 7:0, or EOS whatever the value, when IN is not full, and
is refused when IN is full; a read of OUT_DATA
removes the oldest byte and returns it with VALID = 1, and on an empty OUT returns 0, changes nothing and is not refused. -/
def Obligations.QueueRegisters : Prop :=
  (∀ (s : State) (v : Word), s.inq.length < s.inDepth →
      hostAct (.write 32 0x0018 v) s = { s with inq := s.inq ++ [.byte (v.extractLsb' 0 8)], resp := ⟨0, false⟩ }
        ∧ hostAct (.write 32 0x001C v) s = { s with inq := s.inq ++ [.eos], resp := ⟨0, false⟩ })
    ∧ (∀ (s : State) (v : Word), s.inDepth ≤ s.inq.length →
      hostAct (.write 32 0x0018 v) s = { s with resp := ⟨0, true⟩ }
        ∧ hostAct (.write 32 0x001C v) s = { s with resp := ⟨0, true⟩ })
    ∧ (∀ (s : State) (b : Byte) (rest : List Byte), s.outq = b :: rest →
      hostAct (.read 32 0x0020) s = { s with outq := rest, resp := ⟨0x80000000 ||| b.setWidth 32, false⟩ })
    ∧ (∀ s : State, s.outq = [] → hostAct (.read 32 0x0020) s = { s with resp := ⟨0, false⟩ })

/-- 60 R252: a PROGRESS read returns the internal value when not BUSY; while BUSY it returns a half of some value at most
the internal one and not below what the phase has already shown. That one value bounds both halves and becomes the next lower
bound is the model's choice (log entry 8). Every step keeps "the value shown is at most the internal one" with what the
phases make of it. -/
def Obligations.ProgressReadsAreBounded : Prop :=
  (∀ s : State, s.state ≠ .busy →
      hostAct (.read 32 0x002C) s = { s with resp := ⟨s.progress.extractLsb' 0 32, false⟩ }
        ∧ hostAct (.read 32 0x0030) s = { s with resp := ⟨s.progress.extractLsb' 32 32, false⟩ })
    ∧ (∀ s : State, s.state = .busy → s.published ≤ s.progress →
      ∃ p : DWord, s.published ≤ p ∧ p ≤ s.progress
        ∧ hostAct (.read 32 0x002C) s
            = { s with resp := ⟨p.extractLsb' 0 32, false⟩, published := p, draws := s.draws + 1 }
        ∧ hostAct (.read 32 0x0030) s
            = { s with resp := ⟨p.extractLsb' 32 32, false⟩, published := p, draws := s.draws + 1 })
    ∧ ∀ s t : State, s.ProgressInv → step s = .next t → t.ProgressInv

/-- 70 R260, R261, 10 R33: the reset input and a CTRL write with bit 31 set give every piece of the block's state its reset
value, in every state; the IE bit written with SRST is discarded. That NODE, WEIGHT, CODE_LEN and CODE_BITS, which the spec
leaves unspecified, are then zero is the model's choice (log entry 4), and so is that `host`, `turns`, `resp` and `draws` are
kept (log entry 1). -/
def Obligations.ResetsGiveTheResetState : Prop :=
  (∀ s : State, hostAct .reset s = { State.reset with
      inDepth := s.inDepth, outDepth := s.outDepth, sizeEndian := s.sizeEndian, host := s.host, turns := s.turns,
      resp := s.resp, draws := s.draws })
    ∧ (∀ (s : State) (v : Word), v.getLsbD 31 = true →
      hostAct (.write 32 0x0008 v) s = { State.reset with
        inDepth := s.inDepth, outDepth := s.outDepth, sizeEndian := s.sizeEndian, host := s.host, turns := s.turns,
        resp := ⟨0, false⟩, draws := s.draws })
    ∧ (∀ (s : State) (v : Word), v.getLsbD 31 = false →
      hostAct (.write 32 0x0008 v) s = { s with ie := v.getLsbD 0, resp := ⟨0, false⟩ })
end

