-- ==== Sys2Proof/Laws/State.lean ====
section
/-! SUPPORT. One lemma per named update of the state: every field after it, by rfl, so that no later proof unfolds a record
update. Each conjunction is a simp set of its own: simp reads one rule from each conjunct. -/

namespace Sys2Proof.Machine

variable (s : State)

/-- Every field after PHASE <- p. -/
@[simp] theorem State.setPhase_fields (p : Phase) :
    (s.setPhase p).state = s.state ∧ (s.setPhase p).cmdCur = s.cmdCur ∧ (s.setPhase p).phase = p ∧
      (s.setPhase p).err = s.err ∧ (s.setPhase p).tv = s.tv ∧ (s.setPhase p).cv = s.cv ∧ (s.setPhase p).ie = s.ie ∧
      (s.setPhase p).size = s.size ∧ (s.setPhase p).root = s.root ∧ (s.setPhase p).nodeN = s.nodeN ∧
      (s.setPhase p).progress = s.progress ∧ (s.setPhase p).freq = s.freq ∧ (s.setPhase p).node = s.node ∧
      (s.setPhase p).weight = s.weight ∧ (s.setPhase p).codeLen = s.codeLen ∧ (s.setPhase p).codeBits = s.codeBits ∧
      (s.setPhase p).inq = s.inq ∧ (s.setPhase p).outq = s.outq ∧ (s.setPhase p).heap = s.heap ∧
      (s.setPhase p).stk = s.stk ∧ (s.setPhase p).acc = s.acc ∧ (s.setPhase p).nacc = s.nacc ∧
      (s.setPhase p).cnt = s.cnt ∧ (s.setPhase p).cur = s.cur ∧ (s.setPhase p).bitbuf = s.bitbuf ∧
      (s.setPhase p).nbits = s.nbits ∧ (s.setPhase p).resume = s.resume ∧ (s.setPhase p).inDepth = s.inDepth ∧
      (s.setPhase p).outDepth = s.outDepth ∧ (s.setPhase p).sizeEndian = s.sizeEndian ∧
      (s.setPhase p).host = s.host ∧ (s.setPhase p).turns = s.turns ∧ (s.setPhase p).resp = s.resp ∧
      (s.setPhase p).draws = s.draws ∧ (s.setPhase p).published = 0 :=
  ⟨rfl, rfl, rfl, rfl, rfl, rfl, rfl, rfl, rfl, rfl, rfl, rfl, rfl, rfl, rfl, rfl, rfl, rfl, rfl, rfl, rfl, rfl, rfl, rfl, rfl, rfl, rfl, rfl, rfl, rfl, rfl, rfl, rfl, rfl, rfl⟩

/-- Every field after `fail e`. -/
@[simp] theorem State.fail_fields (e : Err) :
    (s.fail e).state = .error ∧ (s.fail e).cmdCur = s.cmdCur ∧ (s.fail e).phase = s.phase ∧ (s.fail e).err = e ∧
      (s.fail e).tv = (if s.cmdCur = 0x40 ∨ s.cmdCur = 0x41 then false else s.tv) ∧
      (s.fail e).cv = (if s.cmdCur = 0x40 ∨ s.cmdCur = 0x41 then false else s.cv) ∧ (s.fail e).ie = s.ie ∧
      (s.fail e).size = s.size ∧ (s.fail e).root = s.root ∧ (s.fail e).nodeN = s.nodeN ∧
      (s.fail e).progress = s.progress ∧ (s.fail e).freq = s.freq ∧ (s.fail e).node = s.node ∧
      (s.fail e).weight = s.weight ∧ (s.fail e).codeLen = s.codeLen ∧ (s.fail e).codeBits = s.codeBits ∧
      (s.fail e).inq = s.inq ∧ (s.fail e).outq = s.outq ∧ (s.fail e).heap = [] ∧ (s.fail e).stk = [] ∧
      (s.fail e).acc = s.acc ∧ (s.fail e).nacc = s.nacc ∧ (s.fail e).cnt = s.cnt ∧ (s.fail e).cur = s.cur ∧
      (s.fail e).bitbuf = s.bitbuf ∧ (s.fail e).nbits = s.nbits ∧ (s.fail e).resume = .idle ∧
      (s.fail e).inDepth = s.inDepth ∧ (s.fail e).outDepth = s.outDepth ∧ (s.fail e).sizeEndian = s.sizeEndian ∧
      (s.fail e).host = s.host ∧ (s.fail e).turns = s.turns ∧ (s.fail e).resp = s.resp ∧ (s.fail e).draws = s.draws ∧
      (s.fail e).published = s.published :=
  ⟨rfl, rfl, rfl, rfl, rfl, rfl, rfl, rfl, rfl, rfl, rfl, rfl, rfl, rfl, rfl, rfl, rfl, rfl, rfl, rfl, rfl, rfl, rfl, rfl, rfl, rfl, rfl, rfl, rfl, rfl, rfl, rfl, rfl, rfl, rfl⟩

/-- Every field after `complete`. -/
@[simp] theorem State.complete_fields :
    s.complete.state = .done ∧ s.complete.cmdCur = s.cmdCur ∧ s.complete.phase = s.phase ∧ s.complete.err = s.err ∧
      s.complete.tv = s.tv ∧ s.complete.cv = s.cv ∧ s.complete.ie = s.ie ∧ s.complete.size = s.size ∧
      s.complete.root = s.root ∧ s.complete.nodeN = s.nodeN ∧ s.complete.progress = s.progress ∧
      s.complete.freq = s.freq ∧ s.complete.node = s.node ∧ s.complete.weight = s.weight ∧
      s.complete.codeLen = s.codeLen ∧ s.complete.codeBits = s.codeBits ∧ s.complete.inq = s.inq ∧
      s.complete.outq = s.outq ∧ s.complete.heap = s.heap ∧ s.complete.stk = s.stk ∧ s.complete.acc = s.acc ∧
      s.complete.nacc = s.nacc ∧ s.complete.cnt = s.cnt ∧ s.complete.cur = s.cur ∧ s.complete.bitbuf = s.bitbuf ∧
      s.complete.nbits = s.nbits ∧ s.complete.resume = .idle ∧ s.complete.inDepth = s.inDepth ∧
      s.complete.outDepth = s.outDepth ∧ s.complete.sizeEndian = s.sizeEndian ∧ s.complete.host = s.host ∧
      s.complete.turns = s.turns ∧ s.complete.resp = s.resp ∧ s.complete.draws = s.draws ∧
      s.complete.published = s.published :=
  ⟨rfl, rfl, rfl, rfl, rfl, rfl, rfl, rfl, rfl, rfl, rfl, rfl, rfl, rfl, rfl, rfl, rfl, rfl, rfl, rfl, rfl, rfl, rfl, rfl, rfl, rfl, rfl, rfl, rfl, rfl, rfl, rfl, rfl, rfl, rfl⟩

/-- Every field after `release()`. -/
@[simp] theorem State.release_fields :
    s.release.state = s.state ∧ s.release.cmdCur = s.cmdCur ∧ s.release.phase = s.phase ∧ s.release.err = s.err ∧
      s.release.tv = false ∧ s.release.cv = false ∧ s.release.ie = s.ie ∧ s.release.size = s.size ∧
      s.release.root = s.root ∧ s.release.nodeN = s.nodeN ∧ s.release.progress = s.progress ∧
      s.release.freq = s.freq ∧ s.release.node = s.node ∧ s.release.weight = s.weight ∧
      s.release.codeLen = s.codeLen ∧ s.release.codeBits = s.codeBits ∧ s.release.inq = s.inq ∧
      s.release.outq = s.outq ∧ s.release.heap = s.heap ∧ s.release.stk = s.stk ∧ s.release.acc = s.acc ∧
      s.release.nacc = s.nacc ∧ s.release.cnt = s.cnt ∧ s.release.cur = s.cur ∧ s.release.bitbuf = s.bitbuf ∧
      s.release.nbits = s.nbits ∧ s.release.resume = s.resume ∧ s.release.inDepth = s.inDepth ∧
      s.release.outDepth = s.outDepth ∧ s.release.sizeEndian = s.sizeEndian ∧ s.release.host = s.host ∧
      s.release.turns = s.turns ∧ s.release.resp = s.resp ∧ s.release.draws = s.draws ∧
      s.release.published = s.published :=
  ⟨rfl, rfl, rfl, rfl, rfl, rfl, rfl, rfl, rfl, rfl, rfl, rfl, rfl, rfl, rfl, rfl, rfl, rfl, rfl, rfl, rfl, rfl, rfl, rfl, rfl, rfl, rfl, rfl, rfl, rfl, rfl, rfl, rfl, rfl, rfl⟩

/-- Every field after `clear()`. -/
@[simp] theorem State.clear_fields :
    s.clear.state = s.state ∧ s.clear.cmdCur = s.cmdCur ∧ s.clear.phase = .clear ∧ s.clear.err = s.err ∧
      s.clear.tv = false ∧ s.clear.cv = false ∧ s.clear.ie = s.ie ∧ s.clear.size = 0 ∧ s.clear.root = 0 ∧
      s.clear.nodeN = 0 ∧ s.clear.progress = 0 ∧ s.clear.freq = [] ∧ s.clear.node = s.node ∧
      s.clear.weight = s.weight ∧ s.clear.codeLen = s.codeLen ∧ s.clear.codeBits = s.codeBits ∧ s.clear.inq = s.inq ∧
      s.clear.outq = s.outq ∧ s.clear.heap = [] ∧ s.clear.stk = [] ∧ s.clear.acc = 0 ∧ s.clear.nacc = 0 ∧
      s.clear.cnt = 0 ∧ s.clear.cur = 0 ∧ s.clear.bitbuf = 0 ∧ s.clear.nbits = 0 ∧ s.clear.resume = s.resume ∧
      s.clear.inDepth = s.inDepth ∧ s.clear.outDepth = s.outDepth ∧ s.clear.sizeEndian = s.sizeEndian ∧
      s.clear.host = s.host ∧ s.clear.turns = s.turns ∧ s.clear.resp = s.resp ∧ s.clear.draws = s.draws ∧
      s.clear.published = 0 :=
  ⟨rfl, rfl, rfl, rfl, rfl, rfl, rfl, rfl, rfl, rfl, rfl, rfl, rfl, rfl, rfl, rfl, rfl, rfl, rfl, rfl, rfl, rfl, rfl, rfl, rfl, rfl, rfl, rfl, rfl, rfl, rfl, rfl, rfl, rfl, rfl⟩

/-- Every field after FLUSH's effect. -/
@[simp] theorem State.flushQueues_fields :
    s.flushQueues.state = s.state ∧ s.flushQueues.cmdCur = s.cmdCur ∧ s.flushQueues.phase = .flush ∧
      s.flushQueues.err = s.err ∧ s.flushQueues.tv = s.tv ∧ s.flushQueues.cv = s.cv ∧ s.flushQueues.ie = s.ie ∧
      s.flushQueues.size = s.size ∧ s.flushQueues.root = s.root ∧ s.flushQueues.nodeN = s.nodeN ∧
      s.flushQueues.progress = s.progress ∧ s.flushQueues.freq = s.freq ∧ s.flushQueues.node = s.node ∧
      s.flushQueues.weight = s.weight ∧ s.flushQueues.codeLen = s.codeLen ∧ s.flushQueues.codeBits = s.codeBits ∧
      s.flushQueues.inq = [] ∧ s.flushQueues.outq = [] ∧ s.flushQueues.heap = s.heap ∧ s.flushQueues.stk = s.stk ∧
      s.flushQueues.acc = s.acc ∧ s.flushQueues.nacc = s.nacc ∧ s.flushQueues.cnt = s.cnt ∧
      s.flushQueues.cur = s.cur ∧ s.flushQueues.bitbuf = s.bitbuf ∧ s.flushQueues.nbits = s.nbits ∧
      s.flushQueues.resume = s.resume ∧ s.flushQueues.inDepth = s.inDepth ∧ s.flushQueues.outDepth = s.outDepth ∧
      s.flushQueues.sizeEndian = s.sizeEndian ∧ s.flushQueues.host = s.host ∧ s.flushQueues.turns = s.turns ∧
      s.flushQueues.resp = s.resp ∧ s.flushQueues.draws = s.draws ∧ s.flushQueues.published = 0 :=
  ⟨rfl, rfl, rfl, rfl, rfl, rfl, rfl, rfl, rfl, rfl, rfl, rfl, rfl, rfl, rfl, rfl, rfl, rfl, rfl, rfl, rfl, rfl, rfl, rfl, rfl, rfl, rfl, rfl, rfl, rfl, rfl, rfl, rfl, rfl, rfl⟩

/-- Every field after an accepted answer. -/
@[simp] theorem State.answer_fields (d : Word) :
    (s.answer d).state = s.state ∧ (s.answer d).cmdCur = s.cmdCur ∧ (s.answer d).phase = s.phase ∧
      (s.answer d).err = s.err ∧ (s.answer d).tv = s.tv ∧ (s.answer d).cv = s.cv ∧ (s.answer d).ie = s.ie ∧
      (s.answer d).size = s.size ∧ (s.answer d).root = s.root ∧ (s.answer d).nodeN = s.nodeN ∧
      (s.answer d).progress = s.progress ∧ (s.answer d).freq = s.freq ∧ (s.answer d).node = s.node ∧
      (s.answer d).weight = s.weight ∧ (s.answer d).codeLen = s.codeLen ∧ (s.answer d).codeBits = s.codeBits ∧
      (s.answer d).inq = s.inq ∧ (s.answer d).outq = s.outq ∧ (s.answer d).heap = s.heap ∧ (s.answer d).stk = s.stk ∧
      (s.answer d).acc = s.acc ∧ (s.answer d).nacc = s.nacc ∧ (s.answer d).cnt = s.cnt ∧ (s.answer d).cur = s.cur ∧
      (s.answer d).bitbuf = s.bitbuf ∧ (s.answer d).nbits = s.nbits ∧ (s.answer d).resume = s.resume ∧
      (s.answer d).inDepth = s.inDepth ∧ (s.answer d).outDepth = s.outDepth ∧
      (s.answer d).sizeEndian = s.sizeEndian ∧ (s.answer d).host = s.host ∧ (s.answer d).turns = s.turns ∧
      (s.answer d).resp = ⟨d, false⟩ ∧ (s.answer d).draws = s.draws ∧ (s.answer d).published = s.published :=
  ⟨rfl, rfl, rfl, rfl, rfl, rfl, rfl, rfl, rfl, rfl, rfl, rfl, rfl, rfl, rfl, rfl, rfl, rfl, rfl, rfl, rfl, rfl, rfl, rfl, rfl, rfl, rfl, rfl, rfl, rfl, rfl, rfl, rfl, rfl, rfl⟩

/-- Every field after a refusal. -/
@[simp] theorem State.refuse_fields :
    s.refuse.state = s.state ∧ s.refuse.cmdCur = s.cmdCur ∧ s.refuse.phase = s.phase ∧ s.refuse.err = s.err ∧
      s.refuse.tv = s.tv ∧ s.refuse.cv = s.cv ∧ s.refuse.ie = s.ie ∧ s.refuse.size = s.size ∧
      s.refuse.root = s.root ∧ s.refuse.nodeN = s.nodeN ∧ s.refuse.progress = s.progress ∧ s.refuse.freq = s.freq ∧
      s.refuse.node = s.node ∧ s.refuse.weight = s.weight ∧ s.refuse.codeLen = s.codeLen ∧
      s.refuse.codeBits = s.codeBits ∧ s.refuse.inq = s.inq ∧ s.refuse.outq = s.outq ∧ s.refuse.heap = s.heap ∧
      s.refuse.stk = s.stk ∧ s.refuse.acc = s.acc ∧ s.refuse.nacc = s.nacc ∧ s.refuse.cnt = s.cnt ∧
      s.refuse.cur = s.cur ∧ s.refuse.bitbuf = s.bitbuf ∧ s.refuse.nbits = s.nbits ∧ s.refuse.resume = s.resume ∧
      s.refuse.inDepth = s.inDepth ∧ s.refuse.outDepth = s.outDepth ∧ s.refuse.sizeEndian = s.sizeEndian ∧
      s.refuse.host = s.host ∧ s.refuse.turns = s.turns ∧ s.refuse.resp = ⟨0, true⟩ ∧ s.refuse.draws = s.draws ∧
      s.refuse.published = s.published :=
  ⟨rfl, rfl, rfl, rfl, rfl, rfl, rfl, rfl, rfl, rfl, rfl, rfl, rfl, rfl, rfl, rfl, rfl, rfl, rfl, rfl, rfl, rfl, rfl, rfl, rfl, rfl, rfl, rfl, rfl, rfl, rfl, rfl, rfl, rfl, rfl⟩

/-- Every field after a free answer. -/
@[simp] theorem State.answerFree_fields :
    s.answerFree.state = s.state ∧ s.answerFree.cmdCur = s.cmdCur ∧ s.answerFree.phase = s.phase ∧
      s.answerFree.err = s.err ∧ s.answerFree.tv = s.tv ∧ s.answerFree.cv = s.cv ∧ s.answerFree.ie = s.ie ∧
      s.answerFree.size = s.size ∧ s.answerFree.root = s.root ∧ s.answerFree.nodeN = s.nodeN ∧
      s.answerFree.progress = s.progress ∧ s.answerFree.freq = s.freq ∧ s.answerFree.node = s.node ∧
      s.answerFree.weight = s.weight ∧ s.answerFree.codeLen = s.codeLen ∧ s.answerFree.codeBits = s.codeBits ∧
      s.answerFree.inq = s.inq ∧ s.answerFree.outq = s.outq ∧ s.answerFree.heap = s.heap ∧ s.answerFree.stk = s.stk ∧
      s.answerFree.acc = s.acc ∧ s.answerFree.nacc = s.nacc ∧ s.answerFree.cnt = s.cnt ∧ s.answerFree.cur = s.cur ∧
      s.answerFree.bitbuf = s.bitbuf ∧ s.answerFree.nbits = s.nbits ∧ s.answerFree.resume = s.resume ∧
      s.answerFree.inDepth = s.inDepth ∧ s.answerFree.outDepth = s.outDepth ∧
      s.answerFree.sizeEndian = s.sizeEndian ∧ s.answerFree.host = s.host ∧ s.answerFree.turns = s.turns ∧
      s.answerFree.resp = ⟨Config.freeWord s.draws, false⟩ ∧ s.answerFree.draws = s.draws + 1 ∧
      s.answerFree.published = s.published :=
  ⟨rfl, rfl, rfl, rfl, rfl, rfl, rfl, rfl, rfl, rfl, rfl, rfl, rfl, rfl, rfl, rfl, rfl, rfl, rfl, rfl, rfl, rfl, rfl, rfl, rfl, rfl, rfl, rfl, rfl, rfl, rfl, rfl, rfl, rfl, rfl⟩

/-- Every field after a reset. -/
@[simp] theorem State.resetBlock_fields :
    s.resetBlock.state = State.reset.state ∧ s.resetBlock.cmdCur = State.reset.cmdCur ∧
      s.resetBlock.phase = State.reset.phase ∧ s.resetBlock.err = State.reset.err ∧
      s.resetBlock.tv = State.reset.tv ∧ s.resetBlock.cv = State.reset.cv ∧ s.resetBlock.ie = State.reset.ie ∧
      s.resetBlock.size = State.reset.size ∧ s.resetBlock.root = State.reset.root ∧
      s.resetBlock.nodeN = State.reset.nodeN ∧ s.resetBlock.progress = State.reset.progress ∧
      s.resetBlock.freq = State.reset.freq ∧ s.resetBlock.node = State.reset.node ∧
      s.resetBlock.weight = State.reset.weight ∧ s.resetBlock.codeLen = State.reset.codeLen ∧
      s.resetBlock.codeBits = State.reset.codeBits ∧ s.resetBlock.inq = State.reset.inq ∧
      s.resetBlock.outq = State.reset.outq ∧ s.resetBlock.heap = State.reset.heap ∧
      s.resetBlock.stk = State.reset.stk ∧ s.resetBlock.acc = State.reset.acc ∧
      s.resetBlock.nacc = State.reset.nacc ∧ s.resetBlock.cnt = State.reset.cnt ∧
      s.resetBlock.cur = State.reset.cur ∧ s.resetBlock.bitbuf = State.reset.bitbuf ∧
      s.resetBlock.nbits = State.reset.nbits ∧ s.resetBlock.resume = State.reset.resume ∧
      s.resetBlock.inDepth = s.inDepth ∧ s.resetBlock.outDepth = s.outDepth ∧
      s.resetBlock.sizeEndian = s.sizeEndian ∧ s.resetBlock.host = s.host ∧ s.resetBlock.turns = s.turns ∧
      s.resetBlock.resp = s.resp ∧ s.resetBlock.draws = s.draws ∧ s.resetBlock.published = State.reset.published :=
  ⟨rfl, rfl, rfl, rfl, rfl, rfl, rfl, rfl, rfl, rfl, rfl, rfl, rfl, rfl, rfl, rfl, rfl, rfl, rfl, rfl, rfl, rfl, rfl, rfl, rfl, rfl, rfl, rfl, rfl, rfl, rfl, rfl, rfl, rfl, rfl⟩

/-- Every field after an accepted CMD word. -/
@[simp] theorem State.takeWord_fields (op : Byte) :
    (s.takeWord op).state = s.state ∧ (s.takeWord op).cmdCur = op ∧ (s.takeWord op).phase = .none ∧
      (s.takeWord op).err = .ok ∧ (s.takeWord op).tv = s.tv ∧ (s.takeWord op).cv = s.cv ∧ (s.takeWord op).ie = s.ie ∧
      (s.takeWord op).size = s.size ∧ (s.takeWord op).root = s.root ∧ (s.takeWord op).nodeN = s.nodeN ∧
      (s.takeWord op).progress = s.progress ∧ (s.takeWord op).freq = s.freq ∧ (s.takeWord op).node = s.node ∧
      (s.takeWord op).weight = s.weight ∧ (s.takeWord op).codeLen = s.codeLen ∧
      (s.takeWord op).codeBits = s.codeBits ∧ (s.takeWord op).inq = s.inq ∧ (s.takeWord op).outq = s.outq ∧
      (s.takeWord op).heap = s.heap ∧ (s.takeWord op).stk = s.stk ∧ (s.takeWord op).acc = s.acc ∧
      (s.takeWord op).nacc = s.nacc ∧ (s.takeWord op).cnt = s.cnt ∧ (s.takeWord op).cur = s.cur ∧
      (s.takeWord op).bitbuf = s.bitbuf ∧ (s.takeWord op).nbits = s.nbits ∧ (s.takeWord op).resume = s.resume ∧
      (s.takeWord op).inDepth = s.inDepth ∧ (s.takeWord op).outDepth = s.outDepth ∧
      (s.takeWord op).sizeEndian = s.sizeEndian ∧ (s.takeWord op).host = s.host ∧ (s.takeWord op).turns = s.turns ∧
      (s.takeWord op).resp = ⟨0, false⟩ ∧ (s.takeWord op).draws = s.draws ∧ (s.takeWord op).published = 0 :=
  ⟨rfl, rfl, rfl, rfl, rfl, rfl, rfl, rfl, rfl, rfl, rfl, rfl, rfl, rfl, rfl, rfl, rfl, rfl, rfl, rfl, rfl, rfl, rfl, rfl, rfl, rfl, rfl, rfl, rfl, rfl, rfl, rfl, rfl, rfl, rfl⟩

/-- Every field after an accepted command. -/
@[simp] theorem State.accept_fields (op : Byte) (todo : List Proc) :
    (s.accept op todo).state = .busy ∧ (s.accept op todo).cmdCur = op ∧ (s.accept op todo).phase = .none ∧
      (s.accept op todo).err = .ok ∧ (s.accept op todo).tv = s.tv ∧ (s.accept op todo).cv = s.cv ∧
      (s.accept op todo).ie = s.ie ∧ (s.accept op todo).size = s.size ∧ (s.accept op todo).root = s.root ∧
      (s.accept op todo).nodeN = s.nodeN ∧ (s.accept op todo).progress = s.progress ∧
      (s.accept op todo).freq = s.freq ∧ (s.accept op todo).node = s.node ∧ (s.accept op todo).weight = s.weight ∧
      (s.accept op todo).codeLen = s.codeLen ∧ (s.accept op todo).codeBits = s.codeBits ∧
      (s.accept op todo).inq = s.inq ∧ (s.accept op todo).outq = s.outq ∧ (s.accept op todo).heap = s.heap ∧
      (s.accept op todo).stk = s.stk ∧ (s.accept op todo).acc = s.acc ∧ (s.accept op todo).nacc = s.nacc ∧
      (s.accept op todo).cnt = s.cnt ∧ (s.accept op todo).cur = s.cur ∧ (s.accept op todo).bitbuf = s.bitbuf ∧
      (s.accept op todo).nbits = s.nbits ∧ (s.accept op todo).resume = .start todo ∧
      (s.accept op todo).inDepth = s.inDepth ∧ (s.accept op todo).outDepth = s.outDepth ∧
      (s.accept op todo).sizeEndian = s.sizeEndian ∧ (s.accept op todo).host = s.host ∧
      (s.accept op todo).turns = s.turns ∧ (s.accept op todo).resp = ⟨0, false⟩ ∧
      (s.accept op todo).draws = s.draws ∧ (s.accept op todo).published = 0 :=
  ⟨rfl, rfl, rfl, rfl, rfl, rfl, rfl, rfl, rfl, rfl, rfl, rfl, rfl, rfl, rfl, rfl, rfl, rfl, rfl, rfl, rfl, rfl, rfl, rfl, rfl, rfl, rfl, rfl, rfl, rfl, rfl, rfl, rfl, rfl, rfl⟩

/-- Every field after NOP's effect. -/
@[simp] theorem State.acknowledge_fields :
    s.acknowledge.state = .idle ∧ s.acknowledge.cmdCur = 0x00 ∧ s.acknowledge.phase = .none ∧
      s.acknowledge.err = .ok ∧ s.acknowledge.tv = s.tv ∧ s.acknowledge.cv = s.cv ∧ s.acknowledge.ie = s.ie ∧
      s.acknowledge.size = s.size ∧ s.acknowledge.root = s.root ∧ s.acknowledge.nodeN = s.nodeN ∧
      s.acknowledge.progress = s.progress ∧ s.acknowledge.freq = s.freq ∧ s.acknowledge.node = s.node ∧
      s.acknowledge.weight = s.weight ∧ s.acknowledge.codeLen = s.codeLen ∧ s.acknowledge.codeBits = s.codeBits ∧
      s.acknowledge.inq = s.inq ∧ s.acknowledge.outq = s.outq ∧ s.acknowledge.heap = s.heap ∧
      s.acknowledge.stk = s.stk ∧ s.acknowledge.acc = s.acc ∧ s.acknowledge.nacc = s.nacc ∧
      s.acknowledge.cnt = s.cnt ∧ s.acknowledge.cur = s.cur ∧ s.acknowledge.bitbuf = s.bitbuf ∧
      s.acknowledge.nbits = s.nbits ∧ s.acknowledge.resume = s.resume ∧ s.acknowledge.inDepth = s.inDepth ∧
      s.acknowledge.outDepth = s.outDepth ∧ s.acknowledge.sizeEndian = s.sizeEndian ∧ s.acknowledge.host = s.host ∧
      s.acknowledge.turns = s.turns ∧ s.acknowledge.resp = ⟨0, false⟩ ∧ s.acknowledge.draws = s.draws ∧
      s.acknowledge.published = 0 :=
  ⟨rfl, rfl, rfl, rfl, rfl, rfl, rfl, rfl, rfl, rfl, rfl, rfl, rfl, rfl, rfl, rfl, rfl, rfl, rfl, rfl, rfl, rfl, rfl, rfl, rfl, rfl, rfl, rfl, rfl, rfl, rfl, rfl, rfl, rfl, rfl⟩

/-- Every field after an illegal word. -/
@[simp] theorem State.illegal_fields (v : Word) :
    (s.illegal v).state = .error ∧ (s.illegal v).cmdCur = v.extractLsb' 0 8 ∧ (s.illegal v).phase = .none ∧
      (s.illegal v).err = .illegalCommand ∧ (s.illegal v).tv = s.tv ∧ (s.illegal v).cv = s.cv ∧
      (s.illegal v).ie = s.ie ∧ (s.illegal v).size = s.size ∧ (s.illegal v).root = s.root ∧
      (s.illegal v).nodeN = s.nodeN ∧ (s.illegal v).progress = s.progress ∧ (s.illegal v).freq = s.freq ∧
      (s.illegal v).node = s.node ∧ (s.illegal v).weight = s.weight ∧ (s.illegal v).codeLen = s.codeLen ∧
      (s.illegal v).codeBits = s.codeBits ∧ (s.illegal v).inq = s.inq ∧ (s.illegal v).outq = s.outq ∧
      (s.illegal v).heap = s.heap ∧ (s.illegal v).stk = s.stk ∧ (s.illegal v).acc = s.acc ∧
      (s.illegal v).nacc = s.nacc ∧ (s.illegal v).cnt = s.cnt ∧ (s.illegal v).cur = s.cur ∧
      (s.illegal v).bitbuf = s.bitbuf ∧ (s.illegal v).nbits = s.nbits ∧ (s.illegal v).resume = s.resume ∧
      (s.illegal v).inDepth = s.inDepth ∧ (s.illegal v).outDepth = s.outDepth ∧
      (s.illegal v).sizeEndian = s.sizeEndian ∧ (s.illegal v).host = s.host ∧ (s.illegal v).turns = s.turns ∧
      (s.illegal v).resp = ⟨0, false⟩ ∧ (s.illegal v).draws = s.draws ∧ (s.illegal v).published = 0 :=
  ⟨rfl, rfl, rfl, rfl, rfl, rfl, rfl, rfl, rfl, rfl, rfl, rfl, rfl, rfl, rfl, rfl, rfl, rfl, rfl, rfl, rfl, rfl, rfl, rfl, rfl, rfl, rfl, rfl, rfl, rfl, rfl, rfl, rfl, rfl, rfl⟩

/-- Every field after NODE[h] <- n. -/
@[simp] theorem State.setNode_fields (h : Handle) (n : Word) :
    (s.setNode h n).state = s.state ∧ (s.setNode h n).cmdCur = s.cmdCur ∧ (s.setNode h n).phase = s.phase ∧
      (s.setNode h n).err = s.err ∧ (s.setNode h n).tv = s.tv ∧ (s.setNode h n).cv = s.cv ∧
      (s.setNode h n).ie = s.ie ∧ (s.setNode h n).size = s.size ∧ (s.setNode h n).root = s.root ∧
      (s.setNode h n).nodeN = s.nodeN ∧ (s.setNode h n).progress = s.progress ∧ (s.setNode h n).freq = s.freq ∧
      (s.setNode h n).node = Memory.write s.node h.toNat n ∧ (s.setNode h n).weight = s.weight ∧
      (s.setNode h n).codeLen = s.codeLen ∧ (s.setNode h n).codeBits = s.codeBits ∧ (s.setNode h n).inq = s.inq ∧
      (s.setNode h n).outq = s.outq ∧ (s.setNode h n).heap = s.heap ∧ (s.setNode h n).stk = s.stk ∧
      (s.setNode h n).acc = s.acc ∧ (s.setNode h n).nacc = s.nacc ∧ (s.setNode h n).cnt = s.cnt ∧
      (s.setNode h n).cur = s.cur ∧ (s.setNode h n).bitbuf = s.bitbuf ∧ (s.setNode h n).nbits = s.nbits ∧
      (s.setNode h n).resume = s.resume ∧ (s.setNode h n).inDepth = s.inDepth ∧
      (s.setNode h n).outDepth = s.outDepth ∧ (s.setNode h n).sizeEndian = s.sizeEndian ∧
      (s.setNode h n).host = s.host ∧ (s.setNode h n).turns = s.turns ∧ (s.setNode h n).resp = s.resp ∧
      (s.setNode h n).draws = s.draws ∧ (s.setNode h n).published = s.published :=
  ⟨rfl, rfl, rfl, rfl, rfl, rfl, rfl, rfl, rfl, rfl, rfl, rfl, rfl, rfl, rfl, rfl, rfl, rfl, rfl, rfl, rfl, rfl, rfl, rfl, rfl, rfl, rfl, rfl, rfl, rfl, rfl, rfl, rfl, rfl, rfl⟩

/-- Every field after WEIGHT[h] <- v. -/
@[simp] theorem State.setWeight_fields (h : Handle) (v : DWord) :
    (s.setWeight h v).state = s.state ∧ (s.setWeight h v).cmdCur = s.cmdCur ∧ (s.setWeight h v).phase = s.phase ∧
      (s.setWeight h v).err = s.err ∧ (s.setWeight h v).tv = s.tv ∧ (s.setWeight h v).cv = s.cv ∧
      (s.setWeight h v).ie = s.ie ∧ (s.setWeight h v).size = s.size ∧ (s.setWeight h v).root = s.root ∧
      (s.setWeight h v).nodeN = s.nodeN ∧ (s.setWeight h v).progress = s.progress ∧ (s.setWeight h v).freq = s.freq ∧
      (s.setWeight h v).node = s.node ∧ (s.setWeight h v).weight = Memory.write s.weight h.toNat v ∧
      (s.setWeight h v).codeLen = s.codeLen ∧ (s.setWeight h v).codeBits = s.codeBits ∧
      (s.setWeight h v).inq = s.inq ∧ (s.setWeight h v).outq = s.outq ∧ (s.setWeight h v).heap = s.heap ∧
      (s.setWeight h v).stk = s.stk ∧ (s.setWeight h v).acc = s.acc ∧ (s.setWeight h v).nacc = s.nacc ∧
      (s.setWeight h v).cnt = s.cnt ∧ (s.setWeight h v).cur = s.cur ∧ (s.setWeight h v).bitbuf = s.bitbuf ∧
      (s.setWeight h v).nbits = s.nbits ∧ (s.setWeight h v).resume = s.resume ∧
      (s.setWeight h v).inDepth = s.inDepth ∧ (s.setWeight h v).outDepth = s.outDepth ∧
      (s.setWeight h v).sizeEndian = s.sizeEndian ∧ (s.setWeight h v).host = s.host ∧
      (s.setWeight h v).turns = s.turns ∧ (s.setWeight h v).resp = s.resp ∧ (s.setWeight h v).draws = s.draws ∧
      (s.setWeight h v).published = s.published :=
  ⟨rfl, rfl, rfl, rfl, rfl, rfl, rfl, rfl, rfl, rfl, rfl, rfl, rfl, rfl, rfl, rfl, rfl, rfl, rfl, rfl, rfl, rfl, rfl, rfl, rfl, rfl, rfl, rfl, rfl, rfl, rfl, rfl, rfl, rfl, rfl⟩

/-- Every field after a new slot. -/
@[simp] theorem State.newNode_fields (n : Word) (v : DWord) :
    (s.newNode n v).state = s.state ∧ (s.newNode n v).cmdCur = s.cmdCur ∧ (s.newNode n v).phase = s.phase ∧
      (s.newNode n v).err = s.err ∧ (s.newNode n v).tv = s.tv ∧ (s.newNode n v).cv = s.cv ∧
      (s.newNode n v).ie = s.ie ∧ (s.newNode n v).size = s.size ∧ (s.newNode n v).root = s.root ∧
      (s.newNode n v).nodeN = s.nodeN + 1 ∧ (s.newNode n v).progress = s.progress ∧ (s.newNode n v).freq = s.freq ∧
      (s.newNode n v).node = Memory.write s.node s.nodeN.toNat n ∧
      (s.newNode n v).weight = Memory.write s.weight s.nodeN.toNat v ∧ (s.newNode n v).codeLen = s.codeLen ∧
      (s.newNode n v).codeBits = s.codeBits ∧ (s.newNode n v).inq = s.inq ∧ (s.newNode n v).outq = s.outq ∧
      (s.newNode n v).heap = s.heap ∧ (s.newNode n v).stk = s.stk ∧ (s.newNode n v).acc = s.acc ∧
      (s.newNode n v).nacc = s.nacc ∧ (s.newNode n v).cnt = s.cnt ∧ (s.newNode n v).cur = s.cur ∧
      (s.newNode n v).bitbuf = s.bitbuf ∧ (s.newNode n v).nbits = s.nbits ∧ (s.newNode n v).resume = s.resume ∧
      (s.newNode n v).inDepth = s.inDepth ∧ (s.newNode n v).outDepth = s.outDepth ∧
      (s.newNode n v).sizeEndian = s.sizeEndian ∧ (s.newNode n v).host = s.host ∧ (s.newNode n v).turns = s.turns ∧
      (s.newNode n v).resp = s.resp ∧ (s.newNode n v).draws = s.draws ∧ (s.newNode n v).published = s.published :=
  ⟨rfl, rfl, rfl, rfl, rfl, rfl, rfl, rfl, rfl, rfl, rfl, rfl, rfl, rfl, rfl, rfl, rfl, rfl, rfl, rfl, rfl, rfl, rfl, rfl, rfl, rfl, rfl, rfl, rfl, rfl, rfl, rfl, rfl, rfl, rfl⟩

/-- Every field after a code entry. -/
@[simp] theorem State.setCode_fields (b : Byte) (d : BitVec 9) (p : CodeWord) :
    (s.setCode b d p).state = s.state ∧ (s.setCode b d p).cmdCur = s.cmdCur ∧ (s.setCode b d p).phase = s.phase ∧
      (s.setCode b d p).err = s.err ∧ (s.setCode b d p).tv = s.tv ∧ (s.setCode b d p).cv = s.cv ∧
      (s.setCode b d p).ie = s.ie ∧ (s.setCode b d p).size = s.size ∧ (s.setCode b d p).root = s.root ∧
      (s.setCode b d p).nodeN = s.nodeN ∧ (s.setCode b d p).progress = s.progress ∧ (s.setCode b d p).freq = s.freq ∧
      (s.setCode b d p).node = s.node ∧ (s.setCode b d p).weight = s.weight ∧
      (s.setCode b d p).codeLen = Memory.write s.codeLen b.toNat d ∧
      (s.setCode b d p).codeBits = Memory.write s.codeBits b.toNat p ∧ (s.setCode b d p).inq = s.inq ∧
      (s.setCode b d p).outq = s.outq ∧ (s.setCode b d p).heap = s.heap ∧ (s.setCode b d p).stk = s.stk ∧
      (s.setCode b d p).acc = s.acc ∧ (s.setCode b d p).nacc = s.nacc ∧ (s.setCode b d p).cnt = s.cnt ∧
      (s.setCode b d p).cur = s.cur ∧ (s.setCode b d p).bitbuf = s.bitbuf ∧ (s.setCode b d p).nbits = s.nbits ∧
      (s.setCode b d p).resume = s.resume ∧ (s.setCode b d p).inDepth = s.inDepth ∧
      (s.setCode b d p).outDepth = s.outDepth ∧ (s.setCode b d p).sizeEndian = s.sizeEndian ∧
      (s.setCode b d p).host = s.host ∧ (s.setCode b d p).turns = s.turns ∧ (s.setCode b d p).resp = s.resp ∧
      (s.setCode b d p).draws = s.draws ∧ (s.setCode b d p).published = s.published :=
  ⟨rfl, rfl, rfl, rfl, rfl, rfl, rfl, rfl, rfl, rfl, rfl, rfl, rfl, rfl, rfl, rfl, rfl, rfl, rfl, rfl, rfl, rfl, rfl, rfl, rfl, rfl, rfl, rfl, rfl, rfl, rfl, rfl, rfl, rfl, rfl⟩

/-- Every field after one byte counted. -/
@[simp] theorem State.countByte_fields (b : Byte) :
    (s.countByte b).state = s.state ∧ (s.countByte b).cmdCur = s.cmdCur ∧ (s.countByte b).phase = s.phase ∧
      (s.countByte b).err = s.err ∧ (s.countByte b).tv = s.tv ∧ (s.countByte b).cv = s.cv ∧
      (s.countByte b).ie = s.ie ∧ (s.countByte b).size = s.size + 1 ∧ (s.countByte b).root = s.root ∧
      (s.countByte b).nodeN = s.nodeN ∧ (s.countByte b).progress = s.size + 1 ∧
      (s.countByte b).freq = Memory.write s.freq b.toNat (Memory.read s.freq b.toNat + 1) ∧
      (s.countByte b).node = s.node ∧ (s.countByte b).weight = s.weight ∧ (s.countByte b).codeLen = s.codeLen ∧
      (s.countByte b).codeBits = s.codeBits ∧ (s.countByte b).inq = s.inq ∧ (s.countByte b).outq = s.outq ∧
      (s.countByte b).heap = s.heap ∧ (s.countByte b).stk = s.stk ∧ (s.countByte b).acc = s.acc ∧
      (s.countByte b).nacc = s.nacc ∧ (s.countByte b).cnt = s.cnt ∧ (s.countByte b).cur = s.cur ∧
      (s.countByte b).bitbuf = s.bitbuf ∧ (s.countByte b).nbits = s.nbits ∧ (s.countByte b).resume = s.resume ∧
      (s.countByte b).inDepth = s.inDepth ∧ (s.countByte b).outDepth = s.outDepth ∧
      (s.countByte b).sizeEndian = s.sizeEndian ∧ (s.countByte b).host = s.host ∧ (s.countByte b).turns = s.turns ∧
      (s.countByte b).resp = s.resp ∧ (s.countByte b).draws = s.draws ∧ (s.countByte b).published = s.published :=
  ⟨rfl, rfl, rfl, rfl, rfl, rfl, rfl, rfl, rfl, rfl, rfl, rfl, rfl, rfl, rfl, rfl, rfl, rfl, rfl, rfl, rfl, rfl, rfl, rfl, rfl, rfl, rfl, rfl, rfl, rfl, rfl, rfl, rfl, rfl, rfl⟩

/-- Every field after PQ.insert(h). -/
@[simp] theorem State.pqInsert_fields (h : Handle) :
    (s.pqInsert h).state = s.state ∧ (s.pqInsert h).cmdCur = s.cmdCur ∧ (s.pqInsert h).phase = s.phase ∧
      (s.pqInsert h).err = s.err ∧ (s.pqInsert h).tv = s.tv ∧ (s.pqInsert h).cv = s.cv ∧ (s.pqInsert h).ie = s.ie ∧
      (s.pqInsert h).size = s.size ∧ (s.pqInsert h).root = s.root ∧ (s.pqInsert h).nodeN = s.nodeN ∧
      (s.pqInsert h).progress = s.progress ∧ (s.pqInsert h).freq = s.freq ∧ (s.pqInsert h).node = s.node ∧
      (s.pqInsert h).weight = s.weight ∧ (s.pqInsert h).codeLen = s.codeLen ∧ (s.pqInsert h).codeBits = s.codeBits ∧
      (s.pqInsert h).inq = s.inq ∧ (s.pqInsert h).outq = s.outq ∧
      (s.pqInsert h).heap = heapInsert s.weight s.heap h ∧ (s.pqInsert h).stk = s.stk ∧ (s.pqInsert h).acc = s.acc ∧
      (s.pqInsert h).nacc = s.nacc ∧ (s.pqInsert h).cnt = s.cnt ∧ (s.pqInsert h).cur = s.cur ∧
      (s.pqInsert h).bitbuf = s.bitbuf ∧ (s.pqInsert h).nbits = s.nbits ∧ (s.pqInsert h).resume = s.resume ∧
      (s.pqInsert h).inDepth = s.inDepth ∧ (s.pqInsert h).outDepth = s.outDepth ∧
      (s.pqInsert h).sizeEndian = s.sizeEndian ∧ (s.pqInsert h).host = s.host ∧ (s.pqInsert h).turns = s.turns ∧
      (s.pqInsert h).resp = s.resp ∧ (s.pqInsert h).draws = s.draws ∧ (s.pqInsert h).published = s.published :=
  ⟨rfl, rfl, rfl, rfl, rfl, rfl, rfl, rfl, rfl, rfl, rfl, rfl, rfl, rfl, rfl, rfl, rfl, rfl, rfl, rfl, rfl, rfl, rfl, rfl, rfl, rfl, rfl, rfl, rfl, rfl, rfl, rfl, rfl, rfl, rfl⟩

/-- Every field after PQ.extract_min(). -/
@[simp] theorem State.pqDrop_fields :
    s.pqDrop.state = s.state ∧ s.pqDrop.cmdCur = s.cmdCur ∧ s.pqDrop.phase = s.phase ∧ s.pqDrop.err = s.err ∧
      s.pqDrop.tv = s.tv ∧ s.pqDrop.cv = s.cv ∧ s.pqDrop.ie = s.ie ∧ s.pqDrop.size = s.size ∧
      s.pqDrop.root = s.root ∧ s.pqDrop.nodeN = s.nodeN ∧ s.pqDrop.progress = s.progress ∧ s.pqDrop.freq = s.freq ∧
      s.pqDrop.node = s.node ∧ s.pqDrop.weight = s.weight ∧ s.pqDrop.codeLen = s.codeLen ∧
      s.pqDrop.codeBits = s.codeBits ∧ s.pqDrop.inq = s.inq ∧ s.pqDrop.outq = s.outq ∧
      s.pqDrop.heap = heapRest s.weight s.heap ∧ s.pqDrop.stk = s.stk ∧ s.pqDrop.acc = s.acc ∧
      s.pqDrop.nacc = s.nacc ∧ s.pqDrop.cnt = s.cnt ∧ s.pqDrop.cur = s.cur ∧ s.pqDrop.bitbuf = s.bitbuf ∧
      s.pqDrop.nbits = s.nbits ∧ s.pqDrop.resume = s.resume ∧ s.pqDrop.inDepth = s.inDepth ∧
      s.pqDrop.outDepth = s.outDepth ∧ s.pqDrop.sizeEndian = s.sizeEndian ∧ s.pqDrop.host = s.host ∧
      s.pqDrop.turns = s.turns ∧ s.pqDrop.resp = s.resp ∧ s.pqDrop.draws = s.draws ∧
      s.pqDrop.published = s.published :=
  ⟨rfl, rfl, rfl, rfl, rfl, rfl, rfl, rfl, rfl, rfl, rfl, rfl, rfl, rfl, rfl, rfl, rfl, rfl, rfl, rfl, rfl, rfl, rfl, rfl, rfl, rfl, rfl, rfl, rfl, rfl, rfl, rfl, rfl, rfl, rfl⟩

/-- Every field after the root taken. -/
@[simp] theorem State.takeRoot_fields :
    s.takeRoot.state = s.state ∧ s.takeRoot.cmdCur = s.cmdCur ∧ s.takeRoot.phase = s.phase ∧ s.takeRoot.err = s.err ∧
      s.takeRoot.tv = true ∧ s.takeRoot.cv = s.cv ∧ s.takeRoot.ie = s.ie ∧ s.takeRoot.size = s.size ∧
      s.takeRoot.root = s.pqTop ∧ s.takeRoot.nodeN = s.nodeN ∧ s.takeRoot.progress = s.progress ∧
      s.takeRoot.freq = s.freq ∧ s.takeRoot.node = s.node ∧ s.takeRoot.weight = s.weight ∧
      s.takeRoot.codeLen = s.codeLen ∧ s.takeRoot.codeBits = s.codeBits ∧ s.takeRoot.inq = s.inq ∧
      s.takeRoot.outq = s.outq ∧ s.takeRoot.heap = heapRest s.weight s.heap ∧ s.takeRoot.stk = s.stk ∧
      s.takeRoot.acc = s.acc ∧ s.takeRoot.nacc = s.nacc ∧ s.takeRoot.cnt = s.cnt ∧ s.takeRoot.cur = s.cur ∧
      s.takeRoot.bitbuf = s.bitbuf ∧ s.takeRoot.nbits = s.nbits ∧ s.takeRoot.resume = s.resume ∧
      s.takeRoot.inDepth = s.inDepth ∧ s.takeRoot.outDepth = s.outDepth ∧ s.takeRoot.sizeEndian = s.sizeEndian ∧
      s.takeRoot.host = s.host ∧ s.takeRoot.turns = s.turns ∧ s.takeRoot.resp = s.resp ∧ s.takeRoot.draws = s.draws ∧
      s.takeRoot.published = s.published :=
  ⟨rfl, rfl, rfl, rfl, rfl, rfl, rfl, rfl, rfl, rfl, rfl, rfl, rfl, rfl, rfl, rfl, rfl, rfl, rfl, rfl, rfl, rfl, rfl, rfl, rfl, rfl, rfl, rfl, rfl, rfl, rfl, rfl, rfl, rfl, rfl⟩

/-- Every field after the start of `build()`. -/
@[simp] theorem State.buildInit_fields :
    s.buildInit.state = s.state ∧ s.buildInit.cmdCur = s.cmdCur ∧ s.buildInit.phase = .build ∧
      s.buildInit.err = s.err ∧ s.buildInit.tv = false ∧ s.buildInit.cv = false ∧ s.buildInit.ie = s.ie ∧
      s.buildInit.size = s.size ∧ s.buildInit.root = 0 ∧ s.buildInit.nodeN = 0 ∧ s.buildInit.progress = s.progress ∧
      s.buildInit.freq = s.freq ∧ s.buildInit.node = s.node ∧ s.buildInit.weight = s.weight ∧
      s.buildInit.codeLen = s.codeLen ∧ s.buildInit.codeBits = s.codeBits ∧ s.buildInit.inq = s.inq ∧
      s.buildInit.outq = s.outq ∧ s.buildInit.heap = [] ∧ s.buildInit.stk = s.stk ∧ s.buildInit.acc = s.acc ∧
      s.buildInit.nacc = s.nacc ∧ s.buildInit.cnt = s.cnt ∧ s.buildInit.cur = s.cur ∧ s.buildInit.bitbuf = s.bitbuf ∧
      s.buildInit.nbits = s.nbits ∧ s.buildInit.resume = s.resume ∧ s.buildInit.inDepth = s.inDepth ∧
      s.buildInit.outDepth = s.outDepth ∧ s.buildInit.sizeEndian = s.sizeEndian ∧ s.buildInit.host = s.host ∧
      s.buildInit.turns = s.turns ∧ s.buildInit.resp = s.resp ∧ s.buildInit.draws = s.draws ∧
      s.buildInit.published = 0 :=
  ⟨rfl, rfl, rfl, rfl, rfl, rfl, rfl, rfl, rfl, rfl, rfl, rfl, rfl, rfl, rfl, rfl, rfl, rfl, rfl, rfl, rfl, rfl, rfl, rfl, rfl, rfl, rfl, rfl, rfl, rfl, rfl, rfl, rfl, rfl, rfl⟩

/-- Every field after the start of `gencode()`. -/
@[simp] theorem State.gencodeInit_fields :
    s.gencodeInit.state = s.state ∧ s.gencodeInit.cmdCur = s.cmdCur ∧ s.gencodeInit.phase = .gencode ∧
      s.gencodeInit.err = s.err ∧ s.gencodeInit.tv = s.tv ∧ s.gencodeInit.cv = false ∧ s.gencodeInit.ie = s.ie ∧
      s.gencodeInit.size = s.size ∧ s.gencodeInit.root = s.root ∧ s.gencodeInit.nodeN = s.nodeN ∧
      s.gencodeInit.progress = s.progress ∧ s.gencodeInit.freq = s.freq ∧ s.gencodeInit.node = s.node ∧
      s.gencodeInit.weight = s.weight ∧ s.gencodeInit.codeLen = [] ∧ s.gencodeInit.codeBits = [] ∧
      s.gencodeInit.inq = s.inq ∧ s.gencodeInit.outq = s.outq ∧ s.gencodeInit.heap = s.heap ∧
      s.gencodeInit.stk = s.stk ∧ s.gencodeInit.acc = s.acc ∧ s.gencodeInit.nacc = s.nacc ∧
      s.gencodeInit.cnt = s.cnt ∧ s.gencodeInit.cur = s.cur ∧ s.gencodeInit.bitbuf = s.bitbuf ∧
      s.gencodeInit.nbits = s.nbits ∧ s.gencodeInit.resume = s.resume ∧ s.gencodeInit.inDepth = s.inDepth ∧
      s.gencodeInit.outDepth = s.outDepth ∧ s.gencodeInit.sizeEndian = s.sizeEndian ∧ s.gencodeInit.host = s.host ∧
      s.gencodeInit.turns = s.turns ∧ s.gencodeInit.resp = s.resp ∧ s.gencodeInit.draws = s.draws ∧
      s.gencodeInit.published = 0 :=
  ⟨rfl, rfl, rfl, rfl, rfl, rfl, rfl, rfl, rfl, rfl, rfl, rfl, rfl, rfl, rfl, rfl, rfl, rfl, rfl, rfl, rfl, rfl, rfl, rfl, rfl, rfl, rfl, rfl, rfl, rfl, rfl, rfl, rfl, rfl, rfl⟩

/-- Every field after one path bit added. -/
@[simp] theorem State.addBit_fields (bit : Bool) :
    (s.addBit bit).state = s.state ∧ (s.addBit bit).cmdCur = s.cmdCur ∧ (s.addBit bit).phase = s.phase ∧
      (s.addBit bit).err = s.err ∧ (s.addBit bit).tv = s.tv ∧ (s.addBit bit).cv = s.cv ∧ (s.addBit bit).ie = s.ie ∧
      (s.addBit bit).size = s.size ∧ (s.addBit bit).root = s.root ∧ (s.addBit bit).nodeN = s.nodeN ∧
      (s.addBit bit).progress = s.progress ∧ (s.addBit bit).freq = s.freq ∧ (s.addBit bit).node = s.node ∧
      (s.addBit bit).weight = s.weight ∧ (s.addBit bit).codeLen = s.codeLen ∧ (s.addBit bit).codeBits = s.codeBits ∧
      (s.addBit bit).inq = s.inq ∧ (s.addBit bit).outq = s.outq ∧ (s.addBit bit).heap = s.heap ∧
      (s.addBit bit).stk = s.stk ∧ (s.addBit bit).acc = (s.acc <<< 1) ||| (BitVec.ofBool bit).setWidth 8 ∧
      (s.addBit bit).nacc = s.nacc + 1 ∧ (s.addBit bit).cnt = s.cnt ∧ (s.addBit bit).cur = s.cur ∧
      (s.addBit bit).bitbuf = s.bitbuf ∧ (s.addBit bit).nbits = s.nbits ∧ (s.addBit bit).resume = s.resume ∧
      (s.addBit bit).inDepth = s.inDepth ∧ (s.addBit bit).outDepth = s.outDepth ∧
      (s.addBit bit).sizeEndian = s.sizeEndian ∧ (s.addBit bit).host = s.host ∧ (s.addBit bit).turns = s.turns ∧
      (s.addBit bit).resp = s.resp ∧ (s.addBit bit).draws = s.draws ∧ (s.addBit bit).published = s.published :=
  ⟨rfl, rfl, rfl, rfl, rfl, rfl, rfl, rfl, rfl, rfl, rfl, rfl, rfl, rfl, rfl, rfl, rfl, rfl, rfl, rfl, rfl, rfl, rfl, rfl, rfl, rfl, rfl, rfl, rfl, rfl, rfl, rfl, rfl, rfl, rfl⟩

/-- Every field after one symbol counted. -/
@[simp] theorem State.countSymbol_fields :
    s.countSymbol.state = s.state ∧ s.countSymbol.cmdCur = s.cmdCur ∧ s.countSymbol.phase = s.phase ∧
      s.countSymbol.err = s.err ∧ s.countSymbol.tv = s.tv ∧ s.countSymbol.cv = s.cv ∧ s.countSymbol.ie = s.ie ∧
      s.countSymbol.size = s.size ∧ s.countSymbol.root = s.root ∧ s.countSymbol.nodeN = s.nodeN ∧
      s.countSymbol.progress = s.cnt + 1 ∧ s.countSymbol.freq = s.freq ∧ s.countSymbol.node = s.node ∧
      s.countSymbol.weight = s.weight ∧ s.countSymbol.codeLen = s.codeLen ∧ s.countSymbol.codeBits = s.codeBits ∧
      s.countSymbol.inq = s.inq ∧ s.countSymbol.outq = s.outq ∧ s.countSymbol.heap = s.heap ∧
      s.countSymbol.stk = s.stk ∧ s.countSymbol.acc = s.acc ∧ s.countSymbol.nacc = s.nacc ∧
      s.countSymbol.cnt = s.cnt + 1 ∧ s.countSymbol.cur = s.cur ∧ s.countSymbol.bitbuf = s.bitbuf ∧
      s.countSymbol.nbits = s.nbits ∧ s.countSymbol.resume = s.resume ∧ s.countSymbol.inDepth = s.inDepth ∧
      s.countSymbol.outDepth = s.outDepth ∧ s.countSymbol.sizeEndian = s.sizeEndian ∧ s.countSymbol.host = s.host ∧
      s.countSymbol.turns = s.turns ∧ s.countSymbol.resp = s.resp ∧ s.countSymbol.draws = s.draws ∧
      s.countSymbol.published = s.published :=
  ⟨rfl, rfl, rfl, rfl, rfl, rfl, rfl, rfl, rfl, rfl, rfl, rfl, rfl, rfl, rfl, rfl, rfl, rfl, rfl, rfl, rfl, rfl, rfl, rfl, rfl, rfl, rfl, rfl, rfl, rfl, rfl, rfl, rfl, rfl, rfl⟩

end Sys2Proof.Machine
end

