-- ==== Sys2Proof/Laws/Engine.lean ====
section
/-! SUPPORT. Laws of the engine: what one step is, how steps compose into a turn, and how a property that every procedure
keeps is kept by a step, a turn and an issued command. -/

namespace Sys2Proof.Machine

/-! ## One engine step -/

theorem busy_iff (s : State) : s.busy = true ↔ s.state = .busy := by simp [State.busy]

theorem not_busy_iff (s : State) : s.busy = false ↔ s.state ≠ .busy := by simp [State.busy]

/-- An engine with no step stays as it is (20 R80, R81). -/
theorem engineStep_of_not_enabled {s : State} (h : s.enabled = false) : engineStep s = s := by simp [engineStep, h]

/-- The step at start (20 R82). -/
theorem engineStep_start {s : State} {todo : List Proc} (hb : s.state = .busy) (hr : s.resume = .start todo) :
    engineStep s = runOn todo (.done s) := by
  simp [engineStep, State.enabled, State.busy, hb, hr]

/-- The step at an `in_next()` with a token waiting (20 R80). -/
theorem engineStep_in {s : State} {k : InPoint} {todo : List Proc} {t : Token} {rest : List Token}
    (hb : s.state = .busy) (hr : s.resume = .inNext k todo) (hq : s.inq = t :: rest) :
    engineStep s = runOn todo (afterIn k t { s with inq := rest }) := by
  simp [engineStep, State.enabled, State.busy, hb, hr, hq]

/-- The step at an `out_put` with room in OUT (20 R81). -/
theorem engineStep_out {s : State} {b : Byte} {k : OutPoint} {todo : List Proc}
    (hb : s.state = .busy) (hr : s.resume = .outPut b k todo) (hq : s.outq.length < s.outDepth) :
    engineStep s = runOn todo (afterOut k { s with outq := s.outq ++ [b] }) := by
  simp [engineStep, State.enabled, State.busy, hb, hr, hq]

/-- When the engine has a step (00 R14). -/
theorem enabled_iff (s : State) : s.enabled = true ↔
    s.state = .busy ∧ ((∃ todo, s.resume = .start todo) ∨ (∃ k todo t rest, s.resume = .inNext k todo ∧ s.inq = t :: rest)
      ∨ ∃ b k todo, s.resume = .outPut b k todo ∧ s.outq.length < s.outDepth) := by
  rcases hr : s.resume with _ | todo | ⟨k, todo⟩ | ⟨b, k, todo⟩ | _ <;> cases hq : s.inq <;>
    simp [State.enabled, State.busy, hr, hq]

/-- Everything one engine step can do. -/
theorem engineStep_cases (s : State) :
    (s.enabled = false ∧ engineStep s = s)
      ∨ (∃ todo, s.state = .busy ∧ s.resume = .start todo ∧ engineStep s = runOn todo (.done s))
      ∨ (∃ k todo t rest, s.state = .busy ∧ s.resume = .inNext k todo ∧ s.inq = t :: rest
          ∧ engineStep s = runOn todo (afterIn k t { s with inq := rest }))
      ∨ ∃ b k todo, s.state = .busy ∧ s.resume = .outPut b k todo ∧ s.outq.length < s.outDepth
          ∧ engineStep s = runOn todo (afterOut k { s with outq := s.outq ++ [b] }) := by
  cases he : s.enabled
  · exact .inl ⟨rfl, engineStep_of_not_enabled he⟩
  · obtain ⟨hb, ⟨todo, hr⟩ | ⟨k, todo, t, rest, hr, hq⟩ | ⟨b, k, todo, hr, hq⟩⟩ := (enabled_iff s).1 he
    · exact .inr (.inl ⟨todo, hb, hr, engineStep_start hb hr⟩)
    · exact .inr (.inr (.inl ⟨k, todo, t, rest, hb, hr, hq, engineStep_in hb hr hq⟩))
    · exact .inr (.inr (.inr ⟨b, k, todo, hb, hr, hq, engineStep_out hb hr hq⟩))

/-! ## Running on -/

@[simp] theorem runOn_nil_done (s : State) : runOn [] (.done s) = s.complete := by simp [runOn]

@[simp] theorem runOn_cons_done (p : Proc) (rest : List Proc) (s : State) :
    runOn (p :: rest) (.done s) = runOn rest (startProc p s) := by simp [runOn]

@[simp] theorem runOn_waitIn (todo : List Proc) (k : InPoint) (s : State) :
    runOn todo (.waitIn k s) = { s with resume := .inNext k todo } := by cases todo <;> simp [runOn]

@[simp] theorem runOn_waitOut (todo : List Proc) (b : Byte) (k : OutPoint) (s : State) :
    runOn todo (.waitOut b k s) = { s with resume := .outPut b k todo } := by cases todo <;> simp [runOn]

@[simp] theorem runOn_failed (todo : List Proc) (e : Err) (s : State) : runOn todo (.failed e s) = s.fail e := by
  cases todo <;> simp [runOn]

@[simp] theorem runOn_endless (todo : List Proc) (s : State) :
    runOn todo (.endless s) = { s with resume := .stuck } := by cases todo <;> simp [runOn]

/-- The state a procedure stopped in. -/
def Run.final : Run → State
  | .done s => s
  | .waitIn _ s => s
  | .waitOut _ _ s => s
  | .failed _ s => s
  | .endless s => s

/-- A property that every procedure keeps from its start, that does not look at the resume point, and that both ends of a
command keep, is kept by running on. -/
theorem runOn_keeps (P : State → Prop) (hstart : ∀ p s, P s → P (startProc p s).final)
    (hres : ∀ s r, P s → P { s with resume := r }) (hfail : ∀ e s, P s → P (s.fail e)) (hdone : ∀ s, P s → P s.complete)
    (todo : List Proc) (r : Run) (h : P r.final) : P (runOn todo r) := by
  induction todo generalizing r with
  | nil => cases r <;> simp <;> first | exact hdone _ h | exact hres _ _ h | exact hfail _ _ h
  | cons p rest ih =>
    cases r with
    | done s => rw [runOn_cons_done]; exact ih _ (hstart p s h)
    | waitIn k s => rw [runOn_waitIn]; exact hres _ _ h
    | waitOut b k s => rw [runOn_waitOut]; exact hres _ _ h
    | failed e s => rw [runOn_failed]; exact hfail _ _ h
    | endless s => rw [runOn_endless]; exact hres _ _ h

/-! ## Turns -/

@[simp] theorem runEngine_zero (s : State) : runEngine 0 s = s := rfl

/-- A granted step is an engine step, whether the engine has one or not. -/
theorem runEngine_succ (n : Nat) (s : State) : runEngine (n + 1) s = runEngine n (engineStep s) := by
  cases he : s.enabled
  · have hs : ∀ k, runEngine k s = s := by
      intro k
      cases k <;> simp [runEngine, he]
    rw [engineStep_of_not_enabled he, hs, hs]
  · simp [runEngine, he]

/-- An engine with no step is not moved by any number of granted steps. -/
theorem runEngine_of_not_enabled {s : State} (h : s.enabled = false) (n : Nat) : runEngine n s = s := by
  induction n with
  | zero => rfl
  | succ n ih => rw [runEngine_succ, engineStep_of_not_enabled h, ih]

/-- Granting steps in two portions is granting them at once. -/
theorem runEngine_add (m n : Nat) (s : State) : runEngine (m + n) s = runEngine n (runEngine m s) := by
  induction m generalizing s with
  | zero => simp
  | succ m ih => rw [Nat.succ_add, runEngine_succ, runEngine_succ, ih]

/-- If the engine holds or has stopped after `m` steps, any larger grant ends in the same state. -/
theorem runEngine_le {m n : Nat} {s t : State} (h : runEngine m s = t) (ht : t.enabled = false) (hmn : m ≤ n) :
    runEngine n s = t := by
  obtain ⟨k, rfl⟩ := Nat.exists_eq_add_of_le hmn
  rw [runEngine_add, h, runEngine_of_not_enabled ht]

/-- What every engine step keeps, every number of granted steps keeps. -/
theorem runEngine_keeps (P : State → Prop) (h : ∀ s, P s → P (engineStep s)) (n : Nat) (s : State) (hs : P s) :
    P (runEngine n s) := by
  induction n generalizing s with
  | zero => exact hs
  | succ n ih => rw [runEngine_succ]; exact ih _ (h s hs)

/-- The turn when the schedule is exhausted. -/
theorem takeTurn_nil {s : State} (h : s.turns = []) : takeTurn s = runEngine s.fullTurn s := by simp [takeTurn, h]

/-- The turn of an engine that has no step uses up one entry of the schedule and does nothing else. -/
theorem takeTurn_of_not_enabled {s : State} (h : s.enabled = false) : takeTurn s = { s with turns := s.turns.tail } := by
  have he : State.enabled { s with turns := s.turns.tail } = false := h
  cases ht : s.turns with
  | nil =>
    rw [takeTurn_nil ht, runEngine_of_not_enabled h, List.tail_nil, ← ht]
  | cons n rest =>
    simp only [takeTurn, ht, List.tail_cons]
    rw [ht, List.tail_cons] at he
    exact runEngine_of_not_enabled he n

/-- What every engine step keeps and what does not look at the schedule, a turn keeps. -/
theorem takeTurn_keeps (P : State → Prop) (h : ∀ s, P s → P (engineStep s)) (hturn : ∀ s l, P s → P { s with turns := l })
    (s : State) (hs : P s) : P (takeTurn s) := by
  unfold takeTurn
  split
  · exact runEngine_keeps P h _ _ hs
  · exact runEngine_keeps P h _ _ (hturn _ _ hs)

/-- A full turn that is known to reach a state without a next step ends there. -/
theorem takeTurn_reaches {s t : State} {m : Nat} (ht : s.turns = []) (h : runEngine m s = t) (he : t.enabled = false)
    (hm : m ≤ s.fullTurn) : takeTurn s = t := by
  rw [takeTurn_nil ht]
  exact runEngine_le h he hm

theorem not_enabled_of_not_busy {s : State} (h : s.state ≠ .busy) : s.enabled = false := by
  simp [State.enabled, State.busy, h]

/-! ## Issued commands -/

/-- A command issued while BUSY is refused (30 R101). -/
theorem issue_of_busy {s : State} (h : s.state = .busy) (op : Byte) (todo : List Proc) :
    issue op todo s = takeTurn s.refuse := by simp [issue, State.busy, h]

/-- A command issued otherwise is accepted (30 R101). -/
theorem issue_of_ready {s : State} (h : s.state ≠ .busy) (op : Byte) (todo : List Proc) :
    issue op todo s = takeTurn (s.accept op todo) := by simp [issue, State.busy, h]

end Sys2Proof.Machine
end

