-- ==== Sys2Proof/Laws/Procedures.lean ====
section
/-! SUPPORT. Laws of the procedures: what the parts of a procedure keep, the procedure keeps. A frame or an invariant of
`build()`, `gencode()`, `decode()` or `destree()` is proved from the few operations they are made of. -/

namespace Sys2Proof.Machine

/-- Both parts of a composed stretch keep it, so the whole does. -/
theorem final_andThen (P : State → Prop) (r : Run) (f : State → Run) (h : P r.final)
    (hf : ∀ s, P s → P (f s).final) : P (r.andThen f).final := by
  cases r <;> simp_all [Run.andThen, Run.final]

/-- A loop over a list keeps what each round keeps. -/
theorem foldl_keeps {α} (P : State → Prop) (f : State → α → State)
    (hf : ∀ s a, P s → P (f s a)) (l : List α) (s : State) (h : P s) : P (l.foldl f s) := by
  induction l generalizing s with
  | nil => exact h
  | cons a l ih => exact ih _ (hf _ _ h)

/-- The merge loop of BUILD (42 R157). -/
theorem mergeLoop_keeps (P : State → Prop) (h1 : ∀ s, P s → P s.mergeOnce.final) (n : Nat) (s : State) (h : P s) :
    P (mergeLoop n s).final := by
  induction n generalizing s with
  | zero => exact h
  | succ n ih =>
    simp only [mergeLoop]
    split
    · exact final_andThen P _ _ (h1 _ h) ih
    · exact h

/-- The walk of GENCODE (43 R171). -/
theorem codeWalk_keeps (P : State → Prop) (h1 : ∀ s e r, P s → P (s.walkOnce e r)) (n : Nat) (s : State)
    (h : P s) : P (codeWalk n s).final := by
  induction n generalizing s with
  | zero => unfold codeWalk; split <;> exact h
  | succ n ih =>
    unfold codeWalk; split
    · exact h
    · exact ih _ (h1 _ _ _ h)

/-- The attachments after a finished subtree in DESTREE (44 R184). -/
theorem attach_keeps (P : State → Prop) (h1 : ∀ s h w, P s → P (State.setNode h w s))
    (h2 : ∀ s l, P s → P { s with stk := l })
    (h3 : ∀ s c, P s → P { s with stk := [], root := c, tv := true }) (l : List StkEntry) (c : Handle) (s : State)
       (h : P s) : P (attach l c s).final := by
  induction l generalizing c s with
  | nil => exact h3 _ _ h
  | cons e l ih =>
    simp only [attach]; split
    · exact ih _ _ (h1 _ _ _ h)
    · exact h2 _ _ (h1 _ _ _ h)

/-- One bit of DECODE (46 R211). -/
theorem decodeBit_keeps (P : State → Prop) (h1 : ∀ s, P s → P s.takeBit)
    (h2 : ∀ b s, P s → P (s.walkEdge b)) (f : State → Run)
    (hf : ∀ s, P s → P (f s).final) (s : State) (h : P s) : P (decodeBit f s).final := by
  unfold decodeBit decodeAt
  split
  · exact h1 _ h
  · split
    · exact h2 _ _ (h1 _ h)
    · exact hf _ (h2 _ _ (h1 _ h))

/-- The bit loop of DECODE (46 R211). -/
theorem decodeLoop_keeps (P : State → Prop) (h1 : ∀ s, P s → P s.takeBit)
    (h2 : ∀ b s, P s → P (s.walkEdge b)) (n) (s : State) (h : P s) : P (decodeLoop n s).final := by
  induction n generalizing s with
  | zero => simp only [decodeLoop]; split <;> exact h
  | succ n ih =>
    simp only [decodeLoop]; split
    · exact h
    · exact decodeBit_keeps P h1 h2 _ ih s h

/-- One symbol of the leaf loop of BUILD (42 R157). -/
theorem addLeaf_keeps (P : State → Prop) (h1 : ∀ s h w, P s → P (State.newNode h w s))
    (h2 : ∀ s l, P s → P { s with heap := l }) (s : State) (b : Byte) (h : P s) : P (s.addLeaf b) := by
  unfold State.addLeaf; split
  · exact h
  · exact h2 _ _ (h1 _ _ _ h)

/-- One merge of BUILD (42 R157). -/
theorem mergePair_keeps (P : State → Prop) (h1 : ∀ s h w, P s → P (State.newNode h w s))
    (h2 : ∀ s l, P s → P { s with heap := l }) (s : State) (a b) (h : P s) : P (mergePair a b s).final := by
  unfold mergePair; split
  · exact h2 _ _ h
  · exact h2 _ _ (h1 _ _ _ h)

/-- All of BUILD (42 R157). -/
theorem buildRun_keeps (P : State → Prop) (h0 : ∀ s, P s → P s.buildInit)
    (h1 : ∀ s h w, P s → P (State.newNode h w s)) (h2 : ∀ s l, P s → P { s with heap := l })
    (h3 : ∀ s, P s → P s.takeRoot) (s : State) (h : P s) : P (buildRun s).final := by
  unfold buildRun
  generalize allSymbols = l
  have : P (l.foldl State.addLeaf s.buildInit) := foldl_keeps P _ (fun s b hs => addLeaf_keeps P h1 h2 s b hs) _ _
      (h0 _ h)
  unfold mergeAll
  split
  · exact this
  · exact final_andThen P _ _ (mergeLoop_keeps P (fun s hs => mergePair_keeps P h1 h2 _ _ _ (h2 _ _
        (h2 _ _ hs))) _ _ this) h3

/-- All of GENCODE (43 R171). -/
theorem gencodeRun_keeps (P : State → Prop) (h0 : ∀ s, P s → P s.gencodeInit)
    (h1 : ∀ s b d p, P s → P (State.setCode b d p s)) (h2 : ∀ s l, P s → P { s with stk := l })
    (h3 : ∀ s, P s → P s.codesValid) (s : State) (h : P s) : P (gencodeRun s).final := by
  unfold gencodeRun gencodeTree
  split
  · exact h3 _ (h1 _ _ _ _ (h0 _ h))
  · refine final_andThen P _ _ (codeWalk_keeps P (fun s e r hs => ?_) _ _ (h2 _ _ (h0 _ h))) h3
    unfold State.walkOnce; split
    · exact h1 _ _ _ _ (h2 _ _ hs)
    · exact h2 _ _ hs

/-! ## The fields that no procedure changes (10 R33, R56) -/

/-- What only a bus transaction, a reset, `fail`, `complete` or the schedule changes. -/
structure HostSide where
  ie : Bool
  inDepth : Nat
  outDepth : Nat
  sizeEndian : Endian
  host : List HostAct
  turns : List Nat
  draws : Nat
  resp : BusResp
  state : RunState
  err : Err
  cmdCur : Byte
  deriving DecidableEq, Repr

/-- Those fields of a state. -/
def State.hostSide (s : State) : HostSide :=
  ⟨s.ie, s.inDepth, s.outDepth, s.sizeEndian, s.host, s.turns, s.draws, s.resp, s.state, s.err, s.cmdCur⟩

theorem encodeBits_hostSide (b n) (s : State) (x : HostSide)
    (h : State.hostSide s = x) : State.hostSide (encodeBits b n s).final = x := by
  induction n generalizing s with
  | zero => exact h
  | succ n ih =>
    simp only [encodeBits]; split
    · exact h
    · exact ih _ h

theorem decodeLoop_hostSide (n) (s : State) (x : HostSide)
    (h : State.hostSide s = x) : State.hostSide (decodeLoop n s).final = x :=
  decodeLoop_keeps (fun s => State.hostSide s = x) (fun _ h => h) (fun _ _ h => h) n s h

theorem decodeBit_hostSide (n) (s : State) (x : HostSide)
    (h : State.hostSide s = x) : State.hostSide (decodeBit (decodeLoop n) s).final = x :=
  decodeBit_keeps (fun s => State.hostSide s = x) (fun _ h => h) (fun _ _ h => h) _
      (fun s h => decodeLoop_hostSide n s x h) s h

theorem serLoop_hostSide (s : State) (x : HostSide)
    (h : State.hostSide s = x) : State.hostSide (serLoop s).final = x := by
  unfold serLoop; split
  · exact h
  · split <;> exact h

/-- No procedure changes them from its start to its first stop. -/
theorem startProc_hostSide (p s) (x : HostSide) (h : State.hostSide s = x) :
    State.hostSide (startProc p s).final = x := by
  cases p <;> simp only [startProc]
  · unfold needTvRun; split <;> exact h
  · unfold needCvRun; split <;> exact h
  · exact h
  · exact h
  · exact h
  · exact buildRun_keeps (fun s => State.hostSide s = x) (fun _ h => h) (fun _ _ _ h => h) (fun _ _ h => h)
        (fun _ h => h) s h
  · exact gencodeRun_keeps (fun s => State.hostSide s
        = x) (fun _ h => h) (fun _ _ _ _ h => h) (fun _ _ h => h) (fun _ h => h) s h
  · exact serLoop_hostSide _ _ h
  · exact h
  · exact h
  · exact h
  · exact h
  · exact decodeLoop_hostSide _ _ _ h
  · exact h

/-- No procedure changes them after an `in_next()`. -/
theorem afterIn_hostSide (k t s) (x : HostSide) (h : State.hostSide s = x) :
    State.hostSide (afterIn k t s).final = x := by
  cases k <;> simp only [afterIn]
  · unfold countToken; split
    · split <;> exact h
    · split <;> exact h
  · unfold encodeToken encodeEnd; split
    · split
      · exact h
      · split <;> exact h
    · split
      · exact h
      · split
        · exact h
        · exact encodeBits_hostSide _ _ _ _ h
  · unfold destreeMarker; split
    · exact h
    · split_ifs <;> exact h
  · unfold destreeSymbol; split
    · exact h
    · apply attach_keeps (fun s => State.hostSide s = x)
      · intro s h w hh; exact hh
      · intro s h hh; exact hh
      · intro s h hh; exact hh
      · exact h
  · unfold rdsizeToken; split
    · exact h
    · split <;> exact h
  · unfold decodeToken; split
    · exact h
    · exact decodeBit_hostSide _ _ _ h

/-- No procedure changes them after an `out_put`. -/
theorem afterOut_hostSide (k s) (x : HostSide) (h : State.hostSide s = x) :
    State.hostSide (afterOut k s).final = x := by
  cases k <;> simp only [afterOut]
  · exact h
  · exact serLoop_hostSide _ _ h
  · exact serLoop_hostSide _ _ h
  · unfold wrsizeAfter; split <;> exact h
  · exact encodeBits_hostSide _ _ _ _ h
  · unfold encodeAfterPad encodeEnd; split <;> exact h
  · exact decodeLoop_hostSide _ _ _ h
  · exact decodeLoop_hostSide _ _ _ h

/-- What no engine step changes. -/
theorem engineStep_hostSide (s : State) : ∃ x : HostSide, State.hostSide (engineStep s) = x ∧ x.ie = s.ie
    ∧ x.inDepth = s.inDepth ∧ x.outDepth = s.outDepth ∧ x.sizeEndian = s.sizeEndian ∧ x.host = s.host
    ∧ x.draws = s.draws ∧ x.turns = s.turns ∧ x.resp = s.resp := by
  have key : ∀ (todo : List Proc) (r : Run),
     (fun u : State => (u.ie, u.inDepth, u.outDepth, u.sizeEndian, u.host, u.draws, u.turns, u.resp)) (runOn todo r) =
     (fun u : State => (u.ie, u.inDepth, u.outDepth, u.sizeEndian, u.host, u.draws, u.turns, u.resp)) r.final := by
    intro todo r
    refine runOn_keeps (fun u => (fun u : State => (u.ie, u.inDepth, u.outDepth, u.sizeEndian, u.host, u.draws,
        u.turns, u.resp)) u = (fun u : State => (u.ie, u.inDepth, u.outDepth, u.sizeEndian, u.host, u.draws, u.turns,
        u.resp)) r.final) ?_ ?_ ?_ ?_ todo r rfl
    · intro p s h
      rw [← h]
      have := startProc_hostSide p s _ rfl
      simp only [State.hostSide, HostSide.mk.injEq] at this
      simp [this]
    · intro s r h; exact h
    · intro e s h; exact h
    · intro s h; exact h
  refine ⟨_, rfl, ?_⟩
  rcases engineStep_cases s with ⟨_, e⟩ | ⟨todo, hb, hr, e⟩ | ⟨k, todo, t, rest, hb, hr, hq, e⟩ | ⟨b, k, todo, hb, hr,
      hq, e⟩ <;> rw [e]
  · simp [State.hostSide]
  · have := key todo (.done s)
    simp [Run.final] at this
    simp [State.hostSide, this]
  · have := key todo (afterIn k t { s with inq := rest })
    have h2 := afterIn_hostSide k t { s with inq := rest } _ rfl
    simp only [State.hostSide, HostSide.mk.injEq] at h2
    simp only [Prod.mk.injEq] at this
    simp [State.hostSide, this, h2]
  · have := key todo (afterOut k { s with outq := s.outq ++ [b] })
    have h2 := afterOut_hostSide k { s with outq := s.outq ++ [b] } _ rfl
    simp only [State.hostSide, HostSide.mk.injEq] at h2
    simp only [Prod.mk.injEq] at this
    simp [State.hostSide, this, h2]

/-- What a turn of the engine leaves; it uses up one entry of the schedule. -/
theorem takeTurn_host (s : State) : (takeTurn s).ie = s.ie ∧ (takeTurn s).inDepth = s.inDepth
    ∧ (takeTurn s).outDepth = s.outDepth ∧ (takeTurn s).sizeEndian = s.sizeEndian ∧ (takeTurn s).host = s.host
    ∧ (takeTurn s).draws = s.draws ∧ (takeTurn s).turns = s.turns.tail ∧ (takeTurn s).resp = s.resp := by
  have h : ∀ n u, (runEngine n u).ie = u.ie ∧ (runEngine n u).inDepth = u.inDepth
      ∧ (runEngine n u).outDepth = u.outDepth ∧ (runEngine n u).sizeEndian = u.sizeEndian
      ∧ (runEngine n u).host = u.host ∧ (runEngine n u).draws = u.draws ∧ (runEngine n u).turns = u.turns
      ∧ (runEngine n u).resp = u.resp := by
    intro n
    induction n with
    | zero => intro u; simp
    | succ n ih =>
      intro u
      rw [runEngine_succ]
      obtain ⟨x, rfl, h⟩ := engineStep_hostSide u
      simp only [State.hostSide] at h
      have := ih (engineStep u)
      simp [this, h]
  unfold takeTurn
  split
  · rename_i ht; have := h s.fullTurn s; simp [this, ht]
  · rename_i n rest ht; have := h n { s with turns := rest }; simp [this, ht]

end Sys2Proof.Machine
end

