-- ==== Sys2Proof/Laws/Ends.lean ====
section
/-! SUPPORT. Laws of how a procedure ends: the points it may stop at, the errors it may raise, the length of the heap, and
what running on from there can do to STATE, ERR and the resume point. -/

namespace Sys2Proof.Machine

/-! ## Points and errors of a procedure -/

/-- The errors a procedure raises (60 R233). -/
def errsOf : Proc → List Err
  | .needTv => [.badSequence]
  | .needCv => [.badSequence]
  | .count => [.emptyInput, .countOverflow]
  | .build => [.noSymbols, .countOverflow]
  | .encode => [.noCode, .lengthMismatch]
  | .destree => [.treeEof, .treeBadMarker, .treeTooLarge]
  | .rdsize => [.sizeShort]
  | .decode => [.payloadTruncated]
  | _ => []

/-- How the procedure `p` may stop: only at its own points, with its own errors, and only GENCODE without end. -/
def StopsIn (p : Proc) : Run → Prop
  | .done _ => True
  | .waitIn k _ => procOfIn k = p
  | .waitOut _ k _ => procOfOut k = p
  | .failed e _ => e ∈ errsOf p
  | .endless _ => p = .gencode

theorem StopsIn_andThen {p r f} (h : StopsIn p r) (hf : ∀ s, StopsIn p (f s)) : StopsIn p (Run.andThen r f) := by
  cases r <;> simp_all [Run.andThen, StopsIn]

theorem mergeLoop_stops (n s) : StopsIn .build (mergeLoop n s) := by
  induction n generalizing s with
  | zero => trivial
  | succ n ih =>
    simp only [mergeLoop]; split
    · apply StopsIn_andThen _ ih
      unfold State.mergeOnce mergePair; split <;> simp [StopsIn, errsOf]
    · trivial

theorem codeWalk_stops (n s) : StopsIn .gencode (codeWalk n s) := by
  induction n generalizing s with
  | zero => unfold codeWalk; split <;> simp [StopsIn]
  | succ n ih => unfold codeWalk; split; · trivial
                 exact ih _

theorem decodeBit_stops (f) (hf : ∀ s, StopsIn .decode (f s)) (s) : StopsIn .decode (decodeBit f s) := by
  unfold decodeBit decodeAt
  split
  · rfl
  · split
    · rfl
    · exact hf _

theorem decodeLoop_stops (n s) : StopsIn .decode (decodeLoop n s) := by
  induction n generalizing s with
  | zero => simp only [decodeLoop]; split <;> simp [StopsIn, procOfIn]
  | succ n ih => simp only [decodeLoop]; split; · trivial
                 exact decodeBit_stops _ ih _

theorem encodeBits_stops (b n s) : StopsIn .encode (encodeBits b n s) := by
  induction n generalizing s with
  | zero => rfl
  | succ n ih => simp only [encodeBits]; split; · rfl
                 exact ih _

theorem attach_stops (l c s) : StopsIn .destree (attach l c s) := by
  induction l generalizing c s with
  | nil => trivial
  | cons e l ih => simp only [attach]; split; · exact ih _ _
                   rfl

theorem serLoop_stops (s) : StopsIn .sertree (serLoop s) := by
  unfold serLoop; split; · trivial
  split <;> rfl

theorem encodeEnd_stops (s) : StopsIn .encode (encodeEnd s) := by unfold encodeEnd; split <;> simp [StopsIn, errsOf]

/-- How every procedure stops from its start. -/
theorem startProc_stops (p s) : StopsIn p (startProc p s) := by
  cases p <;> simp only [startProc]
  · unfold needTvRun; split <;> simp [StopsIn, errsOf]
  · unfold needCvRun; split <;> simp [StopsIn, errsOf]
  · trivial
  · trivial
  · rfl
  · unfold buildRun
    generalize allSymbols.foldl State.addLeaf s.buildInit = u
    unfold mergeAll; split
    · simp [StopsIn, errsOf]
    · exact StopsIn_andThen (mergeLoop_stops _ _) (fun _ => trivial)
  · unfold gencodeRun gencodeTree; split
    · trivial
    · exact StopsIn_andThen (codeWalk_stops _ _) (fun _ => trivial)
  · exact serLoop_stops _
  · rfl
  · rfl
  · rfl
  · rfl
  · exact decodeLoop_stops _ _
  · trivial

/-- How a procedure stops after an `in_next()`. -/
theorem afterIn_stops (k t s) : StopsIn (procOfIn k) (afterIn k t s) := by
  cases k <;> simp only [afterIn, procOfIn]
  · unfold countToken; split <;> split <;> simp [StopsIn, errsOf, procOfIn]
  · unfold encodeToken; split
    · split
      · rfl
      · exact encodeEnd_stops _
    · split
      · simp [StopsIn, errsOf]
      · split
        · simp [StopsIn, errsOf]
        · exact encodeBits_stops _ _ _
  · unfold destreeMarker; split
    · simp [StopsIn, errsOf]
    · split_ifs <;> simp [StopsIn, errsOf, procOfIn]
  · unfold destreeSymbol; split
    · simp [StopsIn, errsOf]
    · exact attach_stops _ _ _
  · unfold rdsizeToken; split
    · simp [StopsIn, errsOf]
    · split <;> simp [StopsIn, procOfIn]
  · unfold decodeToken; split
    · simp [StopsIn, errsOf]
    · exact decodeBit_stops _ (decodeLoop_stops _) _

/-- How a procedure stops after an `out_put`. -/
theorem afterOut_stops (k s) : StopsIn (procOfOut k) (afterOut k s) := by
  cases k <;> simp only [afterOut, procOfOut]
  · rfl
  · exact serLoop_stops _
  · exact serLoop_stops _
  · unfold wrsizeAfter; split <;> simp [StopsIn, procOfOut]
  · exact encodeBits_stops _ _ _
  · exact encodeEnd_stops _
  · exact decodeLoop_stops _ _
  · exact decodeLoop_stops _ _

/-- Everything running on can do to CMD_CUR, STATE, ERR and the resume point. -/
theorem runOn_stops (prog : List Proc) (p : Proc) (todo : List Proc) (r : Run) (hg : StopsIn p r)
    (hp : (p :: todo) <:+ prog) (hbusy : r.final.state = .busy) (herr : r.final.err = .ok) :
    (runOn todo r).cmdCur = r.final.cmdCur ∧
    (((runOn todo r).state = .busy ∧ (runOn todo r).err = .ok ∧
        ((∃ k l, (runOn todo r).resume = .inNext k l ∧ (procOfIn k :: l) <:+ prog)
            ∨ (∃ b k l, (runOn todo r).resume = .outPut b k l ∧ (procOfOut k :: l) <:+ prog)
          ∨ ((runOn todo r).resume = .stuck ∧ .gencode ∈ prog)))
    ∨ ((runOn todo r).state = .done ∧ (runOn todo r).err = .ok ∧ (runOn todo r).resume = .idle)
    ∨ ((runOn todo r).state = .error ∧ (runOn todo r).resume = .idle ∧ ∃ q ∈ prog, (runOn todo r).err ∈ errsOf q)) := by
  have hmem : p ∈ prog := List.IsSuffix.subset hp (by simp)
  induction todo generalizing p r with
  | nil =>
    cases r with
    | done s => rw [runOn_nil_done]; refine ⟨rfl, .inr (.inl ⟨rfl, herr, rfl⟩)⟩
    | waitIn k s => rw [runOn_waitIn]; exact ⟨rfl, .inl ⟨hbusy, herr, .inl ⟨k, _, rfl, by rw [show procOfIn k = p from hg]; exact hp⟩⟩⟩
    | waitOut b k s => rw [runOn_waitOut]; exact ⟨rfl, .inl ⟨hbusy, herr, .inr (.inl ⟨b, k, _, rfl, by rw [show procOfOut k = p from hg]; exact hp⟩)⟩⟩
    | failed e s => rw [runOn_failed]; exact ⟨rfl, .inr (.inr ⟨rfl, rfl, p, hmem, hg⟩)⟩
    | endless s => rw [runOn_endless]; exact ⟨rfl, .inl ⟨hbusy, herr, .inr (.inr ⟨rfl, by rw [show p = _ from hg] at hmem; exact hmem⟩)⟩⟩
  | cons q l ih =>
    cases r with
    | done s =>
      rw [runOn_cons_done]
      have hs := startProc_hostSide q s _ rfl
      have e1 : (startProc q s).final.state = s.state := congrArg HostSide.state hs
      have e2 : (startProc q s).final.err = s.err := congrArg HostSide.err hs
      have e3 : (startProc q s).final.cmdCur = s.cmdCur := congrArg HostSide.cmdCur hs
      have := ih q (startProc q s) (startProc_stops q s) ((List.suffix_cons _ _).trans hp) (e1.trans hbusy)
          (e2.trans herr) (List.IsSuffix.subset hp (by simp))
      rw [e3] at this
      exact this
    | waitIn k s => rw [runOn_waitIn]; exact ⟨rfl, .inl ⟨hbusy, herr, .inl ⟨k, _, rfl, by rw [show procOfIn k = p from hg]; exact hp⟩⟩⟩
    | waitOut b k s => rw [runOn_waitOut]; exact ⟨rfl, .inl ⟨hbusy, herr, .inr (.inl ⟨b, k, _, rfl, by rw [show procOfOut k = p from hg]; exact hp⟩)⟩⟩
    | failed e s => rw [runOn_failed]; exact ⟨rfl, .inr (.inr ⟨rfl, rfl, p, hmem, hg⟩)⟩
    | endless s => rw [runOn_endless]; exact ⟨rfl, .inl ⟨hbusy, herr, .inr (.inr ⟨rfl, by rw [show p = _ from hg] at hmem; exact hmem⟩)⟩⟩

/-- The errors of the procedures of a command are its errors (60 R233), but for NO_SYMBOLS of BUILD in COMPRESS, which is
unreachable there (47 R222). -/
theorem errs_possible (i : Instr) (q : Proc) (hq : q ∈ programOf i) (e : Err) (he : e ∈ errsOf q) :
    e ∈ possibleErrors i ∨ i = .compress ∧ q = .build ∧ e = .noSymbols := by
  revert e q; cases i <;> decide

/-! ## The heap and the stack at the end of BUILD and GENCODE -/

theorem heapSwap_length (q i j) : (heapSwap q i j).length = q.length := by simp [heapSwap]

theorem siftUp_length (wt n q i) : (siftUp wt n q i).length = q.length := by
  induction n generalizing q i with
  | zero => rfl
  | succ n ih => unfold siftUp; split_ifs <;> simp [ih, heapSwap_length]

theorem siftDown_length (wt n q i) : (siftDown wt n q i).length = q.length := by
  induction n generalizing q i with
  | zero => rfl
  | succ n ih => unfold siftDown; split_ifs <;> simp [ih, heapSwap_length]

/-- PQ.insert adds one entry (42 R153). -/
theorem heapInsert_length (wt q h) : (heapInsert wt q h).length = q.length + 1 := by simp [heapInsert, siftUp_length]

/-- PQ.extract_min removes one entry (42 R154). -/
theorem heapRest_length (wt q) : (heapRest wt q).length = q.length - 1 := by
  unfold heapRest; split
  · simp_all
  · simp [siftDown_length]

theorem mergePair_cases (a b) (s : State) : (∃ u, mergePair a b s = .failed .countOverflow u ∧ u.heap = [])
    ∨ (∃ u, mergePair a b s = .done u ∧ u.heap.length = s.heap.length + 1) := by
  unfold mergePair; split
  · exact .inl ⟨_, rfl, rfl⟩
  · exact .inr ⟨_, rfl, by simp [State.pqInsert, heapInsert_length, State.newNode, State.setNode, State.setWeight]⟩

theorem mergeOnce_cases (s : State) (h : 1 < s.heap.length) :
    (∃ u, s.mergeOnce = .failed .countOverflow u ∧ u.heap = [])
    ∨ (∃ u, s.mergeOnce = .done u ∧ u.heap.length = s.heap.length - 1) := by
  rcases mergePair_cases s.pqTop s.pqDrop.pqTop s.pqDrop.pqDrop with ⟨u, e, h1⟩ | ⟨u, e, h1⟩
  · exact .inl ⟨u, e, h1⟩
  · refine .inr ⟨u, e, ?_⟩
    rw [h1]; simp [State.pqDrop, heapRest_length]; omega

/-- The merge loop ends with at most one entry, or fails with an empty heap. -/
theorem mergeLoop_heap (n) (s : State) (h : s.heap.length ≤ n + 1) :
    (∃ u, mergeLoop n s = .failed .countOverflow u ∧ u.heap = [])
    ∨ (∃ u, mergeLoop n s = .done u ∧ u.heap.length ≤ 1) := by
  induction n generalizing s with
  | zero => exact .inr ⟨s, rfl, h⟩
  | succ n ih =>
    unfold mergeLoop
    split
    · rename_i h1
      rcases mergeOnce_cases s h1 with ⟨u, e, h2⟩ | ⟨u, e, h2⟩
      · exact .inl ⟨u, by rw [e]; rfl, h2⟩
      · rw [e]; exact ih u (by omega)
    · exact .inr ⟨s, rfl, by omega⟩

theorem mergeAll_heap (s : State) : (∃ u e, mergeAll s = .failed e u ∧ u.heap = [])
    ∨ (∃ u, mergeAll s = .done u ∧ u.heap = []) := by
  unfold mergeAll
  split
  · rename_i h; exact .inl ⟨s, _, rfl, by simpa using h⟩
  · rcases mergeLoop_heap s.heap.length s (by omega) with ⟨u, e, h⟩ | ⟨u, e, h⟩
    · exact .inl ⟨u, _, by rw [e]; rfl, h⟩
    · refine .inr ⟨u.takeRoot, by rw [e]; rfl, ?_⟩
      simp only [State.takeRoot, State.pqDrop, heapRest]
      rw [if_pos (by omega)]

/-- BUILD ends with an empty heap. -/
theorem buildRun_heap (s : State) : (∃ u e, buildRun s = .failed e u ∧ u.heap = [])
    ∨ (∃ u, buildRun s = .done u ∧ u.heap = []) := mergeAll_heap _

theorem codeWalk_cons (n) (s : State) (e r) (h : s.stk = e :: r) : codeWalk (n+1) s = codeWalk n (s.walkOnce e r) := by
  rw [codeWalk.eq_def]; simp only [h]

/-- The walk that ends leaves the stack empty. -/
theorem codeWalk_stk (n) (s : State) : (∃ u, codeWalk n s = .done u ∧ u.stk = [])
    ∨ (∃ u, codeWalk n s = .endless u) := by
  induction n generalizing s with
  | zero =>
    cases h : s.stk with
    | nil => exact .inl ⟨s, by simp [codeWalk, h], h⟩
    | cons e r => exact .inr ⟨s, by simp [codeWalk, h]⟩
  | succ n ih =>
    cases h : s.stk with
    | nil => exact .inl ⟨s, by simp [codeWalk, h], h⟩
    | cons e r => rw [codeWalk_cons n s e r h]; exact ih _

/-- GENCODE that ends leaves an empty stack empty. -/
theorem gencodeRun_stk (s : State) (h : s.stk = []) :
    (∃ u, gencodeRun s = .done u ∧ u.stk = []) ∨ (∃ u, gencodeRun s = .endless u) := by
  unfold gencodeRun gencodeTree
  split
  · exact .inl ⟨_, rfl, h⟩
  · rcases codeWalk_stk 511 { s.gencodeInit with stk := [{ h := s.gencodeInit.root }] } with ⟨u, e, h⟩ | ⟨u, e⟩
    · exact .inl ⟨u.codesValid, by rw [e]; rfl, h⟩
    · exact .inr ⟨u, by rw [e]; rfl⟩

/-- How BUILD ends: it never stops at a primitive, and the heap is empty. -/
inductive BuildEnd : Run → Prop where
  | failed (e u) : u.heap = [] → e ≠ .ok → BuildEnd (.failed e u)
  | done (u) : u.heap = [] → BuildEnd (.done u)

theorem mergeAll_end (v : State) : ∃ u, u.heap = [] ∧ ((∃ e, e ≠ .ok ∧ mergeAll v = .failed e u)
    ∨ mergeAll v = .done u) := by
    unfold mergeAll
    split
    · rename_i h; exact ⟨v, by simpa using h, .inl ⟨_, by simp, rfl⟩⟩
    · rcases mergeLoop_heap v.heap.length v (by omega) with ⟨w, e1, h1⟩ | ⟨w, e1, h1⟩ <;> rw [e1]
      · exact ⟨w, h1, .inl ⟨_, by simp, rfl⟩⟩
      · refine ⟨w.takeRoot, ?_, .inr rfl⟩
        simp only [State.takeRoot, State.pqDrop, heapRest]
        rw [if_pos (by omega)]

theorem buildRun_end (s : State) : BuildEnd (buildRun s) := by
    unfold buildRun
    generalize allSymbols.foldl State.addLeaf s.buildInit = v
    obtain ⟨u, h, ⟨e, he, e1⟩ | e1⟩ := mergeAll_end v <;> rw [e1]
    · exact .failed _ _ h he
    · exact .done _ h

/-- The leaf loop leaves FREQ, and its heap does not shrink. -/
theorem addLeaves_heap (l : List Byte) (s : State) :
    (l.foldl State.addLeaf s).freq = s.freq ∧ s.heap.length ≤ (l.foldl State.addLeaf s).heap.length
      ∧ ∀ b ∈ l, s.freqAt b ≠ 0 → s.heap.length < (l.foldl State.addLeaf s).heap.length := by
  induction l generalizing s with
  | nil => simp
  | cons c l ih =>
    obtain ⟨h1, h2, h3⟩ := ih (s.addLeaf c)
    have hf : (s.addLeaf c).freq = s.freq := by unfold State.addLeaf; split <;> rfl
    have hl : s.heap.length ≤ (s.addLeaf c).heap.length ∧ (s.freqAt c ≠ 0 → s.heap.length < (s.addLeaf c).heap.length) := by
      unfold State.addLeaf
      split
      · rename_i h0; exact ⟨le_refl _, fun h => absurd h0 h⟩
      · simp [State.pqInsert, heapInsert_length, State.newNode, State.setNode, State.setWeight]
    simp only [List.foldl_cons]
    refine ⟨h1.trans hf, hl.1.trans h2, fun b hb hne => ?_⟩
    obtain rfl | hb := List.mem_cons.1 hb
    · exact lt_of_lt_of_le (hl.2 hne) h2
    · exact lt_of_le_of_lt hl.1 (h3 b hb (by unfold State.freqAt at *; rw [hf]; exact hne))

theorem mem_allSymbols (b : Byte) : b ∈ allSymbols := by
  unfold allSymbols
  exact List.mem_map.2 ⟨b.toNat, List.mem_range.2 b.isLt, by simp⟩

/-- BUILD of a histogram with a nonzero entry does not fail with NO_SYMBOLS (42 R159). -/
theorem buildRun_has_symbols (s : State) (b : Byte) (hb : s.freqAt b ≠ 0) (u : State) : buildRun s ≠ .failed .noSymbols u := by
  have h := (addLeaves_heap allSymbols s.buildInit).2.2 b (mem_allSymbols b) hb
  unfold buildRun
  revert h
  generalize allSymbols.foldl State.addLeaf s.buildInit = v
  intro h hm
  unfold mergeAll at hm
  rw [if_neg (by omega)] at hm
  rcases mergeLoop_heap v.heap.length v (by omega) with ⟨w, e1, -⟩ | ⟨w, e1, -⟩ <;> rw [e1] at hm <;> cases hm

end Sys2Proof.Machine
end

