-- ==== Sys2Proof/Laws/Bus.lean ====
section
/-! SUPPORT. Laws of the bus and of the step: everything an act of the host can do to the block, the shape of every step,
and how a property that acts, accepted commands and engine steps keep is kept by every step. -/

namespace Sys2Proof.Machine

/-- The meaning of a command in a state that is not BUSY. -/
theorem exec_ready (s : State) (i : Instr) (h : s.state ≠ .busy) :
    exec i s = .next (takeTurn (if i = .nop then s.acknowledge else s.accept (opcodeOf i) (programOf i))) := by
  cases i <;> simp [exec, execNop, execClr, execFlush, execCount, execBuild, execGencode, execSertree, execWrsize,
      execEncode, execDestree, execRdsize, execDecode, execCompress, execDecompress, issue, State.busy, h, opcodeOf,
      programOf]

/-- The meaning of a command in a BUSY state. -/
theorem exec_busy (s : State) (i : Instr) (h : s.state = .busy) : exec i s = .next (takeTurn s.refuse) := by
  cases i <;> simp [exec, execNop, execClr, execFlush, execCount, execBuild, execGencode, execSertree, execWrsize,
      execEncode, execDestree, execRdsize, execDecode, execCompress, execDecompress, issue, State.busy, h]

/-- Everything an act of the host can do to the block. -/
inductive HostEffect (s : State) : State → Prop where
  | answered (r : BusResp) : HostEffect s { s with resp := r }
  | free (r : BusResp) : HostEffect s { s with resp := r, draws := s.draws + 1 }
  | published (r : BusResp) (p : DWord) : s.state = .busy → HostEffect s { s with resp := r, published := p, draws := s.draws + 1 }
  | popped (r : BusResp) (b : Byte) (rest : List Byte) : s.outq = b :: rest → HostEffect s { s with outq := rest, resp := r }
  | pushed (r : BusResp) (t : Token) : s.inq.length < s.inDepth → HostEffect s { s with inq := s.inq ++ [t], resp := r }
  | enabled (r : BusResp) (e : Bool) : HostEffect s { s with ie := e, resp := r }
  | resetDone (r : BusResp) : HostEffect s { s.resetBlock with resp := r }
  | illegal (v : Word) : s.state ≠ .busy → HostEffect s (s.illegal v)
  | sized (r : BusResp) (n : DWord) : s.state ≠ .busy → HostEffect s { s with size := n, resp := r }
  | counted (r : BusResp) (b : Byte) (n : DWord) : s.state ≠ .busy →
      HostEffect s { s with freq := Memory.write s.freq b.toNat n, tv := false, cv := false, resp := r }

/-- Every act of the host has one of these effects. -/
theorem hostAct_effect (a : HostAct) (s : State) : HostEffect s (hostAct a s) := by
  have hif : ∀ ok d, HostEffect s (s.answerIf ok d) := by
    intro ok d; unfold State.answerIf; split
    · exact .answered _
    · exact .free _
  cases a with
  | reset => exact .resetDone _
  | read bits off =>
    simp only [hostAct]
    split
    · rename_i l hl
      cases l <;> simp only [readLoc] <;> first | exact hif _ _ | exact .answered _ | skip
      · unfold State.popOut; split
        · exact .answered _
        · rename_i b rest h; exact .popped _ b rest h
      · unfold State.readProgress; split
        · rename_i h; exact .published _ _ ((busy_iff s).1 h)
        · exact .answered _
    · exact .answered _
  | write bits off v =>
    simp only [hostAct]
    split
    · rename_i l hl
      cases l <;> simp only [writeLoc] <;> first | exact .answered _ | skip
      · unfold writeIllegal; split
        · exact .answered _
        · rename_i h; exact .illegal v (by simpa [State.busy] using h)
      · unfold writeCtrl; split
        · exact .resetDone _
        · exact .enabled _ _
      · unfold writeSize; split
        · exact .answered _
        · rename_i h; exact .sized _ _ (by simpa [State.busy] using h)
      · unfold State.pushIn; split
        · rename_i h; exact .pushed _ _ h
        · exact .answered _
      · unfold State.pushIn; split
        · rename_i h; exact .pushed _ _ h
        · exact .answered _
      · unfold writeFreq; split
        · exact .answered _
        · rename_i h; exact .counted _ _ _ (by simpa [State.busy] using h)
    · exact .answered _

/-- Everything a step can do: an acknowledge, an accepted command or another act, and then a turn of the engine. -/
theorem step_eq (s : State) :
    (s.host = [] ∧ step s = .next (takeTurn s)) ∨
    (∃ a rest, s.host = a :: rest ∧
     ((∃ i, commandOf a = some i ∧ s.state ≠ .busy ∧ i = .nop
         ∧ step s = .next (takeTurn (State.acknowledge { s with host := rest })))
     ∨ (∃ i, commandOf a = some i ∧ s.state ≠ .busy ∧ i ≠ .nop
         ∧ step s = .next (takeTurn (State.accept (opcodeOf i) (programOf i) { s with host := rest })))
     ∨ (∃ u, HostEffect { s with host := rest } u ∧ step s = .next (takeTurn u)))) := by
  cases h : s.host with
  | nil => left; simp [step, h]
  | cons a rest =>
    right
    refine ⟨a, rest, rfl, ?_⟩
    cases hc : commandOf a with
    | none =>
      right; right
      exact ⟨_, hostAct_effect a _, by simp [step, h, hc]⟩
    | some i =>
      have e : step s = exec i { s with host := rest } := by simp [step, h, hc]
      rw [e]
      by_cases hb : s.state = .busy
      · right; right
        exact ⟨_, .answered _, exec_busy _ i hb⟩
      · by_cases hi : i = .nop
        · left; exact ⟨i, rfl, hb, hi, by rw [exec_ready { s with host := rest } i hb, if_pos hi]⟩
        · right; left; exact ⟨i, rfl, hb, hi, by rw [exec_ready { s with host := rest } i hb, if_neg hi]⟩

/-- A property kept by acts, acknowledges, accepted commands and engine steps, that does not look at the host's coming acts
or the schedule, is kept by every step. -/
theorem step_keeps (P : State → Prop) (hhost : ∀ s l, P s → P { s with host := l })
    (hturn : ∀ s l, P s → P { s with turns := l })
    (heng : ∀ s, P s → P (engineStep s)) (hack : ∀ s, s.state ≠ .busy → P s → P s.acknowledge)
    (hacc : ∀ s i, i ≠ .nop → s.state ≠ .busy → P s → P (s.accept (opcodeOf i) (programOf i)))
    (hact : ∀ s u, HostEffect s u → P s → P u) (s t : State) (h : P s) (hst : step s = .next t) : P t := by
  have ht := takeTurn_keeps P heng hturn
  rcases step_eq s with ⟨_, e⟩ | ⟨a, rest, _, ⟨i, _, hb, _, e⟩ | ⟨i, _, hb, hi, e⟩ | ⟨u, hu,
      e⟩⟩ <;> rw [e] at hst <;> cases hst
  · exact ht _ h
  · exact ht _ (hack _ hb (hhost _ _ h))
  · exact ht _ (hacc _ i hi hb (hhost _ _ h))
  · exact ht _ (hact _ _ hu (hhost _ _ h))

/-- Every step answers a next state. -/
theorem step_next (s : State) : ∃ t, step s = .next t := by
  rcases step_eq s with ⟨_, e⟩ | ⟨a, rest, _, ⟨i, _, hb, _, e⟩ | ⟨i, _, hb, hi, e⟩ | ⟨u, hu, e⟩⟩ <;> exact ⟨_, e⟩

end Sys2Proof.Machine
end

