-- ==== Sys2Proof/Laws/Memory.lean ====
section
/-! SUPPORT. Laws of the table memories: what a read gives after a write, and that a write keeps the canonical form. -/

namespace Sys2Proof.Machine

variable {w : Nat}

@[simp] theorem Memory.read_nil (i : Nat) : Memory.read ([] : Memory w) i = 0#w := rfl

@[simp] theorem Memory.wf_nil (cap : Nat) : Memory.wf cap ([] : Memory w) = true := rfl

/-- The canonical form, entry by entry. -/
theorem Memory.wf_cons (cap j : Nat) (v : BitVec w) (rest : Memory w) :
    Memory.wf cap ((j, v) :: rest) = true ↔
      j < cap ∧ v ≠ 0#w ∧ (∀ e ∈ rest, j < e.1) ∧ Memory.wf cap rest = true := by
  simp [Memory.wf, and_assoc]

/-- An index below every listed one reads as 0. -/
theorem Memory.read_of_lt (m : Memory w) (i : Nat) (h : ∀ e ∈ m, i < e.1) : Memory.read m i = 0#w := by
  induction m with
  | nil => rfl
  | cons e rest ih =>
    obtain ⟨j, v⟩ := e
    have hj : i < j := h (j, v) (by simp)
    simp [Memory.read, hj.ne, ih (fun e he => h e (List.mem_cons_of_mem _ he))]

/-- A read of another index is not changed by a write. -/
theorem Memory.read_write_ne (m : Memory w) (i k : Nat) (v : BitVec w) (h : k ≠ i) :
    Memory.read (Memory.write m i v) k = Memory.read m k := by
  induction m with
  | nil => by_cases hv : v = 0#w <;> simp [Memory.write, Memory.read, hv, h]
  | cons e rest ih =>
    obtain ⟨j, u⟩ := e
    simp only [Memory.write]
    split_ifs with h1 h2 h3 h4 <;> simp_all [Memory.read]

/-- A read after a write to the same index gives the value written. -/
theorem Memory.read_write_same (cap : Nat) (m : Memory w) (i : Nat) (v : BitVec w) (h : Memory.wf cap m = true) :
    Memory.read (Memory.write m i v) i = v := by
  induction m with
  | nil => by_cases hv : v = 0#w <;> simp [Memory.write, Memory.read, hv]
  | cons e rest ih =>
    obtain ⟨j, u⟩ := e
    obtain ⟨-, -, hlt, hrest⟩ := (Memory.wf_cons ..).1 h
    simp only [Memory.write]
    split_ifs with h1 h2 h3 h4
    · subst h2
      exact Memory.read_of_lt _ _ (by
        intro e he
        rcases List.mem_cons.1 he with rfl | he
        · exact h1
        · exact h1.trans (hlt e he))
    · simp [Memory.read]
    · subst h3 h4
      exact Memory.read_of_lt _ _ hlt
    · simp [Memory.read]
    · simp [Memory.read, h3, ih hrest]

/-- Every index listed after a write was listed before, or is the index written. -/
theorem Memory.mem_write (m : Memory w) (i : Nat) (v : BitVec w) (e : Nat × BitVec w)
    (he : e ∈ Memory.write m i v) : e.1 = i ∨ e ∈ m := by
  induction m with
  | nil => by_cases hv : v = 0#w <;> simp_all [Memory.write]
  | cons f rest ih =>
    obtain ⟨j, u⟩ := f
    simp only [Memory.write] at he
    split_ifs at he with h1 h2 h3 h4
    · exact .inr he
    · rcases List.mem_cons.1 he with rfl | he
      · exact .inl rfl
      · exact .inr he
    · exact .inr (List.mem_cons_of_mem _ he)
    · rcases List.mem_cons.1 he with rfl | he
      · exact .inl rfl
      · exact .inr (List.mem_cons_of_mem _ he)
    · rcases List.mem_cons.1 he with rfl | he
      · exact .inr (by simp)
      · exact (ih he).imp_right (List.mem_cons_of_mem _)

/-- A write inside the table keeps the canonical form. -/
theorem Memory.wf_write (cap : Nat) (m : Memory w) (i : Nat) (v : BitVec w) (hi : i < cap)
    (h : Memory.wf cap m = true) : Memory.wf cap (Memory.write m i v) = true := by
  induction m with
  | nil => by_cases hv : v = 0#w <;> simp [Memory.write, Memory.wf, hv, hi]
  | cons e rest ih =>
    obtain ⟨j, u⟩ := e
    obtain ⟨hj, hu, hlt, hrest⟩ := (Memory.wf_cons ..).1 h
    simp only [Memory.write]
    split_ifs with h1 h2 h3 h4
    · exact h
    · refine (Memory.wf_cons ..).2 ⟨hi, h2, ?_, h⟩
      intro e he
      rcases List.mem_cons.1 he with rfl | he
      · exact h1
      · exact h1.trans (hlt e he)
    · exact hrest
    · subst h3
      exact (Memory.wf_cons ..).2 ⟨hi, h4, hlt, hrest⟩
    · refine (Memory.wf_cons ..).2 ⟨hj, hu, ?_, ih hrest⟩
      intro e he
      rcases Memory.mem_write rest i v e he with rfl | he
      · omega
      · exact hlt e he

/-- Two tables in canonical form that read alike everywhere are equal data. -/
theorem Memory.ext_of_read (cap : Nat) (m n : Memory w) (hm : Memory.wf cap m = true) (hn : Memory.wf cap n = true)
    (h : ∀ i, Memory.read m i = Memory.read n i) : m = n := by
  induction m generalizing n with
  | nil =>
    cases n with
    | nil => rfl
    | cons e rest =>
      obtain ⟨j, u⟩ := e
      have := h j
      exact absurd (by simpa [Memory.read] using this.symm) ((Memory.wf_cons ..).1 hn).2.1
  | cons e rest ih =>
    obtain ⟨j, u⟩ := e
    obtain ⟨-, hu, hlt, hrest⟩ := (Memory.wf_cons ..).1 hm
    cases n with
    | nil =>
      exact absurd (by simpa [Memory.read] using h j) hu
    | cons f rest' =>
      obtain ⟨k, v⟩ := f
      obtain ⟨-, hv, hlt', hrest'⟩ := (Memory.wf_cons ..).1 hn
      have hjk : j = k := by
        rcases Nat.lt_trichotomy j k with hl | hl | hl
        · have := h j
          rw [Memory.read_of_lt ((k, v) :: rest') j (by
            intro e he
            rcases List.mem_cons.1 he with rfl | he
            · exact hl
            · exact hl.trans (hlt' e he))] at this
          exact absurd (by simpa [Memory.read] using this) hu
        · exact hl
        · have := h k
          rw [Memory.read_of_lt ((j, u) :: rest) k (by
            intro e he
            rcases List.mem_cons.1 he with rfl | he
            · exact hl
            · exact hl.trans (hlt e he))] at this
          exact absurd (by simpa [Memory.read] using this.symm) hv
      subst hjk
      have huv : u = v := by simpa [Memory.read] using h j
      subst huv
      rw [ih rest' hrest hrest' (fun i => ?_)]
      by_cases hi : i = j
      · subst hi
        rw [Memory.read_of_lt rest _ hlt, Memory.read_of_lt rest' _ hlt']
      · simpa [Memory.read, hi] using h i

end Sys2Proof.Machine
end

