-- ==== Sys2Proof/Laws/PerInstr.lean ====
section
/-! SUPPORT. The per-instruction family `Codec`: what holds of every command as syntax (30 R100, R103, R110): it is well-formed,
its word is a well-formed word with zeros in bits 31:8, and decoding that word gives it back. -/

namespace Sys2Proof.Laws.Codec

/-- The word of the command is a legal word, and decodes to the command. -/
def Statement (i : Sys2Proof.Instr) : Prop :=
  i.wellFormed = true ∧ Sys2Proof.wordWellFormed (Sys2Proof.encode i) = true
    ∧ Sys2Proof.decode (Sys2Proof.encode i) = .ok i
    ∧ Sys2Proof.decodeTableWord 32 (Sys2Proof.encode i).toNat = some i

theorem nop : Statement .nop := by unfold Statement; decide

theorem clr : Statement .clr := by unfold Statement; decide

theorem flush : Statement .flush := by unfold Statement; decide

theorem count : Statement .count := by unfold Statement; decide

theorem build : Statement .build := by unfold Statement; decide

theorem gencode : Statement .gencode := by unfold Statement; decide

theorem sertree : Statement .sertree := by unfold Statement; decide

theorem wrsize : Statement .wrsize := by unfold Statement; decide

theorem encode : Statement .encode := by unfold Statement; decide

theorem destree : Statement .destree := by unfold Statement; decide

theorem rdsize : Statement .rdsize := by unfold Statement; decide

theorem decode : Statement .decode := by unfold Statement; decide

theorem compress : Statement .compress := by unfold Statement; decide

theorem decompress : Statement .decompress := by unfold Statement; decide

end Sys2Proof.Laws.Codec
end

