-- ==== Sys2Proof/Laws/Queues.lean ====
section
/-! SUPPORT. Laws of the queues (20 R84): no procedure but FLUSH looks at IN or OUT, so a procedure run with other queues
stops at the same point in the same state but for the queues. -/

namespace Sys2Proof.Machine

/-- `s` with other queues. -/
def State.withQueues (q : List Token) (o : List Byte) (s : State) : State := { s with inq := q, outq := o }

/-- A stop with its state changed. -/
def Run.map (f : State → State) : Run → Run
  | .done s => .done (f s)
  | .waitIn k s => .waitIn k (f s)
  | .waitOut b k s => .waitOut b k (f s)
  | .failed e s => .failed e (f s)
  | .endless s => .endless (f s)
section
variable (q : List Token) (o : List Byte)

theorem Run.map_withQueues_andThen (r : Run) (f g : State → Run)
    (h : ∀ s, g (State.withQueues q o s) = Run.map (State.withQueues q o) (f s)) :
    (Run.map (State.withQueues q o) r).andThen g = Run.map (State.withQueues q o) (r.andThen f) := by
  cases r <;> simp [Run.map, Run.andThen, h]

theorem foldl_comm {α} (f : State → α → State) (hf : ∀ s a,
    f (State.withQueues q o s) a = State.withQueues q o (f s a)) (l : List α)
    (s : State) : l.foldl f (State.withQueues q o s) = State.withQueues q o (l.foldl f s) := by
  induction l generalizing s with
  | nil => rfl
  | cons a l ih => simp only [List.foldl_cons, hf, ih]

theorem addLeaf_q (s : State) (b) : State.addLeaf (State.withQueues q o s) b = State.withQueues q o (s.addLeaf b) := by
  unfold State.addLeaf
  by_cases h : s.freqAt b = 0
  · rw [if_pos h, if_pos (show (State.withQueues q o s).freqAt b = 0 from h)]
  · rw [if_neg h, if_neg (show ¬ (State.withQueues q o s).freqAt b = 0 from h)]; rfl

theorem mergePair_q (a b) (s : State) : mergePair a b (State.withQueues q o s)
    = Run.map (State.withQueues q o) (mergePair a b s) := by
  unfold mergePair
  by_cases h : 2 ^ 64 ≤ s.weightSum a b
  · rw [if_pos h, if_pos (show 2 ^ 64 ≤ (State.withQueues q o s).weightSum a b from h)]; rfl
  · rw [if_neg h, if_neg (show ¬ 2 ^ 64 ≤ (State.withQueues q o s).weightSum a b from h)]; rfl

theorem mergeLoop_q (n) (s : State) : mergeLoop n (State.withQueues q o s)
    = Run.map (State.withQueues q o) (mergeLoop n s) := by
  induction n generalizing s with
  | zero => rfl
  | succ n ih =>
    unfold mergeLoop
    by_cases h : 1 < s.heap.length
    · rw [if_pos h, if_pos (show 1 < (State.withQueues q o s).heap.length from h)]
      rw [show (State.withQueues q o s).mergeOnce = Run.map (State.withQueues q o) s.mergeOnce
          from mergePair_q q o s.pqTop s.pqDrop.pqTop s.pqDrop.pqDrop]
      exact Run.map_withQueues_andThen q o _ _ _ ih
    · rw [if_neg h, if_neg (show ¬ 1 < (State.withQueues q o s).heap.length from h)]; rfl

theorem buildRun_q (s : State) : buildRun (State.withQueues q o s) = Run.map (State.withQueues q o) (buildRun s) := by
  unfold buildRun
  generalize allSymbols = l
  rw [show (State.withQueues q o s).buildInit = State.withQueues q o s.buildInit from rfl,
      foldl_comm q o _ (addLeaf_q q o)]
  generalize l.foldl State.addLeaf s.buildInit = v
  unfold mergeAll
  by_cases h : v.heap.length = 0
  · rw [if_pos h, if_pos (show (State.withQueues q o v).heap.length = 0 from h)]; rfl
  · rw [if_neg h, if_neg (show ¬ (State.withQueues q o v).heap.length = 0 from h)]
    rw [show (State.withQueues q o v).heap = v.heap from rfl, mergeLoop_q]
    exact Run.map_withQueues_andThen q o _ _ _ (fun _ => rfl)

theorem codeWalk_q (n) (s : State) : codeWalk n (State.withQueues q o s)
    = Run.map (State.withQueues q o) (codeWalk n s) := by
  induction n generalizing s with
  | zero =>
    rw [codeWalk.eq_def, codeWalk.eq_def 0 s, show (State.withQueues q o s).stk = s.stk from rfl]
    cases s.stk <;> rfl
  | succ n ih =>
    cases h : s.stk with
    | nil => rw [codeWalk.eq_def, codeWalk.eq_def (n+1) s, show (State.withQueues q o s).stk = s.stk from rfl, h]; rfl
    | cons e r =>
      rw [codeWalk_cons n s e r h, codeWalk_cons n (State.withQueues q o s) e r h, ← ih]
      congr 1
      unfold State.walkOnce
      by_cases hl : s.isLeaf e.h = true
      · rw [if_pos hl, if_pos (show (State.withQueues q o s).isLeaf e.h = true from hl)]; rfl
      · rw [if_neg hl, if_neg (show ¬ (State.withQueues q o s).isLeaf e.h = true from hl)]; rfl

theorem gencodeTree_q (s : State) : gencodeTree (State.withQueues q o s)
    = Run.map (State.withQueues q o) (gencodeTree s) := by
  unfold gencodeTree
  by_cases h : s.isLeaf s.root = true
  · rw [if_pos h, if_pos (show (State.withQueues q o s).isLeaf (State.withQueues q o s).root = true from h)]; rfl
  · rw [if_neg h, if_neg (show ¬ (State.withQueues q o s).isLeaf (State.withQueues q o s).root = true from h)]
    rw [← Run.map_withQueues_andThen q o _ (fun u => .done u.codesValid) (fun u => .done u.codesValid) (fun _ => rfl)]
    generalize 511 = n
    rw [← codeWalk_q q o n]; rfl

theorem serLoop_q (s : State) : serLoop (State.withQueues q o s) = Run.map (State.withQueues q o) (serLoop s) := by
  unfold serLoop
  rw [show (State.withQueues q o s).stk = s.stk from rfl]
  cases s.stk with
  | nil => rfl
  | cons e r =>
    dsimp only
    by_cases h : s.isLeaf e.h = true
    · rw [if_pos h, if_pos (show (State.withQueues q o s).isLeaf e.h = true from h)]; rfl
    · rw [if_neg h, if_neg (show ¬ (State.withQueues q o s).isLeaf e.h = true from h)]; rfl

theorem encodeBits_q (b n) (s : State) : encodeBits b n (State.withQueues q o s)
    = Run.map (State.withQueues q o) (encodeBits b n s) := by
  induction n generalizing s with
  | zero => rfl
  | succ n ih =>
    unfold encodeBits
    by_cases h : s.nacc + 1 = 8
    · rw [if_pos h, if_pos (show (State.withQueues q o s).nacc + 1 = 8 from h)]; rfl
    · rw [if_neg h, if_neg (show ¬ (State.withQueues q o s).nacc + 1 = 8 from h)]
      rw [← ih]; rfl

theorem encodeEnd_q (s : State) : encodeEnd (State.withQueues q o s)
    = Run.map (State.withQueues q o) (encodeEnd s) := by
  unfold encodeEnd
  by_cases h : s.cnt = s.size
  · rw [if_pos h, if_pos (show (State.withQueues q o s).cnt = (State.withQueues q o s).size from h)]; rfl
  · rw [if_neg h, if_neg (show ¬ (State.withQueues q o s).cnt = (State.withQueues q o s).size from h)]; rfl

theorem decodeBit_q (f : State → Run) (hf : ∀ s, f (State.withQueues q o s)
    = Run.map (State.withQueues q o) (f s)) (s : State) :
    decodeBit f (State.withQueues q o s) = Run.map (State.withQueues q o) (decodeBit f s) := by
  have hat : ∀ s, decodeAt f (State.withQueues q o s) = Run.map (State.withQueues q o) (decodeAt f s) := by
    intro s
    unfold decodeAt
    by_cases h : s.isLeaf s.cur = true
    · rw [if_pos h, if_pos (show (State.withQueues q o s).isLeaf (State.withQueues q o s).cur = true from h)]; rfl
    · rw [if_neg h, if_neg (show ¬ (State.withQueues q o s).isLeaf (State.withQueues q o s).cur
          = true from h)]; exact hf s
  unfold decodeBit
  by_cases h : s.isLeaf s.root = true
  · rw [if_pos h, if_pos (show (State.withQueues q o s).isLeaf (State.withQueues q o s).root = true from h)]; rfl
  · rw [if_neg h, if_neg (show ¬ (State.withQueues q o s).isLeaf (State.withQueues q o s).root
        = true from h)]; exact hat (s.takeBit.walkEdge (s.bitbuf.getLsbD 7))

theorem decodeLoop_q (n) (s : State) : decodeLoop n (State.withQueues q o s)
    = Run.map (State.withQueues q o) (decodeLoop n s) := by
  induction n generalizing s with
  | zero =>
    unfold decodeLoop
    by_cases h : s.cnt = s.size
    · rw [if_pos h, if_pos (show (State.withQueues q o s).cnt = (State.withQueues q o s).size from h)]; rfl
    · rw [if_neg h, if_neg (show ¬ (State.withQueues q o s).cnt = (State.withQueues q o s).size from h)]; rfl
  | succ n ih =>
    unfold decodeLoop
    by_cases h : s.cnt = s.size
    · rw [if_pos h, if_pos (show (State.withQueues q o s).cnt = (State.withQueues q o s).size from h)]; rfl
    · rw [if_neg h, if_neg (show ¬ (State.withQueues q o s).cnt = (State.withQueues q o s).size from h)]
      exact decodeBit_q q o _ ih s

theorem attach_q (l c) (s : State) : attach l c (State.withQueues q o s)
    = Run.map (State.withQueues q o) (attach l c s) := by
  induction l generalizing c s with
  | nil => rfl
  | cons e l ih =>
    unfold attach
    split
    · rw [← ih]; rfl
    · rfl

/-- Every procedure but FLUSH does not look at the queues from its start to its first stop. -/
theorem startProc_q (p) (hp : p ≠ .flush) (s : State) :
    startProc p (State.withQueues q o s) = Run.map (State.withQueues q o) (startProc p s) := by
  cases p
  · simp only [startProc, needTvRun]; rw [show (State.withQueues q o s).tv = s.tv from rfl]; cases s.tv <;> rfl
  · simp only [startProc, needCvRun]; rw [show (State.withQueues q o s).cv = s.cv from rfl]; cases s.cv <;> rfl
  · rfl
  · exact absurd rfl hp
  · rfl
  · exact buildRun_q q o s
  · exact gencodeTree_q q o s.gencodeInit
  · exact serLoop_q q o { s.setPhase .sertree with stk := [{ h := s.root }] }
  · rfl
  · rfl
  · rfl
  · rfl
  · exact decodeLoop_q q o 0 { s.setPhase .decode with cnt := 0, cur := s.root, nbits := 0, bitbuf := 0, progress := 0 }
  · rfl

/-- No procedure looks at the queues after its `in_next()` took a token. -/
theorem afterIn_q (k t) (s : State) : afterIn k t (State.withQueues q o s)
    = Run.map (State.withQueues q o) (afterIn k t s) := by
  cases k
  · simp only [afterIn, countToken]
    cases t with
    | eos =>
      dsimp only
      by_cases h : s.size = 0
      · rw [if_pos h, if_pos (show (State.withQueues q o s).size = 0 from h)]; rfl
      · rw [if_neg h, if_neg (show ¬ (State.withQueues q o s).size = 0 from h)]; rfl
    | byte b =>
      dsimp only
      by_cases h : s.size = BitVec.allOnes 64
      · rw [if_pos h, if_pos (show (State.withQueues q o s).size = _ from h)]; rfl
      · rw [if_neg h, if_neg (show ¬ (State.withQueues q o s).size = _ from h)]; rfl
  · simp only [afterIn, encodeToken]
    cases t with
    | eos =>
      dsimp only
      by_cases h : 0 < s.nacc
      · rw [if_pos h, if_pos (show 0 < (State.withQueues q o s).nacc from h)]; rfl
      · rw [if_neg h, if_neg (show ¬ 0 < (State.withQueues q o s).nacc from h)]; exact encodeEnd_q q o s
    | byte b =>
      dsimp only
      by_cases h : s.lenAt b = 0
      · rw [if_pos h, if_pos (show (State.withQueues q o s).lenAt b = 0 from h)]; rfl
      · rw [if_neg h, if_neg (show ¬ (State.withQueues q o s).lenAt b = 0 from h)]
        by_cases h : s.cnt = BitVec.allOnes 64
        · rw [if_pos h, if_pos (show (State.withQueues q o s).cnt = _ from h)]; rfl
        · rw [if_neg h, if_neg (show ¬ (State.withQueues q o s).cnt = _ from h)]
          exact encodeBits_q q o _ _ s
  · simp only [afterIn, destreeMarker]
    cases t with
    | eos => rfl
    | byte m =>
      dsimp only
      rw [show (State.withQueues q o s).nodeN = s.nodeN from rfl]
      split_ifs <;> rfl
  · simp only [afterIn, destreeSymbol]
    cases t with
    | eos => rfl
    | byte m => exact attach_q q o _ _ (State.setNode _ (leafWord m) s)
  · simp only [afterIn, rdsizeToken]
    cases t with
    | eos => rfl
    | byte m => dsimp only; split_ifs <;> rfl
  · simp only [afterIn, decodeToken]
    cases t with
    | eos => rfl
    | byte m => exact decodeBit_q q o _ (decodeLoop_q q o 7) { s with bitbuf := m, nbits := 8 }

/-- No procedure looks at the queues after its `out_put` was done. -/
theorem afterOut_q (k) (s : State) : afterOut k (State.withQueues q o s)
    = Run.map (State.withQueues q o) (afterOut k s) := by
  cases k
  · rfl
  · exact serLoop_q q o s
  · exact serLoop_q q o { s with stk := { h := s.leftOf _ } :: { h := s.rightOf _ } :: s.stk }
  · simp only [afterOut, wrsizeAfter]; split_ifs <;> rfl
  · exact encodeBits_q q o _ _ s
  · exact encodeEnd_q q o { s with acc := 0, nacc := 0 }
  · exact decodeLoop_q q o _ s.countSymbol
  · exact decodeLoop_q q o _ ({ s with cur := s.root }).countSymbol

/-- Running on does not look at the queues. -/
theorem runOn_q (todo) (h : Proc.flush ∉ todo) (r : Run) :
    runOn todo (Run.map (State.withQueues q o) r) = State.withQueues q o (runOn todo r) := by
  induction todo generalizing r with
  | nil => cases r <;> simp [Run.map] <;> rfl
  | cons p l ih =>
    cases r with
    | done s =>
      rw [runOn_cons_done, Run.map, runOn_cons_done, startProc_q q o p (by rintro rfl; exact h (by simp)),
          ih (fun hh => h (List.mem_cons_of_mem _ hh))]
    | _ => simp [Run.map] <;> rfl
end

theorem Run.map_final (f : State → State) (r) : (Run.map f r).final = f r.final := by cases r <;> rfl

/-- Running on keeps the queues. -/
theorem runOn_queues (todo) (h : Proc.flush ∉ todo) (r : Run) : (runOn todo r).inq = r.final.inq
    ∧ (runOn todo r).outq = r.final.outq := by
  have hr : Run.map (State.withQueues r.final.inq r.final.outq) r = r := by cases r <;> rfl
  have := runOn_q r.final.inq r.final.outq todo h r
  rw [hr] at this
  rw [this]; exact ⟨rfl, rfl⟩

theorem afterIn_queues (k t) (s : State) : (afterIn k t s).final.inq = s.inq ∧ (afterIn k t s).final.outq = s.outq := by
  have := afterIn_q s.inq s.outq k t s
  rw [show State.withQueues s.inq s.outq s = s from rfl] at this
  rw [this, Run.map_final]; exact ⟨rfl, rfl⟩

theorem afterOut_queues (k) (s : State) : (afterOut k s).final.inq = s.inq ∧ (afterOut k s).final.outq = s.outq := by
  have := afterOut_q s.inq s.outq k s
  rw [show State.withQueues s.inq s.outq s = s from rfl] at this
  rw [this, Run.map_final]; exact ⟨rfl, rfl⟩

/-- An engine that has run on is not at the start of a command. -/
theorem resume_after (todo) (r : Run) : ∀ l, (runOn todo r).resume ≠ .start l := by
  induction todo generalizing r with
  | nil => intro l; cases r <;> simp [State.complete]
  | cons p q ih =>
    cases r with
    | done s => rw [runOn_cons_done]; exact ih _
    | _ => intro l; simp

/-- A program without FLUSH stays one. -/
theorem runOn_todo (todo) (r : Run) (h : Proc.flush ∉ todo) : Proc.flush ∉ (runOn todo r).resume.todo := by
  induction todo generalizing r with
  | nil => cases r <;> simp [State.complete, Resume.todo]
  | cons p q ih =>
    cases r with
    | done s => rw [runOn_cons_done]; exact ih _ (fun hh => h (List.mem_cons_of_mem _ hh))
    | failed e s => rw [runOn_failed]; simp [Resume.todo]
    | endless s => rw [runOn_endless]; simp [Resume.todo]
    | waitIn k s => rw [runOn_waitIn]; exact h
    | waitOut b k s => rw [runOn_waitOut]; exact h

/-- Each step but the first takes a token of IN or fills a place of OUT. -/
theorem engineStep_measure (s : State) (h : s.enabled = true) (hf : Proc.flush ∉ s.resume.todo) :
    (∀ l, (engineStep s).resume ≠ .start l) ∧ Proc.flush ∉ (engineStep s).resume.todo
       ∧ (engineStep s).outDepth = s.outDepth ∧
    ((∃ l, s.resume = .start l) ∧ (engineStep s).inq = s.inq ∧ (engineStep s).outq = s.outq ∨
     (engineStep s).inq.length + 1 = s.inq.length ∧ (engineStep s).outq = s.outq ∨
     (engineStep s).inq = s.inq ∧ (engineStep s).outq.length = s.outq.length + 1 ∧ s.outq.length < s.outDepth) := by
  obtain ⟨hb, hh⟩ := (enabled_iff s).1 h
  obtain ⟨x, hx, hx2⟩ := engineStep_hostSide s
  have hd : (engineStep s).outDepth = s.outDepth := by rw [← hx2.2.2.1, ← hx]; rfl
  refine ⟨?_, ?_, hd, ?_⟩
  · rcases hh with ⟨todo, hr⟩ | ⟨k, todo, t, rest, hr, hq⟩ | ⟨b, k, todo, hr, hq⟩
    · rw [engineStep_start hb hr]; exact resume_after _ _
    · rw [engineStep_in hb hr hq]; exact resume_after _ _
    · rw [engineStep_out hb hr hq]; exact resume_after _ _
  · rcases hh with ⟨todo, hr⟩ | ⟨k, todo, t, rest, hr, hq⟩ | ⟨b, k, todo, hr, hq⟩ <;> rw [hr] at hf
    · rw [engineStep_start hb hr]; exact runOn_todo _ _ hf
    · rw [engineStep_in hb hr hq]; exact runOn_todo _ _ hf
    · rw [engineStep_out hb hr hq]; exact runOn_todo _ _ hf
  · rcases hh with ⟨todo, hr⟩ | ⟨k, todo, t, rest, hr, hq⟩ | ⟨b, k, todo, hr, hq⟩ <;> rw [hr] at hf
    · rw [engineStep_start hb hr]
      obtain ⟨h1, h2⟩ := runOn_queues todo hf (.done s)
      exact .inl ⟨⟨_, hr⟩, h1, h2⟩
    · rw [engineStep_in hb hr hq]
      obtain ⟨h1, h2⟩ := runOn_queues todo hf (afterIn k t { s with inq := rest })
      obtain ⟨h3, h4⟩ := afterIn_queues k t { s with inq := rest }
      right; left
      rw [h1, h2, h3, h4]; simp [hq]
    · rw [engineStep_out hb hr hq]
      obtain ⟨h1, h2⟩ := runOn_queues todo hf (afterOut k { s with outq := s.outq ++ [b] })
      obtain ⟨h3, h4⟩ := afterOut_queues k { s with outq := s.outq ++ [b] }
      right; right
      rw [h1, h2, h3, h4]; simp [hq]

end Sys2Proof.Machine
end

