-- ==== Sys2Proof/Laws/Trees.lean ====
section
/-! SUPPORT. Laws of the arena: what holds of a tree in it is settled by the slots the tree visits (10 R44). -/

namespace Sys2Proof.Machine

/-! ## Fields of NODE words (10 R42) -/

@[simp] theorem wordIsLeaf_leafWord (b : Byte) : wordIsLeaf (leafWord b) = true := by
  simp only [wordIsLeaf, leafWord]; revert b; decide

@[simp] theorem wordSym_leafWord (b : Byte) : wordSym (leafWord b) = b := by
  simp only [wordSym, leafWord]; revert b; decide

@[simp] theorem wordIsLeaf_zero : wordIsLeaf 0#32 = false := by decide

theorem wordIsLeaf_setLeft (n : Word) (c : Handle) : wordIsLeaf (wordSetLeft n c) = wordIsLeaf n := by
  simp [wordIsLeaf, wordSetLeft]

theorem wordIsLeaf_setRight (n : Word) (c : Handle) : wordIsLeaf (wordSetRight n c) = wordIsLeaf n := by
  simp [wordIsLeaf, wordSetRight]

theorem wordLeft_setLeft (n : Word) (c : Handle) : wordLeft (wordSetLeft n c) = c := by
  apply BitVec.eq_of_getLsbD_eq
  intro i hi
  interval_cases i <;> simp [wordLeft, wordSetLeft]

theorem wordRight_setRight (n : Word) (c : Handle) : wordRight (wordSetRight n c) = c := by
  apply BitVec.eq_of_getLsbD_eq
  intro i hi
  interval_cases i <;> simp [wordRight, wordSetRight]

theorem wordLeft_setRight (n : Word) (c : Handle) : wordLeft (wordSetRight n c) = wordLeft n := by
  apply BitVec.eq_of_getLsbD_eq
  intro i hi
  interval_cases i <;> simp [wordLeft, wordSetRight]

/-- A handle below one bound is below a larger one. -/
theorem handle_lt_of_lt_of_le {a b c : Handle} (h : a < b) (k : b ≤ c) : a < c := by
  rw [BitVec.lt_def] at *; rw [BitVec.le_def] at k; omega

/-! ## Trees -/

/-- A tree is settled by the slots it visits, and stays when NODE_N grows. -/
theorem holdsTree_frame {node node' : Memory 32} {n n' : BitVec 9} {t : Tree} {h : Handle} (ht : holdsTree node n t h)
    (hn : n ≤ n') (hm : ∀ g ∈ visited node t h, Memory.read node' g.toNat = Memory.read node g.toNat) :
    holdsTree node' n' t h ∧ visited node' t h = visited node t h := by
  induction t generalizing h with
  | leaf b =>
    obtain ⟨h1, h2, h3⟩ := ht
    have e := hm h (by simp [visited])
    exact ⟨⟨handle_lt_of_lt_of_le h1 hn, by rw [e]; exact h2, by rw [e]; exact h3⟩, rfl⟩
  | node l r ihl ihr =>
    obtain ⟨h1, h2, h3, h4⟩ := ht
    have e := hm h (by simp [visited])
    obtain ⟨l1, l2⟩ := ihl h3 (fun g hg => hm g (by simp [visited, hg]))
    obtain ⟨r1, r2⟩ := ihr h4 (fun g hg => hm g (by simp [visited, hg]))
    exact ⟨⟨handle_lt_of_lt_of_le h1 hn, by rw [e]; exact h2, by rw [e]; exact l1, by rw [e]; exact r1⟩,
      by simp only [visited, e, l2, r2]⟩

/-- A slot holds one tree. -/
theorem holdsTree_unique {node : Memory 32} {n m : BitVec 9} {t u : Tree} {h : Handle} (ht : holdsTree node n t h)
    (hu : holdsTree node m u h) : t = u := by
  induction t generalizing u h with
  | leaf b =>
    cases u with
    | leaf c => rw [← ht.2.2, ← hu.2.2]
    | node l r => exact absurd (ht.2.1.symm.trans hu.2.1) (by simp)
  | node l r ihl ihr =>
    cases u with
    | leaf c => exact absurd (ht.2.1.symm.trans hu.2.1) (by simp)
    | node l' r' => rw [ihl ht.2.2.1 hu.2.2.1, ihr ht.2.2.2 hu.2.2.2]

/-- A tree visits slots below NODE_N only. -/
theorem visited_lt {node : Memory 32} {n : BitVec 9} {t : Tree} {h : Handle} (ht : holdsTree node n t h) :
    ∀ g ∈ visited node t h, g < n := by
  induction t generalizing h with
  | leaf b => simpa [visited] using ht.1
  | node l r ihl ihr =>
    intro g hg
    simp only [visited, List.mem_cons, List.mem_append] at hg
    obtain rfl | hg | hg := hg
    · exact ht.1
    · exact ihl ht.2.2.1 g hg
    · exact ihr ht.2.2.2 g hg

/-- Distinct slots below a 9-bit bound are at most 511. -/
theorem nodup_handles_length {l : List Handle} {n : BitVec 9} (h : l.Nodup) (hn : ∀ g ∈ l, g < n) : l.length ≤ n.toNat := by
  have h1 : (l.map BitVec.toNat).Nodup := h.map (fun _ _ e => BitVec.eq_of_toNat_eq e)
  have h2 : (l.map BitVec.toNat) ⊆ List.range n.toNat := by
    intro x hx
    obtain ⟨g, hg, rfl⟩ := List.mem_map.1 hx
    exact List.mem_range.2 (BitVec.lt_def.1 (hn g hg))
  simpa using (h1.subperm h2).length_le

theorem visited_length (node : Memory 32) (t : Tree) (h : Handle) : (visited node t h).length = t.size := by
  induction t generalizing h with
  | leaf b => rfl
  | node l r ihl ihr => simp [visited, Tree.size, ihl, ihr]; omega

/-! ## The open nodes of DESTREE (44 R184) -/

/-- The open nodes lie in slots below NODE_N. -/
theorem openNodes_lt {node : Memory 32} {n : BitVec 9} {stk : List StkEntry} {used : List Handle}
    (h : openNodes node n stk used) : ∀ g ∈ used, g < n := by
  induction stk generalizing used with
  | nil => rw [show used = [] from h]; simp
  | cons e rest ih =>
    obtain ⟨h1, -, below, h3, ⟨-, rfl⟩ | ⟨-, l, h4, rfl⟩⟩ := h
    · intro g hg
      obtain rfl | hg := List.mem_cons.1 hg
      · exact h1
      · exact ih h3 g hg
    · intro g hg
      simp only [List.mem_cons, List.mem_append] at hg
      obtain rfl | hg | hg := hg
      · exact h1
      · exact visited_lt h4 g hg
      · exact ih h3 g hg

/-- The open nodes are settled by their slots and those of the attached trees, and stay when NODE_N grows. -/
theorem openNodes_frame {node node' : Memory 32} {n n' : BitVec 9} {stk : List StkEntry} {used : List Handle}
    (h : openNodes node n stk used) (hn : n ≤ n')
    (hm : ∀ g ∈ used, Memory.read node' g.toNat = Memory.read node g.toNat) : openNodes node' n' stk used := by
  induction stk generalizing used with
  | nil => exact h
  | cons e rest ih =>
    obtain ⟨h1, h2, below, h3, ⟨h4, rfl⟩ | ⟨h4, l, h5, rfl⟩⟩ := h
    · refine ⟨handle_lt_of_lt_of_le h1 hn, by rw [hm e.h (by simp)]; exact h2, below, ih h3 (fun g hg => hm g (by simp [hg])),
        .inl ⟨h4, rfl⟩⟩
    · have e1 := hm e.h (by simp)
      obtain ⟨h6, h7⟩ := holdsTree_frame h5 hn (fun g hg => hm g (by simp [hg]))
      exact ⟨handle_lt_of_lt_of_le h1 hn, by rw [e1]; exact h2, below, ih h3 (fun g hg => hm g (by simp [hg])),
        .inr ⟨h4, l, by rw [e1]; exact h6, by rw [e1, h7]⟩⟩

/-- Every stacked handle is among the slots of the open nodes. -/
theorem openNodes_stk {node : Memory 32} {n : BitVec 9} {stk : List StkEntry} {used : List Handle}
    (h : openNodes node n stk used) : ∀ e ∈ stk, e.h ∈ used := by
  induction stk generalizing used with
  | nil => simp
  | cons e rest ih =>
    obtain ⟨h1, h2, below, h3, ⟨h4, rfl⟩ | ⟨h4, l, h5, rfl⟩⟩ := h <;> intro x hx <;>
      obtain rfl | hx := List.mem_cons.1 hx <;> simp
    · exact .inr (ih h3 x hx)
    · exact .inr (.inr (ih h3 x hx))

/-- A slot below a 9-bit bound is a slot of the arena. -/
theorem handle_lt_511 {g n : Handle} (h : g < n) : g.toNat < 511 := by
  rw [BitVec.lt_def] at h; have := n.isLt; omega

/-- A word written to one slot is read at no other. -/
theorem read_write_slot (node : Memory 32) (h g : Handle) (w : Word) (hg : g ≠ h) :
    Memory.read (Memory.write node h.toNat w) g.toNat = Memory.read node g.toNat :=
  Memory.read_write_ne _ _ _ _ (fun hh => hg (BitVec.eq_of_toNat_eq hh))

/-- Everything attaching a finished subtree `t` in slot `c` can do (44 R184): either the whole tree is finished, at ROOT, or a
marker is awaited and the open nodes fit the arena again. Only NODE, the stack, and at the end ROOT and TV change. -/
theorem attach_cases (stk : List StkEntry) (c : Handle) (s : State) (t : Tree) (used : List Handle)
    (hw : Memory.wf 511 s.node = true) (ho : openNodes s.node s.nodeN stk used) (ht : holdsTree s.node s.nodeN t c)
    (hn : (visited s.node t c ++ used).Nodup) :
    (∃ nd r u, attach stk c s = .done { s with node := nd, stk := [], root := r, tv := true } ∧ Memory.wf 511 nd = true
        ∧ holdsTree nd s.nodeN u r ∧ (visited nd u r).Nodup)
      ∨ ∃ nd st us, attach stk c s = .waitIn .marker { s with node := nd, stk := st } ∧ Memory.wf 511 nd = true
        ∧ openNodes nd s.nodeN st us ∧ us.Nodup := by
  induction stk generalizing c s t used with
  | nil => exact .inl ⟨s.node, c, t, rfl, hw, ht, hn.sublist (List.sublist_append_left _ _)⟩
  | cons e rest ih =>
    obtain ⟨h3, h4, below, h5, h6⟩ := ho
    have he := handle_lt_511 h3
    have hsame : ∀ w, Memory.read (Memory.write s.node e.h.toNat w) e.h.toNat = w :=
      fun w => Memory.read_write_same _ _ _ _ hw
    have hwf : ∀ w, Memory.wf 511 (Memory.write s.node e.h.toNat w) = true := fun w => Memory.wf_write _ _ _ _ he hw
    simp only [attach]
    rcases h6 with ⟨hl, rfl⟩ | ⟨hl, l, hlt, rfl⟩ <;> rw [hl]
    · simp only [Bool.false_eq_true, if_false]
      simp only [List.nodup_append, List.nodup_cons, List.mem_cons] at hn
      obtain ⟨n1, ⟨n2, n3⟩, n4⟩ := hn
      have hv : ∀ g ∈ visited s.node t c, g ≠ e.h := fun g hg => n4 g hg e.h (.inl rfl)
      obtain ⟨k1, k2⟩ := holdsTree_frame (node' := Memory.write s.node e.h.toNat (wordSetLeft (s.nodeAt e.h) c)) ht
        (BitVec.le_refl _) (fun g hg => read_write_slot _ _ _ _ (hv g hg))
      have k3 := openNodes_frame (node' := Memory.write s.node e.h.toNat (wordSetLeft (s.nodeAt e.h) c)) h5
        (BitVec.le_refl _) (fun g hg => read_write_slot _ _ _ _ (fun hh => n2 (hh ▸ hg)))
      refine .inr ⟨_, _, e.h :: (visited s.node t c ++ below), rfl, hwf _,
        ⟨h3, ?_, below, k3, .inr ⟨rfl, t, ?_, ?_⟩⟩, ?_⟩
      · simp only [State.setNode]; rw [hsame, wordIsLeaf_setLeft]; exact h4
      · simp only [State.setNode]; rw [hsame, wordLeft_setLeft]; exact k1
      · simp only [State.setNode]; rw [hsame, wordLeft_setLeft, k2]
      · simp only [List.nodup_cons, List.mem_append, List.nodup_append]
        exact ⟨fun hh => hh.elim (fun hh => hv _ hh rfl) n2, n1, n3, fun a ha b hb => n4 a ha b (.inr hb)⟩
    · simp only [if_true]
      simp only [List.nodup_append, List.nodup_cons, List.mem_cons, List.mem_append] at hn
      obtain ⟨n1, ⟨n2, n3, n5, n6⟩, n4⟩ := hn
      have hv : ∀ g ∈ visited s.node t c, g ≠ e.h := fun g hg => n4 g hg e.h (.inl rfl)
      have hvl : ∀ g ∈ visited s.node l (wordLeft (Memory.read s.node e.h.toNat)), g ≠ e.h :=
        fun g hg hh => n2 (.inl (hh ▸ hg))
      obtain ⟨k1, k2⟩ := holdsTree_frame (node' := Memory.write s.node e.h.toNat (wordSetRight (s.nodeAt e.h) c)) ht
        (BitVec.le_refl _) (fun g hg => read_write_slot _ _ _ _ (hv g hg))
      obtain ⟨l1, l2⟩ := holdsTree_frame (node' := Memory.write s.node e.h.toNat (wordSetRight (s.nodeAt e.h) c)) hlt
        (BitVec.le_refl _) (fun g hg => read_write_slot _ _ _ _ (hvl g hg))
      have k3 := openNodes_frame (node' := Memory.write s.node e.h.toNat (wordSetRight (s.nodeAt e.h) c)) h5
        (BitVec.le_refl _) (fun g hg => read_write_slot _ _ _ _ (fun hh => n2 (.inr (hh ▸ hg))))
      have hleft : wordLeft (wordSetRight (s.nodeAt e.h) c) = wordLeft (Memory.read s.node e.h.toNat) :=
        wordLeft_setRight _ _
      refine ih e.h (State.setNode e.h (wordSetRight (s.nodeAt e.h) c) s) (.node l t) below (hwf _) k3 ⟨h3, ?_, ?_, ?_⟩ ?_
      · simp only [State.setNode]; rw [hsame, wordIsLeaf_setRight]; exact h4
      · simp only [State.setNode]; rw [hsame, hleft]; exact l1
      · simp only [State.setNode]; rw [hsame, wordRight_setRight]; exact k1
      · simp only [State.setNode, visited]; rw [hsame, hleft, wordRight_setRight, l2, k2]
        simp only [List.cons_append, List.nodup_cons, List.mem_append, List.nodup_append]
        refine ⟨fun hh => ?_, ⟨n3, n1, fun a ha b hb hab => n4 b hb a (.inr (.inl ha)) hab.symm⟩, n5, ?_⟩
        · rcases hh with (hh | hh) | hh
          · exact hvl _ hh rfl
          · exact hv _ hh rfl
          · exact n2 (.inr hh)
        · rintro a (ha | ha) b hb
          · exact n6 a ha b hb
          · exact n4 a ha b (.inr (.inr hb))

end Sys2Proof.Machine
end

