-- ==== Sys2Proof/Tests/Slice0.lean ====
section
/-! SUPPORT. The model's own tests: the WellFormed smoke test, decoding of words written out from the opcode map (30 R103), one
step of each command against spec file 95 (each test names its vector), and one witness for the hypotheses of each statement. -/

namespace Sys2Proof.Tests

open Sys2Proof Sys2Proof.Machine

/-! ## WellFormed smoke test: each check refuses an ill-formed term -/

theorem test_ill_formed_reserved_bits : wordReservedZero 0x00000140 = false := by decide

theorem test_ill_formed_opcode : wordOpcodeListed 0x00000003 = false := by decide

theorem test_ill_formed_word : wordWellFormed 0x00000140 = false ∧ wordWellFormed 0x00000016 = false := by decide

theorem test_well_formed_word : wordWellFormed 0x00000041 = true := by decide

theorem test_ill_formed_width : accessWidthOk 16 = false ∧ accessWellFormed 8 0x0004 = false := by decide

theorem test_ill_formed_alignment : accessAligned 0x0006 = false ∧ accessWellFormed 32 0x0002 = false := by decide

theorem test_well_formed_access : accessWellFormed 32 0x5FFC = true := by decide

theorem test_commands_well_formed : Instr.wellFormed .decompress = true := by decide

/-! ## Decoding: each command's word, bit by bit from the opcode map (30 R103), and the rejections (30 R110) -/

theorem test_decode_nop : decode 0b00000000000000000000000000000000 = .ok .nop := by decide

theorem test_decode_clr : decode 0b00000000000000000000000000000001 = .ok .clr := by decide

theorem test_decode_flush : decode 0b00000000000000000000000000000010 = .ok .flush := by decide

theorem test_decode_count : decode 0b00000000000000000000000000010000 = .ok .count := by decide

theorem test_decode_build : decode 0b00000000000000000000000000010001 = .ok .build := by decide

theorem test_decode_gencode : decode 0b00000000000000000000000000010010 = .ok .gencode := by decide

theorem test_decode_sertree : decode 0b00000000000000000000000000010011 = .ok .sertree := by decide

theorem test_decode_wrsize : decode 0b00000000000000000000000000010100 = .ok .wrsize := by decide

theorem test_decode_encode : decode 0b00000000000000000000000000010101 = .ok .encode := by decide

theorem test_decode_destree : decode 0b00000000000000000000000000100000 = .ok .destree := by decide

theorem test_decode_rdsize : decode 0b00000000000000000000000000100001 = .ok .rdsize := by decide

theorem test_decode_decode : decode 0b00000000000000000000000000100010 = .ok .decode := by decide

theorem test_decode_compress : decode 0b00000000000000000000000001000000 = .ok .compress := by decide

theorem test_decode_decompress : decode 0b00000000000000000000000001000001 = .ok .decompress := by decide

/-- K-8, K-9, K-10, K-11 and the top bit. -/
theorem test_decode_rejects :
    decode 0x00000003 = .error .unknownOpcode ∧ decode 0x00000140 = .error .reservedBitsSet
      ∧ decode 0x000000FF = .error .unknownOpcode ∧ decode 0x00000016 = .error .unknownOpcode
      ∧ decode 0x80000010 = .error .reservedBitsSet := by decide

theorem test_table_word : decodeTableWord 32 0x41 = some .decompress ∧ decodeTableWord 8 0x10 = some .count
    ∧ decodeTableWord 32 0x141 = none := by decide

/-! ## Helper states -/

/-- The reset state with queue depths that can be computed with. -/
def base : State := { State.reset with inDepth := 32, outDepth := 2048 }

/-- Tokens of a stream. -/
def toks (l : List Nat) : List Token := l.map (fun n => .byte (BitVec.ofNat 8 n))

/-- Bytes of OUT. -/
def outs (l : List Nat) : List Byte := l.map (BitVec.ofNat 8)

/-- The state a step answers, if it answers one. -/
def nextOf (o : Host.Outcome State Fault Refusal) : Option State :=
  match o with
  | .next s => some s
  | .fault _ => none
  | .refused _ => none

/-- FREQ of the literal example (vector B-4). -/
def freqABC : Memory 64 := [(0x61, 4), (0x62, 3), (0x63, 2)]

/-- NODE after BUILD of the literal example (vector B-4). -/
def nodeABC : Memory 32 :=
  [(0, 0x80000061), (1, 0x80000062), (2, 0x80000063), (3, 0x00010002), (4, 0x00030000)]

/-- WEIGHT after BUILD of the literal example (vector B-4). -/
def weightABC : Memory 64 := [(0, 4), (1, 3), (2, 2), (3, 5), (4, 9)]

/-- The tree of the literal example, before GENCODE (end of vector B-4). -/
def treeABC : State :=
  { base with
    state := .done, cmdCur := 0x11, phase := .build, tv := true, root := 4, nodeN := 5, freq := freqABC, node := nodeABC,
    weight := weightABC, size := 9 }

/-- The tree and the codes of the literal example (end of vector G-2). -/
def codeABC : State :=
  { treeABC with
    cmdCur := 0x12, phase := .gencode, cv := true, codeLen := [(0x61, 1), (0x62, 2), (0x63, 2)],
    codeBits := [(0x62, 3), (0x63, 2)] }

/-- The abstract tree of the literal example (42 R165). -/
def absABC : Tree := .node (.leaf 0x61) (.node (.leaf 0x63) (.leaf 0x62))

/-- A block held in COUNT's first `in_next` (vectors A-22 to A-28). -/
def heldCount : State :=
  { base with state := .busy, cmdCur := 0x10, phase := .count, resume := .inNext .count [] }

/-! ## One step of each command -/

/-- K-2. -/
theorem test_nop :
    (nextOf (step { treeABC with host := [.write 32 0 0], state := .error, err := .payloadTruncated })).map
      (fun t => (t.statusWord, t.size)) = some (0x00000004, 9) := by decide +kernel

/-- K-5. -/
theorem test_clr :
    (nextOf (exec .clr { codeABC with inq := toks [7], outq := outs [0x30] })).any
      (fun t => t.statusWord == 0x000100A2 && t.freq == [] && t.size == 0 && t.inq == toks [7] && t.outq == outs [0x30])
      = true := by decide +kernel

/-- K-7. -/
theorem test_flush :
    (nextOf (exec .flush { codeABC with inq := [.eos], outq := outs [0x30, 0x31] })).map
      (fun t => (t.statusWord, t.fifoWord)) = some (0x000200BE, 0) := by decide +kernel

/-- F-2. -/
theorem test_count :
    (nextOf (exec .count { base with inq := toks [0, 0xFF, 0] ++ .eos :: toks [5] })).map
      (fun t => (t.statusWord, t.size, t.freq, t.inq)) = some (0x00100012, 3, [(0, 2), (0xFF, 1)], toks [5]) := by
  decide +kernel

/-- F-3. -/
theorem test_count_empty :
    (nextOf (exec .count { base with inq := [.eos] })).map (fun t => (t.statusWord, t.inq)) = some (0x00102013, []) := by
  decide +kernel

/-- B-4. -/
theorem test_build :
    (nextOf (exec .build { base with freq := freqABC })).any
      (fun t => t.statusWord == 0x00110026 && t.treeInfoWord == 0x00050004 && t.node == nodeABC && t.weight == weightABC)
      = true := by decide +kernel

/-- B-10, second row: 2^63 + 2^63. -/
theorem test_build_overflow :
    (nextOf (exec .build { base with freq := [(0, 0x8000000000000000), (1, 0x8000000000000000)] })).map State.statusWord
      = some 0x00114323 := by decide +kernel

/-- G-2. -/
theorem test_gencode :
    (nextOf (exec .gencode treeABC)).map (fun t => (t.statusWord, t.codeLen, t.codeBits))
      = some (0x0012003E, [(0x61, 1), (0x62, 2), (0x63, 2)], [(0x62, 3), (0x63, 2)]) := by decide +kernel

/-- G-6. -/
theorem test_gencode_no_tree : (nextOf (exec .gencode base)).map State.statusWord = some 0x00125003 := by decide +kernel

/-- T-3. -/
theorem test_sertree :
    (nextOf (exec .sertree treeABC)).map (fun t => (t.statusWord, t.outq))
      = some (0x00130046, outs [0x30, 0x31, 0x61, 0x30, 0x31, 0x63, 0x31, 0x62]) := by decide +kernel

/-- Z-2. -/
theorem test_wrsize :
    (nextOf (exec .wrsize { base with size := 0x0102030405060708 })).map (fun t => (t.statusWord, t.outq))
      = some (0x00140052, outs [8, 7, 6, 5, 4, 3, 2, 1]) := by decide +kernel

/-- E-1. -/
theorem test_encode :
    (nextOf (exec .encode
      { codeABC with inq := toks [0x61, 0x61, 0x61, 0x61, 0x62, 0x62, 0x62, 0x63, 0x63] ++ [.eos] })).map
      (fun t => (t.statusWord, t.outq, t.progress)) = some (0x0015006E, outs [0x0F, 0xE8], 9) := by decide +kernel

/-- E-6. -/
theorem test_encode_no_code :
    (nextOf (exec .encode { codeABC with size := 2, inq := toks [0x61, 0x7A] ++ [.eos] })).map
      (fun t => (t.statusWord, t.outq, t.progress, t.inq)) = some (0x0015406F, [], 1, [.eos]) := by decide +kernel

/-- T-8. -/
theorem test_destree :
    (nextOf (exec .destree { base with inq := toks [0x30, 0x31, 0x61, 0x30, 0x31, 0x63, 0x31, 0x62, 9] })).map
      (fun t => (t.statusWord, t.treeInfoWord, t.node, t.inq))
      = some (0x00200076, 0x00050000,
          [(0, 0x00020001), (1, 0x80000061), (2, 0x00040003), (3, 0x80000063), (4, 0x80000062)], toks [9]) := by
  decide +kernel

/-- T-15. -/
theorem test_destree_bad_marker :
    (nextOf (exec .destree { base with inq := toks [0x30, 0x31, 0x61, 0] ++ [.eos] })).map
      (fun t => (t.statusWord, t.inq)) = some (0x00203173, [.eos]) := by decide +kernel

/-- Z-4. -/
theorem test_rdsize :
    (nextOf (exec .rdsize { base with inq := toks [8, 7, 6, 5, 4, 3, 2, 1, 0x99] })).map
      (fun t => (t.statusWord, t.size, t.inq)) = some (0x00210082, 0x0102030405060708, toks [0x99]) := by decide +kernel

/-- Z-5. -/
theorem test_rdsize_short :
    (nextOf (exec .rdsize { base with size := 5, inq := toks [8, 7, 6] ++ [.eos] })).map
      (fun t => (t.statusWord, t.size)) = some (0x00213383, 5) := by decide +kernel

/-- X-2. -/
theorem test_decode :
    (nextOf (exec .decode { treeABC with size := 3, inq := toks [0xB0] ++ [.eos] })).map
      (fun t => (t.statusWord, t.outq, t.inq)) = some (0x00220096, outs [0x63, 0x62, 0x61], [.eos]) := by decide +kernel

/-- X-12: a hold, not an error. -/
theorem test_decode_holds :
    (nextOf (exec .decode { treeABC with size := 7, inq := toks [0x0F] })).map
      (fun t => (t.statusWord, t.outq, t.enabled))
      = some (0x00220095, outs [0x61, 0x61, 0x61, 0x61, 0x62, 0x62], false) := by decide +kernel

/-- M-1. -/
theorem test_compress :
    (nextOf (exec .compress
      { base with
        inq := toks [0x61, 0x61, 0x61, 0x61, 0x62, 0x62, 0x62, 0x63, 0x63] ++ .eos ::
          (toks [0x61, 0x61, 0x61, 0x61, 0x62, 0x62, 0x62, 0x63, 0x63] ++ [.eos]) })).map
      (fun t => (t.statusWord, t.outq))
      = some (0x00400062,
          outs [0x30, 0x31, 0x61, 0x30, 0x31, 0x63, 0x31, 0x62, 9, 0, 0, 0, 0, 0, 0, 0, 0x0F, 0xE8]) := by decide +kernel

/-- M-5. -/
theorem test_compress_mismatch :
    (nextOf (exec .compress
      { base with inq := toks [0x61, 0x61, 0x62] ++ .eos :: (toks [0x61, 0x61] ++ [.eos]) })).map
      (fun t => (t.statusWord, t.outq, t.progress))
      = some (0x00404263, outs [0x30, 0x31, 0x62, 0x31, 0x61, 3, 0, 0, 0, 0, 0, 0, 0, 0xC0], 2) := by decide +kernel

/-- M-10. -/
theorem test_decompress :
    (nextOf (exec .decompress
      { base with
        inq := toks [0x30, 0x31, 0x61, 0x30, 0x31, 0x63, 0x31, 0x62, 9, 0, 0, 0, 0, 0, 0, 0, 0x0F, 0xE8]
          ++ [.eos] })).map
      (fun t => (t.statusWord, t.outq, t.inq))
      = some (0x00410092, outs [0x61, 0x61, 0x61, 0x61, 0x62, 0x62, 0x62, 0x63, 0x63], [.eos]) := by decide +kernel

/-- M-18. -/
theorem test_decompress_one_leaf :
    (nextOf (exec .decompress { base with inq := toks [0x31, 0x41, 3, 0, 0, 0, 0, 0, 0, 0, 0xFF] ++ [.eos] })).map
      (fun t => (t.statusWord, t.outq)) = some (0x00410092, outs [0x41, 0x41, 0x41]) := by decide +kernel

/-! ## The register space -/

/-- A-7, A-3, A-10. -/
theorem test_refusals :
    (hostAct (.read 32 0x17FC) base).resp = ⟨0, true⟩ ∧ (hostAct (.read 32 0x0000) base).resp = ⟨0, true⟩
      ∧ (hostAct (.write 32 0x1000 1) base).resp = ⟨0, true⟩ := by decide +kernel

/-- A-13, A-18, A-19. -/
theorem test_writes :
    (hostAct (.write 32 0x0018 0xABCDEF41) base).inq = toks [0x41]
      ∧ (hostAct (.read 32 0x0008) (hostAct (.write 32 0x0008 0x7FFFFFFF) base)).resp.data = 1
      ∧ (hostAct (.write 32 0x0B08 4) base).freq = [(0x61, 4)] := by decide +kernel

/-- A-29. -/
theorem test_freq_write_clears_flags :
    (hostAct (.write 32 0x0B08 5) codeABC).statusWord = 0x00120032 := by decide +kernel

/-- K-11. -/
theorem test_illegal_keeps_flags :
    (nextOf (step { codeABC with host := [.write 32 0x0000 0x16] })).map State.statusWord = some 0x0016510F := by
  decide +kernel

/-- Q-12. -/
theorem test_illegal_raises_irq :
    (nextOf (step { base with ie := true, host := [.write 32 0x0000 0x77] })).map State.statusWord = some 0x01775103 := by
  decide +kernel

/-- A-23: a NOP while BUSY is refused. -/
theorem test_busy_refuses :
    (nextOf (step { heldCount with host := [.write 32 0x0000 0] })).map (fun t => (t.statusWord, t.resp.berr))
      = some (0x00100011, true) := by decide +kernel

/-- A-28. -/
theorem test_soft_reset : (hostAct (.write 32 0x0008 0x80000000) heldCount).statusWord = 0 := by decide +kernel

/-! ## Witnesses: concrete states and operands that meet the hypotheses of each statement -/

/-- A NOP written to CMD, a STATUS read, and no act. -/
theorem witness_StepRunsTheDecodedCommand :
    ({ base with host := [.write 32 0x0000 0x41] } : State).host = .write 32 0x0000 0x41 :: []
      ∧ decode 0x41 = .ok .decompress
      ∧ ({ base with host := [.read 32 0x0004] } : State).host = .read 32 0x0004 :: []
      ∧ commandOf (.read 32 0x0004) = none ∧ commandOf (.write 32 0x0000 0x140) = none ∧ base.host = [] := by
  decide +kernel

theorem witness_CommandIssue : heldCount.state = .busy ∧ base.state ≠ .busy ∧ Instr.clr ≠ .nop := by decide +kernel

theorem witness_IllegalWordIsAnError :
    ({ base with host := [.write 32 0x0000 0x03] } : State).host = .write 32 0x0000 0x03 :: []
      ∧ (∀ i, (0x03 : Word) ≠ encode i) ∧ base.state ≠ .busy ∧ heldCount.state = .busy :=
  ⟨rfl, fun i => by cases i <;> decide, by decide +kernel, rfl⟩

/-- For NOP (both clauses), CLR, FLUSH. -/
theorem witness_control : codeABC.state ≠ .busy ∧ codeABC.turns = [] ∧ heldCount.state = .busy := by decide +kernel

/-- A stream of one byte, the shortest COUNT accepts. -/
theorem witness_CountMakesTheHistogram :
    base.state ≠ .busy ∧ base.turns = []
      ∧ ({ base with inq := toks [0xFF] ++ [.eos] } : State).inq = byteTokens [0xFF] ++ .eos :: []
      ∧ ([0xFF] : List Byte) ≠ [] ∧ ([0xFF] : List Byte).length < 2 ^ 64 := by decide +kernel

theorem witness_EmptyInputIsRejected :
    base.state ≠ .busy ∧ base.turns = [] ∧ ({ base with inq := .eos :: toks [0x61] } : State).inq = .eos :: toks [0x61] := by
  decide +kernel

theorem witness_CountOverflowKeepsTheCounts :
    heldCount.state = .busy ∧ heldCount.resume = .inNext .count []
      ∧ ({ heldCount with inq := toks [7], size := BitVec.allOnes 64 } : State).inq = .byte 7 :: []
      ∧ ({ heldCount with inq := toks [7], size := BitVec.allOnes 64 } : State).size = BitVec.allOnes 64 := by decide +kernel

/-- The heap of 42 R165 after step 3; the empty heap meets the property too. -/
theorem witness_PriorityQueueContract : heapOrdered weightABC [2, 0, 1] ∧ ([2, 0, 1] : List Handle) ≠ [] ∧ heapOrdered weightABC [] :=
  ⟨fun i h1 h2 => by
      have : i = 1 ∨ i = 2 := by simp only [List.length_cons, List.length_nil] at h2; omega
      rcases this with rfl | rfl <;> decide, by decide, fun i h1 h2 => by simp at h2⟩

theorem witness_BuildNeedsASymbol : base.state ≠ .busy ∧ base.turns = [] ∧ ∀ b : Byte, base.freqAt b = 0 :=
  ⟨by decide +kernel, by decide +kernel, fun _ => rfl⟩

theorem witness_BuildOfOneSymbol :
    base.state ≠ .busy ∧ base.turns = [] ∧ State.freqAt { base with freq := [(0x41, 1000)] } 0x41 ≠ 0
      ∧ ∀ c : Byte, c ≠ 0x41 → State.freqAt { base with freq := [(0x41, 1000)] } c = 0 :=
  ⟨by decide +kernel, by decide +kernel, by decide +kernel, fun c hc => by
    have : c.toNat ≠ 0x41 := fun h => hc (BitVec.eq_of_toNat_eq h)
    simp [State.freqAt, Memory.read, this]⟩

/-- The literal example; the sum 2^64 - 1 is the largest allowed (vector B-10, third row). -/
theorem witness_BuildMakesAPrefixTree :
    base.state ≠ .busy ∧ base.turns = []
      ∧ State.freqSum { base with freq := [(0, 0x8000000000000000), (1, 0x7FFFFFFFFFFFFFFF)] } < 2 ^ 64
      ∧ State.freqAt { base with freq := [(0, 0x8000000000000000), (1, 0x7FFFFFFFFFFFFFFF)] } 0 ≠ 0
      ∧ Memory.wf 511 base.node = true ∧ Memory.wf 511 base.weight = true := by decide +kernel

/-- The sum 2^64, the smallest that overflows (vector B-10, second row). -/
theorem witness_BuildOverflows :
    base.state ≠ .busy ∧ base.turns = []
      ∧ 2 ^ 64 ≤ State.freqSum { base with freq := [(0, 0x8000000000000000), (1, 0x8000000000000000)] }
      ∧ Memory.wf 511 base.node = true ∧ Memory.wf 511 base.weight = true := by decide +kernel

/-- Both clauses: no tree, and a tree without codes (vector Q-5). -/
theorem witness_PreconditionsFailBeforeAnyEffect :
    base.state ≠ .busy ∧ base.turns = [] ∧ base.tv = false ∧ treeABC.state ≠ .busy ∧ treeABC.turns = []
      ∧ treeABC.cv = false := by decide +kernel

/-- The single leaf of vector B-1. -/
def leafA : State :=
  { base with
    state := .done, cmdCur := 0x11, phase := .build, tv := true, nodeN := 1, node := [(0, 0x80000041)],
    weight := [(0, 1000)] }

theorem witness_GencodeOfOneLeaf :
    leafA.state ≠ .busy ∧ leafA.turns = [] ∧ leafA.tv = true ∧ leafA.isLeaf leafA.root = true := by decide +kernel

/-- The literal example's tree stands in the arena of vector B-4; the single leaf in that of B-1. -/
theorem witness_GencodeTabulatesThePaths :
    treeABC.state ≠ .busy ∧ treeABC.turns = [] ∧ treeABC.tv = true ∧ treeABC.rootTree absABC
      ∧ leafA.rootTree (.leaf 0x41) := by
  refine ⟨by decide +kernel, by decide +kernel, rfl, ⟨?_, ?_⟩, ⟨?_, ?_⟩⟩
  · simp only [absABC, holdsTree]; decide +kernel
  · decide +kernel
  · simp only [holdsTree]; decide +kernel
  · decide +kernel

/-- OUT has exactly the room that is needed. -/
theorem witness_SertreeWritesTheTree :
    treeABC.state ≠ .busy ∧ treeABC.turns = [] ∧ treeABC.tv = true
      ∧ holdsTree treeABC.node treeABC.nodeN absABC treeABC.root
      ∧ State.outq { treeABC with outDepth := 8 } ++ [] = []
      ∧ (State.outq { treeABC with outDepth := 8 }).length + absABC.ser.length
          ≤ State.outDepth { treeABC with outDepth := 8 } := by
  refine ⟨by decide +kernel, by decide +kernel, rfl, ?_, rfl, by decide +kernel⟩
  simp only [absABC, holdsTree]; decide +kernel

theorem witness_DestreeReadsTheTreeBack :
    base.state ≠ .busy ∧ base.turns = []
      ∧ State.inq { base with inq := toks [0x30, 0x31, 0x61, 0x30, 0x31, 0x63, 0x31, 0x62, 9] }
          = byteTokens absABC.ser ++ toks [9]
      ∧ absABC.size ≤ 511 ∧ Memory.wf 511 base.node = true ∧ Memory.wf 511 base.weight = true := by decide +kernel

/-- The left chain of `n` internal nodes. -/
def leftChain : Nat → Tree
  | 0 => .leaf 7
  | n + 1 => .node (leftChain n) (.leaf 7)

/-- Cut after two bytes (vector T-12's shape), cut to nothing (T-11), and 256 internal markers, which begin a tree of 513
nodes (T-19). -/
theorem witness_DestreeReportsATruncatedTree :
    base.state ≠ .busy ∧ base.turns = [] ∧ absABC.ser = [0x30, 0x31] ++ [0x61, 0x30, 0x31, 0x63, 0x31, 0x62]
      ∧ ([0x61, 0x30, 0x31, 0x63, 0x31, 0x62] : List Byte) ≠ [] ∧ nodesBegun [0x30, 0x31] ≤ 511
      ∧ State.inq { base with inq := toks [0x30, 0x31] ++ [.eos] } = byteTokens [0x30, 0x31] ++ .eos :: []
      ∧ absABC.ser = [] ++ absABC.ser ∧ absABC.ser ≠ []
      ∧ State.inq { base with inq := [.eos] } = byteTokens [] ++ .eos :: []
      ∧ (leftChain 256).ser = List.replicate 256 0x30 ++ (leftChain 256).ser.drop 256
      ∧ (leftChain 256).ser.drop 256 ≠ [] ∧ nodesBegun (List.replicate 256 0x30) ≤ 511 := by decide +kernel

/-- DESTREE at a marker with token `t` waiting and `n` slots in use. -/
def atMarker (t : Token) (n : BitVec 9) : State :=
  { base with
    state := .busy, cmdCur := 0x20, phase := .destree, nodeN := n, inq := [t], resume := .inNext .marker [] }

/-- Each clause: EOS, a bad marker beside the two good ones, either good marker with 511 and with 510 slots in use. -/
theorem witness_MarkerChecksInOrder :
    (∀ t n, (atMarker t n).state = .busy ∧ (atMarker t n).resume = .inNext .marker [] ∧ (atMarker t n).inq = t :: [])
      ∧ (0x32 : Byte) ≠ 0x30 ∧ (0x32 : Byte) ≠ 0x31 ∧ (0x2F : Byte) ≠ 0x30 ∧ (0x2F : Byte) ≠ 0x31
      ∧ (atMarker (.byte 0x31) 511).nodeN = 511 ∧ (atMarker (.byte 0x30) 510).nodeN ≠ 511
      ∧ (atMarker (.byte 0x31) 510).nodeN ≠ 511 :=
  ⟨fun _ _ => ⟨rfl, rfl, rfl⟩, by decide +kernel⟩

theorem witness_WrsizeWritesTheSizeField :
    base.state ≠ .busy ∧ base.turns = [] ∧ (State.outq { base with outDepth := 8 }).length + 8 ≤ 8 := by decide +kernel

/-- Every byte 0xFF (vector Z-6). -/
theorem witness_RdsizeReadsTheSizeField :
    base.state ≠ .busy ∧ base.turns = []
      ∧ State.inq { base with inq := toks [0xFF, 0xFF, 0xFF, 0xFF, 0xFF, 0xFF, 0xFF, 0xFF] }
          = byteTokens (size8 base.sizeEndian (BitVec.allOnes 64)) ++ [] := by decide +kernel

/-- Seven bytes, and none. -/
theorem witness_RdsizeReportsAShortField :
    base.state ≠ .busy ∧ base.turns = [] ∧ ([1, 2, 3, 4, 5, 6, 7] : List Byte).length < 8
      ∧ State.inq { base with inq := toks [1, 2, 3, 4, 5, 6, 7] ++ [.eos] }
          = byteTokens [1, 2, 3, 4, 5, 6, 7] ++ .eos :: []
      ∧ ([] : List Byte).length < 8 ∧ State.inq { base with inq := [.eos] } = byteTokens [] ++ .eos :: [] := by
  decide +kernel

/-- Vector E-3's stream (no padding byte) with exactly the room it needs, and the empty stream of E-4. -/
theorem witness_EncodePacksTheCodes :
    codeABC.state ≠ .busy ∧ codeABC.turns = [] ∧ codeABC.cv = true
      ∧ State.inq { codeABC with inq := toks [0x61, 0x61, 0x61, 0x61, 0x62, 0x62] ++ [.eos] }
          = byteTokens [0x61, 0x61, 0x61, 0x61, 0x62, 0x62] ++ .eos :: []
      ∧ (∀ b ∈ ([0x61, 0x61, 0x61, 0x61, 0x62, 0x62] : List Byte), codeABC.lenAt b ≠ 0)
      ∧ ([0x61, 0x61, 0x61, 0x61, 0x62, 0x62] : List Byte).length < 2 ^ 64
      ∧ State.size { codeABC with size := 6 } = BitVec.ofNat 64 6
      ∧ codeABC.outq.length + (pack (([0x61, 0x61, 0x61, 0x61, 0x62, 0x62] : List Byte).flatMap codeABC.codeOf)).length ≤ 1
      ∧ State.size { codeABC with size := 0 } = BitVec.ofNat 64 ([] : List Byte).length := by decide +kernel

/-- Vector E-6. -/
theorem witness_EncodeStopsAtAByteWithoutCode :
    codeABC.state ≠ .busy ∧ codeABC.turns = [] ∧ codeABC.cv = true
      ∧ State.inq { codeABC with inq := toks [0x61, 0x7A] ++ [.eos] } = byteTokens [0x61] ++ .byte 0x7A :: [.eos]
      ∧ (∀ c ∈ ([0x61] : List Byte), codeABC.lenAt c ≠ 0) ∧ codeABC.lenAt 0x7A = 0
      ∧ ([0x61] : List Byte).length < 2 ^ 64
      ∧ codeABC.outq.length + (([0x61] : List Byte).flatMap codeABC.codeOf).length / 8 ≤ codeABC.outDepth := by
  decide +kernel

/-- Vector E-5, and the next byte after 2^64 - 1 bytes. -/
theorem witness_EncodeReportsALengthMismatch :
    codeABC.state ≠ .busy ∧ codeABC.turns = [] ∧ codeABC.cv = true
      ∧ State.inq { codeABC with inq := [.eos], size := 1 } = byteTokens [] ++ .eos :: []
      ∧ (∀ b ∈ ([] : List Byte), codeABC.lenAt b ≠ 0) ∧ ([] : List Byte).length < 2 ^ 64
      ∧ State.size { codeABC with inq := [.eos], size := 1 } ≠ BitVec.ofNat 64 ([] : List Byte).length
      ∧ codeABC.outq.length + (pack (([] : List Byte).flatMap codeABC.codeOf)).length ≤ codeABC.outDepth
      ∧ State.resume { codeABC with state := .busy, resume := .inNext .encode [], cnt := BitVec.allOnes 64 }
          = .inNext .encode []
      ∧ State.cnt { codeABC with state := .busy, resume := .inNext .encode [], cnt := BitVec.allOnes 64 }
          = BitVec.allOnes 64 ∧ codeABC.lenAt 0x61 ≠ 0 := by
  decide +kernel

theorem witness_DecodeOfNothing :
    treeABC.state ≠ .busy ∧ treeABC.turns = [] ∧ treeABC.tv = true ∧ State.size { treeABC with size := 0 } = 0 := by
  decide +kernel

/-- Vector X-2. -/
theorem witness_DecodeEmitsTheSymbols :
    treeABC.state ≠ .busy ∧ treeABC.turns = [] ∧ treeABC.tv = true
      ∧ holdsTree treeABC.node treeABC.nodeN absABC treeABC.root
      ∧ State.inq { treeABC with inq := toks [0xB0] ++ [.eos], size := 3 } = byteTokens [0xB0] ++ [.eos]
      ∧ absABC.dec (State.size { treeABC with size := 3 }).toNat (bytesBits [0xB0])
          = ([0x63, 0x62, 0x61], some [false, false, false])
      ∧ treeABC.outq.length + 3 ≤ treeABC.outDepth := by
  refine ⟨by decide +kernel, by decide +kernel, rfl, ?_, by decide +kernel⟩
  simp only [absABC, holdsTree]; decide +kernel

/-- Vector X-6. -/
theorem witness_DecodeReportsATruncatedPayload :
    treeABC.state ≠ .busy ∧ treeABC.turns = [] ∧ treeABC.tv = true
      ∧ holdsTree treeABC.node treeABC.nodeN absABC treeABC.root
      ∧ State.inq { treeABC with inq := toks [0x0F] ++ [.eos] } = byteTokens [0x0F] ++ .eos :: []
      ∧ absABC.dec treeABC.size.toNat (bytesBits [0x0F]) = ([0x61, 0x61, 0x61, 0x61, 0x62, 0x62], none)
      ∧ treeABC.outq.length + 6 ≤ treeABC.outDepth := by
  refine ⟨by decide +kernel, by decide +kernel, rfl, ?_, by decide +kernel⟩
  simp only [absABC, holdsTree]; decide +kernel

/-- One byte (47 R229 item 2), with exactly the room it needs. -/
theorem witness_CompressOfOneSymbol :
    base.state ≠ .busy ∧ base.turns = [] ∧ 1 ≤ 1 ∧ 1 < 2 ^ 64
      ∧ State.inq { base with inq := toks [0x41] ++ .eos :: (toks [0x41] ++ [.eos]) }
          = byteTokens (List.replicate 1 0x41) ++ .eos :: (byteTokens (List.replicate 1 0x41) ++ .eos :: [])
      ∧ (State.outq { base with outDepth := 11 }).length + 10 + (1 + 7) / 8 ≤ 11
      ∧ Memory.wf 511 base.node = true := by decide +kernel

/-- "aab" and then "aab", "aa", or "aa" with an absent byte (vectors M-4 to M-7); the same state meets
CompressThenDecompressIsTheIdentity, with the archive of M-7 to read. -/
theorem witness_CompressWritesTheArchive :
    base.state ≠ .busy ∧ base.turns = [] ∧ ([0x61, 0x61, 0x62] : List Byte) ≠ []
      ∧ ([0x61, 0x61, 0x62] : List Byte).length < 2 ^ 64 ∧ (∀ b ∈ outs [0x61, 0x61, 0x62], b ∈ outs [0x61, 0x61, 0x62])
      ∧ State.inq { base with inq := toks [0x61, 0x61, 0x62] ++ .eos :: (toks [0x61, 0x61, 0x62] ++ [.eos]) }
          = byteTokens [0x61, 0x61, 0x62] ++ .eos :: (byteTokens [0x61, 0x61, 0x62] ++ .eos :: [])
      ∧ base.outq.length + 767 + 8 + 32 * 3 ≤ base.outDepth ∧ Memory.wf 511 base.node = true
      ∧ Memory.wf 511 base.weight = true
      ∧ (∀ b ∈ outs [0x61, 0x61], b ∈ outs [0x61, 0x61, 0x62])
      ∧ (outs [0x61, 0x61]).length ≠ (outs [0x61, 0x61, 0x62]).length
      ∧ State.inq { base with inq := toks [0x61, 0x61, 0x62] ++ .eos :: (toks [0x61, 0x61] ++ [.eos]) }
          = byteTokens [0x61, 0x61, 0x62] ++ .eos :: (byteTokens [0x61, 0x61] ++ .eos :: [])
      ∧ (0x63 : Byte) ∉ outs [0x61, 0x61, 0x62]
      ∧ State.inq { base with inq := toks [0x61, 0x61, 0x62] ++ .eos :: (toks [0x61, 0x61, 0x63] ++ [.eos]) }
          = byteTokens [0x61, 0x61, 0x62] ++ .eos :: (byteTokens [0x61, 0x61] ++ .byte 0x63 :: [.eos]) := by decide +kernel

/-- The block that reads it back: any archive, here that of "aab", with an EOS. -/
theorem witness_CompressThenDecompressIsTheIdentity :
    base.state ≠ .busy ∧ base.turns = [] ∧ base.sizeEndian = base.sizeEndian
      ∧ State.inq { base with inq := toks [0x30, 0x31, 0x62, 0x31, 0x61, 3, 0, 0, 0, 0, 0, 0, 0, 0xC0] ++ [.eos] }
          = byteTokens (outs [0x30, 0x31, 0x62, 0x31, 0x61, 3, 0, 0, 0, 0, 0, 0, 0, 0xC0]) ++ .eos :: []
      ∧ base.outq.length + 3 ≤ base.outDepth ∧ Memory.wf 511 base.node = true ∧ Memory.wf 511 base.weight = true := by
  decide +kernel

/-- Vector M-10, and M-16 whose size field is 0. -/
theorem witness_DecompressReadsTheArchive :
    base.state ≠ .busy ∧ base.turns = [] ∧ absABC.size ≤ 511
      ∧ State.inq { base with
            inq := toks [0x30, 0x31, 0x61, 0x30, 0x31, 0x63, 0x31, 0x62, 9, 0, 0, 0, 0, 0, 0, 0, 0x0F, 0xE8] ++ [.eos] }
          = byteTokens (absABC.ser ++ size8 base.sizeEndian 9 ++ [0x0F, 0xE8]) ++ [.eos]
      ∧ absABC.dec (9 : DWord).toNat (bytesBits [0x0F, 0xE8])
          = ([0x61, 0x61, 0x61, 0x61, 0x62, 0x62, 0x62, 0x63, 0x63], some [false, false])
      ∧ base.outq.length + 9 ≤ base.outDepth ∧ Memory.wf 511 base.node = true ∧ Memory.wf 511 base.weight = true
      ∧ (Tree.leaf 0x41).dec (0 : DWord).toNat (bytesBits [0xFF]) = ([], some (bytesBits [0xFF])) := by decide +kernel

/-- DECOMPRESS at its first marker, with an EOS waiting: the engine step fails. -/
def decompressAtEos : State := { atMarker .eos 0 with cmdCur := 0x41, resume := .inNext .marker [.rdsize, .decode, .release] }

theorem witness_MacrosReleaseTheTree :
    decompressAtEos.state = .busy ∧ decompressAtEos.cmdCur = 0x41 ∧ decompressAtEos.runningCommand
      ∧ (engineStep decompressAtEos).state ≠ .busy :=
  ⟨rfl, rfl, ⟨.decompress, rfl, by decide +kernel⟩, by decide +kernel⟩

theorem witness_FailChangesOnlyItsFields :
    decompressAtEos.cmdCur = 0x41 ∧ heldCount.cmdCur ≠ 0x40 ∧ heldCount.cmdCur ≠ 0x41
      ∧ ({ base with cmdCur := 0x40 } : State).cmdCur = 0x40 := by decide +kernel

/-- A block held in COUNT, one that has failed, and a command that fails in the accepting step. -/
theorem witness_EachCommandFailsOnlyWithItsErrors :
    heldCount.ErrorInv
      ∧ State.ErrorInv { base with state := .error, err := .badSequence, cmdCur := 0x12 }
      ∧ base.state ≠ .busy ∧ (nextOf (exec .gencode base)).map State.state = some .error := by
  refine ⟨⟨⟨fun h => absurd h (by decide +kernel), fun _ => ⟨.count, rfl, by decide +kernel⟩⟩, by decide +kernel,
    fun _ _ _ => by decide +kernel, fun h => absurd h (by decide +kernel)⟩,
    ⟨⟨fun h => absurd h (by decide +kernel), fun h => absurd h (by decide +kernel)⟩, by decide +kernel,
    fun h => absurd h (by decide +kernel), fun _ => .inr ⟨.gencode, rfl, by decide +kernel⟩⟩, by decide +kernel, by decide +kernel⟩

theorem witness_BadTopologyIsNeverRaised : treeABC.err ≠ .badTopology := by decide +kernel

/-- A block held in COUNT meets every invariant, and steps. -/
theorem witness_invariants :
    heldCount.SequencerInv ∧ heldCount.FlagInv ∧ heldCount.TableInv ∧ heldCount.QueueInv
      ∧ (nextOf (step heldCount)).isSome = true := by
  refine ⟨?_, ⟨fun h => absurd h (by decide +kernel), fun _ => ⟨.count, rfl, by decide +kernel⟩⟩, ?_, ?_, by decide +kernel⟩
  · unfold State.SequencerInv; decide +kernel
  · refine ⟨by decide +kernel, by decide +kernel, by decide +kernel, by decide +kernel, by decide +kernel, ?_⟩
    intro k todo h hk
    cases h
    cases hk
  · unfold State.QueueInv; decide +kernel

/-- DESTREE at the symbol of the first leaf of an internal root (44 R184): the root is open, the leaf's slot is taken. -/
def atSymbol : State :=
  { base with
    state := .busy, cmdCur := 0x20, phase := .destree, nodeN := 2, stk := [{ h := 0 }], resume := .inNext (.symbol 1) [] }

theorem codeABC_tabulates : codeABC.tabulates absABC := by
  intro b
  refine ⟨?_, fun i hi => ?_⟩
  · have h : ∀ c : Byte,
        (absABC.code c = some (codeABC.codeOf c) ∧ (codeABC.lenAt c).toNat = (codeABC.codeOf c).length)
          ∨ (absABC.code c = none ∧ codeABC.lenAt c = 0) := by decide +kernel
    rcases h b with ⟨h1, h2⟩ | ⟨h1, h2⟩ <;> rw [h1]
    · exact ⟨rfl, h2⟩
    · exact h2
  · have h : ∀ c : Byte, (codeABC.bitsAt c).toNat < 2 ^ (codeABC.lenAt c).toNat := by decide +kernel
    exact Nat.testBit_lt_two_pow (lt_of_lt_of_le (h b) (Nat.pow_le_pow_right (by decide) hi))

/-- The literal example with its code table, and DESTREE in the middle of a tree, meet the invariant of 10 R54 items 2 and 3. -/
theorem witness_StepKeepsTheFlagInvariant :
    codeABC.TreeInv ∧ codeABC.cv = true ∧ codeABC.rootTree absABC ∧ atSymbol.TreeInv := by
  have hr : codeABC.rootTree absABC :=
    ⟨by simp only [absABC, holdsTree]; decide +kernel, by decide +kernel⟩
  have hu : ∀ t, codeABC.rootTree t → codeABC.tabulates t := fun t ht => by
    rw [holdsTree_unique ht.1 hr.1]; exact codeABC_tabulates
  refine ⟨⟨⟨fun _ => rfl, fun h => absurd h (by decide +kernel)⟩, ?_, fun _ => ⟨absABC, hr⟩, fun _ => hu,
    fun h => absurd h (by decide +kernel)⟩, rfl, hr, ⟨⟨fun h => absurd h (by decide +kernel), fun _ => ⟨.destree, rfl, by decide +kernel⟩⟩, ?_,
    fun h => absurd h (by decide +kernel), fun h => absurd h (by decide +kernel), ?_⟩⟩
  · refine ⟨by decide +kernel, by decide +kernel, by decide +kernel, by decide +kernel, by decide +kernel, ?_⟩
    intro k todo h; cases h
  · refine ⟨by decide +kernel, by decide +kernel, by decide +kernel, by decide +kernel, by decide +kernel, ?_⟩
    intro k todo h _
    cases h
    exact ⟨fun h hh => by cases hh; decide +kernel, by decide +kernel⟩
  · intro _ k todo h _
    cases h
    exact ⟨rfl, rfl, [0], ⟨by decide +kernel, by decide +kernel, [], rfl, .inl ⟨rfl, rfl⟩⟩, by decide +kernel, by decide +kernel⟩

/-- An engine held at an empty IN, and one held at a full OUT. -/
theorem witness_HoldPassesNothing :
    (heldCount.resume = .inNext .count [] ∧ heldCount.inq = [])
      ∧ State.resume { heldCount with cmdCur := 0x14, resume := .outPut 9 (.sizeByte 0) [], outDepth := 1, outq := [7] }
          = .outPut 9 (.sizeByte 0) []
      ∧ State.outDepth { heldCount with outDepth := 1, outq := [7] }
          ≤ (State.outq { heldCount with outDepth := 1, outq := [7] }).length := by decide +kernel

/-- For FullTurnEndsInAHoldOrAStop, and for the engine statements over states with an enabled step. -/
theorem witness_engine :
    heldCount.turns = [] ∧ Proc.flush ∉ heldCount.resume.todo
      ∧ State.enabled { heldCount with inq := toks [1] } = true
      ∧ State.outq { heldCount with inq := toks [1], outq := [5, 6] } = 5 :: [6] := by decide +kernel

/-- A refused and an accepted transaction. -/
theorem witness_RefusalsAreExactlyTheList :
    State.host { base with host := [.read 32 0x17FC] } = .read 32 0x17FC :: [] ∧ HostAct.read 32 0x17FC ≠ .reset
      ∧ refusedAct (.read 32 0x17FC) base = true ∧ refusedAct (.read 32 0x17F8) base = false
      ∧ refusedAct (.write 32 0x0000 0) heldCount = true ∧ refusedAct (.write 32 0x0000 0) base = false := by
  decide +kernel

/-- Every window at the last entry its condition admits. -/
theorem witness_WindowsShowTheTables :
    codeABC.state ≠ .busy ∧ codeABC.tv = true ∧ (4 : Handle) < codeABC.nodeN ∧ codeABC.cv = true ∧ 7 < 8
      ∧ (510 : Handle) < State.nodeN { codeABC with nodeN := 511 } := by decide +kernel

/-- SIZE and TREEINFO at the ends of their fields (10 R34, R35). -/
theorem test_size_and_treeinfo :
    (hostAct (.read 32 0x0010) { codeABC with size := 0x80000001FFFFFFFE }).resp.data = 0xFFFFFFFE
      ∧ (hostAct (.read 32 0x0014) { codeABC with size := 0x80000001FFFFFFFE }).resp.data = 0x80000001
      ∧ (hostAct (.read 32 0x0028) { codeABC with root := 0x1FE, nodeN := 0x1FF }).resp.data = 0x01FF01FE
      ∧ (hostAct (.read 32 0x0028) { codeABC with root := 0x100, nodeN := 0x101 }).resp.data = 0x01010100 := by decide +kernel

/-- Each clause: BUSY, TV = 0, CV = 0, and the first slot not in use. -/
theorem witness_UndefinedReadsAreFree :
    (0x0010 : Offset).toNat % 4 = 0 ∧ heldCount.state = .busy ∧ (0x0FFC : Offset).toNat % 4 = 0
      ∧ (0x0FFC : Offset).toNat < 0x1000 ∧ base.tv = false ∧ inNodeWindow 0x17F8 ∧ inWeightWindow 0x2FF4
      ∧ treeABC.cv = false ∧ inCodeWindow 0x1BFC ∧ inCodeWindow 0x5FFC
      ∧ treeABC.nodeN.toNat ≤ ((0x1014 : Offset).toNat - 0x1000) / 4
      ∧ treeABC.nodeN.toNat ≤ ((0x2028 : Offset).toNat - 0x2000) / 8 := by decide +kernel

theorem witness_HostWritesReplaceOneHalf :
    treeABC.state ≠ .busy ∧ Memory.wf 256 treeABC.freq = true ∧ heldCount.state = .busy := by decide +kernel

/-- One place left in IN, and none; a byte in OUT; OUT empty. -/
theorem witness_QueueRegisters :
    (State.inq { base with inDepth := 2, inq := [.eos] }).length < 2
      ∧ 1 ≤ (State.inq { base with inDepth := 1, inq := [.eos] }).length
      ∧ State.outq { base with outq := [9] } = 9 :: [] ∧ base.outq = [] := by decide +kernel

/-- Reads, and the invariant in COUNT and at a decoded symbol one short of SIZE. -/
theorem witness_ProgressReadsAreBounded :
    base.state ≠ .busy ∧ heldCount.state = .busy ∧ heldCount.published ≤ heldCount.progress
      ∧ State.published { heldCount with published := 3, progress := 5 }
          ≤ State.progress { heldCount with published := 3, progress := 5 }
      ∧ heldCount.ProgressInv
      ∧ State.ProgressInv { base with
          state := .busy, cmdCur := 0x22, phase := .decode, tv := true, size := 9, cnt := 8, progress := 8, published := 8,
          resume := .outPut 0x61 .leafReached [] } := by
  refine ⟨by decide +kernel, rfl, by decide +kernel, by decide +kernel, fun _ => ⟨by decide +kernel, rfl⟩,
    fun _ => ⟨by decide +kernel, rfl, by decide +kernel⟩⟩

theorem witness_ResetsGiveTheResetState :
    (0x80000001 : Word).getLsbD 31 = true ∧ (0x7FFFFFFF : Word).getLsbD 31 = false := by decide

end Sys2Proof.Tests
end

/-! PROOFS. The sequencer invariant: how an engine step carries an invariant through the procedures of a command, and 10 R54 items
1, 4 and 6 (O43). -/

namespace Sys2Proof.Machine

/-! ## How an engine step carries an invariant

A command is a list of procedures, and `runOn` hands the state from one to the next. An invariant `Q` of the states between
engine steps comes with an entry condition `E todo`: what holds where a procedure has returned and `todo` is still to run. -/

/-- What a stretch of pseudocode owes: `E` where it returned, `Q` where the engine stops. -/
def Run.Leads (E : List Proc → State → Prop) (Q : State → Prop) (todo : List Proc) : Run → Prop
  | .done s => E todo s
  | .waitIn k s => Q { s with resume := .inNext k todo }
  | .waitOut b k s => Q { s with resume := .outPut b k todo }
  | .failed e s => Q (s.fail e)
  | .endless s => Q { s with resume := .stuck }

/-- The entry condition `E` carries `Q` through every engine step: it holds at the start of a command, every procedure and
every resumed procedure leads on, and `Q` holds when nothing is left to run. -/
structure Carries (E : List Proc → State → Prop) (Q : State → Prop) : Prop where
  complete : ∀ s, E [] s → Q s.complete
  proc : ∀ p todo s, E (p :: todo) s → (startProc p s).Leads E Q todo
  start : ∀ s todo, s.state = .busy → s.resume = .start todo → Q s → E todo s
  input : ∀ s k todo t rest, s.state = .busy → s.resume = .inNext k todo → Q s →
    (afterIn k t { s with inq := rest }).Leads E Q todo
  output : ∀ s b k todo, s.state = .busy → s.resume = .outPut b k todo → Q s →
    (afterOut k { s with outq := s.outq ++ [b] }).Leads E Q todo

/-- Running on from a stretch that leads on ends in `Q`. -/
theorem Carries.runOn {E : List Proc → State → Prop} {Q : State → Prop} (hc : Carries E Q) (todo : List Proc) (r : Run)
    (h : r.Leads E Q todo) : Q (runOn todo r) := by
  induction todo generalizing r with
  | nil =>
    cases r with
    | done s => rw [runOn_nil_done]; exact hc.complete s h
    | waitIn k s => rw [runOn_waitIn]; exact h
    | waitOut b k s => rw [runOn_waitOut]; exact h
    | failed e s => rw [runOn_failed]; exact h
    | endless s => rw [runOn_endless]; exact h
  | cons p rest ih =>
    cases r with
    | done s => rw [runOn_cons_done]; exact ih _ (hc.proc p rest s h)
    | waitIn k s => rw [runOn_waitIn]; exact h
    | waitOut b k s => rw [runOn_waitOut]; exact h
    | failed e s => rw [runOn_failed]; exact h
    | endless s => rw [runOn_endless]; exact h

/-- A carried invariant is kept by every engine step. -/
theorem Carries.engineStep {E : List Proc → State → Prop} {Q : State → Prop} (hc : Carries E Q) (s : State) (h : Q s) :
    Q (engineStep s) := by
  rcases engineStep_cases s with ⟨_, e⟩ | ⟨todo, hb, hr, e⟩ | ⟨k, todo, t, rest, hb, hr, _, e⟩ | ⟨b, k, todo, hb, hr, _, e⟩
  · rwa [e]
  · rw [e]; exact hc.runOn _ _ (hc.start s todo hb hr h)
  · rw [e]; exact hc.runOn _ _ (hc.input s k todo t rest hb hr h)
  · rw [e]; exact hc.runOn _ _ (hc.output s b k todo hb hr h)

/-- Two conditions are led to at once. -/
theorem Run.Leads.and {E E' : List Proc → State → Prop} {Q Q' : State → Prop} {todo : List Proc} {r : Run}
    (h : r.Leads E Q todo) (h' : r.Leads E' Q' todo) :
    r.Leads (fun l s => E l s ∧ E' l s) (fun s => Q s ∧ Q' s) todo := by
  cases r <;> exact ⟨h, h'⟩

/-- A weaker pair of conditions is led to as well. -/
theorem Run.Leads.imp {E E' : List Proc → State → Prop} {Q Q' : State → Prop} {todo : List Proc} {r : Run}
    (h : r.Leads E Q todo) (hE : ∀ s, E todo s → E' todo s) (hQ : ∀ s, Q s → Q' s) : r.Leads E' Q' todo := by
  cases r with
  | done s => exact hE s h
  | _ => exact hQ _ h

/-- A property of the state a stretch stopped in, that looks at no resume point and that `fail` keeps, is led to. -/
theorem Run.leads_of_final (P : State → Prop) (hres : ∀ s p, P s → P { s with resume := p })
    (hfail : ∀ e s, P s → P (s.fail e)) (todo : List Proc) {r : Run} (h : P r.final) :
    r.Leads (fun _ => P) P todo := by
  cases r with
  | done s => exact h
  | failed e s => exact hfail e s h
  | _ => exact hres _ _ h

/-! ## STATE, ERR and CMD_CUR while a command runs -/

/-- 10 R54 item 1, and a resume point exactly while BUSY. -/
def State.StatusInv (s : State) : Prop :=
  (s.state = .error ↔ s.err ≠ .ok) ∧ (s.state = .busy ↔ s.resume ≠ .idle)

/-- A BUSY engine stands at a point of the command CMD_CUR names. -/
def State.CommandInv (s : State) : Prop := s.state = .busy → s.runningCommand

/-- The procedures `todo` end the program of the command CMD_CUR names. -/
def State.programEnds (todo : List Proc) (s : State) : Prop := ∃ i, s.cmdCur = opcodeOf i ∧ todo <:+ programOf i

/-- No procedure has the error code 0. -/
theorem ok_not_mem_errsOf (p : Proc) : Err.ok ∉ errsOf p := by cases p <;> decide

/-- A procedure that runs BUSY and without error ends in an error, completes, or stops at one of its points. -/
theorem StopsIn.leads_status {p : Proc} {r : Run} (hr : StopsIn p r) (todo : List Proc) (hb : r.final.state = .busy)
    (he : r.final.err = .ok) : r.Leads (fun _ s => s.state = .busy ∧ s.err = .ok) State.StatusInv todo := by
  cases r with
  | done s => exact ⟨hb, he⟩
  | failed e s =>
    have hne : e ≠ .ok := fun h => ok_not_mem_errsOf p (h ▸ hr)
    simp [Run.Leads, State.StatusInv, hne]
  | _ => simp_all [Run.Leads, State.StatusInv, Run.final]

/-- A procedure of a command stops at a point of the command, or hands over to the rest of its program. -/
theorem StopsIn.leads_command {p : Proc} {r : Run} (hr : StopsIn p r) {todo : List Proc}
    (hc : r.final.programEnds (p :: todo)) : r.Leads State.programEnds State.CommandInv todo := by
  obtain ⟨i, hi, hp⟩ := hc
  cases r with
  | done s => exact ⟨i, hi, (List.suffix_cons p todo).trans hp⟩
  | waitIn k s => exact fun _ => ⟨i, hi, by simpa [Resume.within, show procOfIn k = p from hr] using hp⟩
  | waitOut b k s => exact fun _ => ⟨i, hi, by simpa [Resume.within, show procOfOut k = p from hr] using hp⟩
  | failed e s => intro hb; simp at hb
  | endless s =>
    refine fun _ => ⟨i, hi, ?_⟩
    have hmem : p ∈ programOf i := hp.subset List.mem_cons_self
    simpa [Resume.within, show p = .gencode from hr] using hmem

/-- STATE, ERR and CMD_CUR after a part of a procedure that leaves the host's side. -/
theorem final_status {r : Run} {s : State} (h : r.final.hostSide = s.hostSide) :
    r.final.state = s.state ∧ r.final.err = s.err ∧ r.final.cmdCur = s.cmdCur :=
  ⟨congrArg HostSide.state h, congrArg HostSide.err h, congrArg HostSide.cmdCur h⟩

/-! ## The procedures that only read the tables and the flags -/

/-- TV, CV, the tables, and the registers that say what the arena holds. -/
structure Store where
  tv : Bool
  cv : Bool
  root : Handle
  nodeN : BitVec 9
  freq : Memory 64
  node : Memory 32
  weight : Memory 64
  codeLen : Memory 9
  codeBits : Memory 256

/-- Those fields of a state. -/
def State.store (s : State) : Store :=
  ⟨s.tv, s.cv, s.root, s.nodeN, s.freq, s.node, s.weight, s.codeLen, s.codeBits⟩

/-- A procedure that leaves the store. -/
def Proc.onlyReads : Proc → Bool
  | .needTv | .needCv | .flush | .sertree | .wrsize | .encode | .rdsize | .decode => true
  | .clear | .count | .build | .gencode | .destree | .release => false

/-- A stretch that leaves the store and the stack of `s`. -/
def Run.leaves (r : Run) (s : State) : Prop := r.final.store = s.store ∧ r.final.stk = s.stk

theorem encodeBits_leaves (b : Byte) (n : Nat) (s : State) : (encodeBits b n s).leaves s := by
  induction n generalizing s with
  | zero => exact ⟨rfl, rfl⟩
  | succ n ih =>
    simp only [encodeBits]; split
    · exact ⟨rfl, rfl⟩
    · exact ih (s.addBit ((s.bitsAt b).getLsbD n))

theorem encodeEnd_leaves (s : State) : (encodeEnd s).leaves s := by unfold encodeEnd; split <;> exact ⟨rfl, rfl⟩

theorem decodeLoop_leaves (n : Nat) (s : State) : (decodeLoop n s).leaves s :=
  decodeLoop_keeps (fun u => u.store = s.store ∧ u.stk = s.stk) (fun _ h => h) (fun _ _ h => h) n s ⟨rfl, rfl⟩

theorem decodeBit_leaves (n : Nat) (s : State) : (decodeBit (decodeLoop n) s).leaves s :=
  decodeBit_keeps (fun u => u.store = s.store ∧ u.stk = s.stk) (fun _ h => h) (fun _ _ h => h) _
    (fun u ⟨hu, hk⟩ => ⟨(decodeLoop_leaves n u).1.trans hu, (decodeLoop_leaves n u).2.trans hk⟩) s ⟨rfl, rfl⟩

theorem serLoop_store (s : State) : (serLoop s).final.store = s.store := by
  unfold serLoop; split
  · rfl
  · split <;> rfl

/-- A procedure that only reads leaves the store from its start; of these only SERTREE writes the stack. -/
theorem startProc_store {p : Proc} (hp : p.onlyReads = true) (s : State) :
    (startProc p s).final.store = s.store ∧ (p ≠ .sertree → (startProc p s).final.stk = s.stk) := by
  cases p <;> simp only [startProc]
  case needTv => unfold needTvRun; split <;> exact ⟨rfl, fun _ => rfl⟩
  case needCv => unfold needCvRun; split <;> exact ⟨rfl, fun _ => rfl⟩
  case sertree => exact ⟨serLoop_store _, fun h => absurd rfl h⟩
  case decode => exact (decodeLoop_leaves _ _).imp_right (fun h _ => h)
  case flush | wrsize | encode | rdsize => exact ⟨rfl, fun _ => rfl⟩
  all_goals exact absurd hp (by decide)

theorem afterIn_leaves {k : InPoint} (hk : (procOfIn k).onlyReads = true) (t : Token) (s : State) :
    (afterIn k t s).leaves s := by
  cases k <;> simp only [afterIn]
  case encode =>
    unfold encodeToken; split
    · split
      · exact ⟨rfl, rfl⟩
      · exact encodeEnd_leaves s
    · split_ifs
      · exact ⟨rfl, rfl⟩
      · exact ⟨rfl, rfl⟩
      · exact encodeBits_leaves _ _ s
  case sizeByte i v =>
    unfold rdsizeToken; split
    · exact ⟨rfl, rfl⟩
    · split <;> exact ⟨rfl, rfl⟩
  case decode =>
    unfold decodeToken; split
    · exact ⟨rfl, rfl⟩
    · exact decodeBit_leaves 7 { s with bitbuf := _, nbits := 8 }
  all_goals exact absurd hk (by simp [procOfIn, Proc.onlyReads])

/-- No `out_put` stands in a procedure that writes the store; only SERTREE's write the stack. -/
theorem afterOut_store (k : OutPoint) (s : State) :
    (afterOut k s).final.store = s.store ∧ (procOfOut k ≠ .sertree → (afterOut k s).final.stk = s.stk) := by
  cases k <;> simp only [afterOut]
  case leafMarker g => exact ⟨rfl, fun h => absurd rfl h⟩
  case leafSymbol => exact ⟨serLoop_store s, fun h => absurd rfl h⟩
  case innerMarker g => exact ⟨serLoop_store _, fun h => absurd rfl h⟩
  case sizeByte i => unfold wrsizeAfter; split <;> exact ⟨rfl, fun _ => rfl⟩
  case codeBits b n => exact (encodeBits_leaves b n s).imp_right (fun h _ => h)
  case padded => exact (encodeEnd_leaves { s with acc := 0, nacc := 0 }).imp_right (fun h _ => h)
  case rootSymbol => exact (decodeLoop_leaves _ s.countSymbol).imp_right (fun h _ => h)
  case leafReached => exact (decodeLoop_leaves _ (State.countSymbol { s with cur := s.root })).imp_right (fun h _ => h)

theorem procOfOut_ne_destree (k : OutPoint) : procOfOut k ≠ .destree := by cases k <;> simp [procOfOut]

/-! ## The working structures (10 R54 items 4 and 6) -/

/-- The heap is empty and the bit counters are in range. -/
def State.Quiet (s : State) : Prop := s.heap = [] ∧ s.nacc ≤ 7 ∧ s.nbits ≤ 8

/-- The stack is empty outside the points that use it. -/
def State.StackInv (s : State) : Prop := s.resume.usesStack = false → s.stk = []

theorem Run.leads_quiet (todo : List Proc) {r : Run} (h : r.final.Quiet) :
    r.Leads (fun _ => State.Quiet) State.Quiet todo :=
  Run.leads_of_final State.Quiet (fun _ _ h => h) (fun _ _ ⟨_, ha, hn⟩ => ⟨rfl, ha, hn⟩) todo h

theorem encodeBits_quiet (b : Byte) (n : Nat) (s : State) (h : s.Quiet) : (encodeBits b n s).final.Quiet := by
  induction n generalizing s with
  | zero => exact h
  | succ n ih =>
    obtain ⟨hh, ha, hn⟩ := h
    simp only [encodeBits]
    split
    · exact ⟨hh, Nat.zero_le 7, hn⟩
    · exact ih _ ⟨hh, by simp only [State.addBit_fields]; omega, hn⟩

theorem decodeLoop_quiet (n : Nat) (s : State) (h : s.Quiet) : (decodeLoop n s).final.Quiet :=
  decodeLoop_keeps State.Quiet (fun _ ⟨hh, ha, hn⟩ => ⟨hh, ha, (Nat.sub_le _ 1).trans hn⟩) (fun _ _ h => h) n s h

theorem decodeBit_quiet (n : Nat) (s : State) (h : s.Quiet) : (decodeBit (decodeLoop n) s).final.Quiet :=
  decodeBit_keeps State.Quiet (fun _ ⟨hh, ha, hn⟩ => ⟨hh, ha, (Nat.sub_le _ 1).trans hn⟩) (fun _ _ h => h) _
    (decodeLoop_quiet n) s h

theorem serLoop_quiet (s : State) (h : s.Quiet) : (serLoop s).final.Quiet := by
  unfold serLoop; split
  · exact h
  · split <;> exact h

theorem encodeEnd_quiet (s : State) (h : s.Quiet) : (encodeEnd s).final.Quiet := by
  unfold encodeEnd; split <;> exact h

theorem buildRun_quiet (s : State) (h : s.Quiet) : (buildRun s).final.Quiet := by
  have hheap : (buildRun s).final.heap = [] := by
    rcases buildRun_heap s with ⟨u, e, hu, h0⟩ | ⟨u, hu, h0⟩ <;> rw [hu] <;> exact h0
  exact ⟨hheap, buildRun_keeps (fun u => u.nacc ≤ 7 ∧ u.nbits ≤ 8) (fun _ h => h) (fun _ _ _ h => h) (fun _ _ h => h)
    (fun _ h => h) s h.2⟩

/-- Every procedure keeps the heap empty and the bit counters in range. -/
theorem startProc_quiet (p : Proc) (s : State) (h : s.Quiet) : (startProc p s).final.Quiet := by
  obtain ⟨hh, ha, hn⟩ := h
  cases p <;> simp only [startProc]
  case needTv => unfold needTvRun; split <;> exact ⟨hh, ha, hn⟩
  case needCv => unfold needCvRun; split <;> exact ⟨hh, ha, hn⟩
  case clear => exact ⟨rfl, Nat.zero_le 7, Nat.zero_le 8⟩
  case build => exact buildRun_quiet s ⟨hh, ha, hn⟩
  case gencode =>
    exact gencodeRun_keeps State.Quiet (fun _ h => h) (fun _ _ _ _ h => h) (fun _ _ h => h) (fun _ h => h) s ⟨hh, ha, hn⟩
  case sertree => exact serLoop_quiet _ ⟨hh, ha, hn⟩
  case encode => exact ⟨hh, Nat.zero_le 7, hn⟩
  case decode => exact decodeLoop_quiet _ _ ⟨hh, ha, Nat.zero_le 8⟩
  all_goals exact ⟨hh, ha, hn⟩

theorem afterIn_quiet (k : InPoint) (t : Token) (s : State) (h : s.Quiet) : (afterIn k t s).final.Quiet := by
  cases k <;> simp only [afterIn]
  case count => unfold countToken; split <;> split <;> exact h
  case encode =>
    unfold encodeToken; split
    · split
      · exact h
      · exact encodeEnd_quiet s h
    · split_ifs
      · exact h
      · exact h
      · exact encodeBits_quiet _ _ s h
  case marker =>
    unfold destreeMarker; split
    · exact h
    · split_ifs <;> exact h
  case symbol g =>
    unfold destreeSymbol; split
    · exact h
    · exact attach_keeps State.Quiet (fun _ _ _ h => h) (fun _ _ h => h) (fun _ _ h => h) _ _ _ h
  case sizeByte i v =>
    unfold rdsizeToken; split
    · exact h
    · split <;> exact h
  case decode =>
    unfold decodeToken; split
    · exact h
    · exact decodeBit_quiet 7 _ ⟨h.1, h.2.1, le_refl 8⟩

theorem afterOut_quiet (k : OutPoint) (s : State) (h : s.Quiet) : (afterOut k s).final.Quiet := by
  cases k <;> simp only [afterOut]
  case leafMarker g => exact h
  case leafSymbol => exact serLoop_quiet s h
  case innerMarker g => exact serLoop_quiet _ h
  case sizeByte i => unfold wrsizeAfter; split <;> exact h
  case codeBits b n => exact encodeBits_quiet b n s h
  case padded => exact encodeEnd_quiet _ ⟨h.1, Nat.zero_le 7, h.2.2⟩
  case rootSymbol => exact decodeLoop_quiet _ _ h
  case leafReached => exact decodeLoop_quiet _ _ h

/-- A stretch that ends with an empty stack may stop anywhere. -/
theorem Run.leads_stack_of_empty (todo : List Proc) {r : Run} (h : r.final.stk = []) :
    r.Leads (fun _ s => s.stk = []) State.StackInv todo := by
  cases r with
  | failed e s => exact fun _ => rfl
  | done s => exact h
  | _ => exact fun _ => h

theorem serLoop_leads_stack (todo : List Proc) (s : State) :
    (serLoop s).Leads (fun _ s => s.stk = []) State.StackInv todo := by
  unfold serLoop; split
  · assumption
  · split <;> exact fun h => absurd h (by simp [Resume.usesStack])

theorem attach_leads_stack (todo : List Proc) (l : List StkEntry) (c : Handle) (s : State) :
    (attach l c s).Leads (fun _ s => s.stk = []) State.StackInv todo := by
  induction l generalizing c s with
  | nil => rfl
  | cons e rest ih =>
    simp only [attach]; split
    · exact ih _ _
    · exact fun h => absurd h (by simp [Resume.usesStack])

theorem gencodeRun_leads_stack (todo : List Proc) (s : State) (h : s.stk = []) :
    (gencodeRun s).Leads (fun _ s => s.stk = []) State.StackInv todo := by
  rcases gencodeRun_stk s h with ⟨u, e, hu⟩ | ⟨u, e⟩ <;> rw [e]
  · exact hu
  · exact fun h => absurd h (by simp [Resume.usesStack])

/-- A procedure started with an empty stack leaves it empty, unless it stops at a point that uses it. -/
theorem startProc_leads_stack (p : Proc) (todo : List Proc) (s : State) (h : s.stk = []) :
    (startProc p s).Leads (fun _ s => s.stk = []) State.StackInv todo := by
  by_cases hp : p.onlyReads = true ∧ p ≠ .sertree
  · exact Run.leads_stack_of_empty todo (((startProc_store hp.1 s).2 hp.2).trans h)
  · cases p <;> simp only [startProc]
    case clear | destree => exact Run.leads_stack_of_empty todo rfl
    case count | release => exact Run.leads_stack_of_empty todo h
    case build =>
      have hk : (buildRun s).final.stk = [] :=
        buildRun_keeps (fun s => s.stk = []) (fun _ h => h) (fun _ _ _ h => h) (fun _ _ h => h) (fun _ h => h) s h
      generalize buildRun s = r at hk ⊢
      exact Run.leads_stack_of_empty todo hk
    case gencode => exact gencodeRun_leads_stack todo s h
    case sertree => exact serLoop_leads_stack todo _
    all_goals exact absurd (by decide) hp

theorem afterIn_leads_stack (k : InPoint) (t : Token) (todo : List Proc) (s : State)
    (h : (Resume.inNext k todo).usesStack = false → s.stk = []) :
    (afterIn k t s).Leads (fun _ s => s.stk = []) State.StackInv todo := by
  cases k <;> simp only [afterIn]
  case count =>
    have hk := h rfl
    unfold countToken; split <;> split <;> exact Run.leads_stack_of_empty todo hk
  case marker =>
    unfold destreeMarker; split
    · exact fun _ => rfl
    · split_ifs
      · exact fun _ => rfl
      · exact fun _ => rfl
      · exact fun h => absurd h (by simp [Resume.usesStack])
      · exact fun h => absurd h (by simp [Resume.usesStack])
  case symbol g =>
    unfold destreeSymbol; split
    · exact fun _ => rfl
    · exact attach_leads_stack todo _ _ _
  case encode => exact Run.leads_stack_of_empty todo ((afterIn_leaves (k := .encode) rfl t s).2.trans (h rfl))
  case sizeByte i v => exact Run.leads_stack_of_empty todo ((afterIn_leaves (k := .sizeByte i v) rfl t s).2.trans (h rfl))
  case decode => exact Run.leads_stack_of_empty todo ((afterIn_leaves (k := .decode) rfl t s).2.trans (h rfl))

theorem afterOut_leads_stack (b : Byte) (k : OutPoint) (todo : List Proc) (s : State)
    (h : (Resume.outPut b k todo).usesStack = false → s.stk = []) :
    (afterOut k s).Leads (fun _ s => s.stk = []) State.StackInv todo := by
  by_cases hk : procOfOut k = .sertree
  · cases k <;> simp only [afterOut]
    case leafMarker g => exact fun h => absurd h (by simp [Resume.usesStack])
    case leafSymbol => exact serLoop_leads_stack todo s
    case innerMarker g => exact serLoop_leads_stack todo _
    all_goals exact absurd hk (by simp [procOfOut])
  · have huse : (Resume.outPut b k todo).usesStack = false := by
      cases k
      case leafMarker | leafSymbol | innerMarker => exact absurd rfl hk
      all_goals rfl
    exact Run.leads_stack_of_empty todo (((afterOut_store k s).2 hk).trans (h huse))

/-! ## The sequencer invariant -/

/-- The invariant, part by part. -/
theorem sequencerInv_iff (s : State) : s.SequencerInv ↔ s.StatusInv ∧ s.Quiet ∧ s.StackInv := by
  unfold State.SequencerInv State.StatusInv State.Quiet State.StackInv; tauto

/-- What holds where a procedure of a running command has returned. -/
def State.Returned (s : State) : Prop := (s.state = .busy ∧ s.err = .ok) ∧ s.Quiet ∧ s.stk = []

/-- The three parts of a stretch make the whole. -/
theorem StopsIn.leads_sequencer {p : Proc} {r : Run} {s : State} {todo : List Proc} (hr : StopsIn p r)
    (hh : r.final.hostSide = s.hostSide) (hb : s.state = .busy) (he : s.err = .ok) (hq : r.final.Quiet)
    (hk : r.Leads (fun _ s => s.stk = []) State.StackInv todo) :
    r.Leads (fun _ => State.Returned) State.SequencerInv todo := by
  obtain ⟨e1, e2, -⟩ := final_status hh
  have hst := hr.leads_status todo (e1.trans hb) (e2.trans he)
  exact (hst.and ((Run.leads_quiet todo hq).and hk)).imp (fun _ h => h) (fun s h => (sequencerInv_iff s).2 h)

theorem err_ok_of_busy {s : State} (h : s.StatusInv) (hb : s.state = .busy) : s.err = .ok := by
  by_contra hne
  exact absurd (h.1.2 hne) (by simp [hb])

theorem sequencer_carries : Carries (fun _ => State.Returned) State.SequencerInv where
  complete := by
    rintro s ⟨⟨-, he⟩, ⟨hh, ha, hn⟩, hk⟩
    simp [State.SequencerInv, he, hh, ha, hn, hk]
  proc := by
    rintro p todo s ⟨⟨hb, he⟩, hq, hk⟩
    exact (startProc_stops p s).leads_sequencer (startProc_hostSide p s _ rfl) hb he (startProc_quiet p s hq)
      (startProc_leads_stack p todo s hk)
  start := by
    intro s todo hb hr h
    obtain ⟨hs, hq, hk⟩ := (sequencerInv_iff s).1 h
    exact ⟨⟨hb, err_ok_of_busy hs hb⟩, hq, hk (by rw [hr]; rfl)⟩
  input := by
    intro s k todo t rest hb hr h
    obtain ⟨hs, hq, hk⟩ := (sequencerInv_iff s).1 h
    exact (afterIn_stops k t _).leads_sequencer (afterIn_hostSide k t { s with inq := rest } _ rfl) hb (err_ok_of_busy hs hb)
      (afterIn_quiet k t _ hq) (afterIn_leads_stack k t todo _ (by rw [← hr]; exact hk))
  output := by
    intro s b k todo hb hr h
    obtain ⟨hs, hq, hk⟩ := (sequencerInv_iff s).1 h
    exact (afterOut_stops k _).leads_sequencer (afterOut_hostSide k { s with outq := s.outq ++ [b] } _ rfl) hb
      (err_ok_of_busy hs hb) (afterOut_quiet k _ hq) (afterOut_leads_stack b k todo _ (by rw [← hr]; exact hk))

/-- An engine that is not BUSY has no resume point, so its stack is empty. -/
theorem idle_of_sequencerInv {s : State} (h : s.SequencerInv) (hb : s.state ≠ .busy) : s.resume = .idle ∧ s.stk = [] := by
  obtain ⟨-, hres, -, hk, -, -⟩ := h
  have hr : s.resume = .idle := by by_contra hne; exact hb (hres.2 hne)
  exact ⟨hr, hk (by rw [hr]; rfl)⟩

theorem reset_sequencerInv : State.reset.SequencerInv := by
  simp [State.SequencerInv, State.reset]

/-- No act of the host breaks the sequencer invariant. -/
theorem HostEffect.keeps_sequencer {s u : State} (hu : HostEffect s u) (h : s.SequencerInv) : u.SequencerInv := by
  cases hu with
  | resetDone r => exact reset_sequencerInv
  | illegal v hb =>
    obtain ⟨hr, hk⟩ := idle_of_sequencerInv h hb
    obtain ⟨-, -, hh, -, ha, hn⟩ := h
    simp [State.SequencerInv, hr, hk, hh, ha, hn]
  | _ => exact h

/-- Settles O43: the engine carries the invariant, and acts, acknowledges and accepted commands keep it. -/
theorem stepKeepsTheSequencerInvariant : Obligations.StepKeepsTheSequencerInvariant := by
  unfold Obligations.StepKeepsTheSequencerInvariant
  refine step_keeps State.SequencerInv (fun _ _ h => h) (fun _ _ h => h) sequencer_carries.engineStep ?_ ?_
    (fun _ _ hu h => hu.keeps_sequencer h)
  · intro s hb h
    obtain ⟨hr, hk⟩ := idle_of_sequencerInv h hb
    obtain ⟨-, -, hh, -, ha, hn⟩ := h
    simp [State.SequencerInv, hr, hk, hh, ha, hn]
  · intro s i _ hb h
    obtain ⟨-, hk⟩ := idle_of_sequencerInv h hb
    obtain ⟨-, -, hh, -, ha, hn⟩ := h
    simp [State.SequencerInv, hk, hh, ha, hn]

end Sys2Proof.Machine

/-! PROOFS. Reset, the status registers and what a command leaves to the host (O41, O42, O51, O53, O54). -/

namespace Sys2Proof.Machine

/-! ## Reset, the host's side and the status registers -/

/-- Settles O41: each field of the reset state as 10 R55 lists it. -/
theorem resetValues : Obligations.ResetValues := by
  unfold Obligations.ResetValues
  refine ⟨rfl, rfl, rfl, rfl, rfl, rfl, rfl, rfl, rfl, rfl, rfl, fun b => rfl, ?_⟩
  decide

/-- No tree is valid at reset, so nothing is claimed of the arena or the code table. -/
theorem reset_treeInv : State.reset.TreeInv := by
  simp [State.TreeInv, State.FlagInv, State.TableInv, State.reset]

/-- Settles O42. -/
theorem resetMeetsTheInvariants : Obligations.ResetMeetsTheInvariants := by
  unfold Obligations.ResetMeetsTheInvariants
  obtain ⟨hflag, htable, -⟩ := reset_treeInv
  refine ⟨reset_sequencerInv, hflag, htable, ?_, reset_treeInv, ?_, ?_⟩
  · simp [State.QueueInv, State.reset]
  · exact ⟨hflag, rfl, by simp [State.reset], by simp [State.reset]⟩
  · simp [State.ProgressInv, State.reset]

/-- A command is refused, acknowledged or accepted, and then the engine takes its turn. -/
theorem exec_turn (s : State) (i : Instr) : ∃ u, exec i s = .next (takeTurn u)
    ∧ (u = s.refuse ∨ u = s.acknowledge ∨ u = s.accept (opcodeOf i) (programOf i)) := by
  by_cases hb : s.state = .busy
  · exact ⟨_, exec_busy s i hb, .inl rfl⟩
  · refine ⟨_, exec_ready s i hb, .inr ?_⟩
    split
    · exact .inl rfl
    · exact .inr rfl

/-- Settles O51: none of the three touches the host's side, and a turn uses up one entry of the schedule. -/
theorem commandsLeaveTheHostSide : Obligations.CommandsLeaveTheHostSide := by
  unfold Obligations.CommandsLeaveTheHostSide
  intro s i
  obtain ⟨u, e, hu⟩ := exec_turn s i
  obtain ⟨hie, hin, hout, hend, hhost, hdraws, hturns, -⟩ := takeTurn_host u
  refine ⟨_, e, ?_⟩
  rcases hu with rfl | rfl | rfl <;> exact ⟨hie, hin, hout, hend, hhost, hdraws, hturns⟩

/-- `irq` (60 R250). -/
theorem irq_iff (s : State) : s.irq = true ↔ s.ie = true ∧ (s.state = .done ∨ s.state = .error) := by
  simp [State.irq]

/-- The bits of STATUS, from its lowest field up (10 R32). -/
theorem statusWord_getLsbD (s : State) (i : Nat) : s.statusWord.getLsbD i =
    if i < 2 then (stateCode s.state).getLsbD i
    else if i < 3 then s.tv
    else if i < 4 then s.cv
    else if i < 8 then (phaseCode s.phase).getLsbD (i - 4)
    else if i < 16 then (errCode s.err).getLsbD (i - 8)
    else if i < 24 then s.cmdCur.getLsbD (i - 16)
    else if i < 25 then s.irq
    else false := by
  rw [State.statusWord, BitVec.getLsbD_append (n := 30) (m := 2), BitVec.getLsbD_append (n := 29) (m := 1),
    BitVec.getLsbD_append (n := 28) (m := 1), BitVec.getLsbD_append (n := 24) (m := 4),
    BitVec.getLsbD_append (n := 16) (m := 8), BitVec.getLsbD_append (n := 8) (m := 8), BitVec.getLsbD_append]
  have htv : i - 2 < 1 ↔ i < 3 := by omega
  have hcv : i - 3 < 1 ↔ i < 4 := by omega
  have hphase : i - 4 < 4 ↔ i < 8 := by omega
  have herr : i - 8 < 8 ↔ i < 16 := by omega
  have hcmd : i - 16 < 8 ↔ i < 24 := by omega
  have hirq : i - 24 < 1 ↔ i < 25 := by omega
  simp only [BitVec.getLsbD_ofBool, Nat.sub_sub, Nat.reduceAdd, htv, hcv, hphase, herr, hcmd, hirq]
  split_ifs
  · rfl
  · simp [show i - 2 = 0 by omega]
  · simp [show i - 3 = 0 by omega]
  · rfl
  · rfl
  · rfl
  · simp [show i - 24 = 0 by omega]
  · exact BitVec.getLsbD_zero

/-- A field of STATUS, bit by bit. -/
theorem statusWord_field (s : State) (start len : Nat) (v : BitVec len)
    (h : ∀ i < len, s.statusWord.getLsbD (start + i) = v.getLsbD i) : s.statusWord.extractLsb' start len = v := by
  apply BitVec.eq_of_getLsbD_eq
  intro i hi
  simpa [BitVec.getLsbD_extractLsb', hi] using h i hi

/-- Settles O54: each field is the bits of STATUS at its place. -/
theorem statusFields : Obligations.StatusFields := by
  unfold Obligations.StatusFields
  refine ⟨fun s => ?_, by decide, by decide, by decide, by decide⟩
  refine ⟨statusWord_field s _ _ _ ?_, statusWord_getLsbD s 2, statusWord_getLsbD s 3, statusWord_field s _ _ _ ?_,
    statusWord_field s _ _ _ ?_, statusWord_field s _ _ _ ?_, statusWord_getLsbD s 24, statusWord_field s _ _ _ ?_, irq_iff s⟩
  all_goals intro i hi; rw [statusWord_getLsbD]; interval_cases i <;> rfl

/-- Two 16-bit levels side by side are the number `low + 0x10000 * high`. -/
theorem level16_append (n m : Nat) :
    level16 m ++ level16 n = BitVec.ofNat 32 (min n 0xFFFF + 0x10000 * min m 0xFFFF) := by
  have hn : min n 0xFFFF % 2 ^ 16 = min n 0xFFFF := Nat.mod_eq_of_lt (by omega)
  have hm : min m 0xFFFF % 2 ^ 16 = min m 0xFFFF := Nat.mod_eq_of_lt (by omega)
  apply BitVec.eq_of_toNat_eq
  rw [BitVec.toNat_append, ← Nat.shiftLeft_add_eq_or_of_lt (BitVec.isLt _)]
  simp only [level16, BitVec.toNat_ofNat, hn, hm, Nat.shiftLeft_eq]
  omega

theorem ctrlWord_eq (s : State) : s.ctrlWord = if s.ie then 1 else 0 := by
  unfold State.ctrlWord; cases s.ie <;> decide

/-- Settles O53: each of the four offsets names its register, and reading it answers its word. -/
theorem statusReadsHaveNoSideEffect : Obligations.StatusReadsHaveNoSideEffect := by
  unfold Obligations.StatusReadsHaveNoSideEffect
  intro s
  refine ⟨rfl, ?_, rfl, ?_⟩
  · rw [← ctrlWord_eq]; rfl
  · rw [← level16_append]; rfl

end Sys2Proof.Machine

/-! PROOFS. BUILD and the arena: the heap permutes its handles, and the trees at them share no slot. -/

namespace Sys2Proof.Machine

/-! ## The heap is a permutation of what was put in (42 R151 to R154) -/

theorem heapAt_eq_getElem {q : List Handle} {i : Nat} (h : i < q.length) : heapAt q i = q[i] := by
  simp [heapAt, h]

theorem heapSwap_perm {q : List Handle} {i j : Nat} (hi : i < q.length) (hj : j < q.length) : (heapSwap q i j).Perm q := by
  unfold heapSwap
  rw [heapAt_eq_getElem hi, heapAt_eq_getElem hj]
  exact List.set_set_perm hi hj

theorem siftUp_perm (wt : Memory 64) (n : Nat) (q : List Handle) (i : Nat) (hi : i < q.length) :
    (siftUp wt n q i).Perm q := by
  induction n generalizing q i with
  | zero => exact .refl q
  | succ n ih =>
    have hp : (i - 1) / 2 < q.length := by omega
    unfold siftUp
    split_ifs
    · exact .refl q
    · exact (ih _ _ (by rwa [heapSwap_length])).trans (heapSwap_perm hi hp)
    · exact .refl q

theorem lighterChild_lt (wt : Memory 64) {q : List Handle} {i : Nat} (h : 2 * i + 1 < q.length) :
    lighterChild wt q i < q.length := by
  unfold lighterChild
  split
  · rename_i hc; exact hc.1
  · exact h

theorem siftDown_perm (wt : Memory 64) (n : Nat) (q : List Handle) (i : Nat) (hi : i < q.length) :
    (siftDown wt n q i).Perm q := by
  induction n generalizing q i with
  | zero => exact .refl q
  | succ n ih =>
    unfold siftDown
    split_ifs with hlen
    · exact .refl q
    · have hc := lighterChild_lt wt (q := q) (i := i) (by omega)
      exact (ih _ _ (by rwa [heapSwap_length])).trans (heapSwap_perm hi hc)
    · exact .refl q

/-- PQ.insert(h) adds `h` (42 R153). -/
theorem heapInsert_perm (wt : Memory 64) (q : List Handle) (h : Handle) : (heapInsert wt q h).Perm (h :: q) :=
  (siftUp_perm wt _ _ _ (by simp)).trans (List.perm_append_singleton _ _)

/-- PQ.extract_min() takes the top and leaves the rest (42 R154). -/
theorem heapRest_perm (wt : Memory 64) {q : List Handle} (hq : q ≠ []) : q.Perm (heapAt q 0 :: heapRest wt q) := by
  obtain ⟨top, l, rfl⟩ := List.exists_cons_of_ne_nil hq
  show (top :: l).Perm (top :: heapRest wt (top :: l))
  refine .cons top ?_
  rcases List.eq_nil_or_concat l with rfl | ⟨mid, last, rfl⟩
  · simp [heapRest]
  · have hlast : heapAt (top :: (mid ++ [last])) (mid.length + 1) = last := by simp [heapAt]
    have htake : (top :: (mid ++ [last])).take (mid.length + 1) = top :: mid := by simp
    have hrest : (heapRest wt (top :: (mid ++ [last]))).Perm (last :: mid) := by
      simp only [heapRest, List.length_cons, List.length_append, List.length_nil, Nat.add_sub_cancel, Nat.zero_add,
        Nat.add_one_ne_zero, if_false, htake, hlast, List.set_cons_zero]
      exact siftDown_perm wt _ _ 0 (by simp)
    rw [List.concat_eq_append]
    exact (List.perm_append_singleton last mid).trans hrest.symm

/-! ## Internal nodes (10 R42) -/

@[simp] theorem wordIsLeaf_innerWord (a b : Handle) : wordIsLeaf (innerWord a b) = false := by
  simp [wordIsLeaf, innerWord]

@[simp] theorem wordLeft_innerWord (a b : Handle) : wordLeft (innerWord a b) = a := by
  apply BitVec.eq_of_getLsbD_eq
  intro i hi
  interval_cases i <;> simp [wordLeft, innerWord]

@[simp] theorem wordRight_innerWord (a b : Handle) : wordRight (innerWord a b) = b := by
  apply BitVec.eq_of_getLsbD_eq
  intro i hi
  interval_cases i <;> simp [wordRight, innerWord]

/-! ## The forest BUILD works on (42 R157) -/

/-- The handles `q` are the roots of trees, `T h` at `h`, that share no slot. -/
def standing (node : Memory 32) (nodeN : BitVec 9) (T : Handle → Tree) (q : List Handle) : Prop :=
  (∀ h ∈ q, holdsTree node nodeN (T h) h) ∧ (q.flatMap (fun h => visited node (T h) h)).Nodup

theorem standing_perm {node : Memory 32} {nodeN : BitVec 9} {T : Handle → Tree} {q q' : List Handle} (hp : q.Perm q')
    (h : standing node nodeN T q) : standing node nodeN T q' :=
  ⟨fun g hg => h.1 g (hp.mem_iff.2 hg), (hp.flatMap_right _).nodup_iff.1 h.2⟩

/-- All slots of a forest lie below NODE_N. -/
theorem standing_lt {node : Memory 32} {nodeN : BitVec 9} {T : Handle → Tree} {q : List Handle}
    (h : standing node nodeN T q) : ∀ g ∈ q.flatMap (fun h => visited node (T h) h), g < nodeN := by
  intro g hg
  obtain ⟨r, hr, hgr⟩ := List.mem_flatMap.1 hg
  exact visited_lt (h.1 r hr) g hgr

/-- NODE_N + 1 is larger, short of the end of the arena. -/
theorem lt_succ_of_lt_511 {n : BitVec 9} (h : n.toNat < 511) : n < n + 1 := by
  rw [BitVec.lt_def]; simp; omega

/-- A tree below NODE_N stays when slot NODE_N is written. -/
theorem holdsTree_grow {node : Memory 32} {n : BitVec 9} {t : Tree} {h : Handle} (ht : holdsTree node n t h)
    (hn : n.toNat < 511) (w : Word) :
    holdsTree (Memory.write node n.toNat w) (n + 1) t h ∧ visited (Memory.write node n.toNat w) t h = visited node t h :=
  holdsTree_frame ht (BitVec.le_of_lt (lt_succ_of_lt_511 hn)) (fun g hg =>
    read_write_slot node n g w (BitVec.ne_of_lt (visited_lt ht g hg)))

/-- Slot NODE_N becomes the root of a tree `u` over the trees at `absorbed`, and the other trees stand. -/
theorem standing_plant {node : Memory 32} {n : BitVec 9} {T : Handle → Tree} {absorbed q : List Handle} {u : Tree} {w : Word}
    (hs : standing node n T (absorbed ++ q)) (hn : n.toNat < 511) (hu : holdsTree (Memory.write node n.toNat w) (n + 1) u n)
    (hv : visited (Memory.write node n.toNat w) u n = n :: absorbed.flatMap (fun h => visited node (T h) h)) :
    standing (Memory.write node n.toNat w) (n + 1) (Function.update T n u) (n :: q) := by
  have hold : ∀ h ∈ q, h ≠ n ∧ holdsTree (Memory.write node n.toNat w) (n + 1) (T h) h
      ∧ visited (Memory.write node n.toNat w) (T h) h = visited node (T h) h := by
    intro h hq
    have ht := hs.1 h (List.mem_append_right _ hq)
    have hlt : h < n := by cases hT : T h <;> rw [hT] at ht <;> exact ht.1
    exact ⟨BitVec.ne_of_lt hlt, holdsTree_grow ht hn w⟩
  have hq : q.flatMap (fun h => visited (Memory.write node n.toNat w) (Function.update T n u h) h)
      = q.flatMap (fun h => visited node (T h) h) :=
    List.flatMap_congr (fun h hh => by rw [Function.update_of_ne (hold h hh).1, (hold h hh).2.2])
  have hlt := standing_lt hs
  rw [List.flatMap_append] at hlt
  refine ⟨fun h hh => ?_, ?_⟩
  · obtain rfl | hh := List.mem_cons.1 hh
    · rw [Function.update_self]; exact hu
    · rw [Function.update_of_ne (hold h hh).1]; exact (hold h hh).2.1
  · rw [List.flatMap_cons, Function.update_self, hq, hv, List.cons_append, List.nodup_cons, ← List.flatMap_append]
    refine ⟨fun hmem => ?_, hs.2⟩
    rw [List.flatMap_append] at hmem
    exact absurd rfl (BitVec.ne_of_lt (hlt n hmem))

/-- What BUILD keeps while `k` symbols are still to come: the tables are canonical, the flags cleared, the slots suffice,
and the heap holds the roots of trees that share no slot. -/
structure State.Growing (k : Nat) (s : State) : Prop where
  node : Memory.wf 511 s.node = true
  weight : Memory.wf 511 s.weight = true
  flags : s.tv = false ∧ s.cv = false
  room : s.nodeN.toNat + s.heap.length + 2 * k ≤ 512
  trees : ∃ T, standing s.node s.nodeN T s.heap

/-- A new slot over the trees at `absorbed`, put into the heap. -/
theorem growing_plant {s : State} {k : Nat} {T : Handle → Tree} {absorbed : List Handle} {u : Tree} {w : Word} {v : DWord}
    (hnode : Memory.wf 511 s.node = true) (hweight : Memory.wf 511 s.weight = true) (hflags : s.tv = false ∧ s.cv = false)
    (hroom : s.nodeN.toNat + s.heap.length + 2 * (k + 1) ≤ 512) (hs : standing s.node s.nodeN T (absorbed ++ s.heap))
    (hu : holdsTree (Memory.write s.node s.nodeN.toNat w) (s.nodeN + 1) u s.nodeN)
    (hv : visited (Memory.write s.node s.nodeN.toNat w) u s.nodeN
      = s.nodeN :: absorbed.flatMap (fun h => visited s.node (T h) h)) :
    ((s.newNode w v).pqInsert s.nodeN).Growing k where
  node := Memory.wf_write _ _ _ _ (by omega) hnode
  weight := Memory.wf_write _ _ _ _ (by omega) hweight
  flags := hflags
  room := by
    have h1 : (s.nodeN + 1).toNat = s.nodeN.toNat + 1 := by simp; omega
    simp only [State.pqInsert_fields, State.newNode_fields, heapInsert_length, h1]
    omega
  trees := by
    exact ⟨_, standing_perm (heapInsert_perm _ _ _).symm (standing_plant hs (by omega) hu hv)⟩

theorem State.Growing.addLeaf {s : State} {k : Nat} (h : s.Growing (k + 1)) (b : Byte) : (s.addLeaf b).Growing k := by
  obtain ⟨hnode, hweight, hflags, hroom, T, hT⟩ := h
  unfold State.addLeaf
  split
  · exact ⟨hnode, hweight, hflags, by omega, T, hT⟩
  · refine growing_plant (absorbed := []) (u := .leaf b) hnode hweight hflags hroom hT ⟨lt_succ_of_lt_511 (by omega), ?_, ?_⟩ rfl
    · rw [Memory.read_write_same _ _ _ _ hnode, wordIsLeaf_leafWord]
    · rw [Memory.read_write_same _ _ _ _ hnode, wordSym_leafWord]

/-- The leaf loop. -/
theorem State.Growing.addLeaves (l : List Byte) {s : State} (h : s.Growing l.length) :
    (l.foldl State.addLeaf s).Growing 0 := by
  induction l generalizing s with
  | nil => exact h
  | cons b l ih => exact ih (h.addLeaf b)

/-- BUILD that has failed leaves the flags cleared and the tables canonical. -/
def State.BuildFailed (s : State) : Prop :=
  Memory.wf 511 s.node = true ∧ Memory.wf 511 s.weight = true ∧ s.tv = false ∧ s.cv = false

/-- One merge: two trees become one, or the sum overflows. -/
theorem State.Growing.mergeOnce {s : State} (h : s.Growing 0) (hlen : 1 < s.heap.length) :
    (∃ e u, s.mergeOnce = .failed e u ∧ u.BuildFailed) ∨ ∃ u, s.mergeOnce = .done u ∧ u.Growing 0 := by
  obtain ⟨hnode, hweight, hflags, hroom, T, hT⟩ := h
  have hlen1 : s.pqDrop.heap.length = s.heap.length - 1 := heapRest_length _ _
  have hlen2 : s.pqDrop.pqDrop.heap.length = s.heap.length - 2 := (heapRest_length _ _).trans (by omega)
  have hp : s.heap.Perm ([s.pqTop, s.pqDrop.pqTop] ++ s.pqDrop.pqDrop.heap) :=
    (heapRest_perm s.weight (List.ne_nil_of_length_pos (by omega))).trans
      (.cons _ (heapRest_perm s.weight (List.ne_nil_of_length_pos (by omega : 0 < s.pqDrop.heap.length))))
  have hs := standing_perm hp hT
  unfold State.mergeOnce mergePair
  split
  · exact .inl ⟨_, _, rfl, hnode, hweight, hflags⟩
  · have hn : s.nodeN.toNat < 511 := by omega
    obtain ⟨ha, hva⟩ := holdsTree_grow (hs.1 s.pqTop (by simp)) hn (innerWord s.pqTop s.pqDrop.pqTop)
    obtain ⟨hb, hvb⟩ := holdsTree_grow (hs.1 s.pqDrop.pqTop (by simp)) hn (innerWord s.pqTop s.pqDrop.pqTop)
    refine .inr ⟨_, rfl, growing_plant (u := .node (T s.pqTop) (T s.pqDrop.pqTop)) hnode hweight hflags ?_ hs ?_ ?_⟩
    · rw [hlen2]; simp only [State.pqDrop_fields]; omega
    · simp only [holdsTree, State.pqDrop_fields, Memory.read_write_same _ _ _ _ hnode, wordIsLeaf_innerWord,
        wordLeft_innerWord, wordRight_innerWord]
      exact ⟨lt_succ_of_lt_511 hn, trivial, ha, hb⟩
    · simp only [visited, State.pqDrop_fields, Memory.read_write_same _ _ _ _ hnode, wordLeft_innerWord, wordRight_innerWord,
        hva, hvb]
      simp

/-- The merge loop ends with one tree, or fails. -/
theorem State.Growing.merged (n : Nat) {s : State} (h : s.Growing 0) (hpos : 0 < s.heap.length)
    (hlen : s.heap.length ≤ n + 1) :
    (∃ e u, mergeLoop n s = .failed e u ∧ u.BuildFailed)
      ∨ ∃ u, mergeLoop n s = .done u ∧ u.Growing 0 ∧ u.heap.length = 1 := by
  induction n generalizing s with
  | zero => exact .inr ⟨s, rfl, h, by omega⟩
  | succ n ih =>
    unfold mergeLoop
    split
    · rename_i hgt
      rcases h.mergeOnce hgt with ⟨e, u, hu, hf⟩ | ⟨u, hu, hg⟩
      · exact .inl ⟨e, u, by rw [hu]; rfl, hf⟩
      · have hul : u.heap.length = s.heap.length - 1 := by
          rcases mergeOnce_cases s hgt with ⟨v, hv, -⟩ | ⟨v, hv, hl⟩ <;> rw [hu] at hv <;> cases hv
          exact hl
        rw [hu]
        exact ih hg (by omega) (by omega)
    · exact .inr ⟨s, rfl, h, by omega⟩

/-- Everything BUILD can do to the arena and the flags: it fails with the flags cleared, or makes a valid tree at ROOT
(42 R157, 10 R44). -/
theorem buildRun_cases (s : State) (hnode : Memory.wf 511 s.node = true) (hweight : Memory.wf 511 s.weight = true) :
    (∃ e u, buildRun s = .failed e u ∧ u.BuildFailed)
      ∨ ∃ u t, buildRun s = .done u ∧ Memory.wf 511 u.node = true ∧ Memory.wf 511 u.weight = true
          ∧ u.tv = true ∧ u.cv = false ∧ u.rootTree t := by
  have hinit : s.buildInit.Growing allSymbols.length :=
    ⟨hnode, hweight, ⟨rfl, rfl⟩, by simp [allSymbols], fun _ => .leaf 0, by simp [standing]⟩
  have hg := hinit.addLeaves
  unfold buildRun mergeAll
  generalize allSymbols.foldl State.addLeaf s.buildInit = v at hg ⊢
  split
  · exact .inl ⟨_, v, rfl, hg.node, hg.weight, hg.flags⟩
  · rcases hg.merged v.heap.length (by omega) (by omega) with ⟨e, u, hu, hf⟩ | ⟨u, hu, hgu, hl⟩ <;> rw [hu]
    · exact .inl ⟨e, u, rfl, hf⟩
    · obtain ⟨g, hq⟩ := List.length_eq_one_iff.1 hl
      obtain ⟨hn, hw, ⟨-, hcv⟩, -, T, hT⟩ := hgu
      have htop : u.pqTop = g := by simp [State.pqTop, heapAt, hq]
      rw [hq] at hT
      refine .inr ⟨u.takeRoot, T g, rfl, hn, hw, rfl, hcv, ?_, ?_⟩
      · simpa [htop] using hT.1 g (by simp)
      · simpa [htop] using hT.2

end Sys2Proof.Machine

/-! PROOFS. The canonical form of the tables (O45). -/

namespace Sys2Proof.Machine

/-! ## Canonical tables (10 R40 to R46) -/

/-- The table memories are canonical and inside their tables. -/
def State.TablesWf (s : State) : Prop :=
  Memory.wf 256 s.freq = true ∧ Memory.wf 511 s.node = true ∧ Memory.wf 511 s.weight = true
    ∧ Memory.wf 256 s.codeLen = true ∧ Memory.wf 256 s.codeBits = true

/-- The handles DESTREE has stacked or is filling name slots of the arena. -/
def State.SlotsInv (s : State) : Prop :=
  ∀ k todo, s.resume = .inNext k todo → procOfIn k = .destree →
    (∀ h, k = .symbol h → h.toNat < 511) ∧ ∀ e ∈ s.stk, e.h.toNat < 511

/-- The invariant, part by part. -/
theorem tableInv_iff (s : State) : s.TableInv ↔ s.TablesWf ∧ s.SlotsInv := by
  unfold State.TableInv State.TablesWf State.SlotsInv; tauto

theorem tablesWf_of_store {s u : State} (h : u.store = s.store) (hs : s.TablesWf) : u.TablesWf := by
  simp only [State.store, Store.mk.injEq] at h
  simpa only [State.TablesWf, h] using hs

/-- The stretch is of a procedure other than DESTREE, so it owes nothing of DESTREE's slots. -/
theorem StopsIn.leads_tables {p : Proc} {r : Run} (hr : StopsIn p r) (hp : p ≠ .destree) (todo : List Proc)
    (h : r.final.TablesWf) : r.Leads (fun _ => State.TablesWf) State.TableInv todo := by
  cases r with
  | done s => exact h
  | waitIn k s =>
    refine (tableInv_iff _).2 ⟨h, fun k' l hk hd => ?_⟩
    injection hk with hk
    exact absurd hd (by rw [← hk, show procOfIn k = p from hr]; exact hp)
  | _ => exact (tableInv_iff _).2 ⟨h, fun k l hk => nomatch hk⟩

theorem freqWrite_wf {m : Memory 64} (b : Byte) (v : DWord) (h : Memory.wf 256 m = true) :
    Memory.wf 256 (Memory.write m b.toNat v) = true := Memory.wf_write _ _ _ _ b.isLt h

theorem State.TablesWf.setNode {s : State} (h : s.TablesWf) {g : Handle} (hg : g.toNat < 511) (w : Word) :
    (s.setNode g w).TablesWf := by
  obtain ⟨hfreq, hnode, hrest⟩ := h
  exact ⟨hfreq, Memory.wf_write _ _ _ _ hg hnode, hrest⟩

theorem State.TablesWf.setWeight {s : State} (h : s.TablesWf) {g : Handle} (hg : g.toNat < 511) (v : DWord) :
    (s.setWeight g v).TablesWf := by
  obtain ⟨hfreq, hnode, hweight, hcode⟩ := h
  exact ⟨hfreq, hnode, Memory.wf_write _ _ _ _ hg hweight, hcode⟩

theorem State.TablesWf.setCode {s : State} (h : s.TablesWf) (b : Byte) (d : BitVec 9) (p : CodeWord) :
    (s.setCode b d p).TablesWf := by
  obtain ⟨hfreq, hnode, hweight, hlen, hbits⟩ := h
  exact ⟨hfreq, hnode, hweight, Memory.wf_write _ _ _ _ b.isLt hlen, Memory.wf_write _ _ _ _ b.isLt hbits⟩

theorem buildRun_tables (s : State) (h : s.TablesWf) : (buildRun s).final.TablesWf := by
  obtain ⟨hfreq, hnode, hweight, hlen, hbits⟩ := h
  obtain ⟨hfreq', hcode⟩ : Memory.wf 256 (buildRun s).final.freq = true ∧
      Memory.wf 256 (buildRun s).final.codeLen = true ∧ Memory.wf 256 (buildRun s).final.codeBits = true :=
    buildRun_keeps (fun u => Memory.wf 256 u.freq = true ∧ Memory.wf 256 u.codeLen = true ∧ Memory.wf 256 u.codeBits = true)
      (fun _ h => h) (fun _ _ _ h => h) (fun _ _ h => h) (fun _ h => h) s ⟨hfreq, hlen, hbits⟩
  have harena : Memory.wf 511 (buildRun s).final.node = true ∧ Memory.wf 511 (buildRun s).final.weight = true := by
    rcases buildRun_cases s hnode hweight with ⟨e, u, hu, hn, hw, -⟩ | ⟨u, t, hu, hn, hw, -⟩ <;> rw [hu] <;> exact ⟨hn, hw⟩
  exact ⟨hfreq', harena.1, harena.2, hcode⟩

/-- Every procedure keeps the tables canonical, from its start to its first stop. -/
theorem startProc_tables (p : Proc) (s : State) (h : s.TablesWf) : (startProc p s).final.TablesWf := by
  by_cases hp : p.onlyReads = true
  · exact tablesWf_of_store (startProc_store hp s).1 h
  · obtain ⟨hfreq, hrest⟩ := h
    cases p <;> simp only [startProc]
    case clear | count => exact ⟨rfl, hrest⟩
    case build => exact buildRun_tables s ⟨hfreq, hrest⟩
    case gencode =>
      exact gencodeRun_keeps State.TablesWf (fun u ⟨hf, hn, hw, _⟩ => ⟨hf, hn, hw, rfl, rfl⟩)
        (fun _ b d p h => h.setCode b d p) (fun _ _ h => h) (fun _ h => h) s ⟨hfreq, hrest⟩
    case destree | release => exact ⟨hfreq, hrest⟩
    all_goals exact absurd rfl hp

theorem countToken_tables (t : Token) (s : State) (h : s.TablesWf) : (countToken t s).final.TablesWf := by
  obtain ⟨hfreq, hrest⟩ := h
  unfold countToken; split
  · split <;> exact ⟨hfreq, hrest⟩
  · split
    · exact ⟨hfreq, hrest⟩
    · exact ⟨freqWrite_wf _ _ hfreq, hrest⟩

/-- Attaching a finished subtree writes slots of the stack only. -/
theorem attach_leads_tables (todo : List Proc) (l : List StkEntry) (c : Handle) (s : State) (h : s.TablesWf)
    (hl : ∀ e ∈ l, e.h.toNat < 511) : (attach l c s).Leads (fun _ => State.TablesWf) State.TableInv todo := by
  induction l generalizing c s with
  | nil => exact h
  | cons e rest ih =>
    obtain ⟨he, hrest⟩ := List.forall_mem_cons.1 hl
    simp only [attach]; split
    · exact ih _ _ (h.setNode he _) hrest
    · refine (tableInv_iff _).2 ⟨h.setNode he _, fun k l hk _ => ⟨fun g hg => ?_, List.forall_mem_cons.2 ⟨he, hrest⟩⟩⟩
      injection hk with hk
      exact nomatch hk.trans hg

/-- An arena that is not full has a free slot at NODE_N. -/
theorem nodeN_lt_511 {n : BitVec 9} (h : n ≠ 511) : n.toNat < 511 := by
  have h1 : n.toNat ≠ 511 := fun hn => h (BitVec.eq_of_toNat_eq hn)
  omega

/-- A marker takes a slot of the arena, or fails (44 R185). -/
theorem destreeMarker_leads_tables (todo : List Proc) (t : Token) (s : State) (h : s.TablesWf)
    (hl : ∀ e ∈ s.stk, e.h.toNat < 511) : (destreeMarker t s).Leads (fun _ => State.TablesWf) State.TableInv todo := by
  have hfail : ∀ e, (s.fail e).TableInv := fun e => (tableInv_iff _).2 ⟨h, fun k l hk => nomatch hk⟩
  unfold destreeMarker
  split
  · exact hfail _
  · split_ifs with hbad hfull hinner
    · exact hfail _
    · exact hfail _
    · have hn := nodeN_lt_511 hfull
      refine (tableInv_iff _).2 ⟨(h.setNode hn 0).setWeight hn 0, fun k l hk _ => ⟨fun g hg => ?_, ?_⟩⟩
      · injection hk with hk
        exact nomatch hk.trans hg
      · exact List.forall_mem_cons.2 ⟨hn, hl⟩
    · have hn := nodeN_lt_511 hfull
      refine (tableInv_iff _).2 ⟨h.setWeight hn 0, fun k l hk _ => ⟨fun g hg => ?_, hl⟩⟩
      injection hk with hk
      injection hk.trans hg with hg
      exact hg ▸ hn

theorem destreeSymbol_leads_tables (todo : List Proc) (g : Handle) (t : Token) (s : State) (h : s.TablesWf)
    (hg : g.toNat < 511) (hl : ∀ e ∈ s.stk, e.h.toNat < 511) :
    (destreeSymbol g t s).Leads (fun _ => State.TablesWf) State.TableInv todo := by
  unfold destreeSymbol
  split
  · exact (tableInv_iff _).2 ⟨h, fun k l hk => nomatch hk⟩
  · exact attach_leads_tables todo _ _ _ (h.setNode hg _) hl

theorem tables_carries : Carries (fun _ => State.TablesWf) State.TableInv where
  complete := fun s h => (tableInv_iff _).2 ⟨h, fun k l hk => nomatch hk⟩
  proc := by
    intro p todo s h
    by_cases hp : p = .destree
    · subst hp
      refine (tableInv_iff _).2 ⟨h, fun k l hk _ => ⟨fun g hg => ?_, by simp⟩⟩
      injection hk with hk
      exact nomatch hk.trans hg
    · exact (startProc_stops p s).leads_tables hp todo (startProc_tables p s h)
  start := fun s todo _ _ h => ((tableInv_iff s).1 h).1
  input := by
    intro s k todo t rest _ hr h
    obtain ⟨hw, hs⟩ := (tableInv_iff s).1 h
    cases k
    case marker => exact destreeMarker_leads_tables todo t _ hw (hs _ _ hr rfl).2
    case symbol g => exact destreeSymbol_leads_tables todo g t _ hw ((hs _ _ hr rfl).1 g rfl) (hs _ _ hr rfl).2
    case count => exact (afterIn_stops .count t _).leads_tables (by decide) todo (countToken_tables t _ hw)
    all_goals
      exact (afterIn_stops _ t _).leads_tables (by simp [procOfIn]) todo (tablesWf_of_store (afterIn_leaves rfl t _).1 hw)
  output := by
    intro s b k todo _ _ h
    exact (afterOut_stops k _).leads_tables (procOfOut_ne_destree k) todo
      (tablesWf_of_store (afterOut_store k _).1 ((tableInv_iff s).1 h).1)

theorem reset_tableInv : State.reset.TableInv := reset_treeInv.2.1

/-- No act of the host breaks the canonical form. -/
theorem HostEffect.keeps_tables {s u : State} (hu : HostEffect s u) (h : s.TableInv) : u.TableInv := by
  cases hu with
  | resetDone r => exact reset_tableInv
  | counted r b n _ =>
    obtain ⟨hfreq, hrest⟩ := h
    exact ⟨freqWrite_wf b n hfreq, hrest⟩
  | _ => exact h

/-- Settles O45: the engine carries the canonical form, and acts, acknowledges and accepted commands keep it. -/
theorem stepKeepsTheTablesCanonical : Obligations.StepKeepsTheTablesCanonical := by
  unfold Obligations.StepKeepsTheTablesCanonical
  refine step_keeps State.TableInv (fun _ _ h => h) (fun _ _ h => h) tables_carries.engineStep (fun _ _ h => h) ?_
    (fun _ _ hu h => hu.keeps_tables h)
  intro s i _ _ h
  exact (tableInv_iff _).2 ⟨((tableInv_iff s).1 h).1, fun k l hk => nomatch hk⟩

end Sys2Proof.Machine

/-! PROOFS. The flags TV and CV along the program of a command. -/

namespace Sys2Proof.Machine

/-! ## TV and CV along the program of a command (10 R29, R30) -/

/-- The first half of 10 R54 item 3. -/
def State.FlagsOk (s : State) : Prop := s.cv = true → s.tv = true

/-- GENCODE is started with a valid tree only. -/
def State.GencodeReady (todo : List Proc) (s : State) : Prop := todo.head? = some .gencode → s.tv = true

theorem flagsOk_of_store {s u : State} (h : u.store = s.store) (hs : s.FlagsOk) : u.FlagsOk := by
  simp only [State.store, Store.mk.injEq] at h
  simpa only [State.FlagsOk, h] using hs

/-- No program starts with GENCODE's procedure (30 R121). -/
theorem programOf_head (i : Instr) : (programOf i).head? ≠ some .gencode := by cases i <;> decide

/-- In every program GENCODE's procedure comes after the check of TV or after BUILD's (30 R106, R121). -/
theorem before_gencode {p : Proc} {todo : List Proc} {i : Instr} (h : (p :: todo) <:+ programOf i)
    (hg : todo.head? = some .gencode) : p = .needTv ∨ p = .build := by
  have hall : ∀ l ∈ (programOf i).tails, l.tail.head? = some .gencode → l.head? = some .needTv ∨ l.head? = some .build := by
    cases i <;> decide
  simpa using hall _ ((List.mem_tails _ _).2 h) hg

/-- BUILD that returns has set TV (42 R157). -/
theorem buildRun_done_tv {s u : State} (h : buildRun s = .done u) : u.tv = true := by
  unfold buildRun mergeAll at h
  split at h
  · cases h
  · revert h
    cases mergeLoop _ _ <;> intro h <;> cases h
    rfl

/-- After the check of TV, and after BUILD, TV is 1. -/
theorem startProc_gencodeReady (p : Proc) (todo : List Proc) (s : State) (h : s.programEnds (p :: todo)) :
    (startProc p s).Leads State.GencodeReady (fun _ => True) todo := by
  obtain ⟨i, -, hp⟩ := h
  cases hr : startProc p s with
  | done u =>
    intro hg
    rcases before_gencode hp hg with rfl | rfl
    · simp only [startProc, needTvRun] at hr
      split at hr <;> cases hr
      assumption
    · exact buildRun_done_tv hr
  | _ => trivial

/-- GENCODE's procedure follows no procedure that stops at a primitive. -/
theorem StopsIn.leads_gencodeReady {p : Proc} {r : Run} (hp : p ≠ .needTv ∧ p ≠ .build) {todo : List Proc} {s : State}
    (h : s.programEnds (p :: todo)) : r.Leads State.GencodeReady (fun _ => True) todo := by
  obtain ⟨i, -, hsuf⟩ := h
  cases r with
  | done u => exact fun hg => absurd (before_gencode hsuf hg) (by simp [hp])
  | _ => trivial

theorem buildRun_flags (s : State) (h : s.FlagsOk) : (buildRun s).final.FlagsOk :=
  buildRun_keeps State.FlagsOk (fun _ _ hc => nomatch hc) (fun _ _ _ h => h) (fun _ _ h => h) (fun _ _ _ => rfl) s h

theorem gencodeRun_tv (s : State) (h : s.tv = true) : (gencodeRun s).final.tv = true :=
  gencodeRun_keeps (fun u => u.tv = true) (fun _ h => h) (fun _ _ _ _ h => h) (fun _ _ h => h) (fun _ h => h) s h

/-- Every procedure keeps CV implies TV; GENCODE because it runs with TV = 1. -/
theorem startProc_flags (p : Proc) (s : State) (h : s.FlagsOk) (hg : p = .gencode → s.tv = true) :
    (startProc p s).final.FlagsOk := by
  by_cases hp : p.onlyReads = true
  · exact flagsOk_of_store (startProc_store hp s).1 h
  · cases p <;> simp only [startProc]
    case clear | count | destree | release => exact fun hc => nomatch hc
    case build => exact buildRun_flags s h
    case gencode => exact fun _ => gencodeRun_tv s (hg rfl)
    all_goals exact absurd rfl hp

theorem afterIn_flags (k : InPoint) (t : Token) (s : State) (h : s.FlagsOk) : (afterIn k t s).final.FlagsOk := by
  by_cases hk : (procOfIn k).onlyReads = true
  · exact flagsOk_of_store (afterIn_leaves hk t s).1 h
  · cases k <;> simp only [afterIn]
    case count => unfold countToken; split <;> split <;> exact h
    case marker =>
      unfold destreeMarker; split
      · exact h
      · split_ifs <;> exact h
    case symbol g =>
      unfold destreeSymbol; split
      · exact h
      · exact attach_keeps State.FlagsOk (fun _ _ _ h => h) (fun _ _ h => h) (fun _ _ _ _ => rfl) _ _ _ h
    all_goals exact absurd rfl hk

theorem fail_flags (e : Err) (s : State) (h : s.FlagsOk) : (s.fail e).FlagsOk := by
  unfold State.FlagsOk
  simp only [State.fail_fields]
  split
  · exact fun hc => nomatch hc
  · exact h

theorem Run.leads_flags (todo : List Proc) {r : Run} (h : r.final.FlagsOk) :
    r.Leads (fun _ => State.FlagsOk) State.FlagsOk todo :=
  Run.leads_of_final State.FlagsOk (fun _ _ h => h) fail_flags todo h

/-- What holds of the flags where a procedure has returned and `todo` ends the program of the command. -/
def State.FlagsReturned (todo : List Proc) (s : State) : Prop :=
  s.programEnds todo ∧ s.FlagsOk ∧ s.GencodeReady todo

/-- The three parts of a stretch make the whole. -/
theorem StopsIn.leads_flagInv {p : Proc} {r : Run} {s : State} {todo : List Proc} (hr : StopsIn p r)
    (hh : r.final.hostSide = s.hostSide) (hp : s.programEnds (p :: todo)) (hf : r.final.FlagsOk)
    (hg : r.Leads State.GencodeReady (fun _ => True) todo) : r.Leads State.FlagsReturned State.FlagInv todo := by
  have hc : r.final.programEnds (p :: todo) := by
    obtain ⟨i, hi, hsuf⟩ := hp
    exact ⟨i, (final_status hh).2.2.trans hi, hsuf⟩
  exact ((hr.leads_command hc).and ((Run.leads_flags todo hf).and hg)).imp (fun _ h => h) (fun _ ⟨h, hf, _⟩ => ⟨hf, h⟩)

/-- A BUSY engine at an `in_next()` or `out_put` stands in its program. -/
theorem programEnds_of_inNext {s : State} {k : InPoint} {todo : List Proc} (h : s.FlagInv) (hb : s.state = .busy)
    (hr : s.resume = .inNext k todo) : s.programEnds (procOfIn k :: todo) := by
  obtain ⟨i, hi, hw⟩ := h.2 hb
  exact ⟨i, hi, by simpa [Resume.within, hr] using hw⟩

theorem programEnds_of_outPut {s : State} {b : Byte} {k : OutPoint} {todo : List Proc} (h : s.FlagInv)
    (hb : s.state = .busy) (hr : s.resume = .outPut b k todo) : s.programEnds (procOfOut k :: todo) := by
  obtain ⟨i, hi, hw⟩ := h.2 hb
  exact ⟨i, hi, by simpa [Resume.within, hr] using hw⟩

theorem flags_carries : Carries State.FlagsReturned State.FlagInv where
  complete := fun s h => ⟨h.2.1, fun hb => nomatch hb⟩
  proc := by
    rintro p todo s ⟨hp, hf, hg⟩
    exact (startProc_stops p s).leads_flagInv (startProc_hostSide p s _ rfl) hp
      (startProc_flags p s hf (fun h => hg (by rw [h]; rfl))) (startProc_gencodeReady p todo s hp)
  start := by
    intro s todo hb hr h
    obtain ⟨i, hi, hw⟩ := h.2 hb
    have htodo : todo = programOf i := by simpa [Resume.within, hr] using hw
    subst htodo
    exact ⟨⟨i, hi, List.suffix_rfl⟩, h.1, fun hg => absurd hg (programOf_head i)⟩
  input := by
    intro s k todo t rest hb hr h
    have hp := programEnds_of_inNext h hb hr
    exact (afterIn_stops k t _).leads_flagInv (afterIn_hostSide k t { s with inq := rest } _ rfl) hp
      (afterIn_flags k t _ h.1) (StopsIn.leads_gencodeReady (by cases k <;> simp [procOfIn]) hp)
  output := by
    intro s b k todo hb hr h
    have hp := programEnds_of_outPut h hb hr
    exact (afterOut_stops k _).leads_flagInv (afterOut_hostSide k { s with outq := s.outq ++ [b] } _ rfl) hp
      (flagsOk_of_store (afterOut_store k _).1 h.1) (StopsIn.leads_gencodeReady (by cases k <;> simp [procOfOut]) hp)

/-- No act of the host breaks the flag invariant. -/
theorem HostEffect.keeps_flags {s u : State} (hu : HostEffect s u) (h : s.FlagInv) : u.FlagInv := by
  cases hu with
  | resetDone r => exact ⟨(fun hc => nomatch hc), (fun hb => nomatch hb)⟩
  | illegal v _ => exact ⟨h.1, fun hb => nomatch hb⟩
  | counted r b n _ => exact ⟨(fun hc => nomatch hc), h.2⟩
  | _ => exact h

theorem accept_flags (s : State) (i : Instr) (h : s.FlagInv) : (s.accept (opcodeOf i) (programOf i)).FlagInv :=
  ⟨h.1, fun _ => ⟨i, rfl, by simp [Resume.within]⟩⟩

/-- Every step keeps CV implies TV, with the engine at a point of the command CMD_CUR names. -/
theorem step_keeps_flags (s t : State) (h : s.FlagInv) (hst : step s = .next t) : t.FlagInv :=
  step_keeps State.FlagInv (fun _ _ h => h) (fun _ _ h => h) flags_carries.engineStep
    (fun _ _ h => ⟨h.1, fun hb => nomatch hb⟩) (fun s i _ _ h => accept_flags s i h) (fun _ _ hu h => hu.keeps_flags h) s t h hst

end Sys2Proof.Machine

/-! PROOFS. GENCODE and the code table: the walk stores the path to every leaf. -/

namespace Sys2Proof.Machine

/-! ## Codes as storage words (10 R46, 43 R172) -/

/-- The path `q` walked on from the path stored in `p`: each edge shifts its bit in (43 R171). -/
def appendPath (p : CodeWord) (q : List Bool) : CodeWord :=
  q.foldl (fun p b => (p <<< 1) ||| (BitVec.ofBool b).setWidth 256) p

theorem appendPath_left (p : CodeWord) (q : List Bool) : appendPath p (false :: q) = appendPath (p <<< 1) q := by
  simp [appendPath]

theorem appendPath_right (p : CodeWord) (q : List Bool) : appendPath p (true :: q) = appendPath ((p <<< 1) ||| 1) q := by
  rfl

/-- The last edge of a path of at most 256 edges is bit 0 of its storage, and bits past its length are 0. -/
theorem appendPath_getLsbD (q : List Bool) (hq : q.length ≤ 256) (i : Nat) :
    (appendPath 0 q).getLsbD i = q.reverse.getD i false := by
  induction q using List.reverseRecOn generalizing i with
  | nil => simp [appendPath]
  | append_singleton q b ih =>
    have hlen : q.length + 1 ≤ 256 := by simpa using hq
    have hlast : appendPath 0 (q ++ [b]) = (appendPath 0 q <<< 1) ||| (BitVec.ofBool b).setWidth 256 := by
      simp [appendPath]
    rw [hlast, List.reverse_append]
    cases i with
    | zero => simp
    | succ i =>
      by_cases hi : i + 1 < 256
      · have hprev := ih (by omega) i
        rw [BitVec.getLsbD_eq_getElem (by omega : i < 256)] at hprev
        simpa [hi] using hprev
      · have hout : q.length ≤ i := by omega
        simp [hi, hout]

/-- A path to a leaf has a slot beside each of its edges. -/
theorem pathOf_length (b : Byte) (t : Tree) (q : List Bool) (h : t.pathOf b = some q) : 2 * q.length + 1 ≤ t.size := by
  induction t generalizing q with
  | leaf c =>
    simp only [Tree.pathOf] at h
    split at h <;> cases h
    simp [Tree.size]
  | node l r ihl ihr =>
    have hl : 1 ≤ l.size := by cases l <;> simp [Tree.size]; omega
    have hr : 1 ≤ r.size := by cases r <;> simp [Tree.size]; omega
    simp only [Tree.pathOf] at h
    cases hp : r.pathOf b with
    | some q' =>
      rw [hp] at h; cases h
      have := ihr q' hp
      simp only [Tree.size, List.length_cons]; omega
    | none =>
      rw [hp] at h
      obtain ⟨q', hq', rfl⟩ := Option.map_eq_some_iff.1 h
      have := ihl q' hq'
      simp only [Tree.size, List.length_cons]; omega

/-- Every leaf of a tree has a path. -/
theorem pathOf_isSome {b : Byte} {t : Tree} (h : b ∈ t.leaves) : (t.pathOf b).isSome := by
  induction t with
  | leaf c => simpa [Tree.pathOf, Tree.leaves] using h
  | node l r ihl ihr =>
    simp only [Tree.pathOf]
    cases hp : r.pathOf b with
    | some q => rfl
    | none =>
      have hl : b ∈ l.leaves := by
        rcases List.mem_append.1 h with hl | hr
        · exact hl
        · exact absurd (ihr hr) (by simp [hp])
      simpa using ihl hl

/-- Every leaf of a tree has a code of at least one bit (43 R172, R173). -/
theorem code_of_mem_leaves {b : Byte} {t : Tree} (h : b ∈ t.leaves) : ∃ q, t.code b = some q ∧ 1 ≤ q.length := by
  cases t with
  | leaf c => exact ⟨[false], by simpa [Tree.code, Tree.leaves] using h, le_refl 1⟩
  | node l r =>
    obtain ⟨q, hq⟩ := Option.isSome_iff_exists.1 (pathOf_isSome h)
    refine ⟨q, hq, ?_⟩
    simp only [Tree.pathOf] at hq
    cases hp : r.pathOf b <;> rw [hp] at hq
    · obtain ⟨q', -, rfl⟩ := Option.map_eq_some_iff.1 hq
      simp
    · cases hq
      simp

/-- A table whose entry of every symbol is its code's length and stored path holds the codes of the tree. -/
theorem tabulates_of_codes {s : State} {t : Tree} (hsize : t.size ≤ 511)
    (h : ∀ b, s.lenAt b = BitVec.ofNat 9 ((t.code b).getD []).length ∧ s.bitsAt b = appendPath 0 ((t.code b).getD [])) :
    s.tabulates t := by
  intro b
  obtain ⟨hlen, hbits⟩ := h b
  have hshort : ∀ q, t.code b = some q → q.length ≤ 255 := by
    intro q hq
    cases t with
    | leaf c =>
      simp only [Tree.code] at hq
      split at hq <;> cases hq
      simp
    | node l r =>
      have := pathOf_length b (.node l r) q hq
      omega
  cases hc : t.code b with
  | none =>
    rw [hc] at hlen hbits
    exact ⟨hlen, fun i _ => by rw [hbits]; simp [appendPath]⟩
  | some q =>
    have hq := hshort q hc
    rw [hc, Option.getD_some] at hlen hbits
    have hnat : (s.lenAt b).toNat = q.length := by
      rw [hlen, BitVec.toNat_ofNat, Nat.mod_eq_of_lt (by omega)]
    refine ⟨⟨?_, hnat⟩, fun i hi => ?_⟩
    · unfold State.codeOf
      rw [hnat, hbits]
      refine List.ext_getElem (by simp) (fun i h1 h2 => ?_)
      rw [List.getElem_map, List.getElem_range, appendPath_getLsbD q (by omega), List.getD_eq_getElem _ _ (by simp; omega),
        List.getElem_reverse]
      congr 1
      omega
    · rw [hbits, appendPath_getLsbD q (by omega), List.getD_eq_default _ _ (by simp; omega)]

/-! ## The walk of GENCODE (43 R171) -/

/-- The code table of `u` is that of `s`, overwritten with the paths to the leaves of `t` from depth `d` and path `p`. -/
def State.codedBelow (s u : State) (t : Tree) (d : BitVec 9) (p : CodeWord) : Prop :=
  ∀ b, match t.pathOf b with
    | some q => u.lenAt b = d + BitVec.ofNat 9 q.length ∧ u.bitsAt b = appendPath p q
    | none => u.lenAt b = s.lenAt b ∧ u.bitsAt b = s.bitsAt b

/-- A code read back after `setCode`. -/
theorem setCode_read {s : State} (hl : Memory.wf 256 s.codeLen = true) (hb : Memory.wf 256 s.codeBits = true)
    (c b : Byte) (d : BitVec 9) (p : CodeWord) :
    (s.setCode c d p).lenAt b = (if b = c then d else s.lenAt b)
      ∧ (s.setCode c d p).bitsAt b = (if b = c then p else s.bitsAt b) := by
  unfold State.lenAt State.bitsAt
  split
  · subst b
    exact ⟨Memory.read_write_same _ _ _ _ hl, Memory.read_write_same _ _ _ _ hb⟩
  · rename_i hne
    have hnat : b.toNat ≠ c.toNat := fun h => hne (BitVec.eq_of_toNat_eq h)
    exact ⟨Memory.read_write_ne _ _ _ _ hnat, Memory.read_write_ne _ _ _ _ hnat⟩

theorem codedBelow_leaf {s : State} (hl : Memory.wf 256 s.codeLen = true) (hb : Memory.wf 256 s.codeBits = true)
    (c : Byte) (d : BitVec 9) (p : CodeWord) : s.codedBelow (s.setCode c d p) (.leaf c) d p := by
  intro b
  obtain ⟨h1, h2⟩ := setCode_read hl hb c b d p
  rw [h1, h2]
  by_cases hbc : b = c <;> simp [Tree.pathOf, hbc, appendPath]

/-- The right subtree is walked after the left one, so its leaves win (43 R176). -/
theorem codedBelow_node {s u v : State} {l r : Tree} {d : BitVec 9} {p : CodeWord}
    (hl : s.codedBelow u l (d + 1) (p <<< 1)) (hr : u.codedBelow v r (d + 1) ((p <<< 1) ||| 1)) :
    s.codedBelow v (.node l r) d p := by
  have hstep : ∀ n, d + 1 + BitVec.ofNat 9 n = d + BitVec.ofNat 9 (n + 1) := by
    intro n
    rw [BitVec.add_assoc, Nat.add_comm n 1, BitVec.ofNat_add]
    rfl
  intro b
  have hl := hl b
  have hr := hr b
  simp only [Tree.pathOf]
  cases hrp : r.pathOf b with
  | some q =>
    simp only [hrp] at hr
    exact ⟨by rw [hr.1, hstep]; rfl, by rw [hr.2, appendPath_right]⟩
  | none =>
    simp only [hrp] at hr
    cases hlp : l.pathOf b with
    | some q =>
      simp only [hlp] at hl
      exact ⟨by rw [hr.1, hl.1, hstep]; rfl, by rw [hr.2, hl.2, appendPath_left]⟩
    | none =>
      simp only [hlp] at hl
      exact ⟨hr.1.trans hl.1, hr.2.trans hl.2⟩

/-- What the walk leaves, and what it needs of the code table. -/
def State.walkedFrom (s u : State) (rest : List StkEntry) : Prop :=
  u.stk = rest ∧ u.node = s.node ∧ u.nodeN = s.nodeN ∧ Memory.wf 256 u.codeLen = true ∧ Memory.wf 256 u.codeBits = true

/-- The walk from an entry over a tree pops one entry for each of its nodes, and stores the codes below it. -/
theorem codeWalk_tree (t : Tree) (n : Nat) (s : State) (e : StkEntry) (rest : List StkEntry) (hstk : s.stk = e :: rest)
    (ht : holdsTree s.node s.nodeN t e.h) (hl : Memory.wf 256 s.codeLen = true) (hb : Memory.wf 256 s.codeBits = true) :
    ∃ u, codeWalk (t.size + n) s = codeWalk n u ∧ s.walkedFrom u rest ∧ s.codedBelow u t e.depth e.path := by
  induction t generalizing n s e rest with
  | leaf c =>
    obtain ⟨-, hleaf, hsym⟩ := ht
    have hpop : s.walkOnce e rest = ({ s with stk := rest }).setCode c e.depth e.path := by
      simp only [State.walkOnce, State.isLeaf, State.symOf, State.nodeAt, hleaf, hsym, if_true]
    refine ⟨({ s with stk := rest }).setCode c e.depth e.path, ?_,
      ⟨rfl, rfl, rfl, Memory.wf_write _ _ _ _ c.isLt hl, Memory.wf_write _ _ _ _ c.isLt hb⟩,
      codedBelow_leaf hl hb c e.depth e.path⟩
    rw [Tree.size, Nat.add_comm 1 n, codeWalk_cons n s e rest hstk, hpop]
  | node l r ihl ihr =>
    obtain ⟨-, hinner, htl, htr⟩ := ht
    have hpop : s.walkOnce e rest = { s with
        stk := { h := s.leftOf e.h, depth := e.depth + 1, path := e.path <<< 1 }
          :: { h := s.rightOf e.h, depth := e.depth + 1, path := (e.path <<< 1) ||| 1 } :: rest } := by
      simp only [State.walkOnce, State.isLeaf, State.nodeAt, hinner, Bool.false_eq_true, if_false]
    obtain ⟨u, hu, ⟨hustk, hunode, hunodeN, hul, hub⟩, huc⟩ := ihl (r.size + n) (s.walkOnce e rest) _ _ (by rw [hpop])
      (by rw [hpop]; exact htl) (by rw [hpop]; exact hl) (by rw [hpop]; exact hb)
    rw [hpop] at hu hunode hunodeN huc
    obtain ⟨v, hv, ⟨hvstk, hvnode, hvnodeN, hvl, hvb⟩, hvc⟩ := ihr n u _ _ hustk
      (by rw [hunode, hunodeN]; exact htr) hul hub
    refine ⟨v, ?_, ⟨hvstk, hvnode.trans hunode, hvnodeN.trans hunodeN, hvl, hvb⟩, codedBelow_node huc hvc⟩
    rw [Tree.size, show 1 + l.size + r.size + n = (l.size + (r.size + n)) + 1 by omega, codeWalk_cons _ s e rest hstk,
      hpop, hu, hv]

/-- A tree at ROOT has at most 511 nodes (10 R44). -/
theorem rootTree_size {s : State} {t : Tree} (h : s.rootTree t) : t.size ≤ 511 := by
  have hlen := nodup_handles_length h.2 (visited_lt h.1)
  rw [visited_length] at hlen
  have := s.nodeN.isLt
  omega

theorem codeWalk_nil (n : Nat) {s : State} (h : s.stk = []) : codeWalk n s = .done s := by
  rw [codeWalk.eq_def]; simp only [h]

theorem isLeaf_root {s : State} {t : Tree} (h : s.rootTree t) : s.isLeaf s.root = true ↔ ∃ c, t = .leaf c := by
  obtain ⟨h, -⟩ := h
  cases t with
  | leaf c => simpa [State.isLeaf, State.nodeAt] using h.2.1
  | node l r => simpa [State.isLeaf, State.nodeAt] using h.2.1

/-- GENCODE over a tree at ROOT ends, and the code table holds the tree's codes (43 R172). -/
theorem gencodeRun_tabulates {s : State} {t : Tree} (h : s.rootTree t) :
    ∃ u, gencodeRun s = .done u ∧ u.tabulates t := by
  have hsize := rootTree_size h
  have hwl : Memory.wf 256 s.gencodeInit.codeLen = true := rfl
  have hwb : Memory.wf 256 s.gencodeInit.codeBits = true := rfl
  have hroot : s.gencodeInit.rootTree t := h
  unfold gencodeRun gencodeTree
  cases t with
  | leaf c =>
    have hsym : s.gencodeInit.symOf s.gencodeInit.root = c := hroot.1.2.2
    rw [if_pos ((isLeaf_root hroot).2 ⟨c, rfl⟩), hsym]
    refine ⟨_, rfl, tabulates_of_codes hsize (fun b => ?_)⟩
    obtain ⟨h1, h2⟩ := setCode_read hwl hwb c b 1 0
    refine ⟨h1.trans ?_, h2.trans ?_⟩ <;> by_cases hbc : b = c <;> simp [Tree.code, hbc, appendPath, State.lenAt, State.bitsAt]
  | node l r =>
    rw [if_neg (fun hl => by obtain ⟨c, hc⟩ := (isLeaf_root hroot).1 hl; cases hc)]
    obtain ⟨u, hu, ⟨hstk, -⟩, hc⟩ := codeWalk_tree (.node l r) (511 - (Tree.node l r).size)
      { s.gencodeInit with stk := [{ h := s.gencodeInit.root }] } _ _ rfl hroot.1 hwl hwb
    rw [Nat.add_sub_cancel' hsize] at hu
    rw [hu, codeWalk_nil _ hstk]
    refine ⟨_, rfl, tabulates_of_codes hsize (fun b => ?_)⟩
    have hb := hc b
    show u.lenAt b = _ ∧ u.bitsAt b = _
    simp only [Tree.code]
    cases hp : (Tree.node l r).pathOf b with
    | some q => simpa [hp] using hb
    | none => simpa [hp, appendPath, State.lenAt, State.bitsAt] using hb

end Sys2Proof.Machine

/-! PROOFS. The claims of TV and CV (O44). -/

namespace Sys2Proof.Machine

/-! ## The valid tree and its codes (10 R54 items 2 and 3) -/

/-- A valid tree is well-formed at ROOT, and a valid code table holds its codes. -/
def State.Holds (s : State) : Prop :=
  (s.tv = true → ∃ t, s.rootTree t) ∧ (s.cv = true → ∀ t, s.rootTree t → s.tabulates t)

/-- DESTREE at `k`: the flags are cleared, and its stack and the part of the arena already filled fit together. -/
def State.Reads (k : InPoint) (s : State) : Prop :=
  s.tv = false ∧ s.cv = false
    ∧ ∃ used, openNodes s.node s.nodeN s.stk used
        ∧ match k with
          | .symbol h => h < s.nodeN ∧ (h :: used).Nodup
          | _ => used.Nodup

/-- What the engine owes while it stands in DESTREE. -/
def State.ReadsInv (s : State) : Prop :=
  s.state = .busy → ∀ k todo, s.resume = .inNext k todo → procOfIn k = .destree → s.Reads k

/-- The invariant, part by part. -/
theorem treeInv_iff (s : State) : s.TreeInv ↔ s.FlagInv ∧ s.TableInv ∧ s.Holds ∧ s.ReadsInv := by
  unfold State.Holds
  rw [and_assoc]
  rfl

/-- With both flags cleared nothing is claimed. -/
theorem holds_of_flags {s : State} (htv : s.tv = false) (hcv : s.cv = false) : s.Holds := by
  simp [State.Holds, htv, hcv]

theorem holds_of_store {s u : State} (h : u.store = s.store) (hs : s.Holds) : u.Holds := by
  simp only [State.store, Store.mk.injEq] at h
  simpa only [State.Holds, State.rootTree, State.tabulates, State.codeOf, State.lenAt, State.bitsAt, h] using hs

theorem fail_holds (e : Err) (s : State) (h : s.Holds) : (s.fail e).Holds := by
  by_cases hm : s.cmdCur = 0x40 ∨ s.cmdCur = 0x41
  · exact holds_of_flags (if_pos hm) (if_pos hm)
  · exact holds_of_store (s := s) (by simp only [State.store, State.fail_fields, if_neg hm]) h

/-- ROOT holds one tree. -/
theorem rootTree_unique {s : State} {t u : Tree} (ht : s.rootTree t) (hu : s.rootTree u) : t = u :=
  holdsTree_unique ht.1 hu.1

theorem buildRun_holds (s : State) (h : s.TablesWf) : (buildRun s).final.Holds := by
  obtain ⟨-, hnode, hweight, -⟩ := h
  rcases buildRun_cases s hnode hweight with ⟨e, u, hu, -, -, htv, hcv⟩ | ⟨u, t, hu, -, -, -, hcv, ht⟩ <;> rw [hu]
  · exact holds_of_flags htv hcv
  · exact ⟨fun _ => ⟨t, ht⟩, fun hc => absurd (hcv.symm.trans hc) (by decide)⟩

/-- GENCODE runs over the valid tree, leaves it, and stores its codes. -/
theorem gencodeRun_holds (s : State) (h : s.Holds) (htv : s.tv = true) : (gencodeRun s).final.Holds := by
  obtain ⟨t, ht⟩ := h.1 htv
  have hroot : (gencodeRun s).final.rootTree t :=
    gencodeRun_keeps (fun u => u.rootTree t) (fun _ h => h) (fun _ _ _ _ h => h) (fun _ _ h => h) (fun _ h => h) s ht
  obtain ⟨u, hu, hcodes⟩ := gencodeRun_tabulates ht
  rw [hu] at hroot ⊢
  exact ⟨fun _ => ⟨t, hroot⟩, fun _ t' ht' => rootTree_unique hroot ht' ▸ hcodes⟩

/-- Every procedure keeps the claims of the flags; BUILD makes the tree and GENCODE the codes. -/
theorem startProc_holds (p : Proc) (s : State) (hw : s.TablesWf) (h : s.Holds) (hg : p = .gencode → s.tv = true) :
    (startProc p s).final.Holds := by
  by_cases hp : p.onlyReads = true
  · exact holds_of_store (startProc_store hp s).1 h
  · cases p <;> simp only [startProc]
    case clear | count | destree | release => exact holds_of_flags rfl rfl
    case build => exact buildRun_holds s hw
    case gencode => exact gencodeRun_holds s h (hg rfl)
    all_goals exact absurd rfl hp

theorem countToken_holds (t : Token) (s : State) (h : s.Holds) : (countToken t s).final.Holds := by
  unfold countToken; split <;> split <;> exact h

/-- The stretch is of a procedure other than DESTREE, so it owes nothing of DESTREE's stack. -/
theorem StopsIn.leads_holds {p : Proc} {r : Run} (hr : StopsIn p r) (hp : p ≠ .destree) (todo : List Proc)
    (h : r.final.Holds) : r.Leads (fun _ => State.Holds) (fun s => s.Holds ∧ s.ReadsInv) todo := by
  cases r with
  | done s => exact h
  | failed e s => exact ⟨fail_holds e s h, fun _ k l hk => nomatch hk⟩
  | waitIn k s =>
    refine ⟨h, fun _ k' l hk hd => ?_⟩
    injection hk with hk
    exact absurd hd (by rw [← hk, show procOfIn k = p from hr]; exact hp)
  | _ => exact ⟨h, fun _ k l hk => nomatch hk⟩

/-! ## DESTREE (44 R184) -/

theorem reads_fail {s : State} {k : InPoint} (h : s.Reads k) (e : Err) : (s.fail e).Holds ∧ (s.fail e).ReadsInv :=
  ⟨fail_holds e s (holds_of_flags h.1 h.2.1), fun _ _ _ hk => nomatch hk⟩

/-- DESTREE may stop at a point that its stack and arena fit. -/
theorem leads_of_reads (todo : List Proc) {s : State} {k : InPoint} (h : s.Reads k) :
    (Run.waitIn k s).Leads (fun _ => State.Holds) (fun s => s.Holds ∧ s.ReadsInv) todo := by
  refine ⟨holds_of_flags h.1 h.2.1, fun _ k' l hk _ => ?_⟩
  injection hk with hk
  exact hk ▸ h

/-- A marker opens an internal node or takes a slot for a leaf; the slot is new (44 R184). -/
theorem destreeMarker_leads_holds (todo : List Proc) (t : Token) (s : State) (hw : s.TablesWf) (h : s.Reads .marker) :
    (destreeMarker t s).Leads (fun _ => State.Holds) (fun s => s.Holds ∧ s.ReadsInv) todo := by
  obtain ⟨htv, hcv, used, hopen, hnodup⟩ := id h
  unfold destreeMarker
  split
  · exact reads_fail h _
  · split_ifs with hbad hfull hinner
    · exact reads_fail h _
    · exact reads_fail h _
    · have hn := nodeN_lt_511 hfull
      have hlt := openNodes_lt hopen
      have hnew : s.nodeN ∉ used := fun hmem => absurd rfl (BitVec.ne_of_lt (hlt _ hmem))
      have hopen' := openNodes_frame (node' := Memory.write s.node s.nodeN.toNat 0) hopen
        (BitVec.le_of_lt (lt_succ_of_lt_511 hn)) (fun g hg => read_write_slot _ _ _ _ (BitVec.ne_of_lt (hlt g hg)))
      refine leads_of_reads todo ⟨htv, hcv, s.nodeN :: used,
        ⟨lt_succ_of_lt_511 hn, ?_, used, hopen', .inl ⟨rfl, rfl⟩⟩, List.nodup_cons.2 ⟨hnew, hnodup⟩⟩
      rw [show (State.newNode 0 0 s).node = Memory.write s.node s.nodeN.toNat 0 from rfl,
        Memory.read_write_same _ _ _ _ hw.2.1]
      exact wordIsLeaf_zero
    · have hn := nodeN_lt_511 hfull
      have hnew : s.nodeN ∉ used := fun hmem => absurd rfl (BitVec.ne_of_lt (openNodes_lt hopen _ hmem))
      exact leads_of_reads todo ⟨htv, hcv, used,
        openNodes_frame hopen (BitVec.le_of_lt (lt_succ_of_lt_511 hn)) (fun _ _ => rfl), lt_succ_of_lt_511 hn,
        List.nodup_cons.2 ⟨hnew, hnodup⟩⟩

/-- A symbol finishes a leaf, which is attached to the open nodes (44 R184). -/
theorem destreeSymbol_leads_holds (todo : List Proc) (g : Handle) (t : Token) (s : State) (hw : s.TablesWf)
    (h : s.Reads (.symbol g)) :
    (destreeSymbol g t s).Leads (fun _ => State.Holds) (fun s => s.Holds ∧ s.ReadsInv) todo := by
  obtain ⟨htv, hcv, used, hopen, hg, hnodup⟩ := id h
  unfold destreeSymbol
  split
  · exact reads_fail h _
  · rename_i b
    have hread : Memory.read (Memory.write s.node g.toNat (leafWord b)) g.toNat = leafWord b :=
      Memory.read_write_same _ _ _ _ hw.2.1
    have hleaf : holdsTree (Memory.write s.node g.toNat (leafWord b)) s.nodeN (.leaf b) g :=
      ⟨hg, by rw [hread, wordIsLeaf_leafWord], by rw [hread, wordSym_leafWord]⟩
    have hopen' := openNodes_frame (node' := Memory.write s.node g.toNat (leafWord b)) hopen (BitVec.le_refl _)
      (fun k hk => read_write_slot _ _ _ _ (fun he => (List.nodup_cons.1 hnodup).1 (he ▸ hk)))
    rcases attach_cases s.stk g (s.setNode g (leafWord b)) (.leaf b) used
      (Memory.wf_write _ _ _ _ (handle_lt_511 hg) hw.2.1) hopen' hleaf hnodup with
      ⟨nd, r, u, hdone, -, hu, hv⟩ | ⟨nd, st, us, hwait, -, hus, hnd⟩
    · rw [hdone]
      exact ⟨fun _ => ⟨u, hu, hv⟩, fun hc => absurd (hcv.symm.trans hc) (by decide)⟩
    · rw [hwait]
      exact leads_of_reads todo ⟨htv, hcv, us, hus, hnd⟩

theorem destreeStart_leads_holds (todo : List Proc) (s : State) :
    (destreeStart s).Leads (fun _ => State.Holds) (fun s => s.Holds ∧ s.ReadsInv) todo :=
  leads_of_reads todo ⟨rfl, rfl, [], rfl, List.nodup_nil⟩

/-! ## The tree invariant -/

/-- What holds where a procedure has returned and `todo` ends the program of the command. -/
def State.TreeReturned (todo : List Proc) (s : State) : Prop := s.FlagsReturned todo ∧ s.TablesWf ∧ s.Holds

/-- The three parts of a stretch make the whole. -/
theorem Run.leads_tree {r : Run} {todo : List Proc} (hf : r.Leads State.FlagsReturned State.FlagInv todo)
    (ht : r.Leads (fun _ => State.TablesWf) State.TableInv todo)
    (hh : r.Leads (fun _ => State.Holds) (fun s => s.Holds ∧ s.ReadsInv) todo) :
    r.Leads State.TreeReturned State.TreeInv todo :=
  (hf.and (ht.and hh)).imp (fun _ h => h) (fun s h => (treeInv_iff s).2 h)

theorem tree_carries : Carries State.TreeReturned State.TreeInv where
  complete := by
    rintro s ⟨hf, hw, hh⟩
    exact (treeInv_iff _).2 ⟨flags_carries.complete s hf, tables_carries.complete s hw, hh, fun _ k l hk => nomatch hk⟩
  proc := by
    rintro p todo s ⟨hf, hw, hh⟩
    refine Run.leads_tree (flags_carries.proc p todo s hf) (tables_carries.proc p todo s hw) ?_
    by_cases hp : p = .destree
    · subst hp
      exact destreeStart_leads_holds todo s
    · exact (startProc_stops p s).leads_holds hp todo
        (startProc_holds p s hw hh (fun hg => hf.2.2 (by rw [hg]; rfl)))
  start := by
    intro s todo hb hr h
    obtain ⟨hf, ht, hh, -⟩ := (treeInv_iff s).1 h
    exact ⟨flags_carries.start s todo hb hr hf, tables_carries.start s todo hb hr ht, hh⟩
  input := by
    intro s k todo t rest hb hr h
    obtain ⟨hf, ht, hh, hk⟩ := (treeInv_iff s).1 h
    have hw := ((tableInv_iff s).1 ht).1
    refine Run.leads_tree (flags_carries.input s k todo t rest hb hr hf) (tables_carries.input s k todo t rest hb hr ht) ?_
    cases k
    case marker => exact destreeMarker_leads_holds todo t _ hw (hk hb _ _ hr rfl)
    case symbol g => exact destreeSymbol_leads_holds todo g t _ hw (hk hb _ _ hr rfl)
    case count => exact (afterIn_stops .count t _).leads_holds (by decide) todo (countToken_holds t _ hh)
    all_goals
      exact (afterIn_stops _ t _).leads_holds (by simp [procOfIn]) todo (holds_of_store (afterIn_leaves rfl t _).1 hh)
  output := by
    intro s b k todo hb hr h
    obtain ⟨hf, ht, hh, -⟩ := (treeInv_iff s).1 h
    refine Run.leads_tree (flags_carries.output s b k todo hb hr hf) (tables_carries.output s b k todo hb hr ht) ?_
    exact (afterOut_stops k _).leads_holds (procOfOut_ne_destree k) todo (holds_of_store (afterOut_store k _).1 hh)

/-- No act of the host breaks the tree invariant. -/
theorem HostEffect.keeps_tree {s u : State} (hu : HostEffect s u) (h : s.TreeInv) : u.TreeInv := by
  obtain ⟨hf, ht, hh, hk⟩ := (treeInv_iff s).1 h
  refine (treeInv_iff u).2 ⟨hu.keeps_flags hf, hu.keeps_tables ht, ?_⟩
  cases hu with
  | resetDone r => exact ⟨holds_of_flags rfl rfl, fun hb => nomatch hb⟩
  | illegal v _ => exact ⟨hh, fun hb => nomatch hb⟩
  | counted r b n hb => exact ⟨holds_of_flags rfl rfl, fun hbusy => absurd hbusy hb⟩
  | _ => exact ⟨hh, hk⟩

theorem acknowledge_tree (s : State) (h : s.TreeInv) : s.acknowledge.TreeInv := by
  obtain ⟨hf, ht, hh, -⟩ := (treeInv_iff s).1 h
  exact (treeInv_iff _).2 ⟨⟨hf.1, fun hb => nomatch hb⟩, ht, hh, fun hb => nomatch hb⟩

theorem accept_tree (s : State) (i : Instr) (h : s.TreeInv) : (s.accept (opcodeOf i) (programOf i)).TreeInv := by
  obtain ⟨hf, ht, hh, -⟩ := (treeInv_iff s).1 h
  exact (treeInv_iff _).2 ⟨accept_flags s i hf, (tableInv_iff _).2 ⟨((tableInv_iff s).1 ht).1, fun k l hk => nomatch hk⟩, hh,
    fun _ k l hk => nomatch hk⟩

/-- Every step keeps the claims of TV and CV. -/
theorem step_keeps_tree (s t : State) (h : s.TreeInv) (hst : step s = .next t) : t.TreeInv :=
  step_keeps State.TreeInv (fun _ _ h => h) (fun _ _ h => h) tree_carries.engineStep (fun s _ h => acknowledge_tree s h)
    (fun s i _ _ h => accept_tree s i h) (fun _ _ hu h => hu.keeps_tree h) s t h hst

/-- A table that holds the codes of a tree has an entry for each of its leaves. -/
theorem lenAt_pos_of_tabulates {s : State} {t : Tree} (h : s.tabulates t) {b : Byte} (hb : b ∈ t.leaves) :
    1 ≤ s.lenAt b := by
  obtain ⟨q, hq, hlen⟩ := code_of_mem_leaves hb
  obtain ⟨hentry, -⟩ := h b
  simp only [hq] at hentry
  rw [BitVec.le_def, hentry.2]
  exact hlen

/-- Settles O44: both invariants are kept by every step, and a valid code table has a code for each leaf. -/
theorem stepKeepsTheFlagInvariant : Obligations.StepKeepsTheFlagInvariant := by
  unfold Obligations.StepKeepsTheFlagInvariant
  refine ⟨step_keeps_flags, step_keeps_tree, fun s t h hcv ht => ?_⟩
  obtain ⟨hflag, -, hholds, -⟩ := (treeInv_iff s).1 h
  exact ⟨hflag.1 hcv, fun b hb => lenAt_pos_of_tabulates (hholds.2 hcv t ht) hb⟩

end Sys2Proof.Machine

/-! PROOFS. The queues, the holds and the schedule: an engine step touches IN and OUT at their ends only, so it commutes with
the host's pushes and pops, and a full turn runs out of queue (O46 to O50). -/

namespace Sys2Proof.Machine

/-! ## The bounds of the queues (20 R72, R73) -/

/-- A procedure but FLUSH leaves the queues. -/
theorem startProc_queues {p : Proc} (hp : p ≠ .flush) (s : State) :
    (startProc p s).final.inq = s.inq ∧ (startProc p s).final.outq = s.outq := by
  have h := startProc_q s.inq s.outq p hp s
  rw [show State.withQueues s.inq s.outq s = s from rfl] at h
  rw [h, Run.map_final]; exact ⟨rfl, rfl⟩

/-- The bounds look at the queues and their depths only. -/
theorem queueInv_of_eq {s u : State} (hq : u.inq = s.inq ∧ u.outq = s.outq) (hh : u.hostSide = s.hostSide)
    (h : s.QueueInv) : u.QueueInv := by
  have hin : u.inDepth = s.inDepth := congrArg HostSide.inDepth hh
  have hout : u.outDepth = s.outDepth := congrArg HostSide.outDepth hh
  rwa [State.QueueInv, hq.1, hq.2, hin, hout]

theorem startProc_queueInv (p : Proc) (s : State) (h : s.QueueInv) : (startProc p s).final.QueueInv := by
  by_cases hp : p = .flush
  · subst hp; simp [startProc, Run.final, State.QueueInv]
  · exact queueInv_of_eq (startProc_queues hp s) (startProc_hostSide p s _ rfl) h

/-- A command that runs on, FLUSH among them, keeps the bounds. -/
theorem runOn_queueInv (todo : List Proc) {r : Run} (h : r.final.QueueInv) : (runOn todo r).QueueInv :=
  runOn_keeps State.QueueInv startProc_queueInv (fun _ _ h => h) (fun _ _ h => h) (fun _ h => h) todo r h

/-- A token taken shortens IN, and a byte is put only where OUT has room (20 R81). -/
theorem engineStep_queueInv (s : State) (h : s.QueueInv) : (engineStep s).QueueInv := by
  obtain ⟨hin, hout⟩ := h
  rcases engineStep_cases s with ⟨_, e⟩ | ⟨todo, _, _, e⟩ | ⟨k, todo, t, rest, _, _, hq, e⟩ | ⟨b, k, todo, _, _, hroom, e⟩ <;>
    rw [e]
  · exact ⟨hin, hout⟩
  · exact runOn_queueInv todo ⟨hin, hout⟩
  · have htaken : State.QueueInv { s with inq := rest } := ⟨by rw [hq] at hin; exact Nat.le_of_succ_le hin, hout⟩
    exact runOn_queueInv todo (queueInv_of_eq (afterIn_queues k t _) (afterIn_hostSide k t _ _ rfl) htaken)
  · have hput : State.QueueInv { s with outq := s.outq ++ [b] } := ⟨hin, by simpa using hroom⟩
    exact runOn_queueInv todo (queueInv_of_eq (afterOut_queues k _) (afterOut_hostSide k _ _ rfl) hput)

/-- A push is accepted only where IN has room (20 R86), and no other act lengthens a queue. -/
theorem HostEffect.keeps_queues {s u : State} (hu : HostEffect s u) (h : s.QueueInv) : u.QueueInv := by
  cases hu with
  | popped r b rest hq => exact ⟨h.1, by have := h.2; rw [hq] at this; exact Nat.le_of_succ_le this⟩
  | pushed r t hroom => exact ⟨by simpa using hroom, h.2⟩
  | resetDone r => exact ⟨Nat.zero_le _, Nat.zero_le _⟩
  | _ => exact h

/-- Settles O46: engine steps and acts of the host keep the bounds, and accepting a command leaves the queues. -/
theorem stepKeepsTheQueueBounds : Obligations.StepKeepsTheQueueBounds := by
  unfold Obligations.StepKeepsTheQueueBounds
  exact step_keeps State.QueueInv (fun _ _ h => h) (fun _ _ h => h) engineStep_queueInv (fun _ _ h => h)
    (fun _ _ _ _ h => h) (fun _ _ hu h => hu.keeps_queues h)

/-! ## Holds and full turns (20 R80, R81, R83) -/

theorem not_enabled_of_empty {s : State} {k : InPoint} {todo : List Proc} (hr : s.resume = .inNext k todo)
    (hq : s.inq = []) : s.enabled = false := by
  simp [State.enabled, hr, hq]

theorem not_enabled_of_full {s : State} {b : Byte} {k : OutPoint} {todo : List Proc} (hr : s.resume = .outPut b k todo)
    (hq : s.outDepth ≤ s.outq.length) : s.enabled = false := by
  simp [State.enabled, hr, hq]

/-- Settles O47: neither hold is enabled, and an engine that is not enabled is not moved. -/
theorem holdPassesNothing : Obligations.HoldPassesNothing := by
  unfold Obligations.HoldPassesNothing
  rintro s n (⟨k, todo, hr, hq⟩ | ⟨b, k, todo, hr, hq⟩)
  · exact runEngine_of_not_enabled (not_enabled_of_empty hr hq) n
  · exact runEngine_of_not_enabled (not_enabled_of_full hr hq) n

/-- The engine steps the queues still allow: tokens to take and places to fill. -/
def State.queueWork (s : State) : Nat := s.inq.length + (s.outDepth - s.outq.length)

/-- A step that does not flush makes no new queue work, and uses some up unless it is the first of its program. -/
theorem engineStep_queueWork {s : State} (he : s.enabled = true) (hf : Proc.flush ∉ s.resume.todo) :
    (engineStep s).queueWork ≤ s.queueWork
      ∧ ((∀ l, s.resume ≠ .start l) → (engineStep s).queueWork + 1 = s.queueWork) := by
  obtain ⟨-, -, hd, ⟨⟨l, hl⟩, hin, hout⟩ | ⟨hin, hout⟩ | ⟨hin, hout, hroom⟩⟩ := engineStep_measure s he hf <;>
    simp only [State.queueWork, hd]
  · exact ⟨by rw [hin, hout], fun hs => absurd hl (hs l)⟩
  · rw [hout]; omega
  · rw [hin]; omega

/-- Past its start, an engine that does not flush comes to a hold or a stop within its queue work. -/
theorem runEngine_queueWork (n : Nat) (s : State) (hf : Proc.flush ∉ s.resume.todo) (hs : ∀ l, s.resume ≠ .start l)
    (hn : s.queueWork ≤ n) : (runEngine n s).enabled = false := by
  induction n generalizing s with
  | zero =>
    by_contra he
    have hwork := (engineStep_queueWork (by simpa using he) hf).2 hs
    omega
  | succ n ih =>
    cases he : s.enabled with
    | false => rwa [runEngine_of_not_enabled he]
    | true =>
      obtain ⟨hs', hf', -⟩ := engineStep_measure s he hf
      have hwork := (engineStep_queueWork he hf).2 hs
      rw [runEngine_succ]
      exact ih _ hf' hs' (by omega)

/-- A full turn is enough for the first step of a program and all the queue work after it. -/
theorem runEngine_fullTurn {s : State} (hf : Proc.flush ∉ s.resume.todo) : (runEngine s.fullTurn s).enabled = false := by
  cases he : s.enabled with
  | false => rwa [runEngine_of_not_enabled he]
  | true =>
    obtain ⟨hs, hf', -⟩ := engineStep_measure s he hf
    have hwork : (engineStep s).queueWork ≤ s.inq.length + (s.outDepth - s.outq.length) := (engineStep_queueWork he hf).1
    rw [State.fullTurn, runEngine_succ]
    exact runEngine_queueWork _ _ hf' hs (by omega)

/-- FLUSH is one step (40 R133). -/
theorem engineStep_flush {s : State} (hb : s.state = .busy) (hr : s.resume = .start [.flush]) :
    engineStep s = s.flushQueues.complete := by
  rw [engineStep_start hb hr, runOn_cons_done, startProc, runOn_nil_done]

/-- Settles O48: FLUSH stops after its one step, and every other program runs out of queue. -/
theorem fullTurnEndsInAHoldOrAStop : Obligations.FullTurnEndsInAHoldOrAStop := by
  unfold Obligations.FullTurnEndsInAHoldOrAStop
  intro s ht hflush
  rw [takeTurn_nil ht]
  by_cases hf : Proc.flush ∈ s.resume.todo
  · by_cases hb : s.state = .busy
    · have hstop : s.flushQueues.complete.enabled = false := not_enabled_of_not_busy (by simp)
      rwa [State.fullTurn, runEngine_succ, engineStep_flush hb (hflush hf), runEngine_of_not_enabled hstop]
    · have hidle := not_enabled_of_not_busy hb
      rwa [runEngine_of_not_enabled hidle]
  · exact runEngine_fullTurn hf

/-! ## An engine step and the ends of the queues (20 R82, R84) -/

/-- The queues after the engine runs on from an `in_next()`. -/
theorem runOn_afterIn_queues (todo : List Proc) (hf : Proc.flush ∉ todo) (k : InPoint) (t : Token) (s : State) :
    (runOn todo (afterIn k t s)).inq = s.inq ∧ (runOn todo (afterIn k t s)).outq = s.outq := by
  obtain ⟨hin, hout⟩ := runOn_queues todo hf (afterIn k t s)
  obtain ⟨hin', hout'⟩ := afterIn_queues k t s
  exact ⟨hin.trans hin', hout.trans hout'⟩

/-- The queues after the engine runs on from an `out_put`. -/
theorem runOn_afterOut_queues (todo : List Proc) (hf : Proc.flush ∉ todo) (k : OutPoint) (s : State) :
    (runOn todo (afterOut k s)).inq = s.inq ∧ (runOn todo (afterOut k s)).outq = s.outq := by
  obtain ⟨hin, hout⟩ := runOn_queues todo hf (afterOut k s)
  obtain ⟨hin', hout'⟩ := afterOut_queues k s
  exact ⟨hin.trans hin', hout.trans hout'⟩

/-- Settles O50: a start leaves the queues, an `in_next()` takes the head of IN, an `out_put` appends its byte. -/
theorem engineTouchesTheQueuesAtTheirEnds : Obligations.EngineTouchesTheQueuesAtTheirEnds := by
  unfold Obligations.EngineTouchesTheQueuesAtTheirEnds
  intro s hf
  rcases engineStep_cases s with ⟨_, e⟩ | ⟨todo, _, hr, e⟩ | ⟨k, todo, t, rest, _, hr, hq, e⟩ | ⟨b, k, todo, _, hr, _, e⟩
  · rw [e]; exact ⟨.inl rfl, .inl rfl⟩
  all_goals rw [hr] at hf; rw [e]
  · obtain ⟨hin, hout⟩ := runOn_queues todo hf (.done s)
    exact ⟨.inl hin, .inl hout⟩
  · obtain ⟨hin, hout⟩ := runOn_afterIn_queues todo hf k t { s with inq := rest }
    exact ⟨.inr (by rw [hin, hq]; rfl), .inl hout⟩
  · obtain ⟨hin, hout⟩ := runOn_afterOut_queues todo hf k { s with outq := s.outq ++ [b] }
    exact ⟨.inl hin, .inr ⟨b, hout⟩⟩

/-- An enabled step that does not flush, taken with `more` behind IN and without the bytes `gone` at the head of OUT, does what
it does without these changes (20 R84). -/
theorem engineStep_withQueues {s : State} (he : s.enabled = true) (hf : Proc.flush ∉ s.resume.todo) (more : List Token)
    (gone o : List Byte) (ho : s.outq = gone ++ o) :
    engineStep (s.withQueues (s.inq ++ more) o)
      = (engineStep s).withQueues ((engineStep s).inq ++ more) ((engineStep s).outq.drop gone.length) := by
  obtain ⟨hb, ⟨todo, hr⟩ | ⟨k, todo, t, rest, hr, hq⟩ | ⟨b, k, todo, hr, hroom⟩⟩ := (enabled_iff s).1 he <;> rw [hr] at hf
  · obtain ⟨hin, hout⟩ := runOn_queues todo hf (.done s)
    rw [engineStep_start hb hr, hin, hout, ← runOn_q _ _ todo hf, Run.final, ho, List.drop_left]
    exact engineStep_start hb hr
  · obtain ⟨hin, hout⟩ := runOn_afterIn_queues todo hf k t { s with inq := rest }
    rw [engineStep_in hb hr hq, hin, hout, ← runOn_q _ _ todo hf, ← afterIn_q, ho, List.drop_left]
    exact engineStep_in hb hr (by rw [State.withQueues, hq]; rfl)
  · obtain ⟨hin, hout⟩ := runOn_afterOut_queues todo hf k { s with outq := s.outq ++ [b] }
    rw [engineStep_out hb hr hroom, hin, hout, ← runOn_q _ _ todo hf, ← afterOut_q, ho, List.append_assoc, List.drop_left]
    refine engineStep_out hb hr (lt_of_le_of_lt ?_ hroom)
    simp [State.withQueues, ho]

/-- The oldest byte of OUT stays the oldest (20 R82). -/
theorem engineStep_keeps_oldest {s : State} {b : Byte} {rest : List Byte} (hf : Proc.flush ∉ s.resume.todo)
    (hq : s.outq = b :: rest) : (engineStep s).outq.head? = some b := by
  obtain ⟨-, hout | ⟨c, hout⟩⟩ := engineTouchesTheQueuesAtTheirEnds s hf <;> simp [hout, hq]

/-- Settles O49: a push changes what stands behind IN, a pop takes the byte at the head of OUT, and the step looks at neither. -/
theorem engineStepCommutesWithTheQueues : Obligations.EngineStepCommutesWithTheQueues := by
  unfold Obligations.EngineStepCommutesWithTheQueues
  intro s he hf
  refine ⟨fun tok => engineStep_withQueues he hf [tok] [] s.outq rfl, fun b rest hq => ⟨?_, engineStep_keeps_oldest hf hq⟩⟩
  have h := engineStep_withQueues he hf [] [b] rest hq
  simpa only [State.withQueues, List.append_nil, List.length_singleton, List.drop_one] using h

end Sys2Proof.Machine

/-! PROOFS. The register space: every mapped word has one offset, the bus answers what stands there, and refuses exactly the list
of 20 R76 (O52, O55 to O58). -/

namespace Sys2Proof.Machine

/-! ## The register map (10 R39, 20 R77, R96) -/

/-- Where a half of a 64-bit quantity stands above its entry (20 R77). -/
def halfOffset (hi : Bool) : Nat := if hi then 4 else 0

/-- The offset of a mapped word (10 R39, 20 R77). -/
def Loc.offset : Loc → Nat
  | .cmd => 0x0000
  | .status => 0x0004
  | .ctrl => 0x0008
  | .id => 0x000C
  | .size hi => 0x0010 + halfOffset hi
  | .inData => 0x0018
  | .inEos => 0x001C
  | .outData => 0x0020
  | .fifoStat => 0x0024
  | .treeInfo => 0x0028
  | .progress hi => 0x002C + halfOffset hi
  | .freq b hi => 0x0800 + 8 * b.toNat + halfOffset hi
  | .node h => 0x1000 + 4 * h.toNat
  | .codeLen b => 0x1800 + 4 * b.toNat
  | .weight h hi => 0x2000 + 8 * h.toNat + halfOffset hi
  | .codeBits b j => 0x4000 + 32 * b.toNat + 4 * j

/-- The word lies inside its table: 511 slots, eight words of a code (20 R77). -/
def Loc.inTable : Loc → Prop
  | .node h => h.toNat < 511
  | .weight h _ => h.toNat < 511
  | .codeBits _ j => j < 8
  | _ => True

theorem locateReg_offset {n : Nat} {l : Loc} (h : locateReg n = some l) : n = l.offset ∧ l.inTable := by
  unfold locateReg at h
  split at h <;> cases h <;> exact ⟨rfl, trivial⟩

theorem halfOffset_beq (n : Nat) (hn : n % 4 = 0) : halfOffset (n / 4 % 2 == 1) = n % 8 := by
  by_cases h : n / 4 % 2 = 1 <;> simp [halfOffset, h] <;> omega

theorem locateWindow_offset {n : Nat} (hn : n % 4 = 0) {l : Loc} (h : locateWindow n = some l) :
    n = l.offset ∧ l.inTable := by
  unfold locateWindow at h
  split_ifs at h <;> cases h <;>
    simp only [Loc.offset, Loc.inTable, BitVec.toNat_ofNat, halfOffset_beq n hn, and_true] <;> omega

/-- The word an access names stands at the offset of the access. -/
theorem locate_offset {bits : Nat} {off : Offset} {l : Loc} (h : locate bits off = some l) :
    bits = 32 ∧ off.toNat = l.offset ∧ l.inTable := by
  unfold locate at h
  split_ifs at h with hok hreg
  · exact ⟨hok.1, locateReg_offset h⟩
  · exact ⟨hok.1, locateWindow_offset hok.2 h⟩

theorem locateReg_isSome {n : Nat} (hn : n % 4 = 0) (h : n < 0x34) : (locateReg n).isSome = true := by
  obtain ⟨m, rfl⟩ := Nat.dvd_of_mod_eq_zero hn
  have hm : m < 13 := by omega
  interval_cases m <;> rfl

theorem locateWindow_eq_none_iff {n : Nat} (h : 0x34 ≤ n) : locateWindow n = none ↔ unmappedOffset n = true := by
  unfold locateWindow unmappedOffset
  split_ifs <;> simp <;> omega

/-- An access names no word exactly if its shape is refused or its offset is unmapped (20 R76 items 1 and 2). -/
theorem locate_eq_none_iff (bits : Nat) (off : Offset) :
    locate bits off = none ↔ bits ≠ 32 ∨ off.toNat % 4 ≠ 0 ∨ unmappedOffset off.toNat = true := by
  unfold locate
  split_ifs with hok hreg
  · have hsome := locateReg_isSome hok.2 hreg
    have hmapped : unmappedOffset off.toNat = false := by simp [unmappedOffset]; omega
    rw [← Option.not_isSome_iff_eq_none]
    simp [hok, hmapped, hsome]
  · rw [locateWindow_eq_none_iff (by omega)]
    simp [hok]
  · simp; tauto

theorem halfOffset_lt (hi : Bool) : halfOffset hi < 8 ∧ halfOffset hi % 4 = 0 := by cases hi <;> decide

theorem halfOffset_parity {n : Nat} (hn : n % 8 = 0) (hi : Bool) : ((n + halfOffset hi) / 4 % 2 == 1) = hi := by
  cases hi <;> simp [halfOffset] <;> omega

theorem ofNat_of_toNat_eq {w n : Nat} {x : BitVec w} (h : n = x.toNat) : BitVec.ofNat w n = x := by
  rw [h, BitVec.ofNat_toNat, BitVec.setWidth_eq]

/-- An aligned access past the registers falls into the windows. -/
theorem locate_window {n : Nat} (h : 0x34 ≤ n) (hlt : n < 2 ^ 16) (h4 : n % 4 = 0) :
    locate 32 (BitVec.ofNat 16 n) = locateWindow n := by
  rw [locate, BitVec.toNat_ofNat, Nat.mod_eq_of_lt hlt, if_pos ⟨rfl, h4⟩, if_neg (by omega)]

/-- A 32-bit access at the offset of a word names the word. -/
theorem locate_ofNat_offset {l : Loc} (hl : l.inTable) : locate 32 (BitVec.ofNat 16 l.offset) = some l := by
  cases l with
  | cmd | status | ctrl | id | inData | inEos | outData | fifoStat | treeInfo => rfl
  | size hi => cases hi <;> rfl
  | progress hi => cases hi <;> rfl
  | freq b hi =>
    have hb := b.isLt
    obtain ⟨hlt, h4⟩ := halfOffset_lt hi
    have hentry : (0x0800 + 8 * b.toNat + halfOffset hi - 0x0800) / 8 = b.toNat := by omega
    rw [Loc.offset, locate_window (by omega) (by omega) (by omega), locateWindow, if_pos (by omega),
      ofNat_of_toNat_eq hentry, halfOffset_parity (by omega)]
  | node h =>
    have hh : h.toNat < 511 := hl
    have hentry : (0x1000 + 4 * h.toNat - 0x1000) / 4 = h.toNat := by omega
    rw [Loc.offset, locate_window (by omega) (by omega) (by omega), locateWindow, if_neg (by omega), if_pos (by omega),
      ofNat_of_toNat_eq hentry]
  | codeLen b =>
    have hb := b.isLt
    have hentry : (0x1800 + 4 * b.toNat - 0x1800) / 4 = b.toNat := by omega
    rw [Loc.offset, locate_window (by omega) (by omega) (by omega), locateWindow, if_neg (by omega), if_neg (by omega),
      if_pos (by omega), ofNat_of_toNat_eq hentry]
  | weight h hi =>
    have hh : h.toNat < 511 := hl
    obtain ⟨hlt, h4⟩ := halfOffset_lt hi
    have hentry : (0x2000 + 8 * h.toNat + halfOffset hi - 0x2000) / 8 = h.toNat := by omega
    rw [Loc.offset, locate_window (by omega) (by omega) (by omega), locateWindow, if_neg (by omega), if_neg (by omega),
      if_neg (by omega), if_pos (by omega), ofNat_of_toNat_eq hentry, halfOffset_parity (by omega)]
  | codeBits b j =>
    have hb := b.isLt
    have hj : j < 8 := hl
    have hentry : (0x4000 + 32 * b.toNat + 4 * j - 0x4000) / 32 = b.toNat := by omega
    have hword : (0x4000 + 32 * b.toNat + 4 * j) / 4 % 8 = j := by omega
    rw [Loc.offset, locate_window (by omega) (by omega) (by omega), locateWindow, if_neg (by omega), if_neg (by omega),
      if_neg (by omega), if_neg (by omega), if_pos (by omega), ofNat_of_toNat_eq hentry, hword]

/-- A 32-bit read at the offset of a word reads the word. -/
theorem hostAct_read_offset {l : Loc} (hl : l.inTable) (s : State) :
    hostAct (.read 32 (BitVec.ofNat 16 l.offset)) s = readLoc l s := by
  simp only [hostAct, locate_ofNat_offset hl]

/-- A 32-bit write at the offset of a word writes the word. -/
theorem hostAct_write_offset {l : Loc} (hl : l.inTable) (v : Word) (s : State) :
    hostAct (.write 32 (BitVec.ofNat 16 l.offset) v) s = writeLoc l v s := by
  simp only [hostAct, locate_ofNat_offset hl]

/-! ## Refusals (20 R76) -/

/-- The words a read refuses (20 R76 item 3). -/
def Loc.writeOnly : Loc → Bool
  | .cmd | .inData | .inEos => true
  | _ => false

/-- The words a write refuses in every state (20 R76 item 4). -/
def Loc.readOnly : Loc → Bool
  | .cmd | .ctrl | .size _ | .inData | .inEos | .freq _ _ => false
  | _ => true

/-- The words a write refuses while BUSY (20 R76 items 5 and 6). -/
def Loc.keptWhileBusy : Loc → Bool
  | .cmd | .size _ | .freq _ _ => true
  | _ => false

/-- The words a write refuses while IN is full (20 R76 item 7). -/
def Loc.pushes : Loc → Bool
  | .inData | .inEos => true
  | _ => false

/-- The refusals of a write to a mapped word. -/
def Loc.refusesWrite (l : Loc) (s : State) : Bool :=
  l.readOnly || (s.busy && l.keptWhileBusy) || (l.pushes && decide (s.inDepth ≤ s.inq.length))

/-- The offsets listed in 20 R76 are those of the words its items speak of. -/
theorem offset_refusals {l : Loc} (hl : l.inTable) :
    (l.writeOnly = true ↔ l.offset = 0x0000 ∨ l.offset = 0x0018 ∨ l.offset = 0x001C)
      ∧ (l.readOnly = true ↔ readOnlyOffset l.offset = true)
      ∧ (l.keptWhileBusy = true ↔
          l.offset = 0x0000 ∨ l.offset = 0x0010 ∨ l.offset = 0x0014 ∨ (0x0800 ≤ l.offset ∧ l.offset < 0x1000))
      ∧ (l.pushes = true ↔ l.offset = 0x0018 ∨ l.offset = 0x001C) := by
  rw [readOnlyOffset, decide_eq_true_eq]
  cases l with
  | cmd | status | ctrl | id | inData | inEos | outData | fifoStat | treeInfo => decide
  | size hi | progress hi => cases hi <;> decide
  | freq b hi =>
    have hhi := halfOffset_lt hi
    simp only [Loc.offset, Loc.writeOnly, Loc.readOnly, Loc.keptWhileBusy, Loc.pushes, Bool.false_eq_true, true_iff,
      false_iff]
    omega
  | codeLen b =>
    simp only [Loc.offset, Loc.writeOnly, Loc.readOnly, Loc.keptWhileBusy, Loc.pushes, Bool.false_eq_true, true_iff,
      false_iff]
    omega
  | node h =>
    have hh : h.toNat < 511 := hl
    simp only [Loc.offset, Loc.writeOnly, Loc.readOnly, Loc.keptWhileBusy, Loc.pushes, Bool.false_eq_true, true_iff,
      false_iff]
    omega
  | weight h hi =>
    have hh : h.toNat < 511 := hl
    have hhi := halfOffset_lt hi
    simp only [Loc.offset, Loc.writeOnly, Loc.readOnly, Loc.keptWhileBusy, Loc.pushes, Bool.false_eq_true, true_iff,
      false_iff]
    omega
  | codeBits b j =>
    have hj : j < 8 := hl
    simp only [Loc.offset, Loc.writeOnly, Loc.readOnly, Loc.keptWhileBusy, Loc.pushes, Bool.false_eq_true, true_iff,
      false_iff]
    omega

/-- An access that names a word has a good shape and a mapped offset. -/
theorem mapped_of_locate {bits : Nat} {off : Offset} {l : Loc} (h : locate bits off = some l) :
    bits = 32 ∧ off.toNat % 4 = 0 ∧ unmappedOffset off.toNat = false := by
  have hn := mt (locate_eq_none_iff bits off).2 (by simp [h])
  simpa using hn

/-- The list of 20 R76 for a read of a word. -/
theorem refusedAct_read {bits : Nat} {off : Offset} {l : Loc} (h : locate bits off = some l) (s : State) :
    refusedAct (.read bits off) s = l.writeOnly := by
  obtain ⟨rfl, h4, hmapped⟩ := mapped_of_locate h
  obtain ⟨-, hoff, hl⟩ := locate_offset h
  rw [Bool.eq_iff_iff, (offset_refusals hl).1, ← hoff]
  simp [refusedAct, h4, hmapped]

/-- The list of 20 R76 for a write to a word. -/
theorem refusedAct_write {bits : Nat} {off : Offset} {l : Loc} (h : locate bits off = some l) (v : Word) (s : State) :
    refusedAct (.write bits off v) s = l.refusesWrite s := by
  obtain ⟨rfl, h4, hmapped⟩ := mapped_of_locate h
  obtain ⟨-, hoff, hl⟩ := locate_offset h
  obtain ⟨-, hread, hbusy, hpush⟩ := offset_refusals hl
  rw [← hoff] at hread hbusy hpush
  rw [Bool.eq_iff_iff]
  simp [refusedAct, Loc.refusesWrite, h4, hmapped, hread, hbusy, hpush, or_assoc]

/-- An access that names no word is on the list of 20 R76. -/
theorem refused_of_locate_none {bits : Nat} {off : Offset} (h : locate bits off = none) (v : Word) (s : State) :
    refusedAct (.read bits off) s = true ∧ refusedAct (.write bits off v) s = true := by
  rcases (locate_eq_none_iff bits off).1 h with h | h | h <;> simp [refusedAct, h]

/-- A read is refused exactly for the words that are written only. -/
theorem readLoc_refuses (l : Loc) (s : State) :
    (l.writeOnly = true → readLoc l s = s.refuse) ∧ (l.writeOnly = false → (readLoc l s).resp.berr = false) := by
  have hif : ∀ ok d, (s.answerIf ok d).resp.berr = false := by
    intro ok d; cases ok <;> rfl
  cases l <;> simp only [Loc.writeOnly, readLoc, reduceCtorEq, true_implies, false_implies, true_and, and_true]
  case status | ctrl | id | fifoStat => rfl
  case size | treeInfo | freq | node | codeLen | weight | codeBits => exact hif _ _
  case outData => unfold State.popOut; split <;> rfl
  case progress hi => unfold State.readProgress; split <;> rfl

theorem pushIn_refuses (t : Token) (s : State) :
    (s.inDepth ≤ s.inq.length → s.pushIn t = s.refuse)
      ∧ (s.inq.length < s.inDepth → s.pushIn t = ({ s with inq := s.inq ++ [t] }).answer 0) := by
  unfold State.pushIn
  exact ⟨fun h => if_neg (by omega), fun h => if_pos h⟩

/-- A write is refused exactly in the cases of `Loc.refusesWrite`. -/
theorem writeLoc_refuses (l : Loc) (v : Word) (s : State) :
    (l.refusesWrite s = true → writeLoc l v s = s.refuse)
      ∧ (l.refusesWrite s = false → (writeLoc l v s).resp.berr = false) := by
  cases l <;> simp only [Loc.refusesWrite, Loc.readOnly, Loc.keptWhileBusy, Loc.pushes, writeLoc, Bool.false_or,
    Bool.or_false, Bool.and_true, Bool.and_false, Bool.false_and, Bool.true_and, reduceCtorEq, true_implies, false_implies,
    and_true, true_and, decide_eq_true_eq, decide_eq_false_iff_not]
  case cmd => cases hb : s.busy <;> simp [writeIllegal, hb]
  case ctrl => unfold writeCtrl; split <;> rfl
  case size hi => cases hb : s.busy <;> simp [writeSize, hb]
  case freq b hi => cases hb : s.busy <;> simp [writeFreq, hb]
  case inData | inEos =>
    refine ⟨(pushIn_refuses _ s).1, fun h => ?_⟩
    rw [(pushIn_refuses _ s).2 (by omega)]; rfl

/-- An act on the list of 20 R76 is refused, and any other transaction is answered with berr = 0. -/
theorem hostAct_refuses (a : HostAct) (s : State) (ha : a ≠ .reset) :
    (refusedAct a s = true → hostAct a s = s.refuse) ∧ (refusedAct a s = false → (hostAct a s).resp.berr = false) := by
  cases a with
  | reset => exact absurd rfl ha
  | read bits off =>
    cases h : locate bits off with
    | none => simp [hostAct, h, (refused_of_locate_none h 0 s).1]
    | some l => simpa only [hostAct, h, refusedAct_read h] using readLoc_refuses l s
  | write bits off v =>
    cases h : locate bits off with
    | none => simp [hostAct, h, (refused_of_locate_none h v s).2]
    | some l => simpa only [hostAct, h, refusedAct_write h] using writeLoc_refuses l v s

/-- A write that issues a command is on the list of 20 R76 exactly while BUSY. -/
theorem refusedAct_command {a : HostAct} {i : Instr} (h : commandOf a = some i) (s : State) :
    refusedAct a s = s.busy := by
  cases a with
  | write bits off v =>
    have hl : locate bits off = some .cmd := by
      by_contra hne
      simp [commandOf, hne] at h
    simp [refusedAct_write hl, Loc.refusesWrite, Loc.readOnly, Loc.keptWhileBusy, Loc.pushes]
  | read bits off => cases h
  | reset => cases h

/-- A turn of the engine leaves the answer of the bus. -/
theorem takeTurn_resp (s : State) : (takeTurn s).resp = s.resp := by
  obtain ⟨-, -, -, -, -, -, -, h⟩ := takeTurn_host s
  exact h

/-- Settles O52: a command is refused while BUSY, and every other transaction as `hostAct` does; a turn leaves the answer. -/
theorem refusalsAreExactlyTheList : Obligations.RefusalsAreExactlyTheList := by
  unfold Obligations.RefusalsAreExactlyTheList
  intro s a rest hhost ha
  have hlist : refusedAct a { s with host := rest } = refusedAct a s := rfl
  cases hc : commandOf a with
  | none =>
    have hstep : step s = .next (takeTurn (hostAct a { s with host := rest })) := by simp [step, hhost, hc]
    obtain ⟨hrefused, haccepted⟩ := hostAct_refuses a { s with host := rest } ha
    rw [hstep, ← hlist]
    exact ⟨fun h => by rw [hrefused h]; rfl, fun h => ⟨_, rfl, by rw [takeTurn_resp]; exact haccepted h⟩⟩
  | some i =>
    have hstep : step s = exec i { s with host := rest } := by simp [step, hhost, hc]
    rw [hstep, refusedAct_command hc, busy_iff, not_busy_iff]
    refine ⟨fun h => exec_busy _ i h, fun h => ⟨_, exec_ready _ i h, ?_⟩⟩
    rw [takeTurn_resp]
    split <;> rfl

/-! ## Windows, SIZE and TREEINFO as read (20 R77, R78, 10 R34, R35) -/

/-- The words whose value is defined in a condition only (20 R78, 10 R34, R35). -/
def Loc.conditional : Loc → Bool
  | .size _ | .treeInfo | .freq _ _ | .node _ | .codeLen _ | .weight _ _ | .codeBits _ _ => true
  | _ => false

/-- The condition in which the value of a word is defined (20 R78, 10 R34, R35). -/
def Loc.defined (s : State) : Loc → Bool
  | .size _ | .freq _ _ => !s.busy
  | .treeInfo => !s.busy && s.tv
  | .node h | .weight h _ => s.slotDefined h
  | .codeLen _ | .codeBits _ _ => !s.busy && s.cv
  | _ => true

/-- What such a word shows in its condition (20 R77, 10 R34, R35). -/
def Loc.shown (s : State) : Loc → Word
  | .size hi => halfOf hi s.size
  | .treeInfo => s.treeInfoWord
  | .freq b hi => halfOf hi (s.freqAt b)
  | .node h => s.nodeAt h
  | .codeLen b => (s.lenAt b).setWidth 32
  | .weight h hi => halfOf hi (Memory.read s.weight h.toNat)
  | .codeBits b j => codeWordAt j (s.bitsAt b)
  | _ => 0

theorem readLoc_conditional {l : Loc} (hc : l.conditional = true) (s : State) :
    readLoc l s = s.answerIf (l.defined s) (l.shown s) := by
  cases l with
  | size | treeInfo | freq | node | codeLen | weight | codeBits => rfl
  | _ => cases hc

/-- A read at the offset of a word in its defined condition shows the word and changes nothing. -/
theorem hostAct_read_defined {l : Loc} (hl : l.inTable) (hc : l.conditional = true) {s : State} (hd : l.defined s = true) :
    hostAct (.read 32 (BitVec.ofNat 16 l.offset)) s = { s with resp := ⟨l.shown s, false⟩ } := by
  rw [hostAct_read_offset hl, readLoc_conditional hc, hd]; rfl

/-- Outside its defined condition a word answers the next free value (93 U3). -/
theorem readLoc_of_not_defined {l : Loc} {s : State} (hd : l.defined s = false) :
    readLoc l s = { s with resp := ⟨Config.freeWord s.draws, false⟩, draws := s.draws + 1 } := by
  have hc : l.conditional = true := by
    cases l with
    | size | treeInfo | freq | node | codeLen | weight | codeBits => rfl
    | _ => cases hd
  rw [readLoc_conditional hc, hd]; rfl

theorem slotDefined_iff (s : State) (h : Handle) :
    s.slotDefined h = true ↔ s.state ≠ .busy ∧ s.tv = true ∧ h.toNat < s.nodeN.toNat := by
  simp [State.slotDefined, not_busy_iff, and_assoc, BitVec.lt_def]

/-- The halves of a 64-bit quantity as numbers. -/
theorem halfOf_eq (v : DWord) :
    halfOf false v = BitVec.ofNat 32 (v.toNat % 2 ^ 32) ∧ halfOf true v = BitVec.ofNat 32 (v.toNat / 2 ^ 32) := by
  constructor <;> apply BitVec.eq_of_toNat_eq <;> simp [halfOf, Nat.shiftRight_eq_div_pow]

/-- ROOT in bits 8:0 and NODE_N in bits 24:16 (10 R35). -/
theorem treeInfoWord_eq (s : State) : s.treeInfoWord = BitVec.ofNat 32 (s.root.toNat + 2 ^ 16 * s.nodeN.toNat) := by
  have hroot := s.root.isLt
  have hn := s.nodeN.isLt
  apply BitVec.eq_of_toNat_eq
  simp only [State.treeInfoWord, BitVec.toNat_append, BitVec.toNat_ofNat]
  rw [← Nat.shiftLeft_add_eq_or_of_lt hroot]
  simp only [BitVec.ofNat_eq_ofNat, BitVec.toNat_zero, Nat.zero_mul, Nat.zero_or, Nat.or_zero, Nat.shiftLeft_eq]
  omega

/-- Settles O55: each offset names its word, which shows the table's entry in its defined condition. A slot below NODE_N lies
inside its table, since NODE_N is at most 511. -/
theorem windowsShowTheTables : Obligations.WindowsShowTheTables := by
  unfold Obligations.WindowsShowTheTables
  intro s hb
  have hfree : s.busy = false := (not_busy_iff s).2 hb
  have hslot : ∀ h : Handle, s.tv = true → h < s.nodeN → s.slotDefined h = true ∧ h.toNat < 511 := by
    intro h htv hn
    have hlt : h.toNat < s.nodeN.toNat := BitVec.lt_def.1 hn
    exact ⟨(slotDefined_iff s h).2 ⟨hb, htv, hlt⟩, by have := s.nodeN.isLt; omega⟩
  refine ⟨fun b hi => ?_, fun h htv hn => ?_, fun h hi htv hn => ?_, fun b hcv => ?_, fun b j hcv hj => ?_, ?_, ?_, fun htv => ?_⟩
  · exact hostAct_read_defined (l := .freq b hi) trivial rfl (by simp [Loc.defined, hfree])
  · obtain ⟨hd, hcap⟩ := hslot h htv hn
    exact hostAct_read_defined (l := .node h) hcap rfl hd
  · obtain ⟨hd, hcap⟩ := hslot h htv hn
    exact hostAct_read_defined (l := .weight h hi) hcap rfl hd
  · exact hostAct_read_defined (l := .codeLen b) trivial rfl (by simp [Loc.defined, hfree, hcv])
  · exact hostAct_read_defined (l := .codeBits b j) hj rfl (by simp [Loc.defined, hfree, hcv])
  · rw [← (halfOf_eq s.size).1]
    exact hostAct_read_defined (l := .size false) trivial rfl (by simp [Loc.defined, hfree])
  · rw [← (halfOf_eq s.size).2]
    exact hostAct_read_defined (l := .size true) trivial rfl (by simp [Loc.defined, hfree])
  · rw [← treeInfoWord_eq]
    exact hostAct_read_defined (l := .treeInfo) trivial rfl (by simp [Loc.defined, hfree, htv])

/-- The offsets whose word is outside its defined condition (20 R78, 10 R34, R35), as numbers. -/
def undefinedAt (s : State) (n : Nat) : Prop :=
  s.state = .busy ∧ (n = 0x0010 ∨ n = 0x0014 ∨ n = 0x0028 ∨ (0x0800 ≤ n ∧ n < 0x1000) ∨ (0x1000 ≤ n ∧ n < 0x17FC)
      ∨ (0x2000 ≤ n ∧ n < 0x2FF8) ∨ (0x1800 ≤ n ∧ n < 0x1C00) ∨ (0x4000 ≤ n ∧ n < 0x6000))
    ∨ s.tv = false ∧ (n = 0x0028 ∨ (0x1000 ≤ n ∧ n < 0x17FC) ∨ (0x2000 ≤ n ∧ n < 0x2FF8))
    ∨ s.cv = false ∧ ((0x1800 ≤ n ∧ n < 0x1C00) ∨ (0x4000 ≤ n ∧ n < 0x6000))
    ∨ (0x1000 ≤ n ∧ n < 0x17FC) ∧ s.nodeN.toNat ≤ (n - 0x1000) / 4
    ∨ (0x2000 ≤ n ∧ n < 0x2FF8) ∧ s.nodeN.toNat ≤ (n - 0x2000) / 8

/-- A word in its defined condition is at none of these offsets. -/
theorem not_undefinedAt_offset {l : Loc} (hl : l.inTable) {s : State} (hd : l.defined s = true) :
    ¬ undefinedAt s l.offset := by
  intro h
  cases l with
  | cmd | status | ctrl | id | inData | inEos | outData | fifoStat => simp [undefinedAt, Loc.offset] at h
  | progress hi => cases hi <;> simp [undefinedAt, Loc.offset, halfOffset] at h
  | size hi =>
    have hb : s.state ≠ .busy := by simpa [Loc.defined, not_busy_iff] using hd
    cases hi <;> simp [undefinedAt, Loc.offset, halfOffset, hb] at h
  | treeInfo =>
    obtain ⟨hb, htv⟩ : s.state ≠ .busy ∧ s.tv = true := by simpa [Loc.defined, not_busy_iff] using hd
    simp [undefinedAt, Loc.offset, hb, htv] at h
  | freq b hi =>
    have hb : s.state ≠ .busy := by simpa [Loc.defined, not_busy_iff] using hd
    have hhi := halfOffset_lt hi
    simp only [undefinedAt, Loc.offset, hb, false_and, false_or] at h
    omega
  | node g =>
    obtain ⟨hb, htv, hn⟩ := (slotDefined_iff s g).1 hd
    simp only [undefinedAt, Loc.offset, hb, htv, false_and, false_or, reduceCtorEq] at h
    omega
  | codeLen b =>
    obtain ⟨hb, hcv⟩ : s.state ≠ .busy ∧ s.cv = true := by simpa [Loc.defined, not_busy_iff] using hd
    simp only [undefinedAt, Loc.offset, hb, hcv, false_and, false_or, reduceCtorEq] at h
    omega
  | weight g hi =>
    obtain ⟨hb, htv, hn⟩ := (slotDefined_iff s g).1 hd
    have hhi := halfOffset_lt hi
    simp only [undefinedAt, Loc.offset, hb, htv, false_and, false_or, reduceCtorEq] at h
    omega
  | codeBits b j =>
    obtain ⟨hb, hcv⟩ : s.state ≠ .busy ∧ s.cv = true := by simpa [Loc.defined, not_busy_iff] using hd
    have hj : j < 8 := hl
    simp only [undefinedAt, Loc.offset, hb, hcv, false_and, false_or, reduceCtorEq] at h
    omega

theorem mapped_of_undefinedAt {s : State} {n : Nat} (h : undefinedAt s n) : unmappedOffset n = false := by
  simp only [undefinedAt, unmappedOffset, decide_eq_false_iff_not] at h ⊢
  omega

/-- Settles O56: the offset is mapped, and the word it names is outside its defined condition. -/
theorem undefinedReadsAreFree : Obligations.UndefinedReadsAreFree := by
  unfold Obligations.UndefinedReadsAreFree
  intro s off h4 h
  have hun : undefinedAt s off.toNat := by
    simpa only [undefinedAt, ← BitVec.toNat_inj, inNodeWindow, inWeightWindow, inCodeWindow, BitVec.reduceToNat] using h
  cases hloc : locate 32 off with
  | none =>
    have hmapped := mapped_of_undefinedAt hun
    simp [locate_eq_none_iff, h4, hmapped] at hloc
  | some l =>
    obtain ⟨-, hoff, hl⟩ := locate_offset hloc
    rw [hoff] at hun
    have hd : l.defined s = false := by
      by_contra hd
      exact not_undefinedAt_offset hl (by simpa using hd) hun
    simpa only [hostAct, hloc] using readLoc_of_not_defined hd

/-! ## Writes to FREQ and SIZE (20 R79, 10 R34) -/

theorem halfOf_withHalf_same (hi : Bool) (v : DWord) (w : Word) : halfOf hi (withHalf hi v w) = w := by
  cases hi
  · exact BitVec.extractLsb'_append_eq_right
  · exact BitVec.extractLsb'_append_eq_left

theorem halfOf_withHalf_other (hi : Bool) (v : DWord) (w : Word) : halfOf (!hi) (withHalf hi v w) = halfOf (!hi) v := by
  cases hi
  · exact BitVec.extractLsb'_append_eq_left
  · exact BitVec.extractLsb'_append_eq_right

/-- Settles O57. -/
theorem hostWritesReplaceOneHalf : Obligations.HostWritesReplaceOneHalf := by
  unfold Obligations.HostWritesReplaceOneHalf
  refine ⟨fun s b hi v hb hwf => ?_, fun s v hb => ?_, fun s b hi v hb => ?_⟩
  · refine ⟨Memory.write s.freq b.toNat (withHalf hi (s.freqAt b) v), ?_, ?_, ?_, fun c hc => ?_⟩
    · refine (hostAct_write_offset (l := .freq b hi) trivial v s).trans ?_
      rw [writeLoc, writeFreq, if_neg (by simpa [busy_iff] using hb)]; rfl
    · rw [Memory.read_write_same 256 _ _ _ hwf, halfOf_withHalf_same]
    · rw [Memory.read_write_same 256 _ _ _ hwf, halfOf_withHalf_other]; rfl
    · exact Memory.read_write_ne _ _ _ _ (by simpa [BitVec.toNat_inj] using hc)
  · have hnb : ¬ s.busy = true := by simpa [busy_iff] using hb
    refine ⟨(hostAct_write_offset (l := .size false) trivial v s).trans ?_,
      (hostAct_write_offset (l := .size true) trivial v s).trans ?_⟩ <;>
      rw [writeLoc, writeSize, if_neg hnb] <;> rfl
  · have hb' := (busy_iff s).2 hb
    refine ⟨(hostAct_write_offset (l := .freq b hi) trivial v s).trans ?_,
      (hostAct_write_offset (l := .size false) trivial v s).trans ?_,
      (hostAct_write_offset (l := .size true) trivial v s).trans ?_⟩
    · rw [writeLoc, writeFreq, if_pos hb']; rfl
    · rw [writeLoc, writeSize, if_pos hb']; rfl
    · rw [writeLoc, writeSize, if_pos hb']; rfl

/-! ## The queue registers (20 R86 to R88) -/

theorem popOut_cons {s : State} {b : Byte} {rest : List Byte} (h : s.outq = b :: rest) :
    s.popOut = { s with outq := rest, resp := ⟨0x80000000 ||| b.setWidth 32, false⟩ } := by
  simp [State.popOut, h, State.answer]

theorem popOut_nil {s : State} (h : s.outq = []) : s.popOut = { s with resp := ⟨0, false⟩ } := by
  simp [State.popOut, h, State.answer]

/-- Settles O58: the two push registers push their token, and OUT_DATA pops. -/
theorem queueRegisters : Obligations.QueueRegisters := by
  unfold Obligations.QueueRegisters
  refine ⟨fun s v h => ⟨?_, ?_⟩, fun s v h => ⟨?_, ?_⟩, fun s b rest h => ?_, fun s h => ?_⟩
  · exact (hostAct_write_offset (l := .inData) trivial v s).trans ((pushIn_refuses _ s).2 h)
  · exact (hostAct_write_offset (l := .inEos) trivial v s).trans ((pushIn_refuses _ s).2 h)
  · exact (hostAct_write_offset (l := .inData) trivial v s).trans ((pushIn_refuses _ s).1 h)
  · exact (hostAct_write_offset (l := .inEos) trivial v s).trans ((pushIn_refuses _ s).1 h)
  · exact (hostAct_read_offset (l := .outData) trivial s).trans (popOut_cons h)
  · exact (hostAct_read_offset (l := .outData) trivial s).trans (popOut_nil h)

end Sys2Proof.Machine

/-! PROOFS. Command words and their issue: which words are commands, what a CMD write of a word does, and the check that comes
before a command's first effect (O1 to O5, O17). -/

namespace Sys2Proof.Machine

/-! ## Command words (30 R100, R103, R110) -/

theorem decodeOpcode_eq_some_iff (op : Byte) (i : Instr) : decodeOpcode op = some i ↔ op = opcodeOf i := by
  constructor
  · intro h
    unfold decodeOpcode at h
    split at h <;> cases h <;> exact BitVec.eq_of_toNat_eq ‹_›
  · rintro rfl
    cases i <;> rfl

/-- `decode` accepts the words with bits 31:8 clear and a listed opcode below them. -/
theorem decode_eq_ok_iff (v : Word) (i : Instr) :
    decode v = .ok i ↔ v.extractLsb' 8 24 = 0 ∧ decodeOpcode (v.extractLsb' 0 8) = some i := by
  unfold decode
  split
  next hres => exact ⟨nofun, fun h => absurd h.1 hres⟩
  next hres =>
    rw [not_not] at hres
    split
    next j hj => simp [hres, hj]
    next hnone => simp [hnone]

/-- A word is an opcode under zeros exactly when its two fields say so (30 R100). -/
theorem eq_setWidth_iff_fields (v : Word) (op : Byte) :
    v = op.setWidth 32 ↔ v.extractLsb' 8 24 = 0 ∧ v.extractLsb' 0 8 = op := by
  simp only [BitVec.toNat_eq, BitVec.toNat_setWidth, BitVec.extractLsb'_toNat, BitVec.ofNat_eq_ofNat,
    BitVec.toNat_ofNat, Nat.shiftRight_eq_div_pow]
  omega

/-- Settles O1: both sides say that bits 31:8 are clear and that bits 7:0 are the opcode. -/
theorem decodeAcceptsExactlyTheCommandWords : Obligations.DecodeAcceptsExactlyTheCommandWords := by
  unfold Obligations.DecodeAcceptsExactlyTheCommandWords
  intro v i
  rw [decode_eq_ok_iff, decodeOpcode_eq_some_iff, encode, eq_setWidth_iff_fields]

/-- Settles O2: four words are those of their commands; of the last two, one has a bit above the opcode, one an opcode of no
command. -/
theorem listedWordsDecode : Obligations.ListedWordsDecode := by
  unfold Obligations.ListedWordsDecode
  have hword := fun i => (decodeAcceptsExactlyTheCommandWords (encode i) i).2 rfl
  exact ⟨hword .flush, hword .gencode, hword .decode, hword .decompress, rfl, rfl⟩

/-! ## The step and the word it finds (20 R83, 30 R101) -/

theorem step_of_no_act {s : State} (h : s.host = []) : step s = .next (takeTurn s) := by
  simp only [step, h]

theorem step_of_command {s : State} {a : HostAct} {rest : List HostAct} {i : Instr} (h : s.host = a :: rest)
    (hc : commandOf a = some i) : step s = exec i { s with host := rest } := by
  simp only [step, h, hc]

theorem step_of_other_act {s : State} {a : HostAct} {rest : List HostAct} (h : s.host = a :: rest)
    (hc : commandOf a = none) : step s = .next (takeTurn (hostAct a { s with host := rest })) := by
  simp only [step, h, hc]

/-- A CMD write issues a command exactly when its word decodes to it. -/
theorem commandOf_cmd_write (v : Word) (i : Instr) : commandOf (.write 32 0x0000 v) = some i ↔ decode v = .ok i := by
  have hcmd : locate 32 0x0000 = some .cmd := rfl
  rw [commandOf, if_pos hcmd]
  cases decode v <;> simp

/-- Settles O3: the three shapes of a step. -/
theorem stepRunsTheDecodedCommand : Obligations.StepRunsTheDecodedCommand := by
  unfold Obligations.StepRunsTheDecodedCommand
  exact ⟨fun s v i rest h hv => step_of_command h ((commandOf_cmd_write v i).2 hv),
    fun s a rest h hc => step_of_other_act h hc, fun s h => step_of_no_act h⟩

/-- Settles O4: `refuse` and `accept`, written out, before the engine's turn. -/
theorem commandIssue : Obligations.CommandIssue := by
  unfold Obligations.CommandIssue
  refine ⟨fun s i hb => exec_busy s i hb, fun s i hb hi => ?_⟩
  rw [exec_ready s i hb, if_neg hi]
  rfl

/-! ## Illegal words (30 R110) -/

/-- A CMD write of the word of no command issues none. -/
theorem commandOf_illegal_write {v : Word} (hv : ∀ i, v ≠ encode i) : commandOf (.write 32 0x0000 v) = none := by
  rw [Option.eq_none_iff_forall_ne_some]
  intro i hi
  exact hv i ((decodeAcceptsExactlyTheCommandWords v i).1 ((commandOf_cmd_write v i).1 hi))

theorem hostAct_cmd_write_ready {s : State} (hb : s.state ≠ .busy) (v : Word) :
    hostAct (.write 32 0x0000 v) s = s.illegal v := by
  refine (hostAct_write_offset (l := .cmd) trivial v s).trans ?_
  rw [writeLoc, writeIllegal, if_neg (by simpa [busy_iff] using hb)]

theorem hostAct_cmd_write_busy {s : State} (hb : s.state = .busy) (v : Word) :
    hostAct (.write 32 0x0000 v) s = s.refuse := by
  refine (hostAct_write_offset (l := .cmd) trivial v s).trans ?_
  rw [writeLoc, writeIllegal, if_pos ((busy_iff s).2 hb)]

/-- Settles O5: the block is left in ERROR, where the engine has no step, so its turn only uses up the schedule. -/
theorem illegalWordIsAnError : Obligations.IllegalWordIsAnError := by
  unfold Obligations.IllegalWordIsAnError
  intro s v rest hhost hv
  rw [step_of_other_act hhost (commandOf_illegal_write hv)]
  refine ⟨fun hb => ?_, fun hb => ?_⟩
  · rw [hostAct_cmd_write_ready (s := { s with host := rest }) hb,
      takeTurn_of_not_enabled (not_enabled_of_not_busy (by simp))]
    rfl
  · rw [hostAct_cmd_write_busy (s := { s with host := rest }) hb]
    rfl

/-! ## The check before a command's first effect (30 R102, R106) -/

/-- `fail` outside the macro commands leaves TV and CV (60 R240). -/
theorem fail_of_not_macro (e : Err) {s : State} (hc : s.cmdCur ≠ 0x40) (hd : s.cmdCur ≠ 0x41) :
    s.fail e = { s with err := e, state := .error, heap := [], stk := [], resume := .idle } := by
  simp only [State.fail, if_neg (not_or.2 ⟨hc, hd⟩)]

theorem startProc_needTv_fails {s : State} (h : s.tv = false) : startProc .needTv s = .failed .badSequence s := by
  simp [startProc, needTvRun, h]

theorem startProc_needCv_fails {s : State} (h : s.cv = false) : startProc .needCv s = .failed .badSequence s := by
  simp [startProc, needCvRun, h]

/-- A command whose program begins with a procedure that fails at once ends in its first engine step. -/
theorem exec_first_fails {s : State} {i : Instr} {p : Proc} {rest : List Proc} {e : Err} (hb : s.state ≠ .busy)
    (ht : s.turns = []) (hp : programOf i = p :: rest)
    (hf : startProc p (s.accept (opcodeOf i) (p :: rest)) = .failed e (s.accept (opcodeOf i) (p :: rest))) :
    exec i s = .next ((s.accept (opcodeOf i) (p :: rest)).fail e) := by
  have hnop : i ≠ .nop := by rintro rfl; cases hp
  have hstep : runEngine 1 (s.accept (opcodeOf i) (p :: rest)) = (s.accept (opcodeOf i) (p :: rest)).fail e := by
    rw [runEngine_succ, runEngine_zero, engineStep_start rfl rfl, runOn_cons_done, hf, runOn_failed]
  have hturn : 1 ≤ (s.accept (opcodeOf i) (p :: rest)).fullTurn := by simp [State.fullTurn]
  rw [exec_ready s i hb, if_neg hnop, hp,
    takeTurn_reaches (s := s.accept _ _) ht hstep (not_enabled_of_not_busy (by simp)) hturn]

/-- The same outside the macro commands, with `accept` and `fail` written out. -/
theorem exec_check_fails {s : State} {i : Instr} {p : Proc} {rest : List Proc} {e : Err} (hb : s.state ≠ .busy)
    (ht : s.turns = []) (hp : programOf i = p :: rest) (hc : opcodeOf i ≠ 0x40) (hd : opcodeOf i ≠ 0x41)
    (hf : startProc p (s.accept (opcodeOf i) (p :: rest)) = .failed e (s.accept (opcodeOf i) (p :: rest))) :
    exec i s = .next { s with
      state := .error, cmdCur := opcodeOf i, phase := .none, err := e, heap := [], stk := [], resume := .idle,
      resp := ⟨0, false⟩, published := 0 } := by
  rw [exec_first_fails hb ht hp hf]
  exact congrArg Host.Outcome.next (fail_of_not_macro e hc hd)

/-- Settles O17: the check is the first procedure of each of the four programs, and none of the four is a macro. -/
theorem preconditionsFailBeforeAnyEffect : Obligations.PreconditionsFailBeforeAnyEffect := by
  unfold Obligations.PreconditionsFailBeforeAnyEffect
  rintro s i hb ht (⟨rfl | rfl | rfl, htv⟩ | ⟨rfl, hcv⟩)
  case inr => exact exec_check_fails hb ht rfl (by decide) (by decide) (startProc_needCv_fails hcv)
  all_goals exact exec_check_fails hb ht rfl (by decide) (by decide) (startProc_needTv_fails htv)

end Sys2Proof.Machine

/-! PROOFS. The control commands: NOP is over inside its write, CLR and FLUSH in their first engine step (O6 to O8). -/

namespace Sys2Proof.Machine

/-- An acknowledged block has no engine step, so its turn only uses up the schedule (40 R131). -/
theorem exec_nop_of_ready {s : State} (hb : s.state ≠ .busy) :
    exec .nop s = .next { s.acknowledge with turns := s.turns.tail } := by
  rw [exec_ready s .nop hb, if_pos rfl, takeTurn_of_not_enabled (not_enabled_of_not_busy (by simp))]
  rfl

/-- Settles O6: the acknowledged block is IDLE, and an IDLE block does not raise `irq`. -/
theorem nopAcknowledges : Obligations.NopAcknowledges := by
  unfold Obligations.NopAcknowledges
  refine fun s => ⟨fun hb => ⟨_, exec_nop_of_ready hb, rfl, ?_⟩, fun hb => exec_busy s .nop hb⟩
  rw [← Bool.not_eq_true, irq_iff]
  simp

/-- A command whose first engine step leads to a hold or a stop ends its turn there. -/
theorem exec_first_step {s t : State} {i : Instr} (hb : s.state ≠ .busy) (ht : s.turns = []) (hi : i ≠ .nop)
    (hrun : runOn (programOf i) (.done (s.accept (opcodeOf i) (programOf i))) = t) (he : t.enabled = false) :
    exec i s = .next t := by
  have hstep : runEngine 1 (s.accept (opcodeOf i) (programOf i)) = t := by
    rw [runEngine_succ, runEngine_zero, engineStep_start rfl rfl, hrun]
  have hturn : 1 ≤ (s.accept (opcodeOf i) (programOf i)).fullTurn := by simp [State.fullTurn]
  rw [exec_ready s i hb, if_neg hi, takeTurn_reaches (s := s.accept _ _) ht hstep he hturn]

/-- A command of one procedure that returns at once completes in that step. -/
theorem exec_returns_at_once {s u : State} {i : Instr} {p : Proc} (hb : s.state ≠ .busy) (ht : s.turns = [])
    (hp : programOf i = [p]) (hu : startProc p (s.accept (opcodeOf i) [p]) = .done u) : exec i s = .next u.complete := by
  have hnop : i ≠ .nop := by rintro rfl; cases hp
  refine exec_first_step hb ht hnop ?_ (not_enabled_of_not_busy (by simp))
  rw [hp, runOn_cons_done, hu, runOn_nil_done]

/-- Settles O7: CLR is `clear()` alone, which stops at no stream primitive. -/
theorem clrClearsTheRunState : Obligations.ClrClearsTheRunState := by
  unfold Obligations.ClrClearsTheRunState
  exact fun s hb ht => exec_returns_at_once (i := .clr) hb ht rfl rfl

/-- Settles O8: FLUSH empties the queues in one stretch, whatever stands in them. -/
theorem flushEmptiesBothQueues : Obligations.FlushEmptiesBothQueues := by
  unfold Obligations.FlushEmptiesBothQueues
  exact fun s hb ht => exec_returns_at_once (i := .flush) hb ht rfl rfl

end Sys2Proof.Machine

/-! PROOFS. The frequency counter: the state COUNT is in between two tokens, and the ways it ends (O9 to O11). -/

namespace Sys2Proof.Machine

/-! ## The histogram of a stream (41 R141) -/

/-- FREQ after COUNT has counted the bytes `xs`. -/
def histogram (xs : List Byte) : Memory 64 :=
  xs.foldl (fun m b => Memory.write m b.toNat (Memory.read m b.toNat + 1)) []

theorem histogram_concat (xs : List Byte) (b : Byte) :
    histogram (xs ++ [b]) = Memory.write (histogram xs) b.toNat (Memory.read (histogram xs) b.toNat + 1) := by
  simp [histogram]

theorem histogram_wf (xs : List Byte) : Memory.wf 256 (histogram xs) = true := by
  induction xs using List.reverseRecOn with
  | nil => rfl
  | append_singleton xs b ih => rw [histogram_concat]; exact freqWrite_wf b _ ih

theorem ofNat_length_concat (xs : List Byte) (b : Byte) :
    BitVec.ofNat 64 (xs ++ [b]).length = BitVec.ofNat 64 xs.length + 1 := by
  simp [BitVec.ofNat_add]

/-- Every entry is the number of times its byte occurs, in 64 bits. -/
theorem read_histogram (xs : List Byte) (c : Byte) :
    Memory.read (histogram xs) c.toNat = BitVec.ofNat 64 (xs.count c) := by
  induction xs using List.reverseRecOn with
  | nil => rfl
  | append_singleton xs b ih =>
    rw [histogram_concat, List.count_append]
    by_cases hc : c = b
    · subst hc
      rw [Memory.read_write_same 256 _ _ _ (histogram_wf xs), ih, List.count_singleton_self, BitVec.ofNat_add]
      rfl
    · have hne : c.toNat ≠ b.toNat := fun h => hc (BitVec.eq_of_toNat_eq h)
      rw [Memory.read_write_ne _ _ _ _ hne, ih, List.count_singleton, if_neg (by simpa using Ne.symm hc), Nat.add_zero]

/-! ## The scan (41 R141) -/

/-- The block `s` in COUNT's `in_next`, with the bytes `xs` counted, `q` left in IN and the procedures `todo` to follow. -/
def State.counting (todo : List Proc) (xs : List Byte) (q : List Token) (s : State) : State :=
  { s.setPhase .count with
    tv := false
    cv := false
    freq := histogram xs
    size := BitVec.ofNat 64 xs.length
    progress := BitVec.ofNat 64 xs.length
    inq := q
    resume := .inNext .count todo }

theorem runOn_countStart (todo : List Proc) (s : State) : runOn todo (countStart s) = s.counting todo [] s.inq :=
  runOn_waitIn todo .count _

theorem countToken_byte {s : State} (b : Byte) (h : s.size ≠ BitVec.allOnes 64) :
    countToken (.byte b) s = .waitIn .count (s.countByte b) := if_neg h

theorem countToken_byte_full {s : State} (b : Byte) (h : s.size = BitVec.allOnes 64) :
    countToken (.byte b) s = .failed .countOverflow s := if_pos h

theorem countToken_eos {s : State} (h : s.size ≠ 0) : countToken .eos s = .done s := if_neg h

theorem countToken_eos_empty {s : State} (h : s.size = 0) : countToken .eos s = .failed .emptyInput s := if_pos h

/-- A byte that still fits is counted, and COUNT stands at its `in_next` again. -/
theorem engineStep_counting_byte {s : State} (hb : s.state = .busy) (todo : List Proc) (xs : List Byte) (b : Byte)
    (q : List Token) (hlen : xs.length + 1 < 2 ^ 64) :
    engineStep (s.counting todo xs (.byte b :: q)) = s.counting todo (xs ++ [b]) q := by
  have hsize : BitVec.ofNat 64 xs.length ≠ BitVec.allOnes 64 := by
    rw [← BitVec.toNat_inj.ne, BitVec.toNat_ofNat, BitVec.toNat_allOnes]
    omega
  rw [engineStep_in (s := s.counting _ _ _) hb rfl rfl, afterIn, countToken_byte b hsize, runOn_waitIn]
  simp only [State.counting, histogram_concat, ofNat_length_concat]
  rfl

/-- The bytes of a stream shorter than 2^64 are all counted, one step each. -/
theorem runEngine_counting {s : State} (hb : s.state = .busy) (todo : List Proc) (ys xs : List Byte) (q : List Token)
    (hlen : xs.length + ys.length < 2 ^ 64) :
    runEngine ys.length (s.counting todo xs (byteTokens ys ++ q)) = s.counting todo (xs ++ ys) q := by
  induction ys generalizing xs with
  | nil => simp [byteTokens]
  | cons b ys ih =>
    rw [List.length_cons] at hlen
    have hstep := engineStep_counting_byte hb todo xs b (byteTokens ys ++ q) (by omega)
    have hrest := ih (xs ++ [b]) (by simp; omega)
    rw [List.append_assoc, List.singleton_append] at hrest
    rw [List.length_cons, runEngine_succ, ← hrest, ← hstep]
    rfl

/-- `count()` over a whole stream: its bytes are counted, and its EOS is taken last. -/
theorem runEngine_countStream {s : State} (hb : s.state = .busy) (todo : List Proc) (xs : List Byte) (rest : List Token)
    (hq : s.inq = byteTokens xs ++ .eos :: rest) (hlen : xs.length < 2 ^ 64) :
    runEngine (xs.length + 1) (runOn todo (countStart s)) = runOn todo (countToken .eos (s.counting todo xs rest)) := by
  have hscan := runEngine_counting hb todo xs [] (.eos :: rest) (by simpa using hlen)
  rw [runOn_countStart, hq, runEngine_add, hscan, runEngine_succ, runEngine_zero,
    engineStep_in (s := s.counting _ _ _) hb rfl rfl]
  rfl

/-- A command whose first stretch leads to `count()` and that ends with the EOS of the stream. `u` is the block when
`count()` starts. -/
theorem exec_countStream {s u t : State} {i : Instr} {todo : List Proc} {xs : List Byte} {rest : List Token}
    (hb : s.state ≠ .busy) (ht : s.turns = []) (hi : i ≠ .nop)
    (hrun : runOn (programOf i) (.done (s.accept (opcodeOf i) (programOf i))) = runOn todo (countStart u))
    (hu : u.state = .busy) (hinq : u.inq = s.inq) (hq : s.inq = byteTokens xs ++ .eos :: rest) (hlen : xs.length < 2 ^ 64)
    (hend : runOn todo (countToken .eos (u.counting todo xs rest)) = t) (he : t.enabled = false) :
    exec i s = .next t := by
  have hscan : runEngine (xs.length + 1 + 1) (s.accept (opcodeOf i) (programOf i)) = t := by
    rw [runEngine_succ, engineStep_start rfl rfl, hrun, runEngine_countStream hu todo xs rest (hinq.trans hq) hlen, hend]
  have hturn : xs.length + 1 + 1 ≤ (s.accept (opcodeOf i) (programOf i)).fullTurn := by
    simp only [State.fullTurn, State.accept_fields, hq, byteTokens, List.length_append, List.length_map, List.length_cons]
    omega
  rw [exec_ready s i hb, if_neg hi, takeTurn_reaches (s := s.accept _ _) ht hscan he hturn]

/-! ## The ends of the stream (41 R141, R143, R144) -/

/-- Settles O9: a length from 1 to 2^64 - 1 is not 0 as SIZE, so the EOS completes the command. -/
theorem countMakesTheHistogram : Obligations.CountMakesTheHistogram := by
  unfold Obligations.CountMakesTheHistogram
  intro s xs rest hb ht hq hne hlen
  have hpos : 0 < xs.length := List.length_pos_iff.2 hne
  have hsize : BitVec.ofNat 64 xs.length ≠ 0 := by
    rw [← BitVec.toNat_inj.ne, BitVec.toNat_ofNat, Nat.mod_eq_of_lt hlen]
    exact hpos.ne'
  refine ⟨histogram xs, ?_, read_histogram xs⟩
  refine exec_countStream (u := s.accept 0x10 [.count]) (todo := []) hb ht (by decide) (runOn_cons_done ..) rfl rfl hq hlen
    ?_ (not_enabled_of_not_busy (by simp))
  rw [countToken_eos (s := State.counting ..) hsize, runOn_nil_done]
  rfl

/-- An EOS before the first byte ends the command, whatever was to follow `count()`. -/
theorem runOn_counting_eos_empty (todo : List Proc) (rest : List Token) (s : State) :
    runOn todo (countToken .eos (s.counting todo [] rest)) = (s.counting todo [] rest).fail .emptyInput := by
  rw [countToken_eos_empty (s := State.counting ..) rfl, runOn_failed]

/-- Settles O10: no byte is counted, so SIZE is 0 when the EOS comes; COMPRESS has cleared the run state before. -/
theorem emptyInputIsRejected : Obligations.EmptyInputIsRejected := by
  unfold Obligations.EmptyInputIsRejected
  intro s rest hb ht hq
  constructor
  · refine exec_countStream (xs := []) (u := s.accept 0x10 [.count]) (todo := []) hb ht (by decide) (runOn_cons_done ..) rfl
      rfl hq (by decide) ?_ (not_enabled_of_not_busy (by simp))
    rw [runOn_counting_eos_empty]
    rfl
  · refine exec_countStream (xs := []) (u := (s.accept 0x40 (programOf .compress)).clear)
      (todo := [.build, .gencode, .sertree, .wrsize, .encode, .release]) hb ht (by decide) rfl rfl rfl hq (by decide) ?_
      (not_enabled_of_not_busy (by simp))
    rw [runOn_counting_eos_empty]
    rfl

/-- Settles O11: the token is taken, and the check comes before the byte is counted. -/
theorem countOverflowKeepsTheCounts : Obligations.CountOverflowKeepsTheCounts := by
  unfold Obligations.CountOverflowKeepsTheCounts
  intro s b rest todo hb hr hq hsize
  have hstep : engineStep s = State.fail .countOverflow { s with inq := rest } := by
    rw [engineStep_in hb hr hq, afterIn, countToken_byte_full (s := { s with inq := rest }) b hsize, runOn_failed]
  rw [hstep]
  simp

end Sys2Proof.Machine

/-! PROOFS. The priority queue: sifting repairs the heap property at the one place where it may fail (O12). -/

namespace Sys2Proof.Machine

/-! ## Keys (42 R151) -/

section
variable (wt : Memory 64) {q : List Handle} {i j : Nat}

theorem heapKey_heapSwap_ne {k : Nat} (hki : k ≠ i) (hkj : k ≠ j) :
    heapKey wt (heapSwap q i j) k = heapKey wt q k := by
  simp [heapKey, heapAt, heapSwap, hki.symm, hkj.symm]

theorem heapKey_heapSwap_right (hi : i < q.length) (hj : j < q.length) :
    heapKey wt (heapSwap q i j) j = heapKey wt q i := by
  simp [heapKey, heapAt, heapSwap, hi, hj]

theorem heapKey_heapSwap_left (hi : i < q.length) (hj : j < q.length) :
    heapKey wt (heapSwap q i j) i = heapKey wt q j := by
  by_cases hij : i = j
  · subst hij
    exact heapKey_heapSwap_right wt hi hi
  · simp [heapKey, heapAt, heapSwap, hi, hj, Ne.symm hij]

end

/-- The key of every entry is the weight of the handle there. -/
theorem exists_heapKey_of_mem (wt : Memory 64) {q : List Handle} {g : Handle} (hg : g ∈ q) :
    ∃ i < q.length, heapKey wt q i = Memory.read wt g.toNat := by
  obtain ⟨i, hi, rfl⟩ := List.mem_iff_getElem.1 hg
  exact ⟨i, hi, by rw [heapKey, heapAt_eq_getElem hi]⟩

/-- The heap property looks at the weights of the entries only. -/
theorem heapOrdered_of_read_eq {wt wt' : Memory 64} {q : List Handle}
    (h : ∀ g ∈ q, Memory.read wt' g.toNat = Memory.read wt g.toNat) (hq : heapOrdered wt q) : heapOrdered wt' q := by
  have hkey : ∀ i, i < q.length → heapKey wt' q i = heapKey wt q i := by
    intro i hi
    rw [heapKey, heapKey, heapAt_eq_getElem hi]
    exact h _ (List.getElem_mem hi)
  intro i h1 hi
  rw [hkey i hi, hkey _ (by omega)]
  exact hq i h1 hi

/-- The top of a heap is a lightest entry (42 R150). -/
theorem heapOrdered.top_le {wt : Memory 64} {q : List Handle} (h : heapOrdered wt q) :
    ∀ g ∈ q, Memory.read wt (heapAt q 0).toNat ≤ Memory.read wt g.toNat := by
  have hall : ∀ i, i < q.length → heapKey wt q 0 ≤ heapKey wt q i := by
    intro i
    induction i using Nat.strong_induction_on with
    | _ i ih =>
      intro hi
      rcases Nat.eq_zero_or_pos i with rfl | hpos
      · exact BitVec.le_refl _
      · exact BitVec.le_trans (ih ((i - 1) / 2) (by omega) (by omega)) (h i hpos hi)
  intro g hg
  obtain ⟨i, hi, hkey⟩ := exists_heapKey_of_mem wt hg
  rw [← hkey]
  exact hall i hi

/-! ## Sifting up (42 R153) -/

/-- The heap property but for entry `i`, which may be lighter than its parent; its children are no lighter than that parent. -/
def heapButAbove (wt : Memory 64) (q : List Handle) (i : Nat) : Prop :=
  (∀ j, 1 ≤ j → j < q.length → j ≠ i → heapKey wt q ((j - 1) / 2) ≤ heapKey wt q j)
    ∧ ∀ j, 1 ≤ i → 1 ≤ j → j < q.length → (j - 1) / 2 = i → heapKey wt q ((i - 1) / 2) ≤ heapKey wt q j

/-- Swapping entry `i` with its heavier parent moves the fault there. -/
theorem heapButAbove.swap {wt : Memory 64} {q : List Handle} {i : Nat} (h : heapButAbove wt q i) (hi : i < q.length)
    (hpos : i ≠ 0) (hlt : heapKey wt q i < heapKey wt q ((i - 1) / 2)) :
    heapButAbove wt (heapSwap q i ((i - 1) / 2)) ((i - 1) / 2) := by
  obtain ⟨hrest, hbelow⟩ := h
  have hp : (i - 1) / 2 < q.length := by omega
  have hleft := heapKey_heapSwap_left wt hi hp
  have hright := heapKey_heapSwap_right wt hi hp
  have hne : ∀ k, k ≠ i → k ≠ (i - 1) / 2 → _ := fun k => heapKey_heapSwap_ne wt (q := q) (k := k)
  unfold heapButAbove
  rw [heapSwap_length]
  constructor
  · intro j h1 hj hjp
    by_cases hpar : (j - 1) / 2 = (i - 1) / 2
    · rw [hpar, hright]
      by_cases hji : j = i
      · rw [hji, hleft]; exact BitVec.le_of_lt hlt
      · rw [hne j hji hjp]
        exact BitVec.le_trans (BitVec.le_of_lt hlt) (hpar ▸ hrest j h1 hj hji)
    · have hji : j ≠ i := fun h => hpar (h ▸ rfl)
      rw [hne j hji hjp]
      by_cases hpi : (j - 1) / 2 = i
      · rw [hpi, hleft]; exact hbelow j (Nat.pos_of_ne_zero hpos) h1 hj hpi
      · rw [hne _ hpi hpar]; exact hrest j h1 hj hji
  · intro j hp1 h1 hj hpar
    have hup := hrest ((i - 1) / 2) hp1 hp (by omega)
    rw [hne _ (by omega) (by omega : ((i - 1) / 2 - 1) / 2 ≠ (i - 1) / 2)]
    by_cases hji : j = i
    · rw [hji, hleft]; exact hup
    · rw [hne j hji (by omega)]
      exact BitVec.le_trans hup (hpar ▸ hrest j h1 hj hji)

/-- An entry no lighter than its parent ends the sifting. -/
theorem heapButAbove.ordered {wt : Memory 64} {q : List Handle} {i : Nat} (h : heapButAbove wt q i)
    (hi : i ≠ 0 → heapKey wt q ((i - 1) / 2) ≤ heapKey wt q i) : heapOrdered wt q := by
  intro j h1 hj
  by_cases hji : j = i
  · subst hji; exact hi (by omega)
  · exact h.1 j h1 hj hji

theorem siftUp_ordered (wt : Memory 64) {n : Nat} {q : List Handle} {i : Nat} (hi : i < q.length) (hn : i ≤ n)
    (h : heapButAbove wt q i) : heapOrdered wt (siftUp wt n q i) := by
  induction n generalizing q i with
  | zero => exact h.ordered (by omega)
  | succ n ih =>
    unfold siftUp
    split_ifs with h0 hlt
    · exact h.ordered (absurd h0)
    · exact ih (by rw [heapSwap_length]; omega) (by omega) (h.swap hi h0 hlt)
    · exact h.ordered (fun _ => BitVec.not_lt.1 hlt)

/-- PQ.insert keeps the heap property (42 R153). -/
theorem heapInsert_ordered {wt : Memory 64} {q : List Handle} (h : Handle) (hq : heapOrdered wt q) :
    heapOrdered wt (heapInsert wt q h) := by
  have hkey : ∀ j, j < q.length → heapKey wt (q ++ [h]) j = heapKey wt q j := by
    intro j hj
    simp [heapKey, heapAt, List.getElem?_append_left hj]
  refine siftUp_ordered wt (by simp) (Nat.le_refl _) ⟨fun j h1 hj hne => ?_, fun j h0 h1 hj hpar => ?_⟩
  · have hj' : j < q.length := by simp at hj; omega
    rw [hkey j hj', hkey _ (by omega)]
    exact hq j h1 hj'
  · simp at hj; omega

/-! ## Sifting down (42 R154) -/

/-- The heap property but for the children of entry `i`, which may be lighter than it; they are no lighter than its parent. -/
def heapButBelow (wt : Memory 64) (q : List Handle) (i : Nat) : Prop :=
  (∀ j, 1 ≤ j → j < q.length → (j - 1) / 2 ≠ i → heapKey wt q ((j - 1) / 2) ≤ heapKey wt q j)
    ∧ ∀ j, 1 ≤ i → 1 ≤ j → j < q.length → (j - 1) / 2 = i → heapKey wt q ((i - 1) / 2) ≤ heapKey wt q j

/-- The lighter child is one of the two, and no child is lighter. -/
theorem lighterChild_spec (wt : Memory 64) {q : List Handle} {i : Nat} :
    1 ≤ lighterChild wt q i ∧ (lighterChild wt q i - 1) / 2 = i
      ∧ ∀ j, 1 ≤ j → j < q.length → (j - 1) / 2 = i → heapKey wt q (lighterChild wt q i) ≤ heapKey wt q j := by
  have htwo : ∀ j, 1 ≤ j → (j - 1) / 2 = i → j = 2 * i + 1 ∨ j = 2 * i + 2 := by omega
  unfold lighterChild
  split
  · rename_i hc
    refine ⟨by omega, by omega, fun j h1 hj hpar => ?_⟩
    rcases htwo j h1 hpar with rfl | rfl
    · exact BitVec.le_of_lt hc.2
    · exact BitVec.le_refl _
  · rename_i hc
    refine ⟨by omega, by omega, fun j h1 hj hpar => ?_⟩
    rcases htwo j h1 hpar with rfl | rfl
    · exact BitVec.le_refl _
    · exact BitVec.not_lt.1 (fun hlt => hc ⟨hj, hlt⟩)

/-- Swapping entry `i` with a lightest child that is lighter moves the fault there. -/
theorem heapButBelow.swap {wt : Memory 64} {q : List Handle} {i c : Nat} (h : heapButBelow wt q i) (hi : i < q.length)
    (hc : c < q.length) (hpos : 1 ≤ c) (hpc : (c - 1) / 2 = i) (hlt : heapKey wt q c < heapKey wt q i)
    (hmin : ∀ j, 1 ≤ j → j < q.length → (j - 1) / 2 = i → heapKey wt q c ≤ heapKey wt q j) :
    heapButBelow wt (heapSwap q i c) c := by
  obtain ⟨hrest, hbelow⟩ := h
  have hleft := heapKey_heapSwap_left wt hi hc
  have hright := heapKey_heapSwap_right wt hi hc
  have hne : ∀ k, k ≠ i → k ≠ c → _ := fun k => heapKey_heapSwap_ne wt (q := q) (k := k)
  unfold heapButBelow
  rw [heapSwap_length]
  constructor
  · intro j h1 hj hpar
    by_cases hpi : (j - 1) / 2 = i
    · rw [hpi, hleft]
      by_cases hjc : j = c
      · rw [hjc, hright]; exact BitVec.le_of_lt hlt
      · rw [hne j (by omega) hjc]; exact hmin j h1 hj hpi
    · have hjc : j ≠ c := fun h => hpi (h ▸ hpc)
      rw [hne _ hpi hpar]
      by_cases hji : j = i
      · rw [hji, hleft]; exact hbelow c (by omega) hpos hc hpc
      · rw [hne j hji hjc]; exact hrest j h1 hj hpi
  · intro j _ h1 hj hpar
    rw [hpc, hleft, hne j (by omega) (by omega)]
    exact hpar ▸ hrest j h1 hj (by omega)

/-- An entry no heavier than its children ends the sifting. -/
theorem heapButBelow.ordered {wt : Memory 64} {q : List Handle} {i : Nat} (h : heapButBelow wt q i)
    (hi : ∀ j, 1 ≤ j → j < q.length → (j - 1) / 2 = i → heapKey wt q i ≤ heapKey wt q j) : heapOrdered wt q := by
  intro j h1 hj
  by_cases hpar : (j - 1) / 2 = i
  · rw [hpar]; exact hi j h1 hj hpar
  · exact h.1 j h1 hj hpar

theorem siftDown_ordered (wt : Memory 64) {n : Nat} {q : List Handle} {i : Nat} (hn : q.length ≤ n + i)
    (h : heapButBelow wt q i) : heapOrdered wt (siftDown wt n q i) := by
  induction n generalizing q i with
  | zero => exact h.ordered (by omega)
  | succ n ih =>
    obtain ⟨hpos, hpc, hmin⟩ := lighterChild_spec wt (q := q) (i := i)
    unfold siftDown
    split_ifs with hlen hlt
    · exact h.ordered (by omega)
    · have hc := lighterChild_lt wt (q := q) (i := i) (by omega)
      exact ih (by rw [heapSwap_length]; omega) (h.swap (by omega) hc hpos hpc hlt hmin)
    · exact h.ordered (fun j h1 hj hpar => BitVec.le_trans (BitVec.not_lt.1 hlt) (hmin j h1 hj hpar))

/-- PQ.extract_min keeps the heap property (42 R154). -/
theorem heapRest_ordered {wt : Memory 64} {q : List Handle} (hq : heapOrdered wt q) : heapOrdered wt (heapRest wt q) := by
  unfold heapRest
  split
  · intro i _ hi; simp at hi
  · have hkey : ∀ last j, 1 ≤ j → j < q.length - 1 →
        heapKey wt ((q.take (q.length - 1)).set 0 last) j = heapKey wt q j := by
      intro last j h1 hj
      simp [heapKey, heapAt, List.getElem?_set_ne (by omega : 0 ≠ j), List.getElem?_take_of_lt hj]
    refine siftDown_ordered wt (by simp) ⟨fun j h1 hj hpar => ?_, fun j h0 => absurd h0 (by decide)⟩
    simp only [List.length_set, List.length_take] at hj
    rw [hkey _ j h1 (by omega), hkey _ _ (by omega) (by omega)]
    exact hq j h1 (by omega)

/-- Settles O12: both operations permute the entries, and sifting repairs the one place they disturb. -/
theorem priorityQueueContract : Obligations.PriorityQueueContract := by
  unfold Obligations.PriorityQueueContract
  exact ⟨fun wt q h hq => ⟨heapInsert_perm wt q h, heapInsert_ordered h hq⟩,
    fun wt q hq hne => ⟨heapRest_perm wt hne, hq.top_le, heapRest_ordered hq⟩⟩

end Sys2Proof.Machine

/-! PROOFS. BUILD over few symbols: the leaf loop sees the symbols with FREQ > 0 only, none or one of them (O13, O14). -/

namespace Sys2Proof.Machine

/-! ## The leaf loop over the symbols with FREQ > 0 (42 R157) -/

theorem addLeaf_of_absent {s : State} {b : Byte} (h : s.freqAt b = 0) : s.addLeaf b = s := if_pos h

theorem addLeaf_of_present {s : State} {b : Byte} (h : s.freqAt b ≠ 0) :
    s.addLeaf b = (s.newNode (leafWord b) (s.freqAt b)).pqInsert s.nodeN := if_neg h

theorem freqAt_addLeaf (s : State) (b c : Byte) : (s.addLeaf b).freqAt c = s.freqAt c := by
  unfold State.addLeaf
  split <;> rfl

/-- Symbols with FREQ = 0 are passed over. -/
theorem foldl_addLeaf_filter (l : List Byte) (s : State) :
    l.foldl State.addLeaf s = (l.filter (fun b => s.freqAt b ≠ 0)).foldl State.addLeaf s := by
  induction l generalizing s with
  | nil => rfl
  | cons b l ih =>
    by_cases hb : s.freqAt b = 0
    · rw [List.filter_cons_of_neg (by simpa using hb), List.foldl_cons, addLeaf_of_absent hb, ih s]
    · rw [List.filter_cons_of_pos (by simpa using hb), List.foldl_cons, List.foldl_cons, ih (s.addLeaf b)]
      simp only [freqAt_addLeaf]

theorem buildRun_eq (s : State) : buildRun s = mergeAll (s.present.foldl State.addLeaf s.buildInit) :=
  congrArg mergeAll (foldl_addLeaf_filter allSymbols s.buildInit)

theorem mem_present {s : State} {b : Byte} : b ∈ s.present ↔ s.freqAt b ≠ 0 := by
  simp [State.present, mem_allSymbols]

theorem allSymbols_nodup : allSymbols.Nodup := by
  refine List.Nodup.map_on (fun x hx y hy h => ?_) List.nodup_range
  rw [List.mem_range] at hx hy
  rwa [← BitVec.toNat_inj, BitVec.toNat_ofNat, BitVec.toNat_ofNat, Nat.mod_eq_of_lt hx, Nat.mod_eq_of_lt hy] at h

theorem present_nodup (s : State) : s.present.Nodup := allSymbols_nodup.filter _

/-! ## How the command ends -/

/-- A command whose program begins with a procedure that fails before any primitive ends in its first engine step. -/
theorem exec_fails_at_once {s u : State} {i : Instr} {p : Proc} {rest : List Proc} {e : Err} (hb : s.state ≠ .busy)
    (ht : s.turns = []) (hp : programOf i = p :: rest)
    (hf : startProc p (s.accept (opcodeOf i) (p :: rest)) = .failed e u) : exec i s = .next (u.fail e) := by
  have hnop : i ≠ .nop := by rintro rfl; cases hp
  refine exec_first_step hb ht hnop ?_ (not_enabled_of_not_busy (by simp))
  rw [hp, runOn_cons_done, hf, runOn_failed]

/-! ## No symbol, one symbol (42 R159, R161) -/

/-- Settles O13: the leaf loop adds nothing. -/
theorem buildNeedsASymbol : Obligations.BuildNeedsASymbol := by
  unfold Obligations.BuildNeedsASymbol
  intro s hb ht hall
  have hpresent : s.present = [] := List.eq_nil_iff_forall_not_mem.2 (fun b hb => mem_present.1 hb (hall b))
  have hrun : buildRun (s.accept 0x11 [.build]) = .failed .noSymbols (s.accept 0x11 [.build]).buildInit := by
    rw [buildRun_eq, show (s.accept 0x11 [.build]).present = [] from hpresent]
    rfl
  rw [exec_fails_at_once (i := .build) hb ht rfl hrun]
  rfl

/-- BUILD of a sole symbol: its leaf is the root (42 R161). -/
theorem buildRun_singleton {s : State} {b : Byte} (h : s.present = [b]) :
    buildRun s = .done (State.takeRoot ((s.buildInit.newNode (leafWord b) (s.freqAt b)).pqInsert 0)) := by
  have hb : s.freqAt b ≠ 0 := mem_present.1 (by rw [h]; exact List.mem_singleton_self b)
  rw [buildRun_eq, h, List.foldl_cons, List.foldl_nil, addLeaf_of_present (s := s.buildInit) hb]
  rfl

/-- Settles O14: the leaf loop adds one leaf, and there is nothing to merge. -/
theorem buildOfOneSymbol : Obligations.BuildOfOneSymbol := by
  unfold Obligations.BuildOfOneSymbol
  intro s b hb ht hfreq hother
  have hmem : ∀ c, c ∈ s.present ↔ c = b := fun c =>
    mem_present.trans ⟨fun hc => by_contra fun hne => hc (hother c hne), fun hc => hc ▸ hfreq⟩
  have hpresent : s.present = [b] :=
    List.perm_singleton.1 ((List.perm_ext_iff_of_nodup (present_nodup s) (List.nodup_singleton b)).2 (by simpa using hmem))
  rw [exec_returns_at_once (i := .build) hb ht rfl (buildRun_singleton (s := s.accept 0x11 [.build]) hpresent)]
  rfl

end Sys2Proof.Machine

/-! PROOFS. The forest BUILD merges (42 R164) and the arena that holds it (42 R160): what a new slot over the trees of the forest
adds to both. -/

namespace Sys2Proof.Machine

/-! ## Forests (42 R164) -/

/-- The element of `init(FREQ)` for the symbol `b`. -/
def State.leafEntry (s : State) (b : Byte) : Tree × Nat := (.leaf b, (s.freqAt b).toNat)

theorem forest_eq (s : State) : s.forest = s.present.map s.leafEntry := rfl

/-- The sum of the weights of a forest. -/
def Forest.sum (f : Forest) : Nat := (f.map Prod.snd).sum

theorem Forest.sum_perm {f g : Forest} (h : f.Perm g) : f.sum = g.sum := (h.map _).sum_eq

theorem Huffman.perm {f g : Forest} {t : Tree} {w : Nat} (h : Huffman f t w) (hp : f.Perm g) : Huffman g t w := by
  cases h with
  | one => exact hp.singleton_eq ▸ .one t w
  | merge _ rest a b _ wa wb _ hf ha hb h =>
    exact .merge g rest a b t wa wb w (hp.symm.trans hf) (fun x hx => ha x (hp.mem_iff.2 hx)) hb h

/-- The merges keep the leaves. -/
theorem Huffman.leaves {f : Forest} {t : Tree} {w : Nat} (h : Huffman f t w) :
    t.leaves.Perm (f.flatMap (fun x => x.1.leaves)) := by
  induction h with
  | one => simp
  | merge f rest a b t wa wb w hf _ _ _ ih =>
    refine ih.trans (List.Perm.trans ?_ (hf.flatMap_right _).symm)
    simp [Tree.leaves]

/-- Merges lead from `f` to `g`: what they make of `g` they make of `f`, and the weights have one sum. -/
def Forest.leadsTo (f g : Forest) : Prop := (∀ t w, Huffman g t w → Huffman f t w) ∧ g.sum = f.sum

theorem Forest.leadsTo.refl (f : Forest) : f.leadsTo f := ⟨fun _ _ h => h, rfl⟩

theorem Forest.leadsTo.perm {f g g' : Forest} (h : f.leadsTo g) (hp : g.Perm g') : f.leadsTo g' :=
  ⟨fun t w ht => h.1 t w (ht.perm hp.symm), (sum_perm hp.symm).trans h.2⟩

/-- One merge of a lightest tree and a lightest of the others. -/
theorem Forest.leadsTo.merge {f rest : Forest} {a b : Tree} {wa wb : Nat} (h : f.leadsTo ((a, wa) :: (b, wb) :: rest))
    (ha : ∀ x ∈ (a, wa) :: (b, wb) :: rest, wa ≤ x.2) (hb : ∀ x ∈ rest, wb ≤ x.2) :
    f.leadsTo ((.node a b, wa + wb) :: rest) := by
  refine ⟨fun t w ht => h.1 t w (.merge _ rest a b t wa wb w (.refl _) ha hb ht), ?_⟩
  rw [← h.2]
  simp [Forest.sum, Nat.add_assoc]

theorem forest_sum (s : State) : s.forest.sum = s.freqSum := by
  simp only [Forest.sum, State.forest, State.present, State.freqSum, List.map_map]
  induction allSymbols with
  | nil => rfl
  | cons b l ih =>
    by_cases hb : s.freqAt b = 0
    · rw [List.filter_cons_of_neg (by simpa using hb), ih, List.map_cons, List.sum_cons, hb]
      exact (Nat.zero_add _).symm
    · rw [List.filter_cons_of_pos (by simpa using hb), List.map_cons, List.sum_cons, ih, List.map_cons, List.sum_cons]
      rfl

theorem forest_leaves (s : State) : s.forest.flatMap (fun x => x.1.leaves) = s.present := by
  simp [State.forest, List.flatMap_map, Tree.leaves]

/-- The forest at the handles `q`: the tree at each, with the weight of its slot. -/
def forestAt (weight : Memory 64) (T : Handle → Tree) (q : List Handle) : Forest :=
  q.map (fun h => (T h, (Memory.read weight h.toNat).toNat))

theorem forestAt_perm {weight : Memory 64} {T : Handle → Tree} {q q' : List Handle} (h : q.Perm q') :
    (forestAt weight T q).Perm (forestAt weight T q') := h.map _

/-! ## The arena while BUILD fills it (42 R160) -/

/-- A tree stands below NODE_N. -/
theorem holdsTree_lt {node : Memory 32} {n : BitVec 9} {t : Tree} {h : Handle} (ht : holdsTree node n t h) : h < n := by
  cases t <;> exact ht.1

theorem read_write_slot_of_lt {w : Nat} {m : Memory w} {n g : Handle} (hg : g < n) (v : BitVec w) :
    Memory.read (Memory.write m n.toNat v) g.toNat = Memory.read m g.toNat :=
  Memory.read_write_ne _ _ _ _ (BitVec.lt_def.1 hg).ne

/-- The weights under a tree below NODE_N stay when slot NODE_N is written. -/
theorem weighs_grow {node : Memory 32} {weight : Memory 64} {n : BitVec 9} {f : Byte → Nat} {t : Tree} {h : Handle}
    (ht : holdsTree node n t h) (hw : weighs node weight f t h) (w : Word) (v : DWord) :
    weighs (Memory.write node n.toNat w) (Memory.write weight n.toNat v) f t h := by
  induction t generalizing h with
  | leaf b =>
    rw [weighs, read_write_slot_of_lt ht.1]
    exact hw
  | node l r ihl ihr =>
    obtain ⟨hlt, -, hl, hr⟩ := ht
    obtain ⟨hsum, hwl, hwr⟩ := hw
    rw [weighs, read_write_slot_of_lt hlt, read_write_slot_of_lt hlt]
    exact ⟨hsum, ihl hl hwl, ihr hr hwr⟩

/-- The root of a weighed tree has the sum over all leaves. -/
theorem weighs_root {node : Memory 32} {weight : Memory 64} {f : Byte → Nat} {t : Tree} {h : Handle}
    (hw : weighs node weight f t h) : (Memory.read weight h.toNat).toNat = (t.leaves.map f).sum := by
  cases t with
  | leaf b => simpa [weighs, Tree.leaves] using hw
  | node l r => exact hw.1

/-- What BUILD puts in slot `h` (42 R160 items 1 and 2): the leaves come first, in ascending order of the symbols, and every
internal node comes after its children. -/
def State.slotBuilt (s : State) (node : Memory 32) (weight : Memory 64) (h : Handle) : Prop :=
  (h.toNat < s.present.length → Memory.read node h.toNat = leafWord (s.present.getD h.toNat 0)
      ∧ Memory.read weight h.toNat = s.freqAt (s.present.getD h.toNat 0))
    ∧ (s.present.length ≤ h.toNat → wordIsLeaf (Memory.read node h.toNat) = false
      ∧ wordLeft (Memory.read node h.toNat) < h ∧ wordRight (Memory.read node h.toNat) < h)

/-- The arena with `n` slots filled from the histogram of `s`, the trees `T` at the handles `q` covering it; the slot
filled last is one of `q`. -/
structure State.Orchard (s : State) (node : Memory 32) (weight : Memory 64) (n : BitVec 9) (T : Handle → Tree)
    (q : List Handle) : Prop where
  node_wf : Memory.wf 511 node = true
  weight_wf : Memory.wf 511 weight = true
  trees : standing node n T q
  covered : ∀ g, g < n → g ∈ q.flatMap (fun h => visited node (T h) h)
  weighed : ∀ h ∈ q, weighs node weight (fun b => (s.freqAt b).toNat) (T h) h
  slots : ∀ h, h < n → s.slotBuilt node weight h
  newest : n.toNat = 0 ∨ n - 1 ∈ q

section
variable {s : State} {node : Memory 32} {weight : Memory 64} {n : BitVec 9} {T : Handle → Tree} {q absorbed : List Handle}

theorem State.Orchard.perm {q' : List Handle} (h : s.Orchard node weight n T q) (hp : q.Perm q') :
    s.Orchard node weight n T q' where
  node_wf := h.node_wf
  weight_wf := h.weight_wf
  trees := standing_perm hp h.trees
  covered g hg := (hp.flatMap_right _).mem_iff.1 (h.covered g hg)
  weighed g hg := h.weighed g (hp.mem_iff.2 hg)
  slots := h.slots
  newest := h.newest.imp_right hp.mem_iff.1

theorem State.Orchard.lt (h : s.Orchard node weight n T q) {g : Handle} (hg : g ∈ q) : g < n :=
  holdsTree_lt (h.trees.1 g hg)

/-- The tree planted in slot NODE_N is a new one. -/
theorem update_of_lt (T : Handle → Tree) (t : Tree) {g : Handle} (hg : g < n) : Function.update T n t g = T g :=
  Function.update_of_ne (BitVec.ne_of_lt hg) _ _

/-- The forest gains the tree planted in slot NODE_N. -/
theorem forestAt_plant (hw : Memory.wf 511 weight = true) (hlt : ∀ g ∈ q, g < n) (t : Tree) (v : DWord) :
    forestAt (Memory.write weight n.toNat v) (Function.update T n t) (n :: q) = (t, v.toNat) :: forestAt weight T q := by
  rw [forestAt, List.map_cons, Function.update_self, Memory.read_write_same _ _ _ _ hw]
  congr 1
  exact List.map_congr_left (fun g hg => by rw [update_of_lt T t (hlt g hg), read_write_slot_of_lt (hlt g hg)])

/-- A slot below NODE_N stays as it was built when slot NODE_N is written. -/
theorem slotBuilt_grow {h : Handle} (hs : s.slotBuilt node weight h) (hlt : h < n) (w : Word) (v : DWord) :
    s.slotBuilt (Memory.write node n.toNat w) (Memory.write weight n.toNat v) h := by
  rw [State.slotBuilt, read_write_slot_of_lt hlt, read_write_slot_of_lt hlt]
  exact hs

theorem toNat_succ_of_lt_511 (hn : n.toNat < 511) : (n + 1).toNat = n.toNat + 1 :=
  BitVec.toNat_add_of_lt (by simp; omega)

theorem lt_or_eq_of_lt_succ {g : Handle} (hn : n.toNat < 511) (hg : g < n + 1) : g < n ∨ g = n := by
  have hg' := BitVec.lt_def.1 hg
  rw [toNat_succ_of_lt_511 hn] at hg'
  rcases Nat.lt_or_eq_of_le (Nat.lt_succ_iff.1 hg') with hlt | heq
  · exact .inl (BitVec.lt_def.2 hlt)
  · exact .inr (BitVec.eq_of_toNat_eq heq)

/-- Slot NODE_N becomes the root of a tree over the trees at `absorbed`. -/
theorem State.Orchard.plant {t : Tree} {w : Word} {v : DWord} (h : s.Orchard node weight n T (absorbed ++ q))
    (hn : n.toNat < 511) (ht : holdsTree (Memory.write node n.toNat w) (n + 1) t n)
    (hv : visited (Memory.write node n.toNat w) t n = n :: absorbed.flatMap (fun h => visited node (T h) h))
    (hw : weighs (Memory.write node n.toNat w) (Memory.write weight n.toNat v) (fun b => (s.freqAt b).toNat) t n)
    (hs : s.slotBuilt (Memory.write node n.toNat w) (Memory.write weight n.toNat v) n) :
    s.Orchard (Memory.write node n.toNat w) (Memory.write weight n.toNat v) (n + 1) (Function.update T n t) (n :: q) where
  node_wf := Memory.wf_write _ _ _ _ hn h.node_wf
  weight_wf := Memory.wf_write _ _ _ _ hn h.weight_wf
  trees := standing_plant h.trees hn ht hv
  covered := by
    have hq : q.flatMap (fun g => visited (Memory.write node n.toNat w) (Function.update T n t g) g)
        = q.flatMap (fun g => visited node (T g) g) := by
      refine List.flatMap_congr (fun g hg => ?_)
      have hmem := List.mem_append_right absorbed hg
      rw [update_of_lt T t (h.lt hmem), (holdsTree_grow (h.trees.1 g hmem) hn w).2]
    intro g hg
    rw [List.flatMap_cons, Function.update_self, hv, hq, List.cons_append, ← List.flatMap_append, List.mem_cons]
    exact (lt_or_eq_of_lt_succ hn hg).symm.imp_right (h.covered g)
  weighed g hg := by
    obtain rfl | hg := List.mem_cons.1 hg
    · rw [Function.update_self]; exact hw
    · have hmem := List.mem_append_right absorbed hg
      rw [update_of_lt T t (h.lt hmem)]
      exact weighs_grow (h.trees.1 g hmem) (h.weighed g hmem) w v
  slots g hg := by
    obtain hlt | rfl := lt_or_eq_of_lt_succ hn hg
    · exact slotBuilt_grow (h.slots g hlt) hlt w v
    · exact hs
  newest := .inr (by simp)

/-- The next leaf is planted (42 R157). -/
theorem State.Orchard.plantLeaf {b : Byte} (h : s.Orchard node weight n T q) (hn : n.toNat < s.present.length)
    (hn' : n.toNat < 511) (hb : s.present.getD n.toNat 0 = b) :
    s.Orchard (Memory.write node n.toNat (leafWord b)) (Memory.write weight n.toNat (s.freqAt b)) (n + 1)
      (Function.update T n (.leaf b)) (n :: q) := by
  have hnode := Memory.read_write_same 511 node n.toNat (leafWord b) h.node_wf
  have hweight := Memory.read_write_same 511 weight n.toNat (s.freqAt b) h.weight_wf
  refine h.plant (absorbed := []) hn' ⟨lt_succ_of_lt_511 hn', ?_, ?_⟩ rfl ?_ ⟨fun _ => ?_, fun hk => absurd hk (by omega)⟩
  · rw [hnode, wordIsLeaf_leafWord]
  · rw [hnode, wordSym_leafWord]
  · rw [weighs, hweight]
  · rw [hnode, hweight, hb]
    exact ⟨rfl, rfl⟩

/-- A node over the trees at `a` and `b` is planted (42 R157). -/
theorem State.Orchard.plantNode {a b : Handle} {v : DWord} (h : s.Orchard node weight n T ([a, b] ++ q))
    (hn : s.present.length ≤ n.toNat) (hn' : n.toNat < 511)
    (hv : v.toNat = (Memory.read weight a.toNat).toNat + (Memory.read weight b.toNat).toNat) :
    s.Orchard (Memory.write node n.toNat (innerWord a b)) (Memory.write weight n.toNat v) (n + 1)
      (Function.update T n (.node (T a) (T b))) (n :: q) := by
  have ha : a ∈ [a, b] ++ q := by simp
  have hb : b ∈ [a, b] ++ q := by simp
  have hnode := Memory.read_write_same 511 node n.toNat (innerWord a b) h.node_wf
  have hweight := Memory.read_write_same 511 weight n.toNat v h.weight_wf
  obtain ⟨hta, hva⟩ := holdsTree_grow (h.trees.1 a ha) hn' (innerWord a b)
  obtain ⟨htb, hvb⟩ := holdsTree_grow (h.trees.1 b hb) hn' (innerWord a b)
  refine h.plant hn' ?_ ?_ ?_ ⟨fun hk => absurd hk (by omega), fun _ => ?_⟩
  · rw [holdsTree, hnode, wordIsLeaf_innerWord, wordLeft_innerWord, wordRight_innerWord]
    exact ⟨lt_succ_of_lt_511 hn', rfl, hta, htb⟩
  · rw [visited, hnode, wordLeft_innerWord, wordRight_innerWord, hva, hvb]
    simp
  · rw [weighs, hnode, hweight, wordLeft_innerWord, wordRight_innerWord, List.map_append, List.sum_append,
      ← weighs_root (h.weighed a ha), ← weighs_root (h.weighed b hb)]
    exact ⟨hv, weighs_grow (h.trees.1 a ha) (h.weighed a ha) _ _, weighs_grow (h.trees.1 b hb) (h.weighed b hb) _ _⟩
  · rw [hnode, wordIsLeaf_innerWord, wordLeft_innerWord, wordRight_innerWord]
    exact ⟨rfl, h.lt ha, h.lt hb⟩

end

/-! ## A state inside BUILD (42 R157) -/

/-- Since the start of BUILD in `s` only the arena and the heap have changed. -/
abbrev State.BuildFrame (s u : State) : Prop :=
  u = { s.buildInit with nodeN := u.nodeN, node := u.node, weight := u.weight, heap := u.heap }

/-- BUILD, started in `s`, has filled the arena up to NODE_N, and the heap holds the trees `T`. -/
structure State.Builds (s u : State) (T : Handle → Tree) : Prop where
  frame : s.BuildFrame u
  arena : s.Orchard u.node u.weight u.nodeN T u.heap
  ordered : heapOrdered u.weight u.heap

/-- The forest in the heap. -/
def State.heapForest (u : State) (T : Handle → Tree) : Forest := forestAt u.weight T u.heap

/-- The next slot is filled and inserted. -/
theorem builds_plant {s u : State} {T : Handle → Tree} {t : Tree} {w : Word} {v : DWord}
    (hframe : s.BuildFrame u) (hord : heapOrdered u.weight u.heap) (hlt : ∀ g ∈ u.heap, g < u.nodeN)
    (harena : s.Orchard (Memory.write u.node u.nodeN.toNat w) (Memory.write u.weight u.nodeN.toNat v) (u.nodeN + 1)
      (Function.update T u.nodeN t) (u.nodeN :: u.heap)) :
    s.Builds ((u.newNode w v).pqInsert u.nodeN) (Function.update T u.nodeN t) where
  frame := by rw [hframe]; rfl
  arena := harena.perm (heapInsert_perm _ _ _).symm
  ordered := heapInsert_ordered _ (heapOrdered_of_read_eq (fun g hg => read_write_slot_of_lt (hlt g hg) v) hord)

/-- The forest in the heap gains the tree inserted. -/
theorem heapForest_plant {u : State} {T : Handle → Tree} (hw : Memory.wf 511 u.weight = true)
    (hlt : ∀ g ∈ u.heap, g < u.nodeN) (t : Tree) (w : Word) (v : DWord) :
    (((u.newNode w v).pqInsert u.nodeN).heapForest (Function.update T u.nodeN t)).Perm ((t, v.toNat) :: u.heapForest T) :=
  (forestAt_perm (heapInsert_perm _ _ _)).trans (.of_eq (forestAt_plant hw hlt t v))

end Sys2Proof.Machine

/-! PROOFS. BUILD runs the merges of 42 R164: after the leaf loop the heap holds the forest of the histogram, and every merge takes
the two lightest trees off it (O15, O16). -/

namespace Sys2Proof.Machine

/-! ## The two lightest -/

/-- The two handles a merge extracts are lightest, each of what is there (42 R150, R157). -/
theorem two_lightest {u : State} (h : heapOrdered u.weight u.heap) (hlen : 1 < u.heap.length) :
    u.heap.Perm ([u.pqTop, u.pqDrop.pqTop] ++ u.pqDrop.pqDrop.heap)
      ∧ (∀ g ∈ u.heap, Memory.read u.weight u.pqTop.toNat ≤ Memory.read u.weight g.toNat)
      ∧ (∀ g ∈ u.pqDrop.pqDrop.heap, Memory.read u.weight u.pqDrop.pqTop.toNat ≤ Memory.read u.weight g.toNat)
      ∧ heapOrdered u.weight u.pqDrop.pqDrop.heap := by
  have hord : heapOrdered u.weight u.pqDrop.heap := heapRest_ordered h
  have hdrop : u.pqDrop.heap.length = u.heap.length - 1 := heapRest_length _ _
  have hp := heapRest_perm u.weight (List.ne_nil_of_length_pos (by omega : 0 < u.pqDrop.heap.length))
  exact ⟨(heapRest_perm u.weight (List.ne_nil_of_length_pos (by omega))).trans (.cons _ hp), h.top_le,
    fun g hg => hord.top_le g (hp.mem_iff.2 (List.mem_cons_of_mem _ hg)), heapRest_ordered hord⟩

/-! ## The leaf loop -/

theorem present_length_le (s : State) : s.present.length ≤ 256 :=
  (List.length_filter_le _ _).trans (by simp [allSymbols])

/-- The start of BUILD. -/
theorem builds_init {s : State} (hnode : Memory.wf 511 s.node = true) (hweight : Memory.wf 511 s.weight = true)
    (T : Handle → Tree) : s.Builds s.buildInit T where
  frame := rfl
  arena := {
    node_wf := hnode
    weight_wf := hweight
    trees := by simp [standing]
    covered := fun g hg => absurd (BitVec.lt_def.1 hg) (by simp)
    weighed := by simp
    slots := fun g hg => absurd (BitVec.lt_def.1 hg) (by simp)
    newest := .inl rfl }
  ordered := fun i _ hi => absurd hi (by simp)

/-- BUILD has planted leaves from the first slot on, and those of the symbols `l` are still to come. -/
structure State.Planted (s u : State) (T : Handle → Tree) (l : List Byte) : Prop extends s.Builds u T where
  count : u.nodeN.toNat + l.length = s.present.length
  rest : s.present.drop u.nodeN.toNat = l
  forest : (u.heapForest T ++ l.map s.leafEntry).Perm s.forest

/-- One symbol of the leaf loop. -/
theorem State.Planted.addLeaf {s u : State} {T : Handle → Tree} {b : Byte} {l : List Byte} (h : s.Planted u T (b :: l)) :
    s.Planted (u.addLeaf b) (Function.update T u.nodeN (.leaf b)) l := by
  obtain ⟨hb, hcount, hrest, hforest⟩ := h
  rw [List.length_cons] at hcount
  have hlt : u.nodeN.toNat < s.present.length := by omega
  have hn : u.nodeN.toNat < 511 := by have := present_length_le s; omega
  rw [List.drop_eq_getElem_cons hlt] at hrest
  obtain ⟨hget, hdrop⟩ := List.cons.inj hrest
  have hfreq : u.freqAt b = s.freqAt b := by rw [hb.frame]; rfl
  have hpresent : s.freqAt b ≠ 0 := mem_present.1 (hget ▸ List.getElem_mem hlt)
  rw [addLeaf_of_present (hfreq ▸ hpresent), hfreq]
  refine ⟨builds_plant hb.frame hb.ordered (fun g => hb.arena.lt) ?_, ?_, ?_, ?_⟩
  · exact hb.arena.plantLeaf hlt hn (by rw [List.getD_eq_getElem _ _ hlt, hget])
  · change (u.nodeN + 1).toNat + l.length = s.present.length
    rw [toNat_succ_of_lt_511 hn]
    omega
  · rw [← hdrop, ← toNat_succ_of_lt_511 hn]
    rfl
  · refine List.Perm.trans (.append_right _ (heapForest_plant hb.arena.weight_wf (fun g => hb.arena.lt) _ _ _)) ?_
    exact List.perm_middle.symm.trans hforest

/-- The leaf loop. -/
theorem State.Planted.addLeaves {s u : State} {T : Handle → Tree} {l : List Byte} (h : s.Planted u T l) :
    ∃ T', s.Planted (l.foldl State.addLeaf u) T' [] := by
  induction l generalizing u T with
  | nil => exact ⟨T, h⟩
  | cons b l ih => exact ih h.addLeaf

/-! ## The merges -/

/-- All leaves are planted, each merge has taken one entry off the heap, and the merges so far are those of 42 R164. -/
structure State.Merging (s u : State) (T : Handle → Tree) : Prop extends s.Builds u T where
  leaves : s.present.length ≤ u.nodeN.toNat
  count : u.nodeN.toNat + u.heap.length = 2 * s.present.length
  forest : s.forest.leadsTo (u.heapForest T)

theorem State.Planted.merging {s u : State} {T : Handle → Tree} (h : s.Planted u T []) : s.Merging u T where
  toBuilds := h.toBuilds
  leaves := h.count.ge
  count := by
    have hleaves := h.count
    have hlen := h.forest.length_eq
    simp only [State.heapForest, forestAt, State.forest, List.map_nil, List.append_nil, List.length_map,
      List.length_nil] at hlen hleaves
    omega
  forest := (Forest.leadsTo.refl _).perm (by simpa using h.forest.symm)

/-- The leaf loop, from the start of BUILD. -/
theorem addLeaves_merging {s : State} (hnode : Memory.wf 511 s.node = true) (hweight : Memory.wf 511 s.weight = true) :
    ∃ T, s.Merging (s.present.foldl State.addLeaf s.buildInit) T := by
  have hinit : s.Planted s.buildInit (fun _ => .leaf 0) s.present :=
    { toBuilds := builds_init hnode hweight _, count := by simp, rest := rfl, forest := .of_eq rfl }
  obtain ⟨T, hT⟩ := hinit.addLeaves
  exact ⟨T, hT.merging⟩

theorem mergePair_of_lt {a b : Handle} {s : State} (h : s.weightSum a b < 2 ^ 64) :
    mergePair a b s = .done ((s.newNode (innerWord a b) (BitVec.ofNat 64 (s.weightSum a b))).pqInsert s.nodeN) :=
  if_neg (Nat.not_le.2 h)

theorem mergePair_of_le {a b : Handle} {s : State} (h : 2 ^ 64 ≤ s.weightSum a b) :
    mergePair a b s = .failed .countOverflow { s with heap := [] } := if_pos h

/-- BUILD has met a weight that does not fit, so the histogram's sum does not. -/
structure State.Overflowed (s u : State) : Prop where
  frame : s.BuildFrame u
  sum : 2 ^ 64 ≤ s.freqSum

/-- `a` and `b` are extracted for a merge: each is lightest of what was there, and the heap holds the others. -/
structure State.Extracted (s u : State) (T : Handle → Tree) (a b : Handle) : Prop where
  frame : s.BuildFrame u
  arena : s.Orchard u.node u.weight u.nodeN T ([a, b] ++ u.heap)
  ordered : heapOrdered u.weight u.heap
  leaves : s.present.length ≤ u.nodeN.toNat
  count : u.nodeN.toNat + (u.heap.length + 2) = 2 * s.present.length
  forest : s.forest.leadsTo (forestAt u.weight T ([a, b] ++ u.heap))
  first : ∀ g ∈ [a, b] ++ u.heap, Memory.read u.weight a.toNat ≤ Memory.read u.weight g.toNat
  second : ∀ g ∈ u.heap, Memory.read u.weight b.toNat ≤ Memory.read u.weight g.toNat

theorem State.Merging.extracted {s u : State} {T : Handle → Tree} (h : s.Merging u T) (hlen : 1 < u.heap.length) :
    s.Extracted u.pqDrop.pqDrop T u.pqTop u.pqDrop.pqTop := by
  obtain ⟨⟨hframe, harena, hord⟩, hleaves, hcount, hforest⟩ := h
  obtain ⟨hp, hfirst, hsecond, hord'⟩ := two_lightest hord hlen
  refine ⟨by rw [hframe]; rfl, harena.perm hp, hord', hleaves, ?_, hforest.perm (forestAt_perm hp),
    fun g hg => hfirst g (hp.mem_iff.2 hg), hsecond⟩
  rw [hp.length_eq, List.length_append] at hcount
  exact (congrArg (u.nodeN.toNat + ·) (Nat.add_comm _ 2)).trans hcount

/-- A bound on the weights of slots is one on the weights of the forest at them. -/
theorem le_of_mem_forestAt {weight : Memory 64} {T : Handle → Tree} {q : List Handle} {m : DWord}
    (h : ∀ g ∈ q, m ≤ Memory.read weight g.toNat) : ∀ x ∈ forestAt weight T q, m.toNat ≤ x.2 := by
  intro x hx
  obtain ⟨g, hg, rfl⟩ := List.mem_map.1 hx
  exact BitVec.le_def.1 (h g hg)

/-- The rest of a merge: two trees become one, or the sum overflows (42 R157, R158). -/
theorem State.Extracted.mergePair_cases {s u : State} {T : Handle → Tree} {a b : Handle} (h : s.Extracted u T a b) :
    (∃ v, mergePair a b u = .failed .countOverflow v ∧ s.Overflowed v)
      ∨ ∃ v T', mergePair a b u = .done v ∧ s.Merging v T' ∧ v.heap.length = u.heap.length + 1 := by
  obtain ⟨hframe, harena, hord, hleaves, hcount, hforest, hfirst, hsecond⟩ := h
  have hn : u.nodeN.toNat < 511 := by have := present_length_le s; omega
  have hlt : ∀ g ∈ u.heap, g < u.nodeN := fun g hg => harena.lt (List.mem_append_right _ hg)
  rcases Nat.lt_or_ge (u.weightSum a b) (2 ^ 64) with hfit | hbig
  · have hv : (BitVec.ofNat 64 (u.weightSum a b)).toNat = u.weightSum a b := Nat.mod_eq_of_lt hfit
    refine .inr ⟨_, _, mergePair_of_lt hfit,
      ⟨builds_plant hframe hord hlt (harena.plantNode hleaves hn hv), ?_, ?_, ?_⟩, heapInsert_length _ _ _⟩
    · simp only [State.pqInsert_fields, State.newNode_fields, toNat_succ_of_lt_511 hn]
      omega
    · simp only [State.pqInsert_fields, State.newNode_fields, toNat_succ_of_lt_511 hn, heapInsert_length]
      omega
    · refine Forest.leadsTo.perm ?_ (heapForest_plant harena.weight_wf hlt _ _ _).symm
      rw [hv]
      exact hforest.merge (le_of_mem_forestAt hfirst) (le_of_mem_forestAt hsecond)
  · refine .inl ⟨_, mergePair_of_le hbig, ⟨by rw [hframe], ?_⟩⟩
    calc 2 ^ 64 ≤ u.weightSum a b := hbig
      _ ≤ (forestAt u.weight T ([a, b] ++ u.heap)).sum := by
        simp only [State.weightSum, forestAt, Forest.sum, List.cons_append, List.map_cons, List.sum_cons]
        omega
      _ = s.freqSum := hforest.2.trans (forest_sum s)

/-- The slot filled last is in the heap. -/
theorem State.Merging.heap_pos {s u : State} {T : Handle → Tree} (h : s.Merging u T) (hne : s.present ≠ []) :
    0 < u.heap.length := by
  have hleaves := h.leaves
  have hpos := List.length_pos_iff.2 hne
  rcases h.arena.newest with h0 | hmem
  · omega
  · exact List.length_pos_of_mem hmem

/-- The merge loop: it overflows, or one tree is left. -/
theorem State.Merging.mergeLoop_cases (n : Nat) {s u : State} {T : Handle → Tree} (h : s.Merging u T)
    (hne : s.present ≠ []) (hlen : u.heap.length ≤ n + 1) :
    (∃ v, mergeLoop n u = .failed .countOverflow v ∧ s.Overflowed v)
      ∨ ∃ v T', mergeLoop n u = .done v ∧ s.Merging v T' ∧ v.heap.length = 1 := by
  have hpos := h.heap_pos hne
  induction n generalizing u T with
  | zero => exact .inr ⟨u, T, rfl, h, by omega⟩
  | succ n ih =>
    unfold mergeLoop
    split
    · rename_i hgt
      rcases (h.extracted hgt).mergePair_cases with ⟨v, hv, hover⟩ | ⟨v, T', hv, hm, hvlen⟩ <;>
        rw [State.mergeOnce, hv]
      · exact .inl ⟨v, rfl, hover⟩
      · simp only [State.pqDrop_fields, heapRest_length] at hvlen
        exact ih hm (by omega) (hm.heap_pos hne)
    · exact .inr ⟨u, T, rfl, h, by omega⟩

/-- Everything BUILD of a histogram with a nonzero entry can do (42 R157): some weight overflows, or the trees are merged
into the one whose root is taken. -/
theorem buildRun_merges {s : State} (hnode : Memory.wf 511 s.node = true) (hweight : Memory.wf 511 s.weight = true)
    (hne : s.present ≠ []) :
    (∃ u, buildRun s = .failed .countOverflow u ∧ s.Overflowed u)
      ∨ ∃ u T, buildRun s = .done u.takeRoot ∧ s.Merging u T ∧ u.heap.length = 1 := by
  obtain ⟨T, hT⟩ := addLeaves_merging hnode hweight
  rw [buildRun_eq]
  generalize s.present.foldl State.addLeaf s.buildInit = u at hT ⊢
  unfold mergeAll
  rw [if_neg (hT.heap_pos hne).ne']
  rcases hT.mergeLoop_cases u.heap.length hne (by omega) with ⟨v, hv, hover⟩ | ⟨v, T', hv, hm, hlen⟩ <;> rw [hv]
  · exact .inl ⟨v, rfl, hover⟩
  · exact .inr ⟨v, T', rfl, hm, hlen⟩

/-! ## The tree left at the end (42 R160) -/

theorem heap_eq_of_length_one {u : State} (hlen : u.heap.length = 1) : u.heap = [u.pqTop] := by
  obtain ⟨g, hg⟩ := List.length_eq_one_iff.1 hlen
  simp [State.pqTop, heapAt, hg]

theorem heapForest_of_length_one {u : State} (hlen : u.heap.length = 1) (T : Handle → Tree) :
    u.heapForest T = [(T u.pqTop, (Memory.read u.weight u.pqTop.toNat).toNat)] := by
  rw [State.heapForest, heap_eq_of_length_one hlen]
  rfl

/-- The end of BUILD: the only entry of the heap is the root, and TV is set. -/
theorem takeRoot_of_length_one {u : State} (hlen : u.heap.length = 1) :
    u.takeRoot = { u with heap := [], root := u.pqTop, tv := true } := by
  have hrest : heapRest u.weight u.heap = [] := if_pos (by omega)
  rw [State.takeRoot, State.pqDrop, hrest]

section
variable {s u : State} {T : Handle → Tree} (h : s.Merging u T) (hlen : u.heap.length = 1)
include h hlen

/-- The root weighs as much as the histogram. -/
theorem State.Merging.weight_root : (Memory.read u.weight u.pqTop.toNat).toNat = s.freqSum := by
  rw [← forest_sum, ← h.forest.2, heapForest_of_length_one hlen T]
  simp [Forest.sum]

/-- The last tree is one that 42 R164 makes of the histogram. -/
theorem State.Merging.huffman : Huffman s.forest (T u.pqTop) s.freqSum := by
  refine h.forest.1 _ _ ?_
  rw [heapForest_of_length_one hlen T, h.weight_root hlen]
  exact .one _ _

/-- The root is in the slot filled last. -/
theorem State.Merging.toNat_root : u.pqTop.toNat = 2 * s.present.length - 2 := by
  have hcount := h.count
  have hsub : u.pqTop = u.nodeN - 1 := by
    rcases h.arena.newest with h0 | hmem
    · omega
    · rw [heap_eq_of_length_one hlen] at hmem
      exact (List.mem_singleton.1 hmem).symm
  have hone : (1 : Handle).toNat = 1 := rfl
  rw [hsub, BitVec.toNat_sub_of_le (BitVec.le_def.2 (by omega)), hone]
  omega

theorem State.Merging.rootTree : u.takeRoot.rootTree (T u.pqTop) := by
  obtain ⟨hholds, hnodup⟩ := h.arena.trees
  rw [heap_eq_of_length_one hlen] at hholds hnodup
  exact ⟨hholds _ (List.mem_singleton_self _), by simpa using hnodup⟩

end

/-! ## BUILD of a whole histogram (O15, O16) -/

/-- A histogram that sums to something has a symbol. -/
theorem present_ne_nil_of_freqSum {s : State} (h : 0 < s.freqSum) : s.present ≠ [] := by
  intro hnil
  rw [← forest_sum, forest_eq, hnil] at h
  exact absurd h (Nat.lt_irrefl 0)

/-- Settles O16: were no weight too large, the root would weigh the whole sum, in 64 bits. -/
theorem buildOverflows : Obligations.BuildOverflows := by
  unfold Obligations.BuildOverflows
  intro s hb ht hsum hnode hweight
  have hne : s.present ≠ [] := present_ne_nil_of_freqSum (by omega)
  rcases buildRun_merges (s := s.accept 0x11 [.build]) hnode hweight hne with ⟨u, hu, hframe, -⟩ | ⟨u, T, -, hm, hlen⟩
  · refine ⟨u.fail .countOverflow, exec_fails_at_once (i := .build) hb ht rfl hu, ?_⟩
    rw [hframe]
    rfl
  · have hroot : (Memory.read u.weight u.pqTop.toNat).toNat = s.freqSum := hm.weight_root hlen
    exact absurd hsum (by rw [← hroot]; omega)

/-- Settles O15: the slots are those of the arena BUILD filled, and the tree is the last one of the merges. -/
theorem buildMakesAPrefixTree : Obligations.BuildMakesAPrefixTree := by
  unfold Obligations.BuildMakesAPrefixTree
  rintro s hb ht hsum ⟨b, hfreq⟩ hnode hweight
  have hne : s.present ≠ [] := List.ne_nil_of_mem (mem_present.2 hfreq)
  rcases buildRun_merges (s := s.accept 0x11 [.build]) hnode hweight hne with ⟨u, -, -, hover⟩ | ⟨u, T, hu, hm, hlen⟩
  · exact absurd hover (Nat.not_le.2 hsum)
  have hcount : u.nodeN.toNat + u.heap.length = 2 * s.present.length := hm.count
  have h256 := present_length_le s
  have hheap := heap_eq_of_length_one hlen
  have hleaves := (hm.huffman hlen).leaves
  rw [forest_leaves] at hleaves
  refine ⟨u.takeRoot.complete, T u.pqTop, exec_returns_at_once (i := .build) hb ht rfl hu, ?_, ?_, hm.toNat_root hlen,
    fun i hi => ?_, fun g hg hlt => (hm.arena.slots g hlt).2 hg, hm.rootTree hlen, fun g hg => ?_, hm.huffman hlen, hleaves,
    hm.arena.weighed _ (hheap ▸ List.mem_singleton_self _)⟩
  · rw [takeRoot_of_length_one hlen, hm.frame]
    rfl
  · change u.nodeN.toNat = _
    omega
  · have hslot : (BitVec.ofNat 9 i).toNat = i := by simp; omega
    have hbuilt := hm.arena.slots (BitVec.ofNat 9 i) (by rw [BitVec.lt_def]; omega)
    rw [State.slotBuilt, hslot] at hbuilt
    exact hbuilt.1 hi
  · have hcovered := hm.arena.covered g hg
    rwa [hheap, List.flatMap_singleton] at hcovered

end Sys2Proof.Machine

/-! PROOFS. The code generator as a command: the check of TV and the walk are one engine step, and GENCODE leaves everything
but its own fields (O18, O19). -/

namespace Sys2Proof.Machine

/-! ## How the command ends -/

theorem startProc_needTv_holds {s : State} (h : s.tv = true) : startProc .needTv s = .done s := if_pos h

/-- GENCODE over a valid tree completes when its procedure returns (30 R106). -/
theorem exec_gencode_completes {s u : State} (hb : s.state ≠ .busy) (ht : s.turns = []) (htv : s.tv = true)
    (hu : gencodeRun (s.accept 0x12 [.needTv, .gencode]) = .done u) : exec .gencode s = .next u.complete := by
  refine exec_first_step hb ht (by decide) ?_ (not_enabled_of_not_busy (by simp))
  have hcheck : startProc .needTv (s.accept 0x12 [.needTv, .gencode]) = .done (s.accept 0x12 [.needTv, .gencode]) :=
    startProc_needTv_holds htv
  rw [programOf, opcodeOf, runOn_cons_done, hcheck, runOn_cons_done, startProc, hu, runOn_nil_done]

/-! ## The single leaf (43 R173) -/

theorem gencodeRun_of_isLeaf {s : State} (h : s.isLeaf s.root = true) :
    gencodeRun s = .done (s.gencodeInit.setCode (s.symOf s.root) 1 0).codesValid := if_pos h

/-- Settles O18: the table is empty when the sole symbol's entry is written, and writing the word 0 lists none. -/
theorem gencodeOfOneLeaf : Obligations.GencodeOfOneLeaf := by
  unfold Obligations.GencodeOfOneLeaf
  intro s hb ht htv hleaf
  rw [exec_gencode_completes hb ht htv (gencodeRun_of_isLeaf (s := s.accept 0x12 _) hleaf)]
  rfl

/-! ## What GENCODE leaves (43 R171) -/

/-- `u` differs from `s` only in what GENCODE writes. -/
abbrev State.GencodeFrame (s u : State) : Prop :=
  u = { s with
    phase := .gencode, cv := u.cv, codeLen := u.codeLen, codeBits := u.codeBits, stk := u.stk, published := 0 }

/-- The start of `gencode()` done twice is done once, so what holds after it and is kept by the rest holds at the end. -/
theorem gencodeRun_frame (s : State) : s.GencodeFrame (gencodeRun s).final :=
  gencodeRun_keeps s.GencodeFrame (fun _ h => congrArg State.gencodeInit h)
    (fun _ b d p h => congrArg (State.setCode b d p) h) (fun _ l h => congrArg (fun v => { v with stk := l }) h)
    (fun _ h => congrArg State.codesValid h) s.gencodeInit rfl

/-- Over an inner root the procedure is the walk, and then CV is set. -/
theorem gencodeRun_of_not_isLeaf {s : State} (h : s.isLeaf s.root = false) :
    gencodeRun s = (codeWalk 511 { s.gencodeInit with stk := [{ h := s.root }] }).andThen (fun v => .done v.codesValid) :=
  if_neg (Bool.eq_false_iff.1 h)

/-- GENCODE that ends has set CV; only the walk uses the stack, and it leaves it empty. -/
theorem gencodeRun_cv_stk {s u : State} (hu : gencodeRun s = .done u) :
    u.cv = true ∧ u.stk = if s.isLeaf s.root then s.stk else [] := by
  cases hleaf : s.isLeaf s.root with
  | true =>
    rw [gencodeRun_of_isLeaf hleaf] at hu
    cases hu
    exact ⟨rfl, rfl⟩
  | false =>
    rw [gencodeRun_of_not_isLeaf hleaf] at hu
    rcases codeWalk_stk 511 { s.gencodeInit with stk := [{ h := s.root }] } with ⟨v, hv, hstk⟩ | ⟨v, hv⟩ <;> rw [hv] at hu
    · cases hu
      exact ⟨rfl, hstk⟩
    · cases hu

/-- The state GENCODE ends in, but for the code table. -/
theorem gencodeRun_done_frame {s u : State} (hu : gencodeRun s = .done u) :
    u = { s with
      phase := .gencode, cv := true, codeLen := u.codeLen, codeBits := u.codeBits,
      stk := if s.isLeaf s.root then s.stk else [], published := 0 } := by
  obtain ⟨hcv, hstk⟩ := gencodeRun_cv_stk hu
  have hframe := gencodeRun_frame s
  rw [hu] at hframe
  rw [← hstk, ← hcv]
  exact hframe

/-- Settles O19: over a tree at ROOT the procedure returns with the tree's codes in the table (43 R172, R176). -/
theorem gencodeTabulatesThePaths : Obligations.GencodeTabulatesThePaths := by
  unfold Obligations.GencodeTabulatesThePaths
  intro s t hb ht htv hroot
  obtain ⟨u, hu, hcodes⟩ := gencodeRun_tabulates (s := s.accept 0x12 [.needTv, .gencode]) hroot
  exact ⟨u.complete, exec_gencode_completes hb ht htv hu, congrArg State.complete (gencodeRun_done_frame hu), hcodes⟩

end Sys2Proof.Machine

/-! PROOFS. Runs of the engine: a command whose engine comes to a hold or a stop in some number of steps ends its turn there,
since a full turn is long enough for every program but FLUSH. -/

namespace Sys2Proof.Machine

/-! ## Runs (20 R82, R83) -/

/-- The engine comes from `s` to `t` in some number of its steps. -/
def State.RunsTo (s t : State) : Prop := ∃ n, runEngine n s = t

theorem State.RunsTo.refl (s : State) : s.RunsTo s := ⟨0, rfl⟩

theorem State.RunsTo.trans {s t u : State} (h : s.RunsTo t) (k : t.RunsTo u) : s.RunsTo u := by
  obtain ⟨m, rfl⟩ := h
  obtain ⟨n, rfl⟩ := k
  exact ⟨m + n, runEngine_add m n s⟩

theorem runsTo_engineStep (s : State) : s.RunsTo (engineStep s) := ⟨1, runEngine_succ 0 s⟩

theorem runsTo_of_step {s t : State} (h : engineStep s = t) : s.RunsTo t := h ▸ runsTo_engineStep s

/-- A token waiting at an `in_next()` is taken (20 R80). -/
theorem runsTo_in {s : State} {k : InPoint} {todo : List Proc} {t : Token} {rest : List Token}
    (hb : s.state = .busy) (hr : s.resume = .inNext k todo) (hq : s.inq = t :: rest) :
    s.RunsTo (runOn todo (afterIn k t { s with inq := rest })) :=
  runsTo_of_step (engineStep_in hb hr hq)

/-- A byte waiting at an `out_put` is put where OUT has room (20 R81). -/
theorem runsTo_out {s : State} {b : Byte} {k : OutPoint} {todo : List Proc}
    (hb : s.state = .busy) (hr : s.resume = .outPut b k todo) (hq : s.outq.length < s.outDepth) :
    s.RunsTo (runOn todo (afterOut k { s with outq := s.outq ++ [b] })) :=
  runsTo_of_step (engineStep_out hb hr hq)

/-- The full turn and the run both end where the engine has no step, so they end in the same state. -/
theorem takeTurn_of_runsTo {s t : State} (ht : s.turns = []) (hf : Proc.flush ∉ s.resume.todo) (h : s.RunsTo t)
    (he : t.enabled = false) : takeTurn s = t := by
  obtain ⟨m, hm⟩ := h
  have hturn : runEngine (m + s.fullTurn) s = t := runEngine_le hm he (Nat.le_add_right ..)
  rw [takeTurn_nil ht, ← hturn, Nat.add_comm, runEngine_add, runEngine_of_not_enabled (runEngine_fullTurn hf)]

/-- A command ends its turn where the engine, run from the first stretch of its program, has no further step. -/
theorem exec_of_runsTo {s t : State} {i : Instr} (hb : s.state ≠ .busy) (ht : s.turns = []) (hi : i ≠ .nop)
    (hf : Proc.flush ∉ programOf i)
    (h : (runOn (programOf i) (.done (s.accept (opcodeOf i) (programOf i)))).RunsTo t) (he : t.enabled = false) :
    exec i s = .next t := by
  have hrun : (s.accept (opcodeOf i) (programOf i)).RunsTo t :=
    (runsTo_engineStep _).trans (by rwa [engineStep_start rfl rfl])
  have hturn : takeTurn (s.accept (opcodeOf i) (programOf i)) = t := takeTurn_of_runsTo ht hf hrun he
  rw [exec_ready s i hb, if_neg hi, hturn]

end Sys2Proof.Machine

/-! PROOFS. The size field: WRSIZE puts its bytes in order, and RDSIZE puts together what it reads (O24 to O26). -/

namespace Sys2Proof.Machine

/-! ## WRSIZE (44 R188) -/

/-- The block `s` in WRSIZE at the `out_put` of byte `i` of the size field, the bytes before it put. -/
def State.puttingSize (todo : List Proc) (i : Nat) (s : State) : State :=
  { s with
    outq := s.outq ++ (List.range i).map (sizeFieldByte s.sizeEndian s.size)
    resume := .outPut (sizeFieldByte s.sizeEndian s.size i) (.sizeByte i) todo }

/-- The block `s` with the whole size field put, before WRSIZE goes on from its last byte. -/
def State.sizePut (todo : List Proc) (s : State) : State :=
  { s with
    outq := s.outq ++ size8 s.sizeEndian s.size
    resume := .outPut (sizeFieldByte s.sizeEndian s.size 7) (.sizeByte 7) todo }

theorem runOn_wrsizeStart (todo : List Proc) (s : State) :
    runOn todo (wrsizeStart s) = (s.setPhase .wrsize).puttingSize todo 0 := by
  rw [wrsizeStart, runOn_waitOut]
  simp [State.puttingSize]

theorem wrsizeAfter_of_lt {i : Nat} (h : i < 7) (s : State) :
    wrsizeAfter i s = .waitOut (sizeFieldByte s.sizeEndian s.size (i + 1)) (.sizeByte (i + 1)) s := if_pos h

/-- Byte `i` is put, and WRSIZE goes on with `i + 1` bytes put. -/
theorem puttingSize_runsTo_after {s : State} (hb : s.state = .busy) (todo : List Proc) (i : Nat)
    (hroom : s.outq.length + i < s.outDepth) :
    (s.puttingSize todo i).RunsTo (runOn todo (wrsizeAfter i
      { s.puttingSize todo i with outq := s.outq ++ (List.range (i + 1)).map (sizeFieldByte s.sizeEndian s.size) })) := by
  have hput := runsTo_out (s := s.puttingSize todo i) hb rfl (by simpa [State.puttingSize] using hroom)
  rwa [show (s.puttingSize todo i).outq ++ [sizeFieldByte s.sizeEndian s.size i]
    = s.outq ++ (List.range (i + 1)).map (sizeFieldByte s.sizeEndian s.size) by
      simp [State.puttingSize, List.range_succ]] at hput

theorem puttingSize_runsTo {s : State} (hb : s.state = .busy) (todo : List Proc) (i : Nat) (hi : i ≤ 7)
    (hroom : s.outq.length + i ≤ s.outDepth) : (s.puttingSize todo 0).RunsTo (s.puttingSize todo i) := by
  induction i with
  | zero => exact .refl _
  | succ i ih =>
    have hput := puttingSize_runsTo_after hb todo i (by omega)
    rw [wrsizeAfter_of_lt (by omega), runOn_waitOut] at hput
    exact (ih (by omega) (by omega)).trans hput

/-- `wrsize()` where OUT has room for the size field. -/
theorem runsTo_wrsize {s : State} (hb : s.state = .busy) (todo : List Proc) (hroom : s.outq.length + 8 ≤ s.outDepth) :
    (runOn todo (wrsizeStart s)).RunsTo (runOn todo (.done ((s.setPhase .wrsize).sizePut todo))) := by
  rw [runOn_wrsizeStart]
  have hlast : s.outq.length + 7 < s.outDepth := by omega
  exact (puttingSize_runsTo (s := s.setPhase .wrsize) hb todo 7 (by omega) hlast.le).trans
    (puttingSize_runsTo_after (s := s.setPhase .wrsize) hb todo 7 hlast)

/-- Settles O24: the program is `wrsize()` alone. -/
theorem wrsizeWritesTheSizeField : Obligations.WrsizeWritesTheSizeField := by
  unfold Obligations.WrsizeWritesTheSizeField
  intro s hb ht hroom
  rw [exec_of_runsTo (i := .wrsize) hb ht (by decide) (by decide) (runsTo_wrsize (s := s.accept 0x14 [.wrsize]) rfl [] hroom)
    (not_enabled_of_not_busy (by simp))]
  rfl

/-! ## RDSIZE (44 R189) -/

/-- The assembly register V after the bytes of the size field from byte `i` on. -/
def sizeAssemble (e : Endian) (v : DWord) (i : Nat) : List Byte → DWord
  | [] => v
  | b :: bs => sizeAssemble e (sizeFieldPut e v i b) (i + 1) bs

theorem sizeAssemble_concat (e : Endian) (bs : List Byte) (b : Byte) (v : DWord) (i : Nat) :
    sizeAssemble e v i (bs ++ [b]) = sizeFieldPut e (sizeAssemble e v i bs) (i + bs.length) b := by
  induction bs generalizing v i with
  | nil => rfl
  | cons c bs ih =>
    rw [List.cons_append, sizeAssemble, ih, sizeAssemble, List.length_cons, Nat.add_assoc, Nat.add_comm 1]

/-- Putting byte `i` of the size field of `v` adds the bits of `v` at its place. -/
theorem getLsbD_sizeFieldPut (e : Endian) (v w : DWord) (i j : Nat) (hj : j < 64) :
    (sizeFieldPut e w i (sizeFieldByte e v i)).getLsbD j
      = (w.getLsbD j || (decide (j / 8 = sizeBytePos e i) && v.getLsbD j)) := by
  have hplace : j / 8 = sizeBytePos e i ↔ 8 * sizeBytePos e i ≤ j ∧ j - 8 * sizeBytePos e i < 8 := by omega
  by_cases h : 8 * sizeBytePos e i ≤ j
  · simp [sizeFieldPut, sizeFieldByte, hplace, hj, h, Nat.not_lt.2 h]
  · simp [sizeFieldPut, sizeFieldByte, hplace, h]

/-- The first `k` bytes of the size field of `v` assemble to the bits of `v` at their places. -/
theorem getLsbD_sizeAssemble (e : Endian) (v : DWord) (k j : Nat) (hj : j < 64) :
    (sizeAssemble e 0 0 ((List.range k).map (sizeFieldByte e v))).getLsbD j = true
      ↔ (∃ i < k, j / 8 = sizeBytePos e i) ∧ v.getLsbD j = true := by
  induction k with
  | zero => simp [sizeAssemble]
  | succ k ih =>
    rw [List.range_succ, List.map_append, List.map_singleton, sizeAssemble_concat, List.length_map, List.length_range,
      Nat.zero_add, getLsbD_sizeFieldPut e v _ k j hj, Bool.or_eq_true, ih, Nat.exists_lt_succ_right]
    simp [or_and_right]

/-- The eight places of the size field are all of a 64-bit value (30 R116). -/
theorem sizeAssemble_size8 (e : Endian) (v : DWord) : sizeAssemble e 0 0 (size8 e v) = v := by
  refine BitVec.eq_of_getLsbD_eq fun j hj => Bool.eq_iff_iff.2 ?_
  have hplace : ∃ i < 8, j / 8 = sizeBytePos e i := by
    cases e with
    | little => exact ⟨j / 8, by omega, rfl⟩
    | big => exact ⟨7 - j / 8, by omega, by simp only [sizeBytePos]; omega⟩
  rw [size8, getLsbD_sizeAssemble e v 8 j hj]
  exact and_iff_right hplace

/-- The block `s` in RDSIZE at the `in_next()` of byte `i`, with `v` assembled so far and `q` in IN. -/
def State.readingSize (todo : List Proc) (i : Nat) (v : DWord) (q : List Token) (s : State) : State :=
  { s with inq := q, resume := .inNext (.sizeByte i v) todo }

theorem runOn_rdsizeStart (todo : List Proc) (s : State) :
    runOn todo (rdsizeStart s) = (s.setPhase .rdsize).readingSize todo 0 0 s.inq :=
  runOn_waitIn todo (.sizeByte 0 0) _

theorem rdsizeToken_of_lt {i : Nat} (h : i < 7) (v : DWord) (b : Byte) (s : State) :
    rdsizeToken i v (.byte b) s = .waitIn (.sizeByte (i + 1) (sizeFieldPut s.sizeEndian v i b)) s := if_pos h

theorem rdsizeToken_last (v : DWord) (b : Byte) (s : State) :
    rdsizeToken 7 v (.byte b) s = .done { s with size := sizeFieldPut s.sizeEndian v 7 b } := rfl

/-- The bytes before the eighth are assembled, one step each. -/
theorem readingSize_runsTo {s : State} (hb : s.state = .busy) (todo : List Proc) (bs : List Byte) (q : List Token) (i : Nat)
    (v : DWord) (hi : i + bs.length ≤ 7) :
    (s.readingSize todo i v (byteTokens bs ++ q)).RunsTo
      (s.readingSize todo (i + bs.length) (sizeAssemble s.sizeEndian v i bs) q) := by
  induction bs generalizing i v with
  | nil => exact .refl _
  | cons b bs ih =>
    rw [List.length_cons] at hi
    have htake := runsTo_in (s := s.readingSize todo i v (byteTokens (b :: bs) ++ q)) hb rfl rfl
    rw [afterIn, rdsizeToken_of_lt (by omega), runOn_waitIn] at htake
    have hrest := ih (i + 1) (sizeFieldPut s.sizeEndian v i b) (by omega)
    rw [Nat.add_right_comm, Nat.add_assoc] at hrest
    exact htake.trans hrest

/-- `rdsize()` over the eight bytes of a size field. The point `r` is that of the last byte, which whatever follows
replaces. -/
theorem runsTo_rdsize {s : State} (hb : s.state = .busy) (todo : List Proc) {bs : List Byte} {b : Byte} {rest : List Token}
    {v : DWord} (hlen : bs.length = 7) (hv : sizeAssemble s.sizeEndian 0 0 (bs ++ [b]) = v)
    (hq : s.inq = byteTokens (bs ++ [b]) ++ rest) :
    ∃ r, (runOn todo (rdsizeStart s)).RunsTo
      (runOn todo (.done { s.setPhase .rdsize with size := v, inq := rest, resume := r })) := by
  have hseven := readingSize_runsTo (s := s.setPhase .rdsize) hb todo bs (.byte b :: rest) 0 0 (by omega)
  have hlast := runsTo_in (s := (s.setPhase .rdsize).readingSize todo (0 + bs.length) (sizeAssemble s.sizeEndian 0 0 bs)
    (.byte b :: rest)) hb rfl rfl
  rw [hlen, afterIn, rdsizeToken_last] at hlast
  rw [hlen] at hseven
  rw [runOn_rdsizeStart, hq, byteTokens, List.map_append, List.append_assoc, ← hv, sizeAssemble_concat, hlen]
  exact ⟨_, hseven.trans hlast⟩

/-- Settles O25: the program is `rdsize()` alone, and every value is assembled from its own bytes. -/
theorem rdsizeReadsTheSizeField : Obligations.RdsizeReadsTheSizeField := by
  unfold Obligations.RdsizeReadsTheSizeField
  intro s v rest hb ht hq
  obtain ⟨r, hrun⟩ := runsTo_rdsize (s := s.accept 0x21 [.rdsize])
    (bs := (List.range 7).map (sizeFieldByte s.sizeEndian v)) rfl [] (by simp) (sizeAssemble_size8 s.sizeEndian v) hq
  rw [exec_of_runsTo (i := .rdsize) hb ht (by decide) (by decide) hrun (not_enabled_of_not_busy (by simp))]
  rfl

/-- `rdsize()` over a field cut short by EOS. -/
theorem runsTo_rdsize_short {s : State} (hb : s.state = .busy) (todo : List Proc) {bs : List Byte} {rest : List Token}
    (hlen : bs.length < 8) (hq : s.inq = byteTokens bs ++ .eos :: rest) :
    ∃ r, (runOn todo (rdsizeStart s)).RunsTo
      (State.fail .sizeShort { s.setPhase .rdsize with inq := rest, resume := r }) := by
  have hbytes := readingSize_runsTo (s := s.setPhase .rdsize) hb todo bs (.eos :: rest) 0 0 (by omega)
  have heos := runsTo_in (s := (s.setPhase .rdsize).readingSize todo (0 + bs.length)
    (sizeAssemble s.sizeEndian 0 0 bs) (.eos :: rest)) hb rfl rfl
  rw [afterIn, rdsizeToken, runOn_failed] at heos
  rw [runOn_rdsizeStart, hq]
  exact ⟨_, hbytes.trans heos⟩

/-- Settles O26: SIZE is loaded only with the eighth byte. -/
theorem rdsizeReportsAShortField : Obligations.RdsizeReportsAShortField := by
  unfold Obligations.RdsizeReportsAShortField
  intro s bs rest hb ht hlen hq
  obtain ⟨r, hrun⟩ := runsTo_rdsize_short (s := s.accept 0x21 [.rdsize]) rfl [] hlen hq
  have hcmd : (0x21 : Byte) ≠ 0x40 ∧ (0x21 : Byte) ≠ 0x41 := by decide
  rw [exec_of_runsTo (i := .rdsize) hb ht (by decide) (by decide) hrun (not_enabled_of_not_busy (by simp))]
  exact congrArg Host.Outcome.next (fail_of_not_macro .sizeShort hcmd.1 hcmd.2)

end Sys2Proof.Machine

/-! PROOFS. SERTREE puts the bytes of the tree in the arena (O20). -/

namespace Sys2Proof.Machine

/-! ## SERTREE (44 R181) -/

/-- The block `s` in SERTREE at `r`, with the stack `stk` and the bytes `out` put. -/
def State.serializing (stk : List StkEntry) (out : List Byte) (r : Resume) (s : State) : State :=
  { s with stk := stk, outq := s.outq ++ out, resume := r }

theorem serializing_runsTo_put {s : State} (hb : s.state = .busy) (todo : List Proc) (stk : List StkEntry) (out : List Byte)
    (b : Byte) (k : OutPoint) (hroom : s.outq.length + out.length < s.outDepth) :
    (s.serializing stk out (.outPut b k todo)).RunsTo
      (runOn todo (afterOut k (s.serializing stk (out ++ [b]) (.outPut b k todo)))) := by
  have hput := runsTo_out (s := s.serializing stk out (.outPut b k todo)) hb rfl
    (by simpa [State.serializing] using hroom)
  rwa [show (s.serializing stk out (.outPut b k todo)).outq ++ [b] = s.outq ++ (out ++ [b]) from List.append_assoc ..]
    at hput

/-- A leaf on top of the stack: its marker is next. -/
theorem runOn_serLoop_leaf (todo : List Proc) {h : Handle} {s : State} (hl : s.isLeaf h = true) (rest : List StkEntry)
    (out : List Byte) (r : Resume) :
    runOn todo (serLoop (s.serializing ({ h := h } :: rest) out r))
      = s.serializing rest out (.outPut 0x31 (.leafMarker h) todo) := by
  rw [serLoop, State.serializing]
  exact (congrArg (runOn todo) (if_pos hl)).trans (runOn_waitOut ..)

/-- An internal node on top of the stack: its marker is next. -/
theorem runOn_serLoop_inner (todo : List Proc) {h : Handle} {s : State} (hl : s.isLeaf h = false) (rest : List StkEntry)
    (out : List Byte) (r : Resume) :
    runOn todo (serLoop (s.serializing ({ h := h } :: rest) out r))
      = s.serializing rest out (.outPut 0x30 (.innerMarker h) todo) := by
  rw [serLoop, State.serializing]
  exact (congrArg (runOn todo) (if_neg (Bool.eq_false_iff.1 hl))).trans (runOn_waitOut ..)

/-- A tree on top of the stack is put byte by byte where OUT has room, and the entries below it are next. The point `r'` is
that of its last symbol, which whatever follows replaces. -/
theorem runsTo_serLoop {s : State} (hb : s.state = .busy) (todo : List Proc) {t : Tree} {h : Handle} {n : BitVec 9}
    (ht : holdsTree s.node n t h) (rest : List StkEntry) (out : List Byte) (r : Resume)
    (hroom : s.outq.length + (out.length + t.ser.length) ≤ s.outDepth) :
    ∃ r', (runOn todo (serLoop (s.serializing ({ h := h } :: rest) out r))).RunsTo
      (runOn todo (serLoop (s.serializing rest (out ++ t.ser) r'))) := by
  induction t generalizing h rest out r with
  | leaf b =>
    obtain ⟨-, hleaf, hsym⟩ := ht
    simp only [Tree.ser, List.length_cons, List.length_nil] at hroom
    have hmark := serializing_runsTo_put hb todo rest out 0x31 (.leafMarker h) (by omega)
    have hbyte := serializing_runsTo_put hb todo rest (out ++ [0x31]) (s.symOf h) .leafSymbol (by simp; omega)
    rw [afterOut, serAfterLeafMarker, runOn_waitOut] at hmark
    rw [runOn_serLoop_leaf todo hleaf, Tree.ser, List.append_cons, ← hsym]
    exact ⟨_, hmark.trans hbyte⟩
  | node left right ihl ihr =>
    obtain ⟨-, hinner, hleft, hright⟩ := ht
    simp only [Tree.ser, List.length_cons, List.length_append] at hroom
    have hmark := serializing_runsTo_put hb todo rest out 0x30 (.innerMarker h) (by omega)
    obtain ⟨r₁, hl⟩ := ihl hleft ({ h := s.rightOf h } :: rest) (out ++ [0x30]) (.outPut 0x30 (.innerMarker h) todo)
      (by simp; omega)
    obtain ⟨r₂, hr⟩ := ihr hright rest (out ++ [0x30] ++ left.ser) r₁ (by simp; omega)
    rw [runOn_serLoop_inner todo hinner, Tree.ser, List.append_cons, ← List.append_assoc]
    exact ⟨r₂, hmark.trans (.trans hl hr)⟩

/-- `sertree()` over the tree at ROOT where OUT has room for it. -/
theorem runsTo_sertree {s : State} (hb : s.state = .busy) (todo : List Proc) {t : Tree}
    (ht : holdsTree s.node s.nodeN t s.root) (hroom : s.outq.length + t.ser.length ≤ s.outDepth) :
    ∃ r, (runOn todo (sertreeStart s)).RunsTo
      (runOn todo (.done ((s.setPhase .sertree).serializing [] t.ser r))) := by
  obtain ⟨r, hrun⟩ := runsTo_serLoop (s := s.setPhase .sertree) hb todo ht [] [] s.resume (by simpa using hroom)
  rw [State.serializing, List.append_nil] at hrun
  exact ⟨r, hrun⟩

/-- The check of TV passes over a valid tree (30 R106). -/
theorem runOn_needTv (todo : List Proc) {s : State} (h : s.tv = true) :
    runOn (.needTv :: todo) (.done s) = runOn todo (.done s) := by
  rw [runOn_cons_done, startProc_needTv_holds h]

/-- Settles O20: the check of TV passes, and the rest of the program is `sertree()`. -/
theorem sertreeWritesTheTree : Obligations.SertreeWritesTheTree := by
  unfold Obligations.SertreeWritesTheTree
  intro s t hb ht htv hroot hroom
  obtain ⟨r, hrun⟩ := runsTo_sertree (s := s.accept 0x13 [.needTv, .sertree]) rfl [] hroot hroom
  have hcheck : runOn [.needTv, .sertree] (.done (s.accept 0x13 [.needTv, .sertree]))
      = runOn [] (sertreeStart (s.accept 0x13 [.needTv, .sertree])) := runOn_needTv [.sertree] htv
  rw [← hcheck] at hrun
  rw [exec_of_runsTo (i := .sertree) hb ht (by decide) (by decide) hrun (not_enabled_of_not_busy (by simp))]
  rfl

end Sys2Proof.Machine

/-! PROOFS. DESTREE fills the arena in the order of the nodes it reads: its marker checks, the arena after a whole tree, and
the stream cut short inside a tree (O21 to O23). -/

namespace Sys2Proof.Machine

/-! ## Marker tokens (44 R184, R185) -/

theorem destreeMarker_bad {m : Byte} (h0 : m ≠ 0x30) (h1 : m ≠ 0x31) (s : State) :
    destreeMarker (.byte m) s = .failed .treeBadMarker s := if_pos ⟨h0, h1⟩

theorem destreeMarker_full {m : Byte} (hm : m = 0x30 ∨ m = 0x31) {s : State} (hn : s.nodeN = 511) :
    destreeMarker (.byte m) s = .failed .treeTooLarge s := by
  have hgood : ¬(m ≠ 0x30 ∧ m ≠ 0x31) := fun h => hm.elim h.1 h.2
  exact (if_neg hgood).trans (if_pos hn)

theorem destreeMarker_inner {s : State} (hn : s.nodeN ≠ 511) :
    destreeMarker (.byte 0x30) s = .waitIn .marker { s.newNode 0 0 with stk := { h := s.nodeN } :: s.stk } := by
  have hgood : ¬((0x30 : Byte) ≠ 0x30 ∧ (0x30 : Byte) ≠ 0x31) := by decide
  rw [destreeMarker, if_neg hgood, if_neg hn, if_pos rfl]

theorem destreeMarker_leaf {s : State} (hn : s.nodeN ≠ 511) :
    destreeMarker (.byte 0x31) s
      = .waitIn (.symbol s.nodeN) { s.setWeight s.nodeN 0 with nodeN := s.nodeN + 1 } := by
  have hgood : ¬((0x31 : Byte) ≠ 0x30 ∧ (0x31 : Byte) ≠ 0x31) := by decide
  rw [destreeMarker, if_neg hgood, if_neg hn, if_neg (by decide)]

section
variable {s : State} {todo : List Proc} {rest : List Token} (hb : s.state = .busy) (hr : s.resume = .inNext .marker todo)
include hb hr

theorem engineStep_markerEof (hq : s.inq = .eos :: rest) : engineStep s = State.fail .treeEof { s with inq := rest } := by
  rw [engineStep_in hb hr hq, afterIn, destreeMarker, runOn_failed]

theorem engineStep_markerBad {m : Byte} (hq : s.inq = .byte m :: rest) (h0 : m ≠ 0x30) (h1 : m ≠ 0x31) :
    engineStep s = State.fail .treeBadMarker { s with inq := rest } := by
  rw [engineStep_in hb hr hq, afterIn, destreeMarker_bad h0 h1, runOn_failed]

theorem engineStep_markerFull {m : Byte} (hq : s.inq = .byte m :: rest) (hm : m = 0x30 ∨ m = 0x31) (hn : s.nodeN = 511) :
    engineStep s = State.fail .treeTooLarge { s with inq := rest } := by
  rw [engineStep_in hb hr hq, afterIn, destreeMarker_full (s := { s with inq := rest }) hm hn, runOn_failed]

theorem engineStep_markerInner (hq : s.inq = .byte 0x30 :: rest) (hn : s.nodeN ≠ 511) :
    engineStep s = { s.newNode 0 0 with
      inq := rest, stk := { h := s.nodeN } :: s.stk, resume := .inNext .marker todo } := by
  rw [engineStep_in hb hr hq, afterIn, destreeMarker_inner (s := { s with inq := rest }) hn, runOn_waitIn]
  rfl

theorem engineStep_markerLeaf (hq : s.inq = .byte 0x31 :: rest) (hn : s.nodeN ≠ 511) :
    engineStep s = { s.setWeight s.nodeN 0 with
      nodeN := s.nodeN + 1, inq := rest, resume := .inNext (.symbol s.nodeN) todo } := by
  rw [engineStep_in hb hr hq, afterIn, destreeMarker_leaf (s := { s with inq := rest }) hn, runOn_waitIn]
  rfl

end

/-- Settles O23: one step lemma for each outcome of the checks. -/
theorem markerChecksInOrder : Obligations.MarkerChecksInOrder := by
  unfold Obligations.MarkerChecksInOrder
  intro s t rest todo hb hr hq
  refine ⟨?_, ?_, ?_, ?_, ?_⟩
  · rintro rfl
    exact engineStep_markerEof hb hr hq
  · rintro m rfl
    exact engineStep_markerBad hb hr hq
  · rintro m rfl
    exact engineStep_markerFull hb hr hq
  · rintro rfl
    exact engineStep_markerInner hb hr hq
  · rintro rfl
    exact engineStep_markerLeaf hb hr hq

/-! ## The arena after a tree is read (44 R184, R186) -/

/-- NODE[h] gets the left child `c`. -/
def State.attachLeft (h c : Handle) (s : State) : State := s.setNode h (wordSetLeft (s.nodeAt h) c)

/-- NODE[h] gets the right child `c`. -/
def State.attachRight (h c : Handle) (s : State) : State := s.setNode h (wordSetRight (s.nodeAt h) c)

/-- The arena after DESTREE has read `t` from slot NODE_N on: a node takes its slot before its children, and each child is
attached when it is finished. -/
def State.loadTree : Tree → State → State
  | .leaf b, s => s.newNode (leafWord b) 0
  | .node l r, s =>
    (State.loadTree r ((State.loadTree l (s.newNode 0 0)).attachLeft s.nodeN (s.nodeN + 1))).attachRight s.nodeN
      (State.loadTree l (s.newNode 0 0)).nodeN

/-- The arena when the left child `l` of a new node in slot NODE_N has been read and attached. -/
def State.loadLeft (l : Tree) (s : State) : State :=
  (State.loadTree l (s.newNode 0 0)).attachLeft s.nodeN (s.nodeN + 1)

theorem loadTree_node (l r : Tree) (s : State) :
    s.loadTree (.node l r) = ((s.loadLeft l).loadTree r).attachRight s.nodeN (s.loadLeft l).nodeN := rfl

/-- One slot per node (44 R186). -/
theorem loadTree_nodeN (t : Tree) (s : State) : (s.loadTree t).nodeN = s.nodeN + BitVec.ofNat 9 t.size := by
  induction t generalizing s with
  | leaf b => rfl
  | node l r ihl ihr =>
    rw [Tree.size, BitVec.ofNat_add, BitVec.ofNat_add, ← BitVec.add_assoc, ← BitVec.add_assoc]
    exact (ihr _).trans (congrArg (· + BitVec.ofNat 9 r.size) (ihl _))

theorem loadTree_nodeN_toNat {t : Tree} {s : State} (h : s.nodeN.toNat + t.size ≤ 511) :
    (s.loadTree t).nodeN.toNat = s.nodeN.toNat + t.size := by
  rw [loadTree_nodeN, BitVec.toNat_add, BitVec.toNat_ofNat]
  omega

theorem le_loadTree_nodeN {t : Tree} {s : State} (h : s.nodeN.toNat + t.size ≤ 511) :
    s.nodeN ≤ (s.loadTree t).nodeN := by
  rw [BitVec.le_def, loadTree_nodeN_toNat h]
  exact Nat.le_add_right ..

/-- The slots left for the children of a node that takes slot NODE_N. -/
theorem loadTree_room {l r : Tree} {s : State} (h : s.nodeN.toNat + (Tree.node l r).size ≤ 511) :
    s.nodeN.toNat < 511 ∧ (s.newNode 0 0).nodeN.toNat + l.size ≤ 511 ∧ (s.loadLeft l).nodeN.toNat + r.size ≤ 511
      ∧ s.nodeN < (s.loadLeft l).nodeN := by
  rw [Tree.size] at h
  have hslot : s.nodeN.toNat < 511 := by omega
  have hnew : (s.newNode 0 0).nodeN.toNat = s.nodeN.toNat + 1 := toNat_succ_of_lt_511 hslot
  have hleft : (s.loadLeft l).nodeN.toNat = (s.newNode 0 0).nodeN.toNat + l.size := loadTree_nodeN_toNat (by omega)
  rw [BitVec.lt_def]
  omega

/-- A property that new slots and words written to slots from NODE_N on keep, reading a tree keeps. -/
theorem loadTree_keeps (P : State → Prop) (lo : Nat)
    (hnew : ∀ u w, lo ≤ u.nodeN.toNat → u.nodeN.toNat < 511 → P u → P (u.newNode w 0))
    (hset : ∀ u h w, lo ≤ h.toNat → h.toNat < 511 → P u → P (u.setNode h w)) (t : Tree) (s : State)
    (hlo : lo ≤ s.nodeN.toNat) (hn : s.nodeN.toNat + t.size ≤ 511) (h : P s) : P (s.loadTree t) := by
  induction t generalizing s with
  | leaf b => exact hnew _ _ hlo (by rw [Tree.size] at hn; omega) h
  | node l r ihl ihr =>
    obtain ⟨hslot, hl, hr, hlt⟩ := loadTree_room hn
    have hsucc : (s.newNode 0 0).nodeN.toNat = s.nodeN.toNat + 1 := toNat_succ_of_lt_511 hslot
    have hlt' := BitVec.lt_def.1 hlt
    have hleft : P (s.loadLeft l) := hset _ _ _ hlo hslot (ihl (s.newNode 0 0) (by omega) hl (hnew _ _ hlo hslot h))
    exact hset _ _ _ hlo hslot (ihr (s.loadLeft l) (by omega) hr hleft)

/-- `u` differs from `s` in the arena and NODE_N only. -/
abbrev State.ArenaFrame (s u : State) : Prop := u = { s with nodeN := u.nodeN, node := u.node, weight := u.weight }

theorem State.ArenaFrame.trans {s u v : State} (h : s.ArenaFrame u) (k : u.ArenaFrame v) : s.ArenaFrame v :=
  Eq.trans k (congrArg (fun x => { x with nodeN := v.nodeN, node := v.node, weight := v.weight }) h)

theorem loadTree_frame {t : Tree} {s : State} (hn : s.nodeN.toNat + t.size ≤ 511) : s.ArenaFrame (s.loadTree t) :=
  loadTree_keeps s.ArenaFrame 0 (fun _ w _ _ h => congrArg (State.newNode w 0) h)
    (fun _ g w _ _ h => congrArg (State.setNode g w) h) t s (Nat.zero_le _) hn rfl

theorem loadTree_node_wf {t : Tree} {s : State} (hn : s.nodeN.toNat + t.size ≤ 511) (hw : Memory.wf 511 s.node = true) :
    Memory.wf 511 (s.loadTree t).node = true :=
  loadTree_keeps (fun u => Memory.wf 511 u.node = true) 0 (fun _ _ _ hu => Memory.wf_write _ _ _ _ hu)
    (fun _ _ _ _ hg => Memory.wf_write _ _ _ _ hg) t s (Nat.zero_le _) hn hw

/-- Reading a tree leaves the slots in use. -/
theorem loadTree_read_below {t : Tree} {s : State} (hn : s.nodeN.toNat + t.size ≤ 511) {g : Handle} (hg : g < s.nodeN) :
    (s.loadTree t).nodeAt g = s.nodeAt g := by
  have hlt := BitVec.lt_def.1 hg
  exact loadTree_keeps (fun u => u.nodeAt g = s.nodeAt g) s.nodeN.toNat
    (fun _ _ hlo _ h => (Memory.read_write_ne _ _ _ _ (by omega)).trans h)
    (fun _ _ _ hlo _ h => (Memory.read_write_ne _ _ _ _ (by omega)).trans h) t s (Nat.le_refl _) hn rfl

/-- WEIGHT is in canonical form, and 0 in every slot in use. -/
def State.Weightless (s : State) : Prop :=
  Memory.wf 511 s.weight = true ∧ ∀ i < s.nodeN.toNat, Memory.read s.weight i = 0

theorem newNode_weightless {s : State} (w : Word) (hn : s.nodeN.toNat < 511) (h : s.Weightless) :
    (s.newNode w 0).Weightless := by
  obtain ⟨hw, hzero⟩ := h
  refine ⟨Memory.wf_write _ _ _ _ hn hw, fun i hi => ?_⟩
  have hn' : (s.newNode w 0).nodeN.toNat = s.nodeN.toNat + 1 := toNat_succ_of_lt_511 hn
  rcases Nat.lt_or_eq_of_le (Nat.lt_succ_iff.1 (hn' ▸ hi)) with hlt | rfl
  · exact (Memory.read_write_ne _ _ _ _ hlt.ne).trans (hzero i hlt)
  · exact Memory.read_write_same _ _ _ _ hw

theorem loadTree_weightless {t : Tree} {s : State} (hn : s.nodeN.toNat + t.size ≤ 511) (h : s.Weightless) :
    (s.loadTree t).Weightless :=
  loadTree_keeps State.Weightless 0 (fun _ w _ hu => newNode_weightless w hu) (fun _ _ _ _ _ h => h) t s (Nat.zero_le _) hn h

/-- `k` slots in a row from slot `n` on. -/
def slotsFrom (n : Handle) (k : Nat) : List Handle := (List.range k).map (fun i => n + BitVec.ofNat 9 i)

theorem slotsFrom_add (n : Handle) (a b : Nat) :
    slotsFrom n (a + b) = slotsFrom n a ++ slotsFrom (n + BitVec.ofNat 9 a) b := by
  simp [slotsFrom, List.range_add, BitVec.ofNat_add, BitVec.add_assoc]

theorem slotsFrom_one (n : Handle) : slotsFrom n 1 = [n] := by simp [slotsFrom]

theorem le_of_mem_slotsFrom {n g : Handle} {k : Nat} (hn : n.toNat + k ≤ 511) (hg : g ∈ slotsFrom n k) :
    n.toNat ≤ g.toNat := by
  obtain ⟨i, hi, rfl⟩ := List.mem_map.1 hg
  rw [List.mem_range] at hi
  rw [BitVec.toNat_add, BitVec.toNat_ofNat]
  omega

theorem slotsFrom_nodup (n : Handle) {k : Nat} (hk : k ≤ 511) : (slotsFrom n k).Nodup := by
  refine List.Nodup.map_on (fun i hi j hj h => ?_) List.nodup_range
  rw [List.mem_range] at hi hj
  have hij : i % 2 ^ 9 = j % 2 ^ 9 := by simpa using congrArg BitVec.toNat ((BitVec.add_right_inj n).1 h)
  omega

theorem nodeAt_setNode_ne {s : State} {g h : Handle} (hg : g ≠ h) (w : Word) : (s.setNode h w).nodeAt g = s.nodeAt g :=
  read_write_slot _ _ _ _ hg

theorem nodeAt_setNode_same {s : State} (hw : Memory.wf 511 s.node = true) (h : Handle) (w : Word) :
    (s.setNode h w).nodeAt h = w :=
  Memory.read_write_same _ _ _ _ hw

/-- A node to which DESTREE has attached the trees at `a` and `b`. -/
theorem holdsTree_attached {node : Memory 32} {n : BitVec 9} {l r : Tree} {h a b : Handle} (hlt : h < n)
    (hword : Memory.read node h.toNat = wordSetRight (wordSetLeft 0 a) b) (hl : holdsTree node n l a)
    (hr : holdsTree node n r b) :
    holdsTree node n (.node l r) h ∧ visited node (.node l r) h = h :: (visited node l a ++ visited node r b) := by
  have hleft : wordLeft (Memory.read node h.toNat) = a := by rw [hword, wordLeft_setRight, wordLeft_setLeft]
  have hright : wordRight (Memory.read node h.toNat) = b := by rw [hword, wordRight_setRight]
  have hinner : wordIsLeaf (Memory.read node h.toNat) = false := by
    rw [hword, wordIsLeaf_setRight, wordIsLeaf_setLeft]
    exact wordIsLeaf_zero
  exact ⟨⟨hlt, hinner, hleft ▸ hl, hright ▸ hr⟩, by rw [visited, hleft, hright]⟩

/-- The word of a node whose children have been read: the children stand where NODE_N was when each was begun. -/
theorem loadTree_nodeAt_root {l r : Tree} {s : State} (hn : s.nodeN.toNat + (Tree.node l r).size ≤ 511)
    (hw : Memory.wf 511 s.node = true) :
    (s.loadTree (.node l r)).nodeAt s.nodeN = wordSetRight (wordSetLeft 0 (s.nodeN + 1)) (s.loadLeft l).nodeN := by
  obtain ⟨hslot, hl, hr, hlt⟩ := loadTree_room hn
  have hwnew : Memory.wf 511 (s.newNode 0 0).node = true := Memory.wf_write _ _ _ _ hslot hw
  have hwl := loadTree_node_wf hl hwnew
  have hwleft : Memory.wf 511 (s.loadLeft l).node = true := Memory.wf_write _ _ _ _ hslot hwl
  have hnew : (s.newNode 0 0).nodeAt s.nodeN = 0 := Memory.read_write_same _ _ _ _ hw
  have hleft : (s.loadLeft l).nodeAt s.nodeN = wordSetLeft 0 (s.nodeN + 1) := by
    rw [State.loadLeft, State.attachLeft, nodeAt_setNode_same hwl, loadTree_read_below hl (lt_succ_of_lt_511 hslot), hnew]
  rw [loadTree_node, State.attachRight, nodeAt_setNode_same (loadTree_node_wf hr hwleft),
    loadTree_read_below hr hlt, hleft]

/-- What is read after the slot NODE_N was taken stays in its slots when the node is finished. -/
theorem loadTree_nodeAt_left {l r : Tree} {s : State} (hn : s.nodeN.toNat + (Tree.node l r).size ≤ 511) {g : Handle}
    (hg : g ≠ s.nodeN) (hlt : g < (s.loadLeft l).nodeN) :
    (s.loadTree (.node l r)).nodeAt g = ((s.newNode 0 0).loadTree l).nodeAt g := by
  obtain ⟨-, -, hr, -⟩ := loadTree_room hn
  rw [loadTree_node, State.attachRight, nodeAt_setNode_ne hg, loadTree_read_below hr hlt, State.loadLeft, State.attachLeft,
    nodeAt_setNode_ne hg]

/-- The arena holds the tree that was read at the first slot it took, and visits the slots in the order they were taken. -/
theorem loadTree_holdsTree {t : Tree} {s : State} (hn : s.nodeN.toNat + t.size ≤ 511) (hw : Memory.wf 511 s.node = true) :
    holdsTree (s.loadTree t).node (s.loadTree t).nodeN t s.nodeN
      ∧ visited (s.loadTree t).node t s.nodeN = slotsFrom s.nodeN t.size := by
  induction t generalizing s with
  | leaf b =>
    have hread : Memory.read (s.newNode (leafWord b) 0).node s.nodeN.toNat = leafWord b :=
      Memory.read_write_same _ _ _ _ hw
    rw [Tree.size] at hn
    refine ⟨⟨lt_succ_of_lt_511 (by omega), ?_, ?_⟩, (slotsFrom_one _).symm⟩
    · rw [State.loadTree, hread, wordIsLeaf_leafWord]
    · rw [State.loadTree, hread, wordSym_leafWord]
  | node l r ihl ihr =>
    obtain ⟨hslot, hl, hr, hlt⟩ := loadTree_room hn
    have hwnew : Memory.wf 511 (s.newNode 0 0).node = true := Memory.wf_write _ _ _ _ hslot hw
    have hwleft : Memory.wf 511 (s.loadLeft l).node = true := Memory.wf_write _ _ _ _ hslot (loadTree_node_wf hl hwnew)
    have hsucc : (s.newNode 0 0).nodeN.toNat = s.nodeN.toNat + 1 := toNat_succ_of_lt_511 hslot
    have hlt' := BitVec.lt_def.1 hlt
    have hle := le_loadTree_nodeN hr
    obtain ⟨hleft, hslotsl⟩ := ihl hl hwnew
    obtain ⟨hright, hslotsr⟩ := ihr hr hwleft
    obtain ⟨hleft', hvisitl⟩ := holdsTree_frame (node' := (s.loadTree (.node l r)).node) hleft hle fun g hg => by
      have hmem := le_of_mem_slotsFrom hl (hslotsl ▸ hg)
      exact loadTree_nodeAt_left hn (by rintro rfl; omega) (visited_lt hleft g hg)
    obtain ⟨hright', hvisitr⟩ := holdsTree_frame (node' := (s.loadTree (.node l r)).node) hright (BitVec.le_refl _)
      fun g hg => by
        have hmem := le_of_mem_slotsFrom hr (hslotsr ▸ hg)
        exact nodeAt_setNode_ne (by rintro rfl; omega) _
    obtain ⟨htree, hvisit⟩ := holdsTree_attached (handle_lt_of_lt_of_le hlt hle) (loadTree_nodeAt_root hn hw) hleft'
      hright'
    have hchildren : slotsFrom s.nodeN (Tree.node l r).size
        = s.nodeN :: (slotsFrom (s.nodeN + 1) l.size ++ slotsFrom (s.loadLeft l).nodeN r.size) := by
      rw [Tree.size, slotsFrom_add, slotsFrom_add, slotsFrom_one, BitVec.ofNat_add, ← BitVec.add_assoc]
      exact congrArg (fun m => _ :: (_ ++ slotsFrom m r.size)) (loadTree_nodeN l (s.newNode 0 0)).symm
    refine ⟨htree, hvisit.trans ?_⟩
    rw [hchildren, ← hvisitr.trans hslotsr]
    exact congrArg (fun v => _ :: (v ++ _)) (hvisitl.trans hslotsl)

end Sys2Proof.Machine

/-! PROOFS. DESTREE as a run of the engine: over a whole serialized tree, and over one cut short (O21, O22). -/

namespace Sys2Proof.Machine

/-! ## One token of DESTREE (44 R184) -/

/-- The block `s` in DESTREE at the `in_next()` of a marker, with the stack `stk` and `q` in IN. -/
def State.awaitingMarker (todo : List Proc) (stk : List StkEntry) (q : List Token) (s : State) : State :=
  { s with inq := q, stk := stk, resume := .inNext .marker todo }

/-- The block `s` in DESTREE at the `in_next()` of the symbol of a leaf that has taken slot NODE_N. -/
def State.awaitingSymbol (todo : List Proc) (stk : List StkEntry) (q : List Token) (s : State) : State :=
  { s.setWeight s.nodeN 0 with
    nodeN := s.nodeN + 1, inq := q, stk := stk, resume := .inNext (.symbol s.nodeN) todo }

/-- Attaching reads its own stack, not the one in the state. -/
theorem attach_stk (stk l : List StkEntry) (c : Handle) (s : State) : attach stk c { s with stk := l } = attach stk c s := by
  induction stk generalizing c s with
  | nil => rfl
  | cons e rest ih =>
    simp only [attach]
    split
    · exact ih e.h (s.setNode e.h (wordSetRight (s.nodeAt e.h) c))
    · rfl

/-- A finished left child: the right one is read next. -/
theorem attach_left (rest : List StkEntry) (h c : Handle) (s : State) :
    attach ({ h := h } :: rest) c s
      = .waitIn .marker { s.attachLeft h c with stk := { h := h, leftDone := true } :: rest } := rfl

/-- A finished right child finishes its parent. -/
theorem attach_right (rest : List StkEntry) (h c : Handle) (s : State) :
    attach ({ h := h, leftDone := true } :: rest) c s = attach rest h (s.attachRight h c) := rfl

theorem nodeN_ne_511 {n : BitVec 9} (h : n.toNat < 511) : n ≠ 511 := by
  rintro rfl
  exact absurd h (by decide)

section
variable {s : State} (hb : s.state = .busy) (todo : List Proc) (stk : List StkEntry) (q : List Token)
include hb

theorem runsTo_markerInner (hn : s.nodeN.toNat < 511) :
    (s.awaitingMarker todo stk (.byte 0x30 :: q)).RunsTo
      ((s.newNode 0 0).awaitingMarker todo ({ h := s.nodeN } :: stk) q) :=
  runsTo_of_step (engineStep_markerInner (s := s.awaitingMarker _ _ _) hb rfl rfl (nodeN_ne_511 hn))

theorem runsTo_markerLeaf (hn : s.nodeN.toNat < 511) :
    (s.awaitingMarker todo stk (.byte 0x31 :: q)).RunsTo (s.awaitingSymbol todo stk q) :=
  runsTo_of_step (engineStep_markerLeaf (s := s.awaitingMarker _ _ _) hb rfl rfl (nodeN_ne_511 hn))

/-- `fail` keeps neither the stack nor the point the engine stood at. -/
theorem runsTo_markerEof :
    (s.awaitingMarker todo stk (.eos :: q)).RunsTo (State.fail .treeEof { s with inq := q }) :=
  runsTo_of_step (engineStep_markerEof (s := s.awaitingMarker _ _ _) hb rfl rfl)

theorem runsTo_symbol (b : Byte) :
    ∃ r, (s.awaitingSymbol todo stk (.byte b :: q)).RunsTo
      (runOn todo (attach stk s.nodeN { s.newNode (leafWord b) 0 with inq := q, resume := r })) := by
  have htake := runsTo_in (s := s.awaitingSymbol todo stk (.byte b :: q)) hb rfl rfl
  rw [afterIn, destreeSymbol, ← attach_stk _ s.stk] at htake
  exact ⟨_, htake⟩

theorem runsTo_symbolEof :
    (s.awaitingSymbol todo stk (.eos :: q)).RunsTo
      (State.fail .treeEof { s.setWeight s.nodeN 0 with nodeN := s.nodeN + 1, inq := q }) := by
  have htake := runsTo_in (s := s.awaitingSymbol todo stk (.eos :: q)) hb rfl rfl
  rw [afterIn, destreeSymbol, runOn_failed] at htake
  exact htake

end

/-! ## A whole tree (44 R184) -/

theorem byteTokens_append (xs ys : List Byte) (q : List Token) :
    byteTokens (xs ++ ys) ++ q = byteTokens xs ++ (byteTokens ys ++ q) := by
  rw [byteTokens, List.map_append, List.append_assoc]
  rfl

theorem byteTokens_ser_node (l r : Tree) (q : List Token) :
    byteTokens (Tree.node l r).ser ++ q = .byte 0x30 :: (byteTokens l.ser ++ (byteTokens r.ser ++ q)) :=
  congrArg (_ :: ·) (byteTokens_append ..)

/-- A tree is read into the next free slots and attached to the unfinished nodes of the stack. The point `r` is that of its
last symbol, which whatever follows replaces. -/
theorem runsTo_attach {s : State} (hb : s.state = .busy) (todo : List Proc) (stk : List StkEntry) (q : List Token) {t : Tree}
    (hn : s.nodeN.toNat + t.size ≤ 511) :
    ∃ r, (s.awaitingMarker todo stk (byteTokens t.ser ++ q)).RunsTo
      (runOn todo (attach stk s.nodeN { s.loadTree t with inq := q, resume := r })) := by
  induction t generalizing s stk q with
  | leaf b =>
    rw [Tree.size] at hn
    obtain ⟨r, hsymbol⟩ := runsTo_symbol hb todo stk q b
    exact ⟨r, (runsTo_markerLeaf hb todo stk (.byte b :: q) (by omega)).trans hsymbol⟩
  | node left right ihl ihr =>
    obtain ⟨hslot, hl, hr, -⟩ := loadTree_room hn
    have hbusy : (s.loadLeft left).state = .busy := (congrArg State.state (loadTree_frame hl)).trans hb
    have hmark := runsTo_markerInner hb todo stk (byteTokens left.ser ++ (byteTokens right.ser ++ q)) hslot
    obtain ⟨r₁, hleft⟩ := ihl (s := s.newNode 0 0) hb ({ h := s.nodeN } :: stk) (byteTokens right.ser ++ q) hl
    obtain ⟨r₂, hright⟩ := ihr hbusy ({ h := s.nodeN, leftDone := true } :: stk) q hr
    rw [attach_left, runOn_waitIn] at hleft
    rw [attach_right] at hright
    rw [byteTokens_ser_node]
    exact ⟨r₂, hmark.trans (hleft.trans hright)⟩

/-- The block at the start of `destree()`, before its first token. -/
def State.destreeInit (s : State) : State :=
  { s.setPhase .destree with tv := false, cv := false, nodeN := 0, root := 0 }

theorem runOn_destreeStart (todo : List Proc) (s : State) :
    runOn todo (destreeStart s) = s.destreeInit.awaitingMarker todo [] s.inq :=
  runOn_waitIn todo .marker _

/-- `destree()` over a serialized tree of at most 511 nodes. -/
theorem runsTo_destree {s : State} (hb : s.state = .busy) (todo : List Proc) {t : Tree} {rest : List Token}
    (hn : t.size ≤ 511) (hq : s.inq = byteTokens t.ser ++ rest) :
    ∃ r, (runOn todo (destreeStart s)).RunsTo (runOn todo (.done { s.destreeInit.loadTree t with
      root := 0, tv := true, inq := rest, stk := [], resume := r })) := by
  rw [runOn_destreeStart, hq]
  exact runsTo_attach (s := s.destreeInit) hb todo [] rest (by simpa [State.destreeInit] using hn)

/-- The arena after DESTREE has read a whole tree (44 R186). -/
theorem destreeInit_loadTree {s : State} {t : Tree} (hn : t.size ≤ 511) (hnode : Memory.wf 511 s.node = true)
    (hweight : Memory.wf 511 s.weight = true) :
    State.rootTree { s.destreeInit.loadTree t with root := 0 } t
      ∧ ∀ i < t.size, Memory.read (s.destreeInit.loadTree t).weight i = 0 := by
  have hn' : s.destreeInit.nodeN.toNat + t.size ≤ 511 := by simpa [State.destreeInit] using hn
  have hempty : s.destreeInit.Weightless := ⟨hweight, fun i hi => absurd hi (Nat.not_lt_zero i)⟩
  obtain ⟨htree, hslots⟩ := loadTree_holdsTree hn' hnode
  obtain ⟨-, hzero⟩ := loadTree_weightless hn' hempty
  refine ⟨⟨htree, ?_⟩, fun i hi => hzero i ?_⟩
  · exact hslots ▸ slotsFrom_nodup _ hn
  · rw [loadTree_nodeN_toNat hn']
    exact Nat.lt_add_left _ hi

/-- But for the words of the arena, the block after a whole tree is known. -/
theorem destreeInit_loadTree_frame {s : State} {t : Tree} (hn : t.size ≤ 511) :
    s.destreeInit.loadTree t = { s.destreeInit with
      nodeN := BitVec.ofNat 9 t.size, node := (s.destreeInit.loadTree t).node,
      weight := (s.destreeInit.loadTree t).weight } := by
  have hn' : s.destreeInit.nodeN.toNat + t.size ≤ 511 := by simpa [State.destreeInit] using hn
  have hcount : (s.destreeInit.loadTree t).nodeN = BitVec.ofNat 9 t.size :=
    (loadTree_nodeN t s.destreeInit).trans (BitVec.zero_add _)
  rw [← hcount]
  exact loadTree_frame hn'

/-- Settles O21: the program is `destree()` alone; its tree stands in the slots 0, 1, ... in the order of its nodes. -/
theorem destreeReadsTheTreeBack : Obligations.DestreeReadsTheTreeBack := by
  unfold Obligations.DestreeReadsTheTreeBack
  intro s t rest hb ht hq hn hnode hweight
  obtain ⟨r, hrun⟩ := runsTo_destree (s := s.accept 0x20 [.destree]) rfl [] hn hq
  obtain ⟨hroot, hzero⟩ := destreeInit_loadTree (s := s.accept 0x20 [.destree]) hn hnode hweight
  refine ⟨_, exec_of_runsTo (i := .destree) hb ht (by decide) (by decide) hrun (not_enabled_of_not_busy (by simp)), ?_,
    hroot, hzero⟩
  exact congrArg (fun u => State.complete { u with root := 0, tv := true, inq := rest, stk := [], resume := r })
    (destreeInit_loadTree_frame (s := s.accept 0x20 [.destree]) hn)

end Sys2Proof.Machine

/-! PROOFS. DESTREE over a serialized tree cut short: the checks find the EOS at the first token that is missing (O22). -/

namespace Sys2Proof.Machine

/-! ## Nodes begun (44 R184) -/

theorem nodesBegun_inner (ys : List Byte) : nodesBegun (0x30 :: ys) = 1 + nodesBegun ys := by
  cases ys with
  | nil => rfl
  | cons b ys => exact if_neg (by decide)

theorem nodesBegun_leaf (b : Byte) (ys : List Byte) : nodesBegun (0x31 :: b :: ys) = 1 + nodesBegun ys := if_pos rfl

theorem nodesBegun_ser_append (t : Tree) (ys : List Byte) : nodesBegun (t.ser ++ ys) = t.size + nodesBegun ys := by
  induction t generalizing ys with
  | leaf b => exact nodesBegun_leaf b ys
  | node l r ihl ihr =>
    rw [Tree.ser, List.cons_append, nodesBegun_inner, List.append_assoc, ihl, ihr, Tree.size]
    omega

/-- Two pieces cut short: the cut is inside the first piece, or the first piece is whole. -/
theorem append_cut {α : Type} {xs ys front back : List α} (h : xs ++ ys = front ++ back) :
    (∃ mid, mid ≠ [] ∧ xs = front ++ mid) ∨ ∃ front', front = xs ++ front' ∧ ys = front' ++ back := by
  rcases List.append_eq_append_iff.1 h with hwhole | ⟨mid, hxs, hback⟩
  · exact .inr hwhole
  · by_cases hmid : mid = []
    · subst hmid
      exact .inr ⟨[], by simpa using hxs.symm, by simpa using hback.symm⟩
    · exact .inl ⟨mid, hmid, hxs⟩

/-! ## The cut (44 R184, R190) -/

theorem loadLeft_frame {l : Tree} {s : State} (hl : (s.newNode 0 0).nodeN.toNat + l.size ≤ 511) :
    s.ArenaFrame (s.loadLeft l) :=
  State.ArenaFrame.trans (u := s.newNode 0 0) rfl (congrArg (State.attachLeft s.nodeN (s.nodeN + 1)) (loadTree_frame hl))

/-- A tree cut short up to its 511th node ends in TREE_EOF, wherever DESTREE stands in an outer tree. -/
theorem runsTo_treeEof {s : State} (hb : s.state = .busy) (todo : List Proc) (stk : List StkEntry) (q : List Token)
    {t : Tree} {front back : List Byte} (hser : t.ser = front ++ back) (hback : back ≠ [])
    (hn : s.nodeN.toNat + nodesBegun front ≤ 511) :
    ∃ u, s.ArenaFrame u ∧ (s.awaitingMarker todo stk (byteTokens front ++ .eos :: q)).RunsTo
      (State.fail .treeEof { u with inq := q }) := by
  induction t generalizing s stk front back with
  | leaf b =>
    cases front with
    | nil => exact ⟨s, rfl, runsTo_markerEof hb todo stk q⟩
    | cons m front =>
      obtain ⟨rfl, hsym⟩ := List.cons.inj hser
      obtain rfl : front = [] := by
        rcases List.append_eq_singleton_iff.1 hsym.symm with ⟨hnil, -⟩ | ⟨-, hnil⟩
        · exact hnil
        · exact absurd hnil hback
      have hslot : s.nodeN.toNat < 511 := hn
      exact ⟨{ s.setWeight s.nodeN 0 with nodeN := s.nodeN + 1 }, rfl,
        (runsTo_markerLeaf hb todo stk (.eos :: q) hslot).trans (runsTo_symbolEof hb todo stk q)⟩
  | node l r ihl ihr =>
    cases front with
    | nil => exact ⟨s, rfl, runsTo_markerEof hb todo stk q⟩
    | cons m front =>
      obtain ⟨rfl, hchildren⟩ := List.cons.inj hser
      rw [nodesBegun_inner] at hn
      have hslot : s.nodeN.toNat < 511 := by omega
      have hsucc : (s.newNode 0 0).nodeN.toNat = s.nodeN.toNat + 1 := toNat_succ_of_lt_511 hslot
      have hmark := runsTo_markerInner hb todo stk (byteTokens front ++ .eos :: q) hslot
      rcases append_cut hchildren with ⟨mid, hmid, hleft⟩ | ⟨front', rfl, hright⟩
      · obtain ⟨u, hu, hrun⟩ := ihl (s := s.newNode 0 0) hb ({ h := s.nodeN } :: stk) hleft hmid (by omega)
        exact ⟨u, State.ArenaFrame.trans rfl hu, hmark.trans hrun⟩
      · rw [nodesBegun_ser_append] at hn
        have hl : (s.newNode 0 0).nodeN.toNat + l.size ≤ 511 := by omega
        have hcount : (s.loadLeft l).nodeN.toNat = (s.newNode 0 0).nodeN.toNat + l.size := loadTree_nodeN_toNat hl
        have hframe := loadLeft_frame hl
        obtain ⟨_, hattach⟩ := runsTo_attach (s := s.newNode 0 0) hb todo ({ h := s.nodeN } :: stk)
          (byteTokens front' ++ .eos :: q) hl
        obtain ⟨u, hu, hrun⟩ := ihr (s := s.loadLeft l) ((congrArg State.state hframe).trans hb)
          ({ h := s.nodeN, leftDone := true } :: stk) hright hback (by omega)
        rw [← byteTokens_append, attach_left, runOn_waitIn] at hattach
        exact ⟨u, hframe.trans hu, hmark.trans (hattach.trans hrun)⟩

/-- Settles O22: TREE_EOF is found before the capacity is, and the tree was never finished, so TV is still cleared. -/
theorem destreeReportsATruncatedTree : Obligations.DestreeReportsATruncatedTree := by
  unfold Obligations.DestreeReportsATruncatedTree
  intro s t front back rest hb ht hser hback hn hq
  have hcmd : (0x20 : Byte) ≠ 0x40 ∧ (0x20 : Byte) ≠ 0x41 := by decide
  obtain ⟨u, hu, hrun⟩ := runsTo_treeEof (s := (s.accept 0x20 [.destree]).destreeInit) rfl [] [] rest hser hback
    (by simpa [State.destreeInit] using hn)
  have hstart : runOn [.destree] (.done (s.accept 0x20 [.destree]))
      = (s.accept 0x20 [.destree]).destreeInit.awaitingMarker [] [] (byteTokens front ++ .eos :: rest) :=
    (runOn_destreeStart [] _).trans (by rw [← hq]; rfl)
  rw [← hstart] at hrun
  refine ⟨_, exec_of_runsTo (i := .destree) hb ht (by decide) (by decide) hrun (not_enabled_of_not_busy (by simp)), ?_⟩
  rw [hu]
  exact fail_of_not_macro .treeEof hcmd.1 hcmd.2

end Sys2Proof.Machine

/-! PROOFS. Bit packing: how ACC takes bits, and how the payload grows by one bit (30 R117, 45 R202). -/

namespace Sys2Proof.Machine

/-! ## Bits as numbers -/

/-- A bit shifted into ACC. -/
def shiftBit (a : Byte) (bit : Bool) : Byte := (a <<< 1) ||| (BitVec.ofBool bit).setWidth 8

theorem shiftBit_ofNat (a : Nat) (bit : Bool) : shiftBit (BitVec.ofNat 8 a) bit = BitVec.ofNat 8 (Nat.bit bit a) := by
  refine BitVec.eq_of_getLsbD_eq fun i hi => ?_
  cases i with
  | zero => simp [shiftBit, BitVec.getLsbD_ofNat, -BitVec.getLsbD_eq_getElem]
  | succ i => simp [shiftBit, BitVec.getLsbD_ofNat, Nat.testBit_bit_succ, hi, -BitVec.getLsbD_eq_getElem, Nat.lt_of_succ_lt hi]

theorem shiftLeft_ofNat (a n : Nat) : BitVec.ofNat 8 a <<< n = BitVec.ofNat 8 (a * 2 ^ n) :=
  BitVec.eq_of_toNat_eq (by simp [Nat.shiftLeft_eq])

/-- The first `n` bits of a sequence as a number, the first of them highest, positions past its end 0. -/
def bitsValue (n : Nat) (bits : List Bool) : Nat :=
  ((List.range n).map (fun j => if bits.getD j false then 2 ^ (n - 1 - j) else 0)).sum

theorem bitsValue_nil (n : Nat) : bitsValue n [] = 0 := by simp [bitsValue]

theorem bitsValue_cons (n : Nat) (bit : Bool) (bits : List Bool) :
    bitsValue (n + 1) (bit :: bits) = bit.toNat * 2 ^ n + bitsValue n bits := by
  have hplace : ∀ j, n - 1 - j = n - (j + 1) := by omega
  have hhead : (if bit = true then 2 ^ n else 0) = bit.toNat * 2 ^ n := by cases bit <;> simp
  simp only [bitsValue, List.range_succ_eq_map, List.map_cons, List.map_map, List.sum_cons, Function.comp_def,
    List.getD_cons_zero, List.getD_cons_succ, Nat.add_sub_cancel, Nat.sub_zero, hplace, hhead]

/-- Shifting bits in one after the other, and then zeros up to `n` bits, appends them to the number in ACC. -/
theorem foldl_shiftBit {n : Nat} {bits : List Bool} (h : bits.length ≤ n) (a : Nat) :
    bits.foldl shiftBit (BitVec.ofNat 8 a) <<< (n - bits.length) = BitVec.ofNat 8 (a * 2 ^ n + bitsValue n bits) := by
  induction bits generalizing n a with
  | nil =>
    rw [bitsValue_nil]
    exact shiftLeft_ofNat a n
  | cons bit bits ih =>
    obtain ⟨n, rfl⟩ : ∃ m, n = m + 1 := ⟨n - 1, by simp at h; omega⟩
    rw [List.foldl_cons, shiftBit_ofNat, List.length_cons, Nat.add_sub_add_right, ih (by simpa using h), bitsValue_cons,
      Nat.bit_val]
    congr 1
    ring

/-! ## Payload bytes (30 R117) -/

theorem packByte_eq_bitsValue (bits : List Bool) (k : Nat) :
    packByte bits k = BitVec.ofNat 8 (bitsValue 8 (bits.drop (8 * k))) := by
  simp only [packByte, bitsValue, List.getD_eq_getElem?_getD, List.getElem?_drop]

/-- The last byte is its bits shifted in one after the other, and zeros after them. -/
theorem packByte_last {bits : List Bool} {k : Nat} (h : bits.length ≤ 8 * k + 8) :
    packByte bits k = (bits.drop (8 * k)).foldl shiftBit 0 <<< (8 - (bits.length - 8 * k)) := by
  have hfold := foldl_shiftBit (n := 8) (bits := bits.drop (8 * k)) (by rw [List.length_drop]; omega) 0
  rw [List.length_drop, Nat.zero_mul, Nat.zero_add] at hfold
  rw [packByte_eq_bitsValue]
  exact hfold.symm

/-- A whole byte does not depend on the bits after it. -/
theorem packByte_append {bits : List Bool} {k : Nat} (h : 8 * k + 8 ≤ bits.length) (more : List Bool) :
    packByte (bits ++ more) k = packByte bits k := by
  unfold packByte
  refine congrArg (fun l => BitVec.ofNat 8 (List.sum l)) (List.map_congr_left fun j hj => ?_)
  rw [List.getD_append _ _ _ _ (by rw [List.mem_range] at hj; omega)]

/-! ## Whole bytes and pending bits (45 R202) -/

theorem pendingByte_eq (bits : List Bool) : pendingByte bits = (bits.drop (8 * (bits.length / 8))).foldl shiftBit 0 := rfl

/-- The payload bytes all of whose bits are there. -/
def wholeBytes (bits : List Bool) : List Byte := (List.range (bits.length / 8)).map (packByte bits)

theorem wholeBytes_length (bits : List Bool) : (wholeBytes bits).length = bits.length / 8 := by simp [wholeBytes]

theorem pack_take (bits : List Bool) : (pack bits).take (bits.length / 8) = wholeBytes bits := by
  rw [pack, ← List.map_take, List.take_range, Nat.min_eq_left (by omega)]
  rfl

theorem pack_length (bits : List Bool) : (pack bits).length = (bits.length + 7) / 8 := by simp [pack]

/-- No bit is pending: the payload is its whole bytes. -/
theorem pack_of_mod_eq_zero {bits : List Bool} (h : bits.length % 8 = 0) : pack bits = wholeBytes bits := by
  rw [pack, wholeBytes, show (bits.length + 7) / 8 = bits.length / 8 by omega]

/-- The pending bits are padded to the payload's last byte. -/
theorem pack_of_mod_pos {bits : List Bool} (h : 0 < bits.length % 8) :
    pack bits = wholeBytes bits ++ [pendingByte bits <<< (8 - bits.length % 8)] := by
  have hlast := packByte_last (bits := bits) (k := bits.length / 8) (by omega)
  rw [← pendingByte_eq, show bits.length - 8 * (bits.length / 8) = bits.length % 8 by omega] at hlast
  rw [pack, show (bits.length + 7) / 8 = bits.length / 8 + 1 by omega, List.range_succ, List.map_append, List.map_singleton,
    hlast, wholeBytes]

theorem pendingByte_of_mod_eq_zero {bits : List Bool} (h : bits.length % 8 = 0) : pendingByte bits = 0 := by
  rw [pendingByte_eq, List.drop_eq_nil_of_le (by omega), List.foldl_nil]

theorem map_packByte_append (bits more : List Bool) :
    (List.range (bits.length / 8)).map (packByte (bits ++ more)) = wholeBytes bits :=
  List.map_congr_left fun k hk => packByte_append (by rw [List.mem_range] at hk; omega) more

theorem drop_foldl_concat (bits : List Bool) (bit : Bool) :
    ((bits ++ [bit]).drop (8 * (bits.length / 8))).foldl shiftBit 0 = shiftBit (pendingByte bits) bit := by
  rw [List.drop_append_of_le_length (by omega), List.foldl_append, pendingByte_eq]
  rfl

/-- A bit that fills no byte is pending with those before it. -/
theorem pendingByte_concat {bits : List Bool} (h : bits.length % 8 + 1 ≠ 8) (bit : Bool) :
    pendingByte (bits ++ [bit]) = shiftBit (pendingByte bits) bit := by
  rw [← drop_foldl_concat, pendingByte_eq, List.length_append, List.length_singleton,
    show (bits.length + 1) / 8 = bits.length / 8 by omega]

theorem wholeBytes_concat {bits : List Bool} (h : bits.length % 8 + 1 ≠ 8) (bit : Bool) :
    wholeBytes (bits ++ [bit]) = wholeBytes bits := by
  rw [wholeBytes, List.length_append, List.length_singleton, show (bits.length + 1) / 8 = bits.length / 8 by omega,
    map_packByte_append]

/-- The eighth bit makes the pending bits a whole byte. -/
theorem wholeBytes_concat_full {bits : List Bool} (h : bits.length % 8 + 1 = 8) (bit : Bool) :
    wholeBytes (bits ++ [bit]) = wholeBytes bits ++ [shiftBit (pendingByte bits) bit] := by
  have hlen : (bits ++ [bit]).length = 8 * (bits.length / 8) + 8 := by
    rw [List.length_append, List.length_singleton]
    omega
  have hlast := packByte_last (bits := bits ++ [bit]) (k := bits.length / 8) hlen.le
  rw [drop_foldl_concat, hlen, Nat.add_sub_cancel_left, Nat.sub_self, BitVec.shiftLeft_zero] at hlast
  rw [wholeBytes, hlen, show (8 * (bits.length / 8) + 8) / 8 = bits.length / 8 + 1 by omega, List.range_succ,
    List.map_append, map_packByte_append, List.map_singleton, hlast]

end Sys2Proof.Machine

/-! PROOFS. The encoder as a run of the engine: the bits of a code, the bytes of a stream, its EOS, and what ENCODE makes of
them (O27 to O29). -/

namespace Sys2Proof.Machine

/-! ## The accumulator (45 R201, R202) -/

/-- A procedure that comes to an `out_put` with room in OUT goes on after it; `r` is the point it stood at. -/
theorem runsTo_waitOut {s : State} (hb : s.state = .busy) (todo : List Proc) (b : Byte) (k : OutPoint)
    (hroom : s.outq.length < s.outDepth) :
    ∃ r, (runOn todo (.waitOut b k s)).RunsTo
      (runOn todo (afterOut k { s with outq := s.outq ++ [b], resume := r })) := by
  rw [runOn_waitOut]
  exact ⟨.outPut b k todo, runsTo_out hb rfl hroom⟩

/-- The block `s` at `r` with `bits` encoded since: the whole bytes put, the bits of an unfinished byte in ACC. -/
def State.packed (bits : List Bool) (r : Resume) (s : State) : State :=
  { s with outq := s.outq ++ wholeBytes bits, acc := pendingByte bits, nacc := bits.length % 8, resume := r }

theorem packed_addBit {bits : List Bool} (h : bits.length % 8 + 1 ≠ 8) (bit : Bool) (r : Resume) (s : State) :
    (s.packed bits r).addBit bit = s.packed (bits ++ [bit]) r := by
  have hlen : bits.length % 8 + 1 = (bits ++ [bit]).length % 8 := by simp; omega
  rw [State.packed, State.packed, wholeBytes_concat h, pendingByte_concat h, ← hlen]
  rfl

/-- The eighth bit's byte is put, and ACC is empty. -/
theorem packed_putByte {bits : List Bool} (h : bits.length % 8 + 1 = 8) (bit : Bool) (r r' : Resume) (s : State) :
    { s.packed bits r with
      outq := (s.packed bits r).outq ++ [((s.packed bits r).addBit bit).acc], acc := 0, nacc := 0, resume := r' }
      = s.packed (bits ++ [bit]) r' := by
  have hlen : (bits ++ [bit]).length % 8 = 0 := by simp; omega
  rw [State.packed, State.packed, wholeBytes_concat_full h, pendingByte_of_mod_eq_zero hlen, hlen, ← List.append_assoc]
  rfl

theorem encodeBits_succ_full (b : Byte) (j : Nat) {s : State} (h : s.nacc + 1 = 8) :
    encodeBits b (j + 1) s
      = .waitOut (s.addBit ((s.bitsAt b).getLsbD j)).acc (.codeBits b j) { s with acc := 0, nacc := 0 } := if_pos h

theorem encodeBits_succ (b : Byte) (j : Nat) {s : State} (h : s.nacc + 1 ≠ 8) :
    encodeBits b (j + 1) s = encodeBits b j (s.addBit ((s.bitsAt b).getLsbD j)) := if_neg h

/-- The next bit of a code is added, and its byte is put where it fills one and OUT has room. -/
theorem runsTo_encodeBits_succ {s : State} (hb : s.state = .busy) (todo : List Proc) (b : Byte) (j : Nat) (bits : List Bool)
    (r : Resume) (hroom : s.outq.length + (bits.length + 1) / 8 ≤ s.outDepth) :
    ∃ r', (runOn todo (encodeBits b (j + 1) (s.packed bits r))).RunsTo
      (runOn todo (encodeBits b j (s.packed (bits ++ [(s.bitsAt b).getLsbD j]) r'))) := by
  by_cases hfull : bits.length % 8 + 1 = 8
  · have hfree : (s.outq ++ wholeBytes bits).length < s.outDepth := by
      rw [List.length_append, wholeBytes_length]
      omega
    obtain ⟨r', hput⟩ := runsTo_waitOut (s := { s.packed bits r with acc := 0, nacc := 0 }) hb todo
      (State.addBit ((s.bitsAt b).getLsbD j) (s.packed bits r)).acc (.codeBits b j) hfree
    rw [encodeBits_succ_full b j (s := s.packed bits r) hfull]
    exact ⟨r', by rw [← packed_putByte hfull _ r]; exact hput⟩
  · rw [encodeBits_succ b j (s := s.packed bits r) hfull]
    exact ⟨r, by rw [← packed_addBit hfull]; exact .refl _⟩

/-- The bits of the code of `b` still to add when `left` of them are. -/
def State.codeRest (b : Byte) (left : Nat) (s : State) : List Bool :=
  (List.range left).map (fun i => (s.bitsAt b).getLsbD (left - 1 - i))

theorem codeRest_lenAt (b : Byte) (s : State) : s.codeRest b (s.lenAt b).toNat = s.codeOf b := rfl

theorem codeRest_succ (b : Byte) (j : Nat) (s : State) :
    s.codeRest b (j + 1) = (s.bitsAt b).getLsbD j :: s.codeRest b j := by
  rw [State.codeRest, State.codeRest, List.range_succ_eq_map, List.map_cons, List.map_map]
  simp [Function.comp_def, Nat.sub_sub, Nat.add_comm]

/-- The rest of the code of `b` is added where OUT has room for the bytes it fills, and the byte is counted. -/
theorem runsTo_encodeBits {s : State} (hb : s.state = .busy) (todo : List Proc) (b : Byte) (left : Nat) (bits : List Bool)
    (r : Resume) (hroom : s.outq.length + (bits ++ s.codeRest b left).length / 8 ≤ s.outDepth) :
    (runOn todo (encodeBits b left (s.packed bits r))).RunsTo
      { s.packed (bits ++ s.codeRest b left) (.inNext .encode todo) with cnt := s.cnt + 1, progress := s.cnt + 1 } := by
  induction left generalizing bits r with
  | zero =>
    rw [encodeBits, runOn_waitIn, State.codeRest, List.range_zero, List.map_nil, List.append_nil]
    exact .refl _
  | succ j ih =>
    rw [codeRest_succ, List.append_cons] at hroom ⊢
    have hbit : s.outq.length + (bits.length + 1) / 8 ≤ s.outDepth := by
      simp only [List.length_append, List.length_singleton] at hroom
      omega
    obtain ⟨r', hnext⟩ := runsTo_encodeBits_succ hb todo b j bits r hbit
    exact hnext.trans (ih _ r' hroom)

/-! ## The stream (45 R201) -/

/-- The block `s` in ENCODE's `in_next`, with the bytes `xs` encoded, `q` left in IN and the procedures `todo` to follow. -/
def State.encoding (todo : List Proc) (xs : List Byte) (q : List Token) (s : State) : State :=
  { s.packed (xs.flatMap s.codeOf) (.inNext .encode todo) with
    inq := q
    cnt := BitVec.ofNat 64 xs.length
    progress := BitVec.ofNat 64 xs.length }

theorem runOn_encodeStart (todo : List Proc) (s : State) :
    runOn todo (encodeStart s) = (s.setPhase .encode).encoding todo [] s.inq := by
  rw [encodeStart, runOn_waitIn]
  simp [State.encoding, State.packed, wholeBytes, pendingByte]

theorem runsTo_encodeToken {s : State} (hb : s.state = .busy) (todo : List Proc) (xs : List Byte) (t : Token)
    (q : List Token) : (s.encoding todo xs (t :: q)).RunsTo (runOn todo (encodeToken t (s.encoding todo xs q))) :=
  runsTo_in (s := s.encoding todo xs (t :: q)) hb rfl rfl

theorem encodeToken_noCode {b : Byte} {s : State} (h : s.lenAt b = 0) :
    encodeToken (.byte b) s = .failed .noCode s := if_pos h

theorem encodeToken_countFull {b : Byte} {s : State} (h : s.lenAt b ≠ 0) (hcnt : s.cnt = BitVec.allOnes 64) :
    encodeToken (.byte b) s = .failed .lengthMismatch s := (if_neg h).trans (if_pos hcnt)

theorem encodeToken_byte {b : Byte} {s : State} (h : s.lenAt b ≠ 0) (hcnt : s.cnt ≠ BitVec.allOnes 64) :
    encodeToken (.byte b) s = encodeBits b (s.lenAt b).toNat s := (if_neg h).trans (if_neg hcnt)

theorem encodeToken_eos {s : State} (h : s.nacc = 0) : encodeToken .eos s = encodeEnd s := if_neg (by omega)

theorem encodeToken_eos_pending {s : State} (h : 0 < s.nacc) :
    encodeToken .eos s = .waitOut (s.acc <<< (8 - s.nacc)) .padded s := if_pos h

theorem ofNat_ne_allOnes {n : Nat} (h : n + 1 < 2 ^ 64) : BitVec.ofNat 64 n ≠ BitVec.allOnes 64 := by
  rw [← BitVec.toNat_inj.ne, BitVec.toNat_ofNat, BitVec.toNat_allOnes]
  omega

/-- A byte with a code is encoded where OUT has room, and ENCODE stands at its `in_next` again. -/
theorem runsTo_encoding_byte {s : State} (hb : s.state = .busy) (todo : List Proc) (xs : List Byte) {b : Byte}
    (q : List Token) (hcode : s.lenAt b ≠ 0) (hlen : xs.length + 1 < 2 ^ 64)
    (hroom : s.outq.length + ((xs ++ [b]).flatMap s.codeOf).length / 8 ≤ s.outDepth) :
    (s.encoding todo xs (.byte b :: q)).RunsTo (s.encoding todo (xs ++ [b]) q) := by
  have hbits : (xs ++ [b]).flatMap s.codeOf = xs.flatMap s.codeOf ++ s.codeRest b (s.lenAt b).toNat := by
    rw [List.flatMap_append, List.flatMap_singleton, codeRest_lenAt]
  rw [hbits] at hroom
  have htake := runsTo_encodeToken hb todo xs (.byte b) q
  have hcodeBits := runsTo_encodeBits (s := { s with
    inq := q, cnt := BitVec.ofNat 64 xs.length, progress := BitVec.ofNat 64 xs.length })
    hb todo b (s.lenAt b).toNat (xs.flatMap s.codeOf) (.inNext .encode todo) hroom
  rw [encodeToken_byte (s := s.encoding todo xs q) hcode (ofNat_ne_allOnes hlen)] at htake
  unfold State.encoding at htake ⊢
  rw [hbits, ofNat_length_concat]
  exact htake.trans hcodeBits

/-- The bytes of a stream that all have codes are encoded one after the other. -/
theorem runsTo_encoding {s : State} (hb : s.state = .busy) (todo : List Proc) (xs : List Byte) (q : List Token)
    (hcode : ∀ b ∈ xs, s.lenAt b ≠ 0) (hlen : xs.length < 2 ^ 64)
    (hroom : s.outq.length + (xs.flatMap s.codeOf).length / 8 ≤ s.outDepth) :
    (s.encoding todo [] (byteTokens xs ++ q)).RunsTo (s.encoding todo xs q) := by
  induction xs using List.reverseRecOn generalizing q with
  | nil => exact .refl _
  | append_singleton xs b ih =>
    have hlast := runsTo_encoding_byte hb todo xs q (hcode b (by simp)) (by simpa using hlen) hroom
    simp only [List.length_append, List.flatMap_append, List.length_singleton] at hlen hroom
    rw [byteTokens_append]
    exact (ih (.byte b :: q) (fun c hc => hcode c (List.mem_append_left _ hc)) (by omega) (by omega)).trans hlast

/-- The block `s` before ENCODE's length check, with the whole payload of `xs` put, `q` left in IN, and the engine at `r`. -/
def State.payloadPut (xs : List Byte) (q : List Token) (r : Resume) (s : State) : State :=
  { s with
    outq := s.outq ++ pack (xs.flatMap s.codeOf)
    inq := q
    acc := 0
    nacc := 0
    cnt := BitVec.ofNat 64 xs.length
    progress := BitVec.ofNat 64 xs.length
    resume := r }

/-- No bit is pending at the EOS. -/
theorem encoding_eq_payloadPut {xs : List Byte} {s : State} (h : (xs.flatMap s.codeOf).length % 8 = 0) (todo : List Proc)
    (q : List Token) : s.encoding todo xs q = s.payloadPut xs q (.inNext .encode todo) := by
  rw [State.encoding, State.packed, State.payloadPut, pack_of_mod_eq_zero h, pendingByte_of_mod_eq_zero h, h]

/-- The EOS is taken, the pending bits are padded and put, and the length check is next. The point `r` is the last one of
`encode()`, which whatever follows replaces. -/
theorem runsTo_encoding_eos {s : State} (hb : s.state = .busy) (todo : List Proc) (xs : List Byte) (q : List Token)
    (hroom : s.outq.length + (pack (xs.flatMap s.codeOf)).length ≤ s.outDepth) :
    ∃ r, (s.encoding todo xs (.eos :: q)).RunsTo (runOn todo (encodeEnd (s.payloadPut xs q r))) := by
  have htake := runsTo_encodeToken hb todo xs .eos q
  rcases Nat.eq_zero_or_pos ((xs.flatMap s.codeOf).length % 8) with hnone | hsome
  · rw [encodeToken_eos (s := s.encoding todo xs q) hnone, encoding_eq_payloadPut hnone todo q] at htake
    exact ⟨_, htake⟩
  · rw [encodeToken_eos_pending (s := s.encoding todo xs q) hsome] at htake
    rw [pack_of_mod_pos hsome, List.length_append, List.length_singleton] at hroom
    have hfree : (s.outq ++ wholeBytes (xs.flatMap s.codeOf)).length < s.outDepth := by
      rw [List.length_append]
      omega
    obtain ⟨r, hput⟩ := runsTo_waitOut (s := s.encoding todo xs q) hb todo
      ((s.encoding todo xs q).acc <<< (8 - (s.encoding todo xs q).nacc)) .padded hfree
    refine ⟨r, htake.trans ?_⟩
    rw [State.payloadPut, pack_of_mod_pos hsome, ← List.append_assoc]
    exact hput

/-- `encode()` over a stream whose bytes all have codes, where OUT has room for its payload. -/
theorem runsTo_encode {s : State} (hb : s.state = .busy) (todo : List Proc) {xs : List Byte} {rest : List Token}
    (hq : s.inq = byteTokens xs ++ .eos :: rest) (hcode : ∀ b ∈ xs, s.lenAt b ≠ 0) (hlen : xs.length < 2 ^ 64)
    (hroom : s.outq.length + (pack (xs.flatMap s.codeOf)).length ≤ s.outDepth) :
    ∃ r, (runOn todo (encodeStart s)).RunsTo
      (runOn todo (encodeEnd ((s.setPhase .encode).payloadPut xs rest r))) := by
  have hwhole : s.outq.length + (xs.flatMap s.codeOf).length / 8 ≤ s.outDepth := by
    rw [pack_length] at hroom
    omega
  have hbytes := runsTo_encoding (s := s.setPhase .encode) hb todo xs (.eos :: rest) hcode hlen hwhole
  obtain ⟨r, heos⟩ := runsTo_encoding_eos (s := s.setPhase .encode) hb todo xs rest hroom
  rw [runOn_encodeStart, hq]
  exact ⟨r, hbytes.trans heos⟩

/-! ## The command (45 R201, R203, R204) -/

/-- The check of CV passes over a valid code table (30 R106). -/
theorem runOn_needCv (todo : List Proc) {s : State} (h : s.cv = true) :
    runOn (.needCv :: todo) (.done s) = runOn todo (.done s) := by
  have hcheck : startProc .needCv s = .done s := if_pos h
  rw [runOn_cons_done, hcheck]

/-- ENCODE over a valid code table ends where `encode()` leads. -/
theorem exec_encode_of_runsTo {s t : State} (hb : s.state ≠ .busy) (ht : s.turns = []) (hcv : s.cv = true)
    (h : (runOn [] (encodeStart (s.accept 0x15 [.needCv, .encode]))).RunsTo t) (he : t.enabled = false) :
    exec .encode s = .next t := by
  refine exec_of_runsTo (i := .encode) hb ht (by decide) (by decide) ?_ he
  have hcheck : runOn [.needCv, .encode] (.done (s.accept 0x15 [.needCv, .encode]))
      = runOn [] (encodeStart (s.accept 0x15 [.needCv, .encode])) := runOn_needCv [.encode] hcv
  rwa [← hcheck] at h

theorem encodeEnd_of_eq {s : State} (h : s.cnt = s.size) : encodeEnd s = .done s := if_pos h

theorem encodeEnd_of_ne {s : State} (h : s.cnt ≠ s.size) : encodeEnd s = .failed .lengthMismatch s := if_neg h

theorem encode_not_macro : (0x15 : Byte) ≠ 0x40 ∧ (0x15 : Byte) ≠ 0x41 := by decide

/-- Settles O27: SIZE is the number of bytes encoded, so the length check passes after the payload. -/
theorem encodePacksTheCodes : Obligations.EncodePacksTheCodes := by
  unfold Obligations.EncodePacksTheCodes
  intro s xs rest hb ht hcv hq hcode hlen hsize hroom
  obtain ⟨r, hrun⟩ := runsTo_encode (s := s.accept 0x15 [.needCv, .encode]) rfl [] hq hcode hlen hroom
  rw [encodeEnd_of_eq (s := ((s.accept 0x15 [.needCv, .encode]).setPhase .encode).payloadPut xs rest r) hsize.symm,
    runOn_nil_done] at hrun
  rw [exec_encode_of_runsTo hb ht hcv hrun (not_enabled_of_not_busy (by simp)), State.payloadPut, ← hsize]
  rfl

/-- Settles O28: the bytes before the one without a code have been encoded, and `fail` leaves OUT and ACC alone. -/
theorem encodeStopsAtAByteWithoutCode : Obligations.EncodeStopsAtAByteWithoutCode := by
  unfold Obligations.EncodeStopsAtAByteWithoutCode
  intro s xs b rest hb ht hcv hq hcode hnone hlen hroom
  have hrun := (runsTo_encoding (s := (s.accept 0x15 [.needCv, .encode]).setPhase .encode) rfl [] xs (.byte b :: rest) hcode
    hlen hroom).trans (runsTo_encodeToken rfl [] xs (.byte b) rest)
  rw [← hq, encodeToken_noCode (s := ((s.accept 0x15 [.needCv, .encode]).setPhase .encode).encoding [] xs rest) hnone,
    runOn_failed] at hrun
  rw [exec_encode_of_runsTo hb ht hcv ((runOn_encodeStart [] _).symm ▸ hrun) (not_enabled_of_not_busy (by simp)), pack_take]
  exact congrArg Host.Outcome.next (fail_of_not_macro .noCode encode_not_macro.1 encode_not_macro.2)

/-- Settles O29: the length check follows the whole payload, and the early check follows the look-up of the code. -/
theorem encodeReportsALengthMismatch : Obligations.EncodeReportsALengthMismatch := by
  unfold Obligations.EncodeReportsALengthMismatch
  constructor
  · intro s xs rest hb ht hcv hq hcode hlen hsize hroom
    obtain ⟨r, hrun⟩ := runsTo_encode (s := s.accept 0x15 [.needCv, .encode]) rfl [] hq hcode hlen hroom
    rw [encodeEnd_of_ne (s := ((s.accept 0x15 [.needCv, .encode]).setPhase .encode).payloadPut xs rest r) hsize.symm,
      runOn_failed] at hrun
    rw [exec_encode_of_runsTo hb ht hcv hrun (not_enabled_of_not_busy (by simp))]
    exact congrArg Host.Outcome.next (fail_of_not_macro .lengthMismatch encode_not_macro.1 encode_not_macro.2)
  · intro s b rest todo hb hr hq hcode hcnt
    rw [engineStep_in hb hr hq, afterIn, encodeToken_countFull (s := { s with inq := rest }) hcode hcnt, runOn_failed]
    rfl

end Sys2Proof.Machine

/-! PROOFS. No procedure raises BAD_TOPOLOGY, so no step does (O40). -/

namespace Sys2Proof.Machine

/-- ERR is not the reserved code 0x41 (60 R231). -/
def State.NoBadTopology (s : State) : Prop := s.err ≠ .badTopology

/-- BAD_TOPOLOGY is no procedure's error (46 R216). -/
theorem badTopology_not_mem_errsOf (p : Proc) : Err.badTopology ∉ errsOf p := by cases p <;> decide

/-- A procedure leaves ERR alone or fails with an error of its own. -/
theorem StopsIn.leads_noBadTopology {p : Proc} {r : Run} (hr : StopsIn p r) (todo : List Proc)
    (h : r.final.NoBadTopology) : r.Leads (fun _ => State.NoBadTopology) State.NoBadTopology todo := by
  cases r with
  | failed e s =>
    intro he
    exact badTopology_not_mem_errsOf p (he ▸ hr)
  | _ => exact h

theorem noBadTopology_of_hostSide {r : Run} {s : State} (hh : r.final.hostSide = s.hostSide) (h : s.NoBadTopology) :
    r.final.NoBadTopology := by
  obtain ⟨-, herr, -⟩ := final_status hh
  rwa [State.NoBadTopology, herr]

/-- The engine raises no BAD_TOPOLOGY. -/
theorem noBadTopology_carries : Carries (fun _ => State.NoBadTopology) State.NoBadTopology where
  complete _ h := h
  proc p todo s h := (startProc_stops p s).leads_noBadTopology todo
    (noBadTopology_of_hostSide (startProc_hostSide p s _ rfl) h)
  start _ _ _ _ h := h
  input _ k todo t _ _ _ h := (afterIn_stops k t _).leads_noBadTopology todo
    (noBadTopology_of_hostSide (afterIn_hostSide k t _ _ rfl) h)
  output _ _ k todo _ _ h := (afterOut_stops k _).leads_noBadTopology todo
    (noBadTopology_of_hostSide (afterOut_hostSide k _ _ rfl) h)

/-- No act of the host raises it: a reset clears ERR, and an illegal word is ILLEGAL_COMMAND. -/
theorem HostEffect.keeps_noBadTopology {s u : State} (hu : HostEffect s u) (h : s.NoBadTopology) : u.NoBadTopology := by
  cases hu with
  | resetDone r => simp [State.NoBadTopology, State.reset]
  | illegal v hb => simp [State.NoBadTopology]
  | _ => exact h

/-- Settles O40: the engine and the acts of the host raise none, and an accepted word clears ERR. -/
theorem badTopologyIsNeverRaised : Obligations.BadTopologyIsNeverRaised := by
  unfold Obligations.BadTopologyIsNeverRaised
  intro s h
  obtain ⟨t, hst⟩ := step_next s
  exact ⟨t, hst, step_keeps State.NoBadTopology (fun _ _ h => h) (fun _ _ h => h) noBadTopology_carries.engineStep
    (fun _ _ _ => by simp [State.NoBadTopology]) (fun _ _ _ _ _ => by simp [State.NoBadTopology])
    (fun _ _ hu h => hu.keeps_noBadTopology h) s t h hst⟩

end Sys2Proof.Machine

/-! PROOFS. The bits DECODE reads: BITBUF with the bytes after it is a bit source, and what is left of it says how many bytes
have been taken (46 R211). -/

namespace Sys2Proof.Machine

/-! ## The bit source (46 R211) -/

/-- The unconsumed bits of BITBUF when there are `n` of them, the next one first. -/
def heldBits (n : Nat) (buf : Byte) : List Bool := (List.range n).map (fun j => buf.getLsbD (7 - j))

theorem heldBits_length (n : Nat) (buf : Byte) : (heldBits n buf).length = n := by simp [heldBits]

/-- The next bit is bit 7, and shifting brings up the one after it. -/
theorem heldBits_succ {n : Nat} (hn : n ≤ 7) (buf : Byte) :
    heldBits (n + 1) buf = buf.getLsbD 7 :: heldBits n (buf <<< 1) := by
  rw [heldBits, List.range_succ_eq_map, List.map_cons, List.map_map]
  refine congrArg (_ :: ·) (List.map_congr_left fun j hj => ?_)
  have hj7 : j < 7 := lt_of_lt_of_le (List.mem_range.1 hj) hn
  have hlt : 7 - j < 8 := by omega
  have hpos : ¬ 7 - j < 1 := by omega
  simp only [Function.comp_apply, Nat.succ_eq_add_one, Nat.sub_add_eq, BitVec.getLsbD_shiftLeft, hlt, hpos, decide_true,
    decide_false, Bool.not_false, Bool.true_and]

theorem bytesBits_cons (b : Byte) (ys : List Byte) : bytesBits (b :: ys) = heldBits 8 b ++ bytesBits ys := rfl

theorem bytesBits_length (ys : List Byte) : (bytesBits ys).length = 8 * ys.length := by
  induction ys with
  | nil => rfl
  | cons b ys ih =>
    rw [bytesBits_cons, List.length_append, heldBits_length, ih, List.length_cons]
    omega

/-- What DECODE reads from: `held` bits in BITBUF = `buf`, and the payload bytes `bytes` still in IN. -/
structure BitSource where
  held : Nat
  buf : Byte
  bytes : List Byte

/-- The bits it gives, in order. -/
def BitSource.bits (f : BitSource) : List Bool := heldBits f.held f.buf ++ bytesBits f.bytes

theorem BitSource.bits_length (f : BitSource) : f.bits.length = f.held + 8 * f.bytes.length := by
  rw [BitSource.bits, List.length_append, heldBits_length, bytesBits_length]

theorem BitSource.eq_of_bits_nil {f : BitSource} (h : f.bits = []) : ∃ buf, f = ⟨0, buf, []⟩ := by
  obtain ⟨held, buf, bytes⟩ := f
  have hlen : held + 8 * bytes.length = 0 := (BitSource.bits_length _).symm.trans (congrArg List.length h)
  obtain rfl : held = 0 := by omega
  obtain rfl : bytes = [] := List.eq_nil_of_length_eq_zero (by omega)
  exact ⟨buf, rfl⟩

/-- Between two bits at most 7 are held, and the bytes left are the last of the payload `ys`. -/
def BitSource.Of (ys : List Byte) (f : BitSource) : Prop := f.held ≤ 7 ∧ f.bytes <:+ ys

/-- For the bits taken, the fewest bytes that hold them have been taken (46 R214). -/
theorem BitSource.Of.bytes_eq {ys : List Byte} {f : BitSource} (h : f.Of ys) :
    f.bytes = ys.drop (((bytesBits ys).length - f.bits.length + 7) / 8) := by
  obtain ⟨hheld, hsuffix⟩ := h
  have hlen : f.bytes.length ≤ ys.length := hsuffix.length_le
  have hcount : ((bytesBits ys).length - f.bits.length + 7) / 8 = ys.length - f.bytes.length := by
    rw [bytesBits_length, BitSource.bits_length]
    omega
  rw [hcount]
  exact List.suffix_iff_eq_drop.1 hsuffix

/-! ## The symbols (46 R212) -/

theorem dec_succ_none {t : Tree} {bs : List Bool} (h : t.nextSymbol bs = none) (n : Nat) :
    t.dec (n + 1) bs = ([], none) := by
  rw [Tree.dec, h]

theorem dec_succ_some {t : Tree} {bs rest : List Bool} {b : Byte} (h : t.nextSymbol bs = some (b, rest)) (n : Nat) :
    t.dec (n + 1) bs = (b :: (t.dec n rest).1, (t.dec n rest).2) := by
  rw [Tree.dec, h]

/-- A payload that is not truncated gives all its symbols. -/
theorem dec_length {t : Tree} {n : Nat} {bs left : List Bool} {xs : List Byte} (h : t.dec n bs = (xs, some left)) :
    xs.length = n := by
  induction n generalizing bs xs with
  | zero =>
    cases h
    rfl
  | succ n ih =>
    cases hnext : t.nextSymbol bs with
    | none =>
      rw [dec_succ_none hnext] at h
      cases h
    | some p =>
      rw [dec_succ_some hnext] at h
      obtain ⟨rfl, hleft⟩ := Prod.mk.inj h
      rw [List.length_cons, ih (Prod.ext rfl hleft)]

end Sys2Proof.Machine

/-! PROOFS. The decoder as a run of the engine: one bit, one walk, the loop over the symbols, and what DECODE makes of them (O30
to O32). -/

namespace Sys2Proof.Machine

/-! ## DECODE between two bits (46 R211) -/

/-- The block `s` in DECODE at `r`, with the symbols `xs` put, CUR = `h`, and `f` followed by the tokens `q` to read. -/
def State.decoding (q : List Token) (xs : List Byte) (f : BitSource) (h : Handle) (r : Resume) (s : State) : State :=
  { s with
    outq := s.outq ++ xs
    inq := byteTokens f.bytes ++ q
    cnt := BitVec.ofNat 64 xs.length
    progress := BitVec.ofNat 64 xs.length
    cur := h
    bitbuf := f.buf
    nbits := f.held
    resume := r }

/-- What one bit leads to once it is taken (46 R211, R213). -/
def decodeEdge (bit : Bool) (next : State → Run) (s : State) : Run :=
  if s.isLeaf s.root then .waitOut (s.symOf s.root) .rootSymbol s else decodeAt next (s.walkEdge bit)

theorem decodeBit_eq (next : State → Run) (s : State) :
    decodeBit next s = decodeEdge (s.bitbuf.getLsbD 7) next s.takeBit := rfl

theorem decodeLoop_of_eq {s : State} (h : s.cnt = s.size) (n : Nat) : decodeLoop n s = .done s := by
  cases n <;> exact if_pos h

theorem decodeLoop_zero {s : State} (h : s.cnt ≠ s.size) : decodeLoop 0 s = .waitIn .decode s := if_neg h

theorem decodeLoop_succ {s : State} (h : s.cnt ≠ s.size) (n : Nat) :
    decodeLoop (n + 1) s = decodeBit (decodeLoop n) s := if_neg h

theorem decodeAt_leaf (next : State → Run) {s : State} (h : s.isLeaf s.cur = true) :
    decodeAt next s = .waitOut (s.symOf s.cur) .leafReached s := if_pos h

theorem decodeAt_inner (next : State → Run) {s : State} (h : s.isLeaf s.cur = false) : decodeAt next s = next s :=
  if_neg (Bool.eq_false_iff.1 h)

theorem decodeEdge_leaf (bit : Bool) (next : State → Run) {s : State} (h : s.isLeaf s.root = true) :
    decodeEdge bit next s = .waitOut (s.symOf s.root) .rootSymbol s := if_pos h

theorem decodeEdge_inner (bit : Bool) (next : State → Run) {s : State} (h : s.isLeaf s.root = false) :
    decodeEdge bit next s = decodeAt next (s.walkEdge bit) := if_neg (Bool.eq_false_iff.1 h)

theorem ofNat_ne_of_lt_toNat {n : Nat} {v : DWord} (h : n < v.toNat) : BitVec.ofNat 64 n ≠ v := by
  rintro rfl
  rw [BitVec.toNat_ofNat] at h
  exact absurd h (Nat.mod_le n _).not_gt

/-! ## One bit (46 R211) -/

section
variable {s : State} (hb : s.state = .busy) (todo : List Proc) (q : List Token) {ys xs : List Byte} {f : BitSource}
  (h : Handle) (r : Resume)

include hb in
/-- The next bit is taken, from a new byte where BITBUF is empty. -/
theorem runsTo_takeBit (hf : f.Of ys) (hcnt : xs.length < s.size.toNat) {c : Bool} {rest : List Bool}
    (hbits : f.bits = c :: rest) :
    ∃ g r', BitSource.Of ys g ∧ g.bits = rest ∧
      (runOn todo (decodeLoop f.held (s.decoding q xs f h r))).RunsTo
        (runOn todo (decodeEdge c (decodeLoop g.held) (s.decoding q xs g h r'))) := by
  have hne : (s.decoding q xs f h r).cnt ≠ s.size := ofNat_ne_of_lt_toNat hcnt
  obtain ⟨held, buf, bytes⟩ := f
  obtain ⟨hheld, hsuffix⟩ := hf
  cases held with
  | succ n =>
    have hn : n ≤ 7 := Nat.le_of_succ_le hheld
    obtain ⟨rfl, rfl⟩ : buf.getLsbD 7 = c ∧ heldBits n (buf <<< 1) ++ bytesBits bytes = rest := by
      rw [BitSource.bits, heldBits_succ hn] at hbits
      exact List.cons.inj hbits
    refine ⟨⟨n, buf <<< 1, bytes⟩, r, ⟨hn, hsuffix⟩, rfl, ?_⟩
    rw [decodeLoop_succ (s := s.decoding ..) hne, decodeBit_eq]
    exact .refl _
  | zero =>
    cases bytes with
    | nil => cases hbits
    | cons b bytes =>
      obtain ⟨rfl, rfl⟩ : b.getLsbD 7 = c ∧ heldBits 7 (b <<< 1) ++ bytesBits bytes = rest := by
        have hnew : BitSource.bits ⟨0, buf, b :: bytes⟩ = heldBits 8 b ++ bytesBits bytes := rfl
        rw [hnew, heldBits_succ (le_refl 7)] at hbits
        exact List.cons.inj hbits
      refine ⟨⟨7, b <<< 1, bytes⟩, .inNext .decode todo, ⟨le_refl 7, (List.suffix_cons b bytes).trans hsuffix⟩, rfl, ?_⟩
      rw [decodeLoop_zero (s := s.decoding ..) hne, runOn_waitIn]
      exact runsTo_in (s := s.decoding q xs ⟨0, buf, b :: bytes⟩ h (.inNext .decode todo)) hb rfl rfl

/-! ## One symbol (46 R212, R213) -/

/-- Where DECODE comes to from `u` with `xs` put, if the next symbol and the bits left are `o`: its `in_next` with the payload
`ys` used up, or, where OUT has room, the root with the symbol put. -/
def State.walksTo (s : State) (todo : List Proc) (q : List Token) (ys xs : List Byte) (u : State) :
    Option (Byte × List Bool) → Prop
  | none => ∃ buf h, u.RunsTo (s.decoding q xs ⟨0, buf, []⟩ h (.inNext .decode todo))
  | some (b, rest) => s.outq.length + xs.length < s.outDepth → ∃ g r, BitSource.Of ys g ∧ g.bits = rest ∧
      u.RunsTo (runOn todo (decodeLoop g.held (s.decoding q (xs ++ [b]) g s.root r)))

variable {todo q} in
theorem State.walksTo.after {u v : State} {o : Option (Byte × List Bool)} (hv : s.walksTo todo q ys xs v o)
    (hu : u.RunsTo v) : s.walksTo todo q ys xs u o := by
  cases o with
  | none =>
    obtain ⟨buf, h, hrun⟩ := hv
    exact ⟨buf, h, hu.trans hrun⟩
  | some p =>
    intro hroom
    obtain ⟨g, r, hg, hrest, hrun⟩ := hv hroom
    exact ⟨g, r, hg, hrest, hu.trans hrun⟩

/-- With no bit left DECODE stands at its `in_next`. -/
theorem walksTo_dry (hcnt : xs.length < s.size.toNat) (hbits : f.bits = []) :
    s.walksTo todo q ys xs (runOn todo (decodeLoop f.held (s.decoding q xs f h r))) none := by
  obtain ⟨buf, rfl⟩ := BitSource.eq_of_bits_nil hbits
  refine ⟨buf, h, ?_⟩
  rw [decodeLoop_zero (s := s.decoding ..) (ofNat_ne_of_lt_toNat hcnt), runOn_waitIn]
  exact .refl _

/-- A symbol just put is counted. -/
theorem decoding_countSymbol (b : Byte) (r' : Resume) :
    State.countSymbol { s.decoding q xs f h r with outq := (s.decoding q xs f h r).outq ++ [b], resume := r' }
      = s.decoding q (xs ++ [b]) f h r' := by
  unfold State.decoding
  rw [ofNat_length_concat, ← List.append_assoc]
  rfl

include hb in
/-- The symbol found is put and counted, and the next walk is from the root, where CUR still is in a single-leaf tree. -/
theorem walksTo_put (hf : f.Of ys) (b : Byte) {k : OutPoint} (hk : k = .leafReached ∨ k = .rootSymbol ∧ h = s.root) :
    s.walksTo todo q ys xs (runOn todo (.waitOut b k (s.decoding q xs f h r))) (some (b, f.bits)) := by
  intro hroom
  obtain ⟨r', hrun⟩ := runsTo_waitOut (s := s.decoding q xs f h r) hb todo b k (by simpa [State.decoding] using hroom)
  refine ⟨f, r', hf, rfl, ?_⟩
  rw [← decoding_countSymbol q s.root r]
  rcases hk with rfl | ⟨rfl, rfl⟩ <;> exact hrun

include hb in
/-- The rest of a walk, from the slot `h` that holds the tree `t` (46 R212). -/
theorem walksTo_walk (hroot : s.isLeaf s.root = false) (hcnt : xs.length < s.size.toNat) {t : Tree}
    (ht : holdsTree s.node s.nodeN t h) (hf : f.Of ys) :
    s.walksTo todo q ys xs (runOn todo (decodeAt (decodeLoop f.held) (s.decoding q xs f h r))) (t.walk f.bits) := by
  induction t generalizing h f r with
  | leaf b =>
    obtain ⟨-, hleaf, rfl⟩ := ht
    rw [decodeAt_leaf _ (s := s.decoding ..) hleaf]
    exact walksTo_put hb todo q h r hf _ (.inl rfl)
  | node left right ihl ihr =>
    obtain ⟨-, hinner, hleft, hright⟩ := ht
    rw [decodeAt_inner _ (s := s.decoding ..) hinner]
    cases hbits : f.bits with
    | nil => exact walksTo_dry todo q h r hcnt hbits
    | cons c rest =>
      obtain ⟨g, r', hg, rfl, hrun⟩ := runsTo_takeBit hb todo q h r hf hcnt hbits
      rw [decodeEdge_inner c _ (s := s.decoding ..) hroot] at hrun
      cases c with
      | false => exact (ihl (s.leftOf h) r' hleft hg).after hrun
      | true => exact (ihr (s.rightOf h) r' hright hg).after hrun

include hb in
/-- One symbol from the root (46 R212, R213). -/
theorem walksTo_nextSymbol (hcnt : xs.length < s.size.toNat) {t : Tree} (ht : holdsTree s.node s.nodeN t s.root)
    (hf : f.Of ys) :
    s.walksTo todo q ys xs (runOn todo (decodeLoop f.held (s.decoding q xs f s.root r))) (t.nextSymbol f.bits) := by
  cases t with
  | leaf b =>
    obtain ⟨-, hleaf, rfl⟩ := ht
    cases hbits : f.bits with
    | nil => exact walksTo_dry todo q s.root r hcnt hbits
    | cons c rest =>
      obtain ⟨g, r', hg, rfl, hrun⟩ := runsTo_takeBit hb todo q s.root r hf hcnt hbits
      rw [decodeEdge_leaf c _ (s := s.decoding ..) hleaf] at hrun
      exact (walksTo_put hb todo q s.root r' hg _ (.inr ⟨rfl, rfl⟩)).after hrun
  | node left right =>
    have ⟨_, hinner, _⟩ := ht
    have hwalk := walksTo_walk hb todo q s.root r hinner hcnt ht hf
    rw [decodeAt_inner _ (s := s.decoding ..) hinner] at hwalk
    cases hbits : f.bits <;> rwa [hbits] at hwalk

/-! ## The loop (46 R211, R214) -/

/-- Where DECODE comes to from `u`, if its symbols end up as `xs` and the bits left are `o`: its `in_next` with the payload
`ys` used up before SIZE symbols, or its return. -/
def State.decodesTo (s : State) (todo : List Proc) (q : List Token) (ys xs : List Byte) (u : State) :
    Option (List Bool) → Prop
  | none => ∃ buf h, u.RunsTo (s.decoding q xs ⟨0, buf, []⟩ h (.inNext .decode todo))
  | some left => ∃ g h r, BitSource.Of ys g ∧ g.bits = left ∧ u.RunsTo (runOn todo (.done (s.decoding q xs g h r)))

variable {todo q} in
theorem State.decodesTo.after {u v : State} {o : Option (List Bool)} (hv : s.decodesTo todo q ys xs v o)
    (hu : u.RunsTo v) : s.decodesTo todo q ys xs u o := by
  cases o with
  | none =>
    obtain ⟨buf, h, hrun⟩ := hv
    exact ⟨buf, h, hu.trans hrun⟩
  | some left =>
    obtain ⟨g, h, r, hg, hleft, hrun⟩ := hv
    exact ⟨g, h, r, hg, hleft, hu.trans hrun⟩

include hb in
/-- The loop of DECODE from the root, with `n` symbols to go (46 R212). -/
theorem decodesTo_dec {t : Tree} (ht : holdsTree s.node s.nodeN t s.root) {n : Nat} (hn : xs.length + n = s.size.toNat)
    (hroom : s.outq.length + (xs ++ (t.dec n f.bits).1).length ≤ s.outDepth) (hf : f.Of ys) :
    s.decodesTo todo q ys (xs ++ (t.dec n f.bits).1) (runOn todo (decodeLoop f.held (s.decoding q xs f s.root r)))
      (t.dec n f.bits).2 := by
  induction n generalizing xs f r with
  | zero =>
    have heq : (s.decoding q xs f s.root r).cnt = s.size := by
      rw [Nat.add_zero] at hn
      exact (congrArg (BitVec.ofNat 64) hn).trans (BitVec.ofNat_toNat ..)
    refine ⟨f, s.root, r, hf, rfl, ?_⟩
    rw [decodeLoop_of_eq (s := s.decoding ..) heq, Tree.dec, List.append_nil]
    exact .refl _
  | succ n ih =>
    have hcnt : xs.length < s.size.toNat := by omega
    have hsymbol := walksTo_nextSymbol hb todo q r hcnt ht hf
    cases hnext : t.nextSymbol f.bits with
    | none =>
      rw [dec_succ_none hnext, List.append_nil]
      rwa [hnext] at hsymbol
    | some p =>
      obtain ⟨b, rest⟩ := p
      rw [dec_succ_some hnext, List.append_cons] at hroom ⊢
      rw [hnext] at hsymbol
      obtain ⟨g, r', hg, rfl, hrun⟩ := hsymbol (by
        simp only [List.length_append, List.length_singleton] at hroom
        omega)
      have hlen : (xs ++ [b]).length + n = s.size.toNat := by
        rw [List.length_append, List.length_singleton]
        omega
      exact (ih r' hlen hroom hg).after hrun

include hb in
/-- `decode()` over the tree at ROOT, where OUT has room for the symbols. -/
theorem decodesTo_decode {t : Tree} {o : Option (List Bool)} (ht : holdsTree s.node s.nodeN t s.root)
    (hq : s.inq = byteTokens ys ++ q) (hdec : t.dec s.size.toNat (bytesBits ys) = (xs, o))
    (hroom : s.outq.length + xs.length ≤ s.outDepth) :
    (s.setPhase .decode).decodesTo todo q ys xs (runOn todo (decodeStart s)) o := by
  have hstart : decodeStart s = decodeLoop 0 ((s.setPhase .decode).decoding q [] ⟨0, 0, ys⟩ s.root s.resume) := by
    rw [State.decoding, ← hq, List.append_nil]
    rfl
  obtain ⟨rfl, rfl⟩ := Prod.mk.inj hdec
  rw [hstart]
  exact decodesTo_dec (s := s.setPhase .decode) (f := ⟨0, 0, ys⟩) (xs := []) hb todo q s.resume ht (Nat.zero_add _) hroom
    ⟨Nat.zero_le 7, List.suffix_refl ys⟩

end

/-! ## The command (46 R214, R215) -/

/-- DECODE over a valid tree ends where `decode()` leads. -/
theorem exec_decode_of_runsTo {s t : State} (hb : s.state ≠ .busy) (ht : s.turns = []) (htv : s.tv = true)
    (h : (runOn [] (decodeStart (s.accept 0x22 [.needTv, .decode]))).RunsTo t) (he : t.enabled = false) :
    exec .decode s = .next t := by
  refine exec_of_runsTo (i := .decode) hb ht (by decide) (by decide) ?_ he
  have hcheck : runOn [.needTv, .decode] (.done (s.accept 0x22 [.needTv, .decode]))
      = runOn [] (decodeStart (s.accept 0x22 [.needTv, .decode])) := runOn_needTv [.decode] htv
  rwa [← hcheck] at h

/-- Settles O30: CNT = SIZE = 0 before any bit is wanted. -/
theorem decodeOfNothing : Obligations.DecodeOfNothing := by
  unfold Obligations.DecodeOfNothing
  intro s hb ht htv hsize
  refine exec_decode_of_runsTo hb ht htv ?_ (not_enabled_of_not_busy (by simp))
  rw [decodeStart, decodeLoop_of_eq hsize.symm, runOn_nil_done]
  exact .refl _

/-- Settles O31: the procedure returns with SIZE symbols put, and the bits left say how many bytes were taken. -/
theorem decodeEmitsTheSymbols : Obligations.DecodeEmitsTheSymbols := by
  unfold Obligations.DecodeEmitsTheSymbols
  intro s t ys xs left rest hb ht htv hroot hq hdec hroom
  obtain ⟨g, h, r, hg, rfl, hrun⟩ := decodesTo_decode (s := s.accept 0x22 [.needTv, .decode]) rfl [] rest hroot hq hdec hroom
  have hcnt : BitVec.ofNat 64 xs.length = s.size := by rw [dec_length hdec, BitVec.ofNat_toNat, BitVec.setWidth_eq]
  rw [runOn_nil_done] at hrun
  refine ⟨_, exec_decode_of_runsTo hb ht htv hrun (not_enabled_of_not_busy (by simp)), ?_⟩
  rw [← hg.bytes_eq, State.decoding, hcnt]
  rfl

theorem decode_not_macro : (0x22 : Byte) ≠ 0x40 ∧ (0x22 : Byte) ≠ 0x41 := by decide

/-- Settles O32: out of bits, DECODE stands at its `in_next` with no bit held, and the EOS makes it fail. -/
theorem decodeReportsATruncatedPayload : Obligations.DecodeReportsATruncatedPayload := by
  unfold Obligations.DecodeReportsATruncatedPayload
  intro s t ys xs rest hb ht htv hroot hq hdec hroom
  obtain ⟨buf, h, hdry⟩ := decodesTo_decode (s := s.accept 0x22 [.needTv, .decode]) rfl [] (.eos :: rest) hroot hq hdec hroom
  have heos := runsTo_in (s := ((s.accept 0x22 [.needTv, .decode]).setPhase .decode).decoding (.eos :: rest) xs ⟨0, buf, []⟩
    h (.inNext .decode [])) rfl rfl rfl
  rw [afterIn, decodeToken, runOn_failed, fail_of_not_macro .payloadTruncated decode_not_macro.1 decode_not_macro.2] at heos
  exact ⟨_, exec_decode_of_runsTo hb ht htv (hdry.trans heos) (not_enabled_of_not_busy (by simp)), rfl⟩

end Sys2Proof.Machine

/-! PROOFS. The macro commands release the tree: in the last procedure of their program, or in `fail` (O37). -/

namespace Sys2Proof.Machine

/-! ## Release (47 R224) -/

/-- The running command is COMPRESS or DECOMPRESS. -/
def State.UnderMacro (s : State) : Prop := s.cmdCur = 0x40 ∨ s.cmdCur = 0x41

/-- What `release()` leaves. -/
def State.Released (s : State) : Prop := s.tv = false ∧ s.cv = false

/-- Both macro programs end with `release()` (47 R222, R223). -/
theorem programOf_getLast {s : State} {i : Instr} (hm : s.UnderMacro) (hi : s.cmdCur = opcodeOf i) :
    (programOf i).getLast? = some .release := by
  rw [State.UnderMacro, hi] at hm
  revert hm
  cases i <;> decide

theorem eq_release_of_programEnds {s : State} {p : Proc} (hm : s.UnderMacro) (h : s.programEnds [p]) : p = .release := by
  obtain ⟨i, hi, front, hfront⟩ := h
  have hlast := programOf_getLast hm hi
  rw [← hfront, List.getLast?_concat] at hlast
  exact Option.some.inj hlast

/-- Where a procedure of a macro has returned and `todo` is still to run: with nothing to run the tree is released. -/
def State.MacroReturned (todo : List Proc) (s : State) : Prop :=
  s.state = .busy ∧ s.UnderMacro ∧ s.programEnds todo ∧ (todo = [] → s.Released)

/-- Between two engine steps of a macro: a macro that has ended has released the tree. -/
def State.MacroInv (s : State) : Prop := s.CommandInv ∧ s.UnderMacro ∧ (s.state ≠ .busy → s.Released)

theorem fail_released {s : State} (h : s.UnderMacro) (e : Err) : (s.fail e).Released := ⟨if_pos h, if_pos h⟩

/-- A stretch of a macro leads on if it releases the tree where it returns last. -/
theorem StopsIn.leads_macro {p : Proc} {r : Run} {s : State} {todo : List Proc} (hr : StopsIn p r)
    (hh : r.final.hostSide = s.hostSide) (hb : s.state = .busy) (hm : s.UnderMacro) (hp : s.programEnds (p :: todo))
    (hlast : todo = [] → r.final.Released) : r.Leads State.MacroReturned State.MacroInv todo := by
  obtain ⟨hstate, -, hcmd⟩ := final_status hh
  have hbusy : r.final.state = .busy := hstate.trans hb
  have hmacro : r.final.UnderMacro := by rwa [State.UnderMacro, hcmd]
  have hcommand := hr.leads_command (by rwa [State.programEnds, hcmd])
  cases r with
  | done u => exact ⟨hbusy, hmacro, hcommand, hlast⟩
  | failed e u => exact ⟨hcommand, hmacro, fun _ => fail_released hmacro e⟩
  | _ => exact ⟨hcommand, hmacro, fun hne => absurd hbusy hne⟩

/-- A procedure other than `release()` is not the last one of a macro. -/
theorem StopsIn.leads_macro_inside {p : Proc} {r : Run} {s : State} {todo : List Proc} (hr : StopsIn p r)
    (hh : r.final.hostSide = s.hostSide) (hb : s.state = .busy) (hm : s.UnderMacro) (hp : s.programEnds (p :: todo))
    (hne : p ≠ .release) : r.Leads State.MacroReturned State.MacroInv todo := by
  refine hr.leads_macro hh hb hm hp fun hnil => absurd ?_ hne
  rw [hnil] at hp
  exact eq_release_of_programEnds hm hp

/-- A BUSY engine inside procedure `p` stands in its program. -/
theorem programEnds_of_command {s : State} {p : Proc} {todo : List Proc} (h : s.CommandInv) (hb : s.state = .busy)
    (hr : ∀ i, s.resume.within i = true → (p :: todo) <:+ programOf i) : s.programEnds (p :: todo) := by
  obtain ⟨i, hi, hw⟩ := h hb
  exact ⟨i, hi, hr i hw⟩

theorem macro_carries : Carries State.MacroReturned State.MacroInv where
  complete := fun s ⟨_, hm, _, hlast⟩ => ⟨(fun hb => nomatch hb), hm, fun _ => hlast rfl⟩
  proc := by
    rintro p todo s ⟨hb, hm, hp, -⟩
    by_cases hrel : p = .release
    · subst hrel
      exact (startProc_stops .release s).leads_macro rfl hb hm hp (fun _ => ⟨rfl, rfl⟩)
    · exact (startProc_stops p s).leads_macro_inside (startProc_hostSide p s _ rfl) hb hm hp hrel
  start := by
    rintro s todo hb hr ⟨hc, hm, -⟩
    obtain ⟨i, hi, hw⟩ := hc hb
    have htodo : todo = programOf i := by simpa [Resume.within, hr] using hw
    refine ⟨hb, hm, ⟨i, hi, htodo ▸ List.suffix_rfl⟩, fun hnil => ?_⟩
    have hlast := programOf_getLast hm hi
    rw [← htodo, hnil] at hlast
    cases hlast
  input := by
    rintro s k todo t rest hb hr ⟨hc, hm, -⟩
    have hp : s.programEnds (procOfIn k :: todo) := programEnds_of_command hc hb (by simp [Resume.within, hr])
    exact (afterIn_stops k t _).leads_macro_inside (afterIn_hostSide k t { s with inq := rest } _ rfl) hb hm hp
      (by cases k <;> simp [procOfIn])
  output := by
    rintro s b k todo hb hr ⟨hc, hm, -⟩
    have hp : s.programEnds (procOfOut k :: todo) := programEnds_of_command hc hb (by simp [Resume.within, hr])
    exact (afterOut_stops k _).leads_macro_inside (afterOut_hostSide k { s with outq := s.outq ++ [b] } _ rfl) hb hm hp
      (by cases k <;> simp [procOfOut])

/-- Settles O37: a BUSY macro meets the invariant, and an engine step keeps it. -/
theorem macrosReleaseTheTree : Obligations.MacrosReleaseTheTree := by
  unfold Obligations.MacrosReleaseTheTree
  intro s hb hm hrun hend
  obtain ⟨-, -, hreleased⟩ := macro_carries.engineStep s ⟨fun _ => hrun, hm, fun hne => absurd hb hne⟩
  exact hreleased hend

end Sys2Proof.Machine

/-! PROOFS. DECOMPRESS is its three procedures in a row over the parts of an archive (O35). -/

namespace Sys2Proof.Machine

/-! ## The archive (30 R112, 47 R223) -/

/-- The block `s` at `r` when DESTREE has read `t` into the arena `node`, `weight`, with `q` left in IN. -/
def State.treeRead (t : Tree) (node : Memory 32) (weight : Memory 64) (q : List Token) (r : Resume) (s : State) : State :=
  { s.destreeInit with
    tv := true, nodeN := BitVec.ofNat 9 t.size, node := node, weight := weight, inq := q, stk := [], resume := r }

/-- `destree()` over a serialized tree, which the arena then holds at slot 0. -/
theorem runsTo_treeRead {s : State} (hb : s.state = .busy) (todo : List Proc) {t : Tree} {rest : List Token}
    (hn : t.size ≤ 511) (hnode : Memory.wf 511 s.node = true) (hweight : Memory.wf 511 s.weight = true)
    (hq : s.inq = byteTokens t.ser ++ rest) :
    ∃ node weight r, holdsTree node (BitVec.ofNat 9 t.size) t 0
      ∧ (runOn todo (destreeStart s)).RunsTo (runOn todo (.done (s.treeRead t node weight rest r))) := by
  obtain ⟨r, hrun⟩ := runsTo_destree hb todo hn hq
  obtain ⟨⟨hholds, -⟩, -⟩ := destreeInit_loadTree hn hnode hweight
  rw [destreeInit_loadTree_frame hn] at hrun hholds
  exact ⟨_, _, r, hholds, hrun⟩

/-- The block `s` at `r` when RDSIZE has loaded `v`, with `q` left in IN. -/
def State.sizeRead (v : DWord) (q : List Token) (r : Resume) (s : State) : State :=
  { s.setPhase .rdsize with size := v, inq := q, resume := r }

/-- `rdsize()` over the size field of `v` (30 R116). -/
theorem runsTo_sizeRead {s : State} (hb : s.state = .busy) (todo : List Proc) {v : DWord} {rest : List Token}
    (hq : s.inq = byteTokens (size8 s.sizeEndian v) ++ rest) :
    ∃ r, (runOn todo (rdsizeStart s)).RunsTo (runOn todo (.done (s.sizeRead v rest r))) :=
  runsTo_rdsize (bs := (List.range 7).map (sizeFieldByte s.sizeEndian v)) hb todo (by simp)
    (sizeAssemble_size8 s.sizeEndian v) hq

/-- Settles O35: the tree read is the one DECODE walks, and the size field read is its SIZE. -/
theorem decompressReadsTheArchive : Obligations.DecompressReadsTheArchive := by
  unfold Obligations.DecompressReadsTheArchive
  intro s t n ys xs left rest hb ht hsize hq hdec hroom hnode hweight
  rw [byteTokens_append, byteTokens_append] at hq
  obtain ⟨node, weight, r₁, htree, hdestree⟩ := runsTo_treeRead (s := (s.accept 0x41 (programOf .decompress)).clear) rfl
    [.rdsize, .decode, .release] hsize hnode hweight hq
  obtain ⟨r₂, hrdsize⟩ := runsTo_sizeRead (v := n) (rest := byteTokens ys ++ rest)
    (s := (s.accept 0x41 (programOf .decompress)).clear.treeRead t node weight
      (byteTokens (size8 s.sizeEndian n) ++ (byteTokens ys ++ rest)) r₁) rfl [.decode, .release] rfl
  obtain ⟨g, h, r₃, hg, rfl, hdecode⟩ := decodesTo_decode
    (s := ((s.accept 0x41 (programOf .decompress)).clear.treeRead t node weight _ r₁).sizeRead n
      (byteTokens ys ++ rest) r₂) rfl [.release] rest htree rfl hdec hroom
  have hcnt : BitVec.ofNat 64 xs.length = n := by rw [dec_length hdec, BitVec.ofNat_toNat, BitVec.setWidth_eq]
  refine ⟨_, exec_of_runsTo (i := .decompress) hb ht (by decide) (by decide) (hdestree.trans (hrdsize.trans hdecode))
    (not_enabled_of_not_busy (by simp [startProc])), ?_⟩
  rw [← hg.bytes_eq, State.decoding, hcnt]
  rfl

end Sys2Proof.Machine

/-! PROOFS. What the trees of 42 R164 are like, and how long the archive of a stream can be (30 R112). -/

namespace Sys2Proof.Machine

/-! ## Trees without repeated leaves -/

/-- A binary tree has one inner node fewer than leaves. -/
theorem Tree.size_add_one (t : Tree) : t.size + 1 = 2 * t.leaves.length := by
  induction t with
  | leaf b => rfl
  | node l r ihl ihr =>
    rw [Tree.size, Tree.leaves, List.length_append]
    omega

/-- A byte for each node, and one more for each leaf (30 R113). -/
theorem ser_length (t : Tree) : t.ser.length = t.size + t.leaves.length := by
  induction t with
  | leaf b => rfl
  | node l r ihl ihr =>
    rw [Tree.ser, Tree.size, Tree.leaves, List.length_cons, List.length_append, List.length_append]
    omega

/-- There are 256 symbols. -/
theorem leaves_length_le {t : Tree} (h : t.leaves.Nodup) : t.leaves.length ≤ 256 :=
  calc t.leaves.length ≤ allSymbols.length := (h.subperm fun b _ => mem_allSymbols b).length_le
    _ = 256 := by simp [allSymbols]

theorem size_le_of_leaves_nodup {t : Tree} (h : t.leaves.Nodup) : t.size ≤ 511 := by
  have hsize := t.size_add_one
  have hleaves := leaves_length_le h
  omega

theorem ser_length_le {t : Tree} (h : t.leaves.Nodup) : t.ser.length ≤ 767 := by
  have hser := ser_length t
  have hsize := t.size_add_one
  have hleaves := leaves_length_le h
  omega

/-- A symbol without a leaf has no path. -/
theorem pathOf_of_not_mem {b : Byte} {t : Tree} (h : b ∉ t.leaves) : t.pathOf b = none := by
  induction t with
  | leaf c => exact if_neg (by simpa [Tree.leaves] using h)
  | node l r ihl ihr =>
    rw [Tree.leaves, List.mem_append, not_or] at h
    rw [Tree.pathOf, ihr h.2, ihl h.1]
    rfl

/-- A symbol without a leaf has no code (43 R172). -/
theorem code_of_not_mem {b : Byte} {t : Tree} (h : b ∉ t.leaves) : t.code b = none := by
  cases t with
  | leaf c => exact if_neg (by simpa [Tree.leaves] using h)
  | node l r => exact pathOf_of_not_mem h

theorem code_length_le {b : Byte} {t : Tree} {q : List Bool} (hsize : t.size ≤ 511) (h : t.code b = some q) :
    q.length ≤ 255 := by
  cases t with
  | leaf c =>
    rw [Tree.code] at h
    split at h <;> cases h
    decide
  | node l r =>
    have hpath := pathOf_length b (.node l r) q h
    omega

/-! ## The bits of a stream (30 R117, 43 R172) -/

/-- The codes of the bytes of a stream, one after the other. -/
def Tree.bitsOf (t : Tree) (ys : List Byte) : List Bool := ys.flatMap (fun b => (t.code b).getD [])

theorem bitsOf_cons (t : Tree) (b : Byte) (ys : List Byte) : t.bitsOf (b :: ys) = (t.code b).getD [] ++ t.bitsOf ys :=
  List.flatMap_cons

theorem bitsOf_length_le {t : Tree} (hsize : t.size ≤ 511) (ys : List Byte) : (t.bitsOf ys).length ≤ 255 * ys.length := by
  induction ys with
  | nil => exact le_refl 0
  | cons b ys ih =>
    have hcode : ((t.code b).getD []).length ≤ 255 := by
      cases hc : t.code b with
      | none => exact Nat.zero_le _
      | some q => exact code_length_le hsize hc
    rw [bitsOf_cons, List.length_append, List.length_cons]
    omega

/-- 32 bytes hold the code of a byte. -/
theorem pack_bitsOf_length_le {t : Tree} (hsize : t.size ≤ 511) (ys : List Byte) :
    (pack (t.bitsOf ys)).length ≤ 32 * ys.length := by
  have hbits := bitsOf_length_le hsize ys
  rw [pack_length]
  omega

theorem codeOf_of_tabulates {s : State} {t : Tree} (h : s.tabulates t) {b : Byte} (hb : b ∈ t.leaves) :
    s.codeOf b = (t.code b).getD [] := by
  obtain ⟨q, hq, -⟩ := code_of_mem_leaves hb
  obtain ⟨hentry, -⟩ := h b
  rw [hq] at hentry ⊢
  exact hentry.1

theorem lenAt_of_not_mem {s : State} {t : Tree} (h : s.tabulates t) {b : Byte} (hb : b ∉ t.leaves) : s.lenAt b = 0 := by
  obtain ⟨hentry, -⟩ := h b
  rw [code_of_not_mem hb] at hentry
  exact hentry

theorem lenAt_ne_zero {s : State} {t : Tree} (h : s.tabulates t) {b : Byte} (hb : b ∈ t.leaves) : s.lenAt b ≠ 0 := by
  intro h0
  have hpos := lenAt_pos_of_tabulates h hb
  rw [h0] at hpos
  exact absurd hpos (by decide)

theorem flatMap_codeOf {s : State} {t : Tree} (h : s.tabulates t) {ys : List Byte} (hys : ∀ b ∈ ys, b ∈ t.leaves) :
    ys.flatMap s.codeOf = t.bitsOf ys :=
  List.flatMap_congr fun b hb => codeOf_of_tabulates h (hys b hb)

end Sys2Proof.Machine

/-! PROOFS. Decoding undoes encoding (46 R218): the bits of a payload are those packed with zeros after them, and the walks read
the codes off them again. -/

namespace Sys2Proof.Machine

/-! ## The bits of a payload (30 R117, 20 R90) -/

theorem bitsValue_lt (n : Nat) (bits : List Bool) : bitsValue n bits < 2 ^ n := by
  induction n generalizing bits with
  | zero => simp [bitsValue]
  | succ n ih =>
    cases bits with
    | nil => simp [bitsValue_nil]
    | cons bit bits =>
      have hrest := ih bits
      have hbit := Nat.mul_le_mul_right (2 ^ n) bit.toNat_le
      rw [bitsValue_cons, Nat.pow_succ]
      omega

/-- Bit `n - 1 - j` of the number is bit `j` of the sequence. -/
theorem testBit_bitsValue {n j : Nat} (h : j < n) (bits : List Bool) :
    (bitsValue n bits).testBit (n - 1 - j) = bits.getD j false := by
  induction n generalizing j bits with
  | zero => omega
  | succ n ih =>
    cases bits with
    | nil => simp [bitsValue_nil]
    | cons bit bits =>
      rw [bitsValue_cons, Nat.mul_comm, Nat.testBit_two_pow_mul_add _ (bitsValue_lt n bits)]
      cases j with
      | zero => cases bit <;> simp
      | succ j =>
        rw [if_pos (by omega), show n + 1 - 1 - (j + 1) = n - 1 - j by omega, ih (by omega)]
        rfl

theorem heldBits_packByte (bits : List Bool) (k : Nat) :
    heldBits 8 (packByte bits k) = (List.range 8).map (fun j => bits.getD (8 * k + j) false) := by
  refine List.map_congr_left fun j hj => ?_
  have hj8 : j < 8 := List.mem_range.1 hj
  have hlt : 7 - j < 8 := by omega
  have hbit := testBit_bitsValue hj8 (bits.drop (8 * k))
  rw [packByte_eq_bitsValue, BitVec.getLsbD_ofNat, hbit]
  simp [hlt, List.getD_eq_getElem?_getD]

/-- The bits of a payload are those packed, up to whole bytes, positions past the end 0. -/
theorem bytesBits_pack (bits : List Bool) : bytesBits (pack bits)
    = bits ++ List.replicate (8 * ((bits.length + 7) / 8) - bits.length) false := by
  have hbytes : ∀ m, bytesBits ((List.range m).map (packByte bits))
      = (List.range (8 * m)).map (fun i => bits.getD i false) := by
    intro m
    induction m with
    | zero => rfl
    | succ m ih =>
      rw [List.range_succ, List.map_append, List.map_singleton, bytesBits, List.flatMap_append, List.flatMap_singleton,
        Nat.mul_succ, List.range_add, List.map_append, List.map_map]
      exact congrArg₂ _ ih (heldBits_packByte bits m)
  rw [pack, hbytes]
  refine List.ext_getElem (by simp; omega) fun i _ _ => ?_
  rw [List.getElem_map, List.getElem_range, List.getElem_append]
  split
  · rw [List.getD_eq_getElem _ _ ‹_›]
  · rw [List.getD_eq_default _ _ (by omega), List.getElem_replicate]

/-! ## The codes read back (46 R212, R218) -/

theorem walk_pathOf {t : Tree} {b : Byte} {q : List Bool} (h : t.pathOf b = some q) (rest : List Bool) :
    t.walk (q ++ rest) = some (b, rest) := by
  induction t generalizing q with
  | leaf c =>
    rw [Tree.pathOf] at h
    split at h <;> cases h
    subst b
    rfl
  | node l r ihl ihr =>
    rw [Tree.pathOf] at h
    cases hr : r.pathOf b with
    | some p =>
      rw [hr] at h
      cases h
      exact ihr hr
    | none =>
      rw [hr] at h
      obtain ⟨p, hp, rfl⟩ := Option.map_eq_some_iff.1 h
      exact ihl hp

/-- The first edge taken, the rest is a walk. -/
theorem nextSymbol_node (l r : Tree) (c : Bool) (bs : List Bool) :
    (Tree.node l r).nextSymbol (c :: bs) = (Tree.node l r).walk (c :: bs) := rfl

theorem nextSymbol_code {t : Tree} {b : Byte} {q : List Bool} (h : t.code b = some q) (rest : List Bool) :
    t.nextSymbol (q ++ rest) = some (b, rest) := by
  cases t with
  | leaf c =>
    rw [Tree.code] at h
    split at h <;> cases h
    subst b
    rfl
  | node l r =>
    have hwalk := walk_pathOf h rest
    cases hbits : q ++ rest with
    | nil => rw [hbits] at hwalk; cases hwalk
    | cons c bs => rw [nextSymbol_node, ← hbits, hwalk]

/-- A stream over the symbols of a tree is decoded from its codes, whatever bits follow. -/
theorem dec_bitsOf {t : Tree} {xs : List Byte} (h : ∀ b ∈ xs, b ∈ t.leaves) (rest : List Bool) :
    t.dec xs.length (t.bitsOf xs ++ rest) = (xs, some rest) := by
  induction xs with
  | nil => rfl
  | cons b xs ih =>
    obtain ⟨q, hq, -⟩ := code_of_mem_leaves (h b (by simp))
    rw [bitsOf_cons, hq, Option.getD_some, List.append_assoc, List.length_cons,
      dec_succ_some (nextSymbol_code hq _), ih (fun c hc => h c (List.mem_cons_of_mem _ hc))]

/-- The payload ENCODE makes holds the stream, and the padding is left. -/
theorem dec_pack_bitsOf {t : Tree} {xs : List Byte} (h : ∀ b ∈ xs, b ∈ t.leaves) :
    t.dec xs.length (bytesBits (pack (t.bitsOf xs)))
      = (xs, some (List.replicate (8 * (((t.bitsOf xs).length + 7) / 8) - (t.bitsOf xs).length) false)) := by
  rw [bytesBits_pack, dec_bitsOf h]

end Sys2Proof.Machine

/-! PROOFS. COMPRESS up to its payload: the stream is counted, the tree built from the histogram, its codes tabulated, and the
tree and the size field put (47 R222). -/

namespace Sys2Proof.Machine

/-! ## The histogram of a stream that was counted (41 R141, 42 R160) -/

section
variable {s : State} {xs : List Byte} (hf : s.freq = histogram xs) (hlen : xs.length < 2 ^ 64)
include hf hlen

/-- The counts of a stream shorter than 2^64 are exact. -/
theorem toNat_freqAt_histogram (b : Byte) : (s.freqAt b).toNat = xs.count b := by
  have hcount : xs.count b ≤ xs.length := List.count_le_length
  rw [State.freqAt, hf, read_histogram, BitVec.toNat_ofNat, Nat.mod_eq_of_lt (by omega)]

/-- The symbols with FREQ > 0 are those of the stream. -/
theorem mem_present_histogram (b : Byte) : b ∈ s.present ↔ b ∈ xs := by
  rw [mem_present, ← BitVec.toNat_inj.ne, toNat_freqAt_histogram hf hlen, ← List.count_pos_iff]
  exact Nat.pos_iff_ne_zero.symm

/-- The counts sum up to the length of the stream. -/
theorem freqSum_histogram : s.freqSum = xs.length := by
  have hperm : s.present.Perm xs.dedup :=
    (List.perm_ext_iff_of_nodup (present_nodup s) xs.nodup_dedup).2 fun b => by
      rw [mem_present_histogram hf hlen, List.mem_dedup]
  calc s.freqSum = (s.present.map (fun b => (s.freqAt b).toNat)).sum := by
        rw [← forest_sum, Forest.sum, forest_eq, List.map_map]
        rfl
    _ = (xs.dedup.map (fun b => xs.count b)).sum := by
        simp only [toNat_freqAt_histogram hf hlen]
        exact (hperm.map _).sum_eq
    _ = xs.length := List.sum_map_count_dedup_eq_length xs

end

/-! ## BUILD and GENCODE in a row (42 R157, 43 R171) -/

/-- `v` is the block `c` after `build()` and `gencode()`: only the tree and its codes have come in. -/
abbrev State.CodedFrame (c v : State) : Prop :=
  v = { c with
    phase := .gencode, tv := true, cv := true, root := v.root, nodeN := v.nodeN, node := v.node, weight := v.weight,
    codeLen := v.codeLen, codeBits := v.codeBits, heap := [], stk := [], published := 0 }

/-- `build()` of a histogram that fits returns, and `gencode()` after it with the codes of the tree (42 R164, 43 R172). -/
theorem build_gencode_of_histogram {c : State} (hnode : Memory.wf 511 c.node = true) (hweight : Memory.wf 511 c.weight = true)
    (hne : c.present ≠ []) (hsum : c.freqSum < 2 ^ 64) (hstk : c.stk = []) :
    ∃ u v t, buildRun c = .done u ∧ gencodeRun u = .done v ∧ c.CodedFrame v ∧ v.rootTree t ∧ v.tabulates t
      ∧ Huffman c.forest t c.freqSum ∧ t.leaves.Perm c.present := by
  rcases buildRun_merges hnode hweight hne with ⟨u, -, -, hover⟩ | ⟨u, T, hu, hm, hlen⟩
  · exact absurd hover (Nat.not_le.2 hsum)
  have hleaves := (hm.huffman hlen).leaves
  rw [forest_leaves] at hleaves
  obtain ⟨v, hv, hcodes⟩ := gencodeRun_tabulates (hm.rootTree hlen)
  have hframe := gencodeRun_done_frame hv
  have hnostk : u.takeRoot.stk = [] := (congrArg State.stk hm.frame).trans hstk
  rw [hnostk, ite_self] at hframe
  have hroot : v.rootTree (T u.pqTop) := by
    rw [hframe]
    exact hm.rootTree hlen
  rw [takeRoot_of_length_one hlen] at hframe
  refine ⟨u.takeRoot, v, T u.pqTop, hu, hv, ?_, hroot, hcodes, hm.huffman hlen, hleaves⟩
  rw [hframe, hm.frame]
  rfl

/-! ## The run up to the payload (47 R222) -/

/-- The block `s` after the first stretch of COMPRESS, at the first token of its first stream. -/
abbrev State.compressBegun (s : State) : State :=
  runOn (programOf .compress) (.done (s.accept (opcodeOf .compress) (programOf .compress)))

/-- COMPRESS in `s` when `count()` has returned: the stream `xs` is counted, and `q` is left in IN. -/
def State.scanned (xs : List Byte) (q : List Token) (s : State) : State :=
  State.counting [.build, .gencode, .sertree, .wrsize, .encode, .release] xs q (s.accept 0x40 (programOf .compress)).clear

theorem ofNat_ne_zero {n : Nat} (hpos : 1 ≤ n) (hlt : n < 2 ^ 64) : BitVec.ofNat 64 n ≠ 0 := by
  rw [← BitVec.toNat_inj.ne, BitVec.toNat_ofNat, Nat.mod_eq_of_lt hlt]
  exact Nat.pos_iff_ne_zero.1 hpos

/-- `clear()` and `count()` over a stream that is not empty. -/
theorem runsTo_scanned {s : State} {xs : List Byte} {q : List Token} (hq : s.inq = byteTokens xs ++ .eos :: q) (hne : xs ≠ [])
    (hlen : xs.length < 2 ^ 64) :
    s.compressBegun.RunsTo (runOn [.build, .gencode, .sertree, .wrsize, .encode, .release] (.done (s.scanned xs q))) := by
  have hsize : BitVec.ofNat 64 xs.length ≠ 0 := ofNat_ne_zero (List.length_pos_iff.2 hne) hlen
  have hscan := runEngine_countStream (s := (s.accept 0x40 (programOf .compress)).clear) rfl
    [.build, .gencode, .sertree, .wrsize, .encode, .release] xs q hq hlen
  rw [countToken_eos (s := State.counting ..) hsize] at hscan
  exact ⟨_, hscan⟩

/-- The block `v` when the tree `t` and the size field have been put. -/
def State.headed (t : Tree) (v : State) : State :=
  { v with phase := .wrsize, outq := v.outq ++ t.ser ++ size8 v.sizeEndian v.size, stk := [], published := 0 }

/-- `sertree()` and `wrsize()` over the tree at ROOT where OUT has room. -/
theorem runsTo_headed {v : State} (hb : v.state = .busy) (todo : List Proc) {t : Tree}
    (ht : holdsTree v.node v.nodeN t v.root) (hroom : v.outq.length + t.ser.length + 8 ≤ v.outDepth) :
    ∃ r, (runOn (.sertree :: .wrsize :: todo) (.done v)).RunsTo (runOn todo (.done { v.headed t with resume := r })) := by
  obtain ⟨r, hser⟩ := runsTo_sertree hb (.wrsize :: todo) ht (by omega)
  have hsize := runsTo_wrsize (s := (v.setPhase .sertree).serializing [] t.ser r) hb todo
    (by simpa [State.serializing] using hroom)
  exact ⟨_, hser.trans hsize⟩

/-- COMPRESS in `s` has counted `xs` and comes with `q` left in IN to `sertree()` in the block `v`, which holds a tree `t` and
its codes. -/
structure State.Coded (s : State) (xs : List Byte) (q : List Token) (v : State) (t : Tree) : Prop where
  run : ∃ u, buildRun (s.scanned xs q) = .done u ∧ gencodeRun u = .done v
  frame : (s.scanned xs q).CodedFrame v
  root : v.rootTree t
  codes : v.tabulates t

/-- What the engine goes on with. -/
theorem State.Coded.engine {s v : State} {t : Tree} {xs : List Byte} {q : List Token} (h : s.Coded xs q v t) :
    v.state = .busy ∧ v.inq = q ∧ v.outDepth = s.outDepth := by
  rw [h.frame]
  exact ⟨rfl, rfl, rfl⟩

/-- The run of COMPRESS to the start of `encode()`. -/
theorem State.Coded.runsTo {s v : State} {t : Tree} {xs : List Byte} {q : List Token} (h : s.Coded xs q v t)
    (hq : s.inq = byteTokens xs ++ .eos :: q) (hne : xs ≠ []) (hlen : xs.length < 2 ^ 64)
    (hroom : s.outq.length + t.ser.length + 8 ≤ s.outDepth) :
    ∃ r, s.compressBegun.RunsTo (runOn [.release] (encodeStart { v.headed t with resume := r })) := by
  obtain ⟨hbusy, -, -⟩ := h.engine
  obtain ⟨⟨u, hu, hv⟩, hframe, ⟨hholds, -⟩, -⟩ := h
  have hroom' : v.outq.length + t.ser.length + 8 ≤ v.outDepth := by rw [hframe]; exact hroom
  have hscan := runsTo_scanned hq hne hlen
  rw [runOn_cons_done, startProc, hu, runOn_cons_done, startProc, hv] at hscan
  obtain ⟨r, hhead⟩ := runsTo_headed hbusy [.encode, .release] hholds hroom'
  exact ⟨r, hscan.trans hhead⟩

end Sys2Proof.Machine

/-! PROOFS. COMPRESS over its second stream, and the archive it leaves in OUT (O33, O34). -/

namespace Sys2Proof.Machine

/-! ## The ends of COMPRESS (47 R222, R225, R228) -/

theorem fail_of_macro (e : Err) {s : State} (h : s.cmdCur = 0x40 ∨ s.cmdCur = 0x41) :
    s.fail e = { s with err := e, state := .error, heap := [], stk := [], tv := false, cv := false, resume := .idle } := by
  simp only [State.fail, if_pos h]

/-- The block `s` after COMPRESS over the streams `xs` and `ys`, but for STATE, ERR and OUT; the tables are those of `v`, and
`rest` is left in IN. -/
def State.compressed (xs ys : List Byte) (rest : List Token) (s v : State) : State :=
  { s with
    cmdCur := 0x40, phase := .encode, tv := false, cv := false, freq := v.freq, size := BitVec.ofNat 64 xs.length,
    root := v.root, nodeN := v.nodeN, progress := BitVec.ofNat 64 ys.length, node := v.node, weight := v.weight,
    codeLen := v.codeLen, codeBits := v.codeBits, inq := rest, heap := [], stk := [], acc := 0, nacc := 0,
    cnt := BitVec.ofNat 64 ys.length, cur := 0, bitbuf := 0, nbits := 0, resume := .idle, resp := ⟨0, false⟩,
    published := 0 }

/-- OUT with the tree and the size field in front of the payload (30 R112). -/
def State.outWithHeader (xs : List Byte) (t : Tree) (s : State) : List Byte :=
  s.outq ++ t.ser ++ size8 s.sizeEndian (BitVec.ofNat 64 xs.length)

theorem outWithHeader_length (xs : List Byte) (t : Tree) (s : State) :
    (s.outWithHeader xs t).length = s.outq.length + t.ser.length + 8 := by
  simp [State.outWithHeader, size8, Nat.add_assoc]

theorem State.Coded.headed_outq {s v : State} {t : Tree} {xs : List Byte} {q : List Token} (h : s.Coded xs q v t) :
    (v.headed t).outq = s.outWithHeader xs t := by
  rw [State.headed, h.frame]
  rfl

section
variable {s v : State} {t : Tree} {xs ys : List Byte} {after rest : List Token} (hne : xs ≠ []) (hlen : xs.length < 2 ^ 64)
  (hlen' : ys.length < 2 ^ 64) (hys : ∀ b ∈ ys, b ∈ t.leaves)
  (hq : s.inq = byteTokens xs ++ .eos :: (byteTokens ys ++ after)) (h : s.Coded xs (byteTokens ys ++ after) v t)
  (hroom : (s.outWithHeader xs t).length + (pack (t.bitsOf ys)).length ≤ s.outDepth)

include hys h in
theorem flatMap_codeOf_headed : ys.flatMap ((v.headed t).setPhase .encode).codeOf = t.bitsOf ys := flatMap_codeOf h.codes hys

include hne hlen hlen' hys hq h hroom in
/-- The run of COMPRESS to the token after the second stream. -/
theorem runsTo_compress_encoding :
    s.compressBegun.RunsTo
      (((v.headed t).setPhase .encode).encoding [.release] ys after) := by
  obtain ⟨hbusy, hinq, hdepth⟩ := h.engine
  have hwhole : (v.headed t).outq.length + (ys.flatMap ((v.headed t).setPhase .encode).codeOf).length / 8 ≤ v.outDepth := by
    rw [pack_length] at hroom
    rw [h.headed_outq, flatMap_codeOf_headed hys h, hdepth]
    omega
  rw [outWithHeader_length] at hroom
  obtain ⟨r, hhead⟩ := h.runsTo hq hne hlen (by omega)
  have henc := runsTo_encoding (s := (v.headed t).setPhase .encode) hbusy [.release] ys after
    (fun b hb => lenAt_ne_zero h.codes (hys b hb)) hlen' hwhole
  rw [← hinq] at henc
  rw [runOn_encodeStart] at hhead
  exact hhead.trans henc

include hne hlen hlen' hys hq h hroom in
/-- At its EOS the second stream is encoded to the end, and the length check is next. -/
theorem runsTo_compress_payload (hafter : after = .eos :: rest) :
    ∃ r, s.compressBegun.RunsTo (runOn [.release] (encodeEnd (((v.headed t).setPhase .encode).payloadPut ys rest r))) := by
  obtain ⟨hbusy, -, hdepth⟩ := h.engine
  have hrun := runsTo_compress_encoding hne hlen hlen' hys hq h hroom
  rw [← flatMap_codeOf_headed hys h, ← h.headed_outq, ← hdepth] at hroom
  obtain ⟨r, heos⟩ := runsTo_encoding_eos (s := (v.headed t).setPhase .encode) hbusy [.release] ys rest hroom
  rw [hafter] at hrun
  exact ⟨r, hrun.trans heos⟩

include hys h in
/-- The block before the length check, in terms of `s`. -/
theorem payloadPut_eq (r : Resume) :
    ((v.headed t).setPhase .encode).payloadPut ys rest r
      = { s.compressed xs ys rest v with
          state := .busy, err := .ok, tv := true, cv := true, outq := s.outWithHeader xs t ++ pack (t.bitsOf ys),
          resume := r } := by
  rw [State.payloadPut, flatMap_codeOf_headed hys h, State.headed, h.frame]
  rfl

include hys h in
/-- The block at the token after the second stream, in terms of `s`. -/
theorem encoding_eq (q : List Token) :
    ((v.headed t).setPhase .encode).encoding [.release] ys q
      = { s.compressed xs ys q v with
          state := .busy, err := .ok, tv := true, cv := true, outq := s.outWithHeader xs t ++ wholeBytes (t.bitsOf ys),
          acc := pendingByte (t.bitsOf ys), nacc := (t.bitsOf ys).length % 8, resume := .inNext .encode [.release] } := by
  rw [State.encoding, State.packed, flatMap_codeOf_headed hys h, State.headed, h.frame]
  rfl

variable (hb : s.state ≠ .busy) (ht : s.turns = [])
include hne hlen hlen' hys hq h hroom hb ht

/-- A second stream as long as the first: the archive is complete (47 R222). -/
theorem exec_compress_completes (hafter : after = .eos :: rest) (hsame : ys.length = xs.length) :
    exec .compress s = .next { s.compressed xs ys rest v with
      state := .done, err := .ok, outq := s.outWithHeader xs t ++ pack (t.bitsOf ys) } := by
  obtain ⟨r, hrun⟩ := runsTo_compress_payload hne hlen hlen' hys hq h hroom hafter
  rw [payloadPut_eq hys h, encodeEnd_of_eq (congrArg (BitVec.ofNat 64) hsame), runOn_cons_done, startProc, runOn_nil_done]
    at hrun
  exact exec_of_runsTo hb ht (by decide) (by decide) hrun (not_enabled_of_not_busy (by simp))

/-- A second stream of another length: LENGTH_MISMATCH after its payload (47 R225). -/
theorem exec_compress_mismatch (hafter : after = .eos :: rest) (hother : ys.length ≠ xs.length) :
    exec .compress s = .next { s.compressed xs ys rest v with
      state := .error, err := .lengthMismatch, outq := s.outWithHeader xs t ++ pack (t.bitsOf ys) } := by
  have hcnt : BitVec.ofNat 64 ys.length ≠ BitVec.ofNat 64 xs.length := by
    rw [← BitVec.toNat_inj.ne, BitVec.toNat_ofNat, BitVec.toNat_ofNat, Nat.mod_eq_of_lt hlen, Nat.mod_eq_of_lt hlen']
    exact hother
  obtain ⟨r, hrun⟩ := runsTo_compress_payload hne hlen hlen' hys hq h hroom hafter
  rw [payloadPut_eq hys h, encodeEnd_of_ne hcnt, runOn_failed, fail_of_macro _ (.inl rfl)] at hrun
  exact exec_of_runsTo hb ht (by decide) (by decide) hrun (not_enabled_of_not_busy (by simp))

/-- A byte that is not in the first stream: NO_CODE after the whole bytes of the codes before it (47 R225). -/
theorem exec_compress_noCode {b : Byte} (hafter : after = .byte b :: rest) (hnone : b ∉ t.leaves) :
    exec .compress s = .next { s.compressed xs ys rest v with
      state := .error, err := .noCode, acc := pendingByte (t.bitsOf ys), nacc := (t.bitsOf ys).length % 8,
      outq := s.outWithHeader xs t ++ (pack (t.bitsOf ys)).take ((t.bitsOf ys).length / 8) } := by
  obtain ⟨hbusy, -, -⟩ := h.engine
  have hcode : v.lenAt b = 0 := lenAt_of_not_mem h.codes hnone
  have hrun := runsTo_compress_encoding hne hlen hlen' hys hq h hroom
  rw [hafter] at hrun
  have htoken := runsTo_encodeToken (s := (v.headed t).setPhase .encode) hbusy [.release] ys (.byte b) rest
  rw [encodeToken_noCode (s := State.encoding _ _ _ ((v.headed t).setPhase .encode)) hcode, runOn_failed,
    encoding_eq hys h rest, fail_of_macro _ (.inl rfl)] at htoken
  rw [pack_take]
  exact exec_of_runsTo hb ht (by decide) (by decide) (hrun.trans htoken) (not_enabled_of_not_busy (by simp))

end

end Sys2Proof.Machine

/-! PROOFS. COMPRESS of a stream, and DECOMPRESS of what it wrote (O34, O36). -/

namespace Sys2Proof.Machine

/-! ## The archive of a stream (47 R222) -/

/-- COMPRESS of a stream shorter than 2^64 builds a tree of 42 R164 with exactly the symbols of the stream as leaves. -/
theorem coded_of_stream {s : State} {xs : List Byte} (q : List Token) (hne : xs ≠ []) (hlen : xs.length < 2 ^ 64)
    (hnode : Memory.wf 511 s.node = true) (hweight : Memory.wf 511 s.weight = true) :
    ∃ v t, s.Coded xs q v t ∧ v.freq = histogram xs ∧ Huffman v.forest t xs.length ∧ t.leaves.Nodup
      ∧ ∀ b, b ∈ t.leaves ↔ b ∈ xs := by
  have hpresent := mem_present_histogram (s := s.scanned xs q) rfl hlen
  have hsum : (s.scanned xs q).freqSum = xs.length := freqSum_histogram rfl hlen
  obtain ⟨b, hb⟩ := List.exists_mem_of_ne_nil xs hne
  have hsome : (s.scanned xs q).present ≠ [] := List.ne_nil_of_mem ((hpresent b).2 hb)
  obtain ⟨u, v, t, hu, hv, hframe, hroot, hcodes, hhuffman, hleaves⟩ :=
    build_gencode_of_histogram (c := s.scanned xs q) hnode hweight hsome (by rwa [hsum]) rfl
  have hfreq : v.freq = histogram xs := by rw [hframe]; rfl
  refine ⟨v, t, ⟨⟨u, hu, hv⟩, hframe, hroot, hcodes⟩, hfreq, ?_, hleaves.nodup_iff.2 (present_nodup _),
    fun c => hleaves.mem_iff.trans (hpresent c)⟩
  rw [hsum] at hhuffman
  rw [hframe]
  exact hhuffman

/-- Settles O34: the tree and its codes are made of the first stream alone, and each end of the second stream is one of
COMPRESS's. -/
theorem compressWritesTheArchive : Obligations.CompressWritesTheArchive := by
  unfold Obligations.CompressWritesTheArchive
  intro s xs ys after rest hb ht hne hlen hlen' hys hq hroom hnode hweight
  obtain ⟨v, t, hcoded, hfreq, hhuffman, hnodup, hmem⟩ :=
    coded_of_stream (byteTokens ys ++ after) hne hlen hnode hweight
  have hys' : ∀ b ∈ ys, b ∈ t.leaves := fun b hb => (hmem b).2 (hys b hb)
  have hser := ser_length_le hnodup
  have hpack := pack_bitsOf_length_le (size_le_of_leaves_nodup hnodup) ys
  have hroom' : (s.outWithHeader xs t).length + (pack (t.bitsOf ys)).length ≤ s.outDepth := by
    rw [outWithHeader_length]
    omega
  refine ⟨s.compressed xs ys rest v, t, t.bitsOf ys, rfl, fun b => ?_, hhuffman, hnodup, hmem, rfl,
    exec_compress_completes hne hlen hlen' hys' hq hcoded hroom' hb ht,
    exec_compress_mismatch hne hlen hlen' hys' hq hcoded hroom' hb ht,
    fun b hnone hafter =>
      exec_compress_noCode hne hlen hlen' hys' hq hcoded hroom' hb ht hafter (fun h => hnone ((hmem b).1 h))⟩
  rw [← read_histogram, ← hfreq]
  rfl

/-! ## The stream back from its archive (47 R227) -/

/-- The padding of a payload is less than a byte, so its last byte holds a bit that was packed. -/
theorem drop_pack (bits : List Bool) :
    (pack bits).drop (((bytesBits (pack bits)).length
      - (List.replicate (8 * ((bits.length + 7) / 8) - bits.length) false).length + 7) / 8) = [] := by
  refine List.drop_eq_nil_of_le ?_
  rw [bytesBits_length, pack_length, List.length_replicate]
  omega

/-- Settles O36: O34 gives the archive, and O35 reads it, since the payload decodes to the stream and is used up. -/
theorem compressThenDecompressIsTheIdentity : Obligations.CompressThenDecompressIsTheIdentity := by
  unfold Obligations.CompressThenDecompressIsTheIdentity
  intro s xs rest hb ht hne hlen hq hroom hnode hweight
  obtain ⟨v, t, bits, -, -, -, hnodup, hmem, hbits, hdone, -⟩ :=
    compressWritesTheArchive s xs xs (.eos :: rest) rest hb ht hne hlen hlen (fun _ h => h) hq hroom hnode hweight
  obtain rfl : bits = t.bitsOf xs := hbits
  refine ⟨_, t.ser ++ size8 s.sizeEndian (BitVec.ofNat 64 xs.length) ++ pack (t.bitsOf xs), hdone rfl rfl, rfl, by simp,
    fun d after hb' ht' hendian hq' hroom' hnode' hweight' => ?_⟩
  have hdec := dec_pack_bitsOf (fun b hb => (hmem b).2 hb)
  have hcount : (BitVec.ofNat 64 xs.length).toNat = xs.length := by rw [BitVec.toNat_ofNat, Nat.mod_eq_of_lt hlen]
  rw [← hcount] at hdec
  rw [← hendian] at hq'
  obtain ⟨w, hexec, hw⟩ := decompressReadsTheArchive d t _ _ xs _ (.eos :: after) hb' ht'
    (size_le_of_leaves_nodup hnodup) hq' hdec hroom' hnode' hweight'
  rw [drop_pack] at hw
  refine ⟨w, hexec, ?_⟩
  rw [hw]
  exact ⟨rfl, rfl, rfl⟩

end Sys2Proof.Machine

/-! PROOFS. COMPRESS of one repeated byte: one leaf, the code 0, and a payload of zeros (O33). -/

namespace Sys2Proof.Machine

/-! ## One symbol (42 R161, 43 R173) -/

theorem Memory.write_singleton {w i : Nat} {u v : BitVec w} (h : v ≠ 0#w) : Memory.write [(i, u)] i v = [(i, v)] := by
  simp [Memory.write, h]

theorem histogram_replicate (b : Byte) {n : Nat} (hpos : 1 ≤ n) (hlen : n < 2 ^ 64) :
    histogram (List.replicate n b) = [(b.toNat, BitVec.ofNat 64 n)] := by
  induction n, hpos using Nat.le_induction with
  | base => rfl
  | succ n hpos ih =>
    have hnext : BitVec.ofNat 64 n + 1 = BitVec.ofNat 64 (n + 1) := (BitVec.ofNat_add n 1).symm
    rw [List.replicate_succ', histogram_concat, ih (by omega), Memory.read, if_pos rfl, hnext,
      Memory.write_singleton (ofNat_ne_zero (by omega) hlen)]

/-- The sole symbol of a stream is the sole one with FREQ > 0. -/
theorem present_replicate {s : State} {b : Byte} {n : Nat} (hf : s.freq = histogram (List.replicate n b)) (hpos : 1 ≤ n)
    (hlen : n < 2 ^ 64) : s.present = [b] := by
  refine List.perm_singleton.1 ((List.perm_ext_iff_of_nodup (present_nodup s) (List.nodup_singleton b)).2 fun c => ?_)
  rw [mem_present_histogram hf (by rwa [List.length_replicate]), List.mem_replicate, List.mem_singleton]
  exact and_iff_right (by omega)

/-- The block after BUILD of the sole symbol `b`: its leaf in slot 0 is the root (42 R161). -/
def State.builtLeaf (b : Byte) (s : State) : State :=
  { s.buildInit with
    tv := true, nodeN := 1, node := Memory.write s.node 0 (leafWord b), weight := Memory.write s.weight 0 (s.freqAt b) }

theorem buildRun_leaf {s : State} {b : Byte} (h : s.present = [b]) : buildRun s = .done (s.builtLeaf b) :=
  buildRun_singleton h

theorem builtLeaf_rootTree (b : Byte) {s : State} (hnode : Memory.wf 511 s.node = true) :
    (s.builtLeaf b).rootTree (.leaf b) := by
  have hread : Memory.read (s.builtLeaf b).node (s.builtLeaf b).root.toNat = leafWord b :=
    Memory.read_write_same _ _ _ _ hnode
  refine ⟨⟨(by decide : (0 : Handle) < 1), ?_, ?_⟩, List.nodup_singleton _⟩
  · rw [hread, wordIsLeaf_leafWord]
  · rw [hread, wordSym_leafWord]

/-- GENCODE over a single leaf, in terms of the block it starts in (43 R173). -/
theorem gencodeRun_leaf {u : State} {b : Byte} (h : u.rootTree (.leaf b)) :
    gencodeRun u = .done { u with
      phase := .gencode, cv := true, codeLen := [(b.toNat, 1)], codeBits := [], published := 0 } := by
  have hsym : u.symOf u.root = b := h.1.2.2
  rw [gencodeRun_of_isLeaf ((isLeaf_root h).2 ⟨b, rfl⟩), hsym]
  rfl

/-- COMPRESS of `n` copies of `b` comes to `sertree()` with the leaf of `b` in slot 0 and the code 0 of length 1. -/
theorem coded_replicate {s : State} (b : Byte) {n : Nat} (q : List Token) (hpos : 1 ≤ n) (hlen : n < 2 ^ 64)
    (hnode : Memory.wf 511 s.node = true) :
    ∃ v, s.Coded (List.replicate n b) q v (.leaf b)
      ∧ v = { s.scanned (List.replicate n b) q with
          phase := .gencode, tv := true, cv := true, root := 0, nodeN := 1, node := Memory.write s.node 0 (leafWord b),
          weight := Memory.write s.weight 0 (BitVec.ofNat 64 n), codeLen := [(b.toNat, 1)], codeBits := [], heap := [],
          stk := [], published := 0 } := by
  have hbuild := buildRun_leaf (s := s.scanned (List.replicate n b) q) (present_replicate rfl hpos hlen)
  have hroot : ((s.scanned (List.replicate n b) q).builtLeaf b).rootTree (.leaf b) := builtLeaf_rootTree b hnode
  have hgen := gencodeRun_leaf hroot
  obtain ⟨v, hv, hcodes⟩ := gencodeRun_tabulates hroot
  obtain rfl := Run.done.inj (hgen.symm.trans hv)
  have hcount : (s.scanned (List.replicate n b) q).freqAt b = BitVec.ofNat 64 n :=
    (read_histogram _ b).trans (by rw [List.count_replicate_self])
  refine ⟨_, ⟨⟨_, hbuild, hgen⟩, rfl, hroot, hcodes⟩, ?_⟩
  rw [State.builtLeaf, hcount]
  rfl

theorem bitsOf_replicate (b : Byte) (n : Nat) : (Tree.leaf b).bitsOf (List.replicate n b) = List.replicate n false := by
  induction n with
  | zero => rfl
  | succ n ih =>
    rw [List.replicate_succ, bitsOf_cons, ih]
    simp [Tree.code, List.replicate_succ]

theorem pack_replicate_false (n : Nat) : pack (List.replicate n false) = List.replicate ((n + 7) / 8) 0 := by
  have hbyte : ∀ k, packByte (List.replicate n false) k = 0 := by
    intro k
    simp [packByte, List.getD_eq_getElem?_getD, List.getElem?_getD_replicate_default_eq]
  rw [pack, List.length_replicate, List.eq_replicate_iff]
  simp [hbyte]

/-- Settles O33: the tree is one leaf, and each byte is the bit 0. -/
theorem compressOfOneSymbol : Obligations.CompressOfOneSymbol := by
  unfold Obligations.CompressOfOneSymbol
  intro s b n rest hb ht hpos hlen hq hroom hnode
  obtain ⟨v, hcoded, hv⟩ := coded_replicate b (byteTokens (List.replicate n b) ++ .eos :: rest) hpos hlen hnode
  have hlen' : (List.replicate n b).length < 2 ^ 64 := by rwa [List.length_replicate]
  have hne : List.replicate n b ≠ [] := by simp; omega
  have hbits : pack ((Tree.leaf b).bitsOf (List.replicate n b)) = List.replicate ((n + 7) / 8) 0 := by
    rw [bitsOf_replicate, pack_replicate_false]
  rw [exec_compress_completes hne hlen' hlen' (by simp [Tree.leaves]) hq hcoded ?_ hb ht rfl rfl, hbits, State.outWithHeader,
    State.compressed, hv, State.scanned, State.counting, histogram_replicate b hpos hlen, List.length_replicate]
  · rfl
  · rw [hbits, outWithHeader_length, List.length_replicate]
    exact hroom

end Sys2Proof.Machine

/-! PROOFS. The errors of a command: each procedure raises its own, and COMPRESS reaches BUILD with a symbol (O39). -/

namespace Sys2Proof.Machine

/-! ## The histogram while COUNT runs (41 R141) -/

theorem toNat_add_one_lt {v : DWord} (h : v ≠ BitVec.allOnes 64) : v.toNat + 1 < 2 ^ 64 := by
  rw [← BitVec.toNat_inj.ne, BitVec.toNat_allOnes] at h
  omega

theorem toNat_add_one {v : DWord} (h : v.toNat + 1 < 2 ^ 64) : (v + 1).toNat = v.toNat + 1 :=
  BitVec.toNat_add_of_lt h

/-- FREQ is canonical. -/
def State.FreqWf (s : State) : Prop := Memory.wf 256 s.freq = true

theorem freqAt_le_freqSum (s : State) (b : Byte) : (s.freqAt b).toNat ≤ s.freqSum :=
  List.le_sum_of_mem (List.mem_map_of_mem (mem_allSymbols b))

theorem freqAt_countByte_same {s : State} (hw : s.FreqWf) (b : Byte) :
    (s.countByte b).freqAt b = s.freqAt b + 1 := Memory.read_write_same 256 _ _ _ hw

theorem freqAt_countByte_ne (s : State) {b c : Byte} (h : c ≠ b) : (s.countByte b).freqAt c = s.freqAt c :=
  Memory.read_write_ne _ _ _ _ (fun hn => h (BitVec.eq_of_toNat_eq hn))

/-- A counted byte raises the sum of FREQ by one, as long as the sum fits in 64 bits. -/
theorem freqSum_countByte {s : State} (hw : s.FreqWf) (hlt : s.freqSum + 1 < 2 ^ 64) (b : Byte) :
    (s.countByte b).freqSum = s.freqSum + 1 := by
  have hentry : ∀ c, ((s.countByte b).freqAt c).toNat = (s.freqAt c).toNat + if c = b then 1 else 0 := by
    intro c
    split_ifs with hc
    · have hle := freqAt_le_freqSum s b
      rw [hc, freqAt_countByte_same hw, toNat_add_one (by omega)]
    · rw [freqAt_countByte_ne s hc, Nat.add_zero]
  have hone : (allSymbols.map (fun c => if c = b then 1 else 0)).sum = 1 := by
    rw [List.sum_map_eq_nsmul_single b _ (fun c hc _ => if_neg hc),
      List.count_eq_one_of_mem allSymbols_nodup (mem_allSymbols b), if_pos rfl, one_smul]
  simp only [State.freqSum, hentry, List.sum_map_add, hone]

theorem freqWf_of_store {s u : State} (h : u.store = s.store) (hs : s.FreqWf) : u.FreqWf := by
  have hfreq : u.freq = s.freq := congrArg Store.freq h
  rwa [State.FreqWf, hfreq]

/-- Every procedure keeps FREQ canonical, from its start to its first stop. -/
theorem startProc_freqWf (p : Proc) (s : State) (h : s.FreqWf) : (startProc p s).final.FreqWf := by
  by_cases hp : p.onlyReads = true
  · exact freqWf_of_store (startProc_store hp s).1 h
  · cases p <;> simp only [startProc]
    case clear | count => rfl
    case build =>
      exact buildRun_keeps State.FreqWf (fun _ h => h) (fun _ _ _ h => h) (fun _ _ h => h)
        (fun _ h => h) s h
    case gencode =>
      exact gencodeRun_keeps State.FreqWf (fun _ h => h) (fun _ _ _ _ h => h) (fun _ _ h => h)
        (fun _ h => h) s h
    case destree | release => exact h
    all_goals exact absurd rfl hp

theorem afterIn_freqWf (k : InPoint) (t : Token) (s : State) (h : s.FreqWf) : (afterIn k t s).final.FreqWf := by
  by_cases hk : (procOfIn k).onlyReads = true
  · exact freqWf_of_store (afterIn_leaves hk t s).1 h
  · cases k <;> simp only [afterIn]
    case count =>
      unfold countToken; split
      · split <;> exact h
      · split
        · exact h
        · exact freqWrite_wf _ _ h
    case marker =>
      unfold destreeMarker; split
      · exact h
      · split_ifs <;> exact h
    case symbol g =>
      unfold destreeSymbol; split
      · exact h
      · exact attach_keeps State.FreqWf (fun _ _ _ h => h) (fun _ _ h => h) (fun _ _ h => h) _ _ _ h
    all_goals exact absurd rfl hk

theorem Run.leads_freqWf (todo : List Proc) {r : Run} (h : r.final.FreqWf) :
    r.Leads (fun _ => State.FreqWf) State.FreqWf todo :=
  Run.leads_of_final State.FreqWf (fun _ _ h => h) (fun _ _ h => h) todo h

/-- The engine keeps FREQ canonical. -/
theorem freqWf_carries : Carries (fun _ => State.FreqWf) State.FreqWf where
  complete _ h := h
  proc p todo s h := Run.leads_freqWf todo (startProc_freqWf p s h)
  start _ _ _ _ h := h
  input s k todo t rest _ _ h := Run.leads_freqWf todo (afterIn_freqWf k t { s with inq := rest } h)
  output s b k todo _ _ h := Run.leads_freqWf todo (freqWf_of_store (afterOut_store k { s with outq := s.outq ++ [b] }).1 h)

/-! ## BUILD in COMPRESS finds a symbol (47 R222) -/

/-- While COUNT runs, SIZE is the sum of FREQ. -/
def State.CountInv (s : State) : Prop :=
  s.state = .busy → ∀ todo, s.resume = .inNext .count todo → s.FreqWf ∧ s.freqSum = s.size.toNat

/-- COMPRESS starts BUILD with a symbol only. -/
def State.SymbolReady (todo : List Proc) (s : State) : Prop :=
  s.cmdCur = opcodeOf .compress → todo.head? = some .build → ∃ b, s.freqAt b ≠ 0

theorem opcodeOf_injective : Function.Injective opcodeOf := by
  intro i j h
  have hi := (decodeOpcode_eq_some_iff (opcodeOf j) i).2 h.symm
  rw [(decodeOpcode_eq_some_iff _ j).2 rfl] at hi
  exact (Option.some.inj hi).symm

/-- In COMPRESS, BUILD comes after COUNT. -/
theorem before_build {s : State} {p : Proc} {todo : List Proc} (h : s.programEnds (p :: todo))
    (hc : s.cmdCur = opcodeOf .compress) (hhead : todo.head? = some .build) : p = .count := by
  obtain ⟨i, hi, hsuf⟩ := h
  obtain rfl := opcodeOf_injective (hi.symm.trans hc)
  have hall : ∀ l ∈ (programOf .compress).tails, l.tail.head? = some .build → l.head? = some .count := by decide
  simpa using hall _ ((List.mem_tails _ _).2 hsuf) hhead

/-- A stretch of a procedure other than COUNT owes nothing of the histogram. -/
theorem StopsIn.leads_count {p : Proc} {r : Run} (hr : StopsIn p r) (hp : p ≠ .count) {todo : List Proc}
    (h : r.final.programEnds (p :: todo)) : r.Leads State.SymbolReady State.CountInv todo := by
  cases r with
  | done u => exact fun hc hhead => absurd (before_build h hc hhead) hp
  | waitIn k u =>
    intro _ l hl
    injection hl with hk
    exact absurd (by rw [← show procOfIn k = p from hr, hk]; rfl) hp
  | failed e u => exact fun hb => nomatch hb
  | _ => exact fun _ l hl => nomatch hl

/-- COUNT returns only with a symbol, and keeps SIZE the sum of FREQ. -/
theorem countToken_leads_count (t : Token) (todo : List Proc) {s : State} (hw : s.FreqWf)
    (hsum : s.freqSum = s.size.toNat) : (countToken t s).Leads State.SymbolReady State.CountInv todo := by
  cases t with
  | eos =>
    by_cases h : s.size = 0
    · rw [countToken_eos_empty h]
      exact fun hb => nomatch hb
    · rw [countToken_eos h]
      intro _ _
      have hpos : 0 < s.freqSum := hsum ▸ Nat.pos_of_ne_zero (fun h0 => h (BitVec.eq_of_toNat_eq h0))
      obtain ⟨b, hb⟩ := List.exists_mem_of_ne_nil _ (present_ne_nil_of_freqSum hpos)
      exact ⟨b, mem_present.1 hb⟩
  | byte b =>
    by_cases h : s.size = BitVec.allOnes 64
    · rw [countToken_byte_full b h]
      exact fun hb => nomatch hb
    · rw [countToken_byte b h]
      have hlt : s.size.toNat + 1 < 2 ^ 64 := toNat_add_one_lt h
      refine fun _ _ _ => ⟨freqWrite_wf _ _ hw, ?_⟩
      calc (s.countByte b).freqSum = s.freqSum + 1 := freqSum_countByte hw (hsum ▸ hlt) b
        _ = (s.size + 1).toNat := by rw [hsum, toNat_add_one hlt]

/-- Every procedure of a command leaves the histogram as the next one needs it. -/
theorem startProc_leads_count (p : Proc) (todo : List Proc) (s : State) (h : s.programEnds (p :: todo)) :
    (startProc p s).Leads State.SymbolReady State.CountInv todo := by
  by_cases hp : p = .count
  · subst hp
    exact fun _ _ _ => ⟨rfl, freqSum_histogram (xs := []) rfl (by decide)⟩
  · refine (startProc_stops p s).leads_count hp ?_
    rwa [State.programEnds, (final_status (startProc_hostSide p s _ rfl)).2.2]

/-! ## The errors of a command (60 R233) -/

/-- The error is one of the command CMD_CUR names. -/
def State.OwnError (s : State) : Prop := ∃ i, s.cmdCur = opcodeOf i ∧ s.err ∈ possibleErrors i

/-- Where a procedure of the command with opcode `op` has returned and `todo` is still to run. -/
def State.ErrorsReturned (op : Byte) (todo : List Proc) (s : State) : Prop :=
  s.cmdCur = op ∧ s.state = .busy ∧ s.programEnds todo ∧ s.SymbolReady todo

/-- Between two engine steps of the command with opcode `op`: it has failed with an error of its own, if it has failed. -/
def State.OwnErrorInv (op : Byte) (s : State) : Prop :=
  s.cmdCur = op ∧ s.CommandInv ∧ s.CountInv ∧ (s.state = .error → s.OwnError)

/-- An error of a procedure is one of its command, unless it is NO_SYMBOLS in COMPRESS. -/
theorem fail_ownError {s : State} {p : Proc} {todo : List Proc} (h : s.programEnds (p :: todo)) {e : Err}
    (he : e ∈ errsOf p) (hsym : s.cmdCur = opcodeOf .compress → e ≠ .noSymbols) : (s.fail e).OwnError := by
  obtain ⟨i, hi, hsuf⟩ := h
  rcases errs_possible i p (hsuf.subset List.mem_cons_self) e he with hpos | ⟨rfl, -, hno⟩
  · exact ⟨i, hi, hpos⟩
  · exact absurd hno (hsym hi)

/-- A stretch of a command leads on if it leaves the histogram as it should and finds a symbol in COMPRESS. -/
theorem StopsIn.leads_errors {op : Byte} {p : Proc} {r : Run} {s : State} {todo : List Proc} (hr : StopsIn p r)
    (hh : r.final.hostSide = s.hostSide) (hop : s.cmdCur = op) (hb : s.state = .busy) (hp : s.programEnds (p :: todo))
    (hcount : r.final.programEnds (p :: todo) → r.Leads State.SymbolReady State.CountInv todo)
    (hsym : s.cmdCur = opcodeOf .compress → ∀ u, r ≠ .failed .noSymbols u) :
    r.Leads (State.ErrorsReturned op) (State.OwnErrorInv op) todo := by
  obtain ⟨hstate, -, hcmd⟩ := final_status hh
  have hbusy : r.final.state = .busy := hstate.trans hb
  have hends : r.final.programEnds (p :: todo) := by rwa [State.programEnds, hcmd]
  have hleads := (hr.leads_command hends).and (hcount hends)
  cases r with
  | done u => exact ⟨hcmd.trans hop, hbusy, hleads⟩
  | failed e u =>
    refine ⟨hcmd.trans hop, hleads.1, hleads.2, fun _ => fail_ownError hends hr fun hc he => ?_⟩
    exact hsym (hcmd.symm.trans hc) u (by rw [he])
  | _ => exact ⟨hcmd.trans hop, hleads.1, hleads.2, fun he => nomatch hbusy.symm.trans he⟩

/-- Only BUILD raises NO_SYMBOLS. -/
theorem eq_build_of_noSymbols {p : Proc} (h : Err.noSymbols ∈ errsOf p) : p = .build := by
  revert h
  cases p <;> decide

theorem StopsIn.ne_noSymbols {p : Proc} {r : Run} (hr : StopsIn p r) (hp : p ≠ .build) (u : State) :
    r ≠ .failed .noSymbols u := by
  rintro rfl
  exact hp (eq_build_of_noSymbols hr)

/-- COMPRESS does not meet NO_SYMBOLS in BUILD, nor does any other procedure. -/
theorem startProc_ne_noSymbols {s : State} {p : Proc} {todo : List Proc} (h : s.SymbolReady (p :: todo))
    (hc : s.cmdCur = opcodeOf .compress) (u : State) : startProc p s ≠ .failed .noSymbols u := by
  by_cases hp : p = .build
  · subst hp
    obtain ⟨b, hb⟩ := h hc rfl
    exact buildRun_has_symbols s b hb u
  · exact (startProc_stops p s).ne_noSymbols hp u

theorem errors_carries (op : Byte) : Carries (State.ErrorsReturned op) (State.OwnErrorInv op) where
  complete := fun s ⟨hop, _⟩ => ⟨hop, (fun hb => nomatch hb), (fun hb => nomatch hb), (fun he => nomatch he)⟩
  proc := by
    rintro p todo s ⟨hop, hb, hp, hsym⟩
    exact (startProc_stops p s).leads_errors (startProc_hostSide p s _ rfl) hop hb hp
      (fun _ => startProc_leads_count p todo s hp) (startProc_ne_noSymbols hsym)
  start := by
    rintro s todo hb hr ⟨hop, hcmd, -, -⟩
    obtain ⟨i, hi, hw⟩ := hcmd hb
    have htodo : todo = programOf i := by simpa [Resume.within, hr] using hw
    refine ⟨hop, hb, ⟨i, hi, htodo ▸ List.suffix_rfl⟩, fun hc hhead => ?_⟩
    rw [htodo, opcodeOf_injective (hi.symm.trans hc)] at hhead
    cases hhead
  input := by
    rintro s k todo t rest hb hr ⟨hop, hcmd, hcount, -⟩
    have hp : s.programEnds (procOfIn k :: todo) := programEnds_of_command hcmd hb (by simp [Resume.within, hr])
    refine (afterIn_stops k t _).leads_errors (afterIn_hostSide k t { s with inq := rest } _ rfl) hop hb hp
      (fun hends => ?_) (fun _ => (afterIn_stops k t _).ne_noSymbols (by cases k <;> simp [procOfIn]))
    by_cases hk : k = .count
    · subst hk
      obtain ⟨hw, hsum⟩ := hcount hb todo hr
      exact countToken_leads_count t todo hw hsum
    · exact (afterIn_stops k t _).leads_count (by cases k <;> simp_all [procOfIn]) hends
  output := by
    rintro s b k todo hb hr ⟨hop, hcmd, -, -⟩
    have hp : s.programEnds (procOfOut k :: todo) := programEnds_of_command hcmd hb (by simp [Resume.within, hr])
    have hstops := afterOut_stops k { s with outq := s.outq ++ [b] }
    exact hstops.leads_errors (afterOut_hostSide k { s with outq := s.outq ++ [b] } _ rfl) hop hb hp
      (hstops.leads_count (by cases k <;> simp [procOfOut])) (fun _ => hstops.ne_noSymbols (by cases k <;> simp [procOfOut]))

/-! ## Every step keeps it -/

theorem engineStep_errorInv (s : State) (h : s.ErrorInv) : (engineStep s).ErrorInv := by
  obtain ⟨hflag, hw, hsum, herr⟩ := h
  by_cases hb : s.state = .busy
  · have hown : s.OwnErrorInv s.cmdCur :=
      ⟨rfl, hflag.2, fun hb todo hr => ⟨hw, hsum hb todo hr⟩, fun he => nomatch hb.symm.trans he⟩
    obtain ⟨-, -, hcount, herr'⟩ := (errors_carries s.cmdCur).engineStep s hown
    exact ⟨flags_carries.engineStep s hflag, freqWf_carries.engineStep s hw, fun hb todo hr => (hcount hb todo hr).2,
      fun he => .inr (herr' he)⟩
  · rw [engineStep_of_not_enabled (not_enabled_of_not_busy hb)]
    exact ⟨hflag, hw, hsum, herr⟩

/-- No act of the host breaks it: a histogram is written only while no command runs. -/
theorem HostEffect.keeps_errors {s u : State} (hu : HostEffect s u) (h : s.ErrorInv) : u.ErrorInv := by
  have hflag := hu.keeps_flags h.1
  obtain ⟨-, hw, hsum, herr⟩ := h
  cases hu with
  | resetDone r => exact ⟨hflag, rfl, (fun hb => nomatch hb), (fun he => nomatch he)⟩
  | illegal v hb => exact ⟨hflag, hw, (fun hb => nomatch hb), fun _ => .inl rfl⟩
  | sized r n hb => exact ⟨hflag, hw, fun hb' => absurd hb' hb, herr⟩
  | counted r b n hb => exact ⟨hflag, freqWrite_wf b n hw, fun hb' => absurd hb' hb, herr⟩
  | _ => exact ⟨hflag, hw, hsum, herr⟩

/-- An accepted command stands at its start, and has not failed. -/
theorem accept_ownErrorInv (s : State) (i : Instr) :
    (s.accept (opcodeOf i) (programOf i)).OwnErrorInv (opcodeOf i) :=
  ⟨rfl, fun _ => ⟨i, rfl, by simp [Resume.within]⟩, (fun _ _ hr => nomatch hr), (fun he => nomatch he)⟩

theorem acknowledge_ownErrorInv (s : State) : s.acknowledge.OwnErrorInv (opcodeOf .nop) :=
  ⟨rfl, (fun hb => nomatch hb), (fun hb => nomatch hb), (fun he => nomatch he)⟩

/-- Settles O39: an engine step of a running command ends in an error of its own or in none, so a turn does as well. -/
theorem eachCommandFailsOnlyWithItsErrors : Obligations.EachCommandFailsOnlyWithItsErrors := by
  unfold Obligations.EachCommandFailsOnlyWithItsErrors
  constructor
  · refine step_keeps State.ErrorInv (fun _ _ h => h) (fun _ _ h => h) engineStep_errorInv ?_ ?_
      (fun _ _ hu h => hu.keeps_errors h)
    · rintro s - ⟨⟨hcv, -⟩, hw, -, -⟩
      exact ⟨⟨hcv, (fun hb => nomatch hb)⟩, hw, (fun hb => nomatch hb), (fun he => nomatch he)⟩
    · rintro s i - - ⟨hflag, hw, -, -⟩
      exact ⟨accept_flags s i hflag, hw, (fun _ _ hr => nomatch hr), (fun he => nomatch he)⟩
  · intro s i hb
    refine ⟨_, exec_ready s i hb, fun he => ?_⟩
    have hturn := takeTurn_keeps (State.OwnErrorInv (opcodeOf i)) (errors_carries _).engineStep (fun _ _ h => h)
      (if i = .nop then s.acknowledge else s.accept (opcodeOf i) (programOf i)) (by
        split_ifs with hi
        · rw [hi]; exact acknowledge_ownErrorInv s
        · exact accept_ownErrorInv s i)
    obtain ⟨hop, -, -, hown⟩ := hturn
    obtain ⟨j, hj, hmem⟩ := hown he
    rwa [opcodeOf_injective (hj.symm.trans hop)] at hmem

end Sys2Proof.Machine

/-! PROOFS. PROGRESS: what a read shows, and what keeps the shown value at most the internal one (O59). -/

namespace Sys2Proof.Machine

/-! ## Reads of PROGRESS (60 R252) -/

theorem hostAct_read_progress (s : State) :
    hostAct (.read 32 0x002C) s = s.readProgress false ∧ hostAct (.read 32 0x0030) s = s.readProgress true :=
  ⟨hostAct_read_offset (l := .progress false) trivial s, hostAct_read_offset (l := .progress true) trivial s⟩

theorem readProgress_of_ready {s : State} (hb : s.state ≠ .busy) (hi : Bool) :
    s.readProgress hi = s.answer (halfOf hi s.progress) := if_neg (by simpa [busy_iff] using hb)

theorem readProgress_of_busy {s : State} (hb : s.state = .busy) (hi : Bool) :
    s.readProgress hi
      = ({ s with published := s.publishedNext, draws := s.draws + 1 } : State).answer (halfOf hi s.publishedNext) :=
  if_pos ((busy_iff s).2 hb)

/-- The value a read publishes, as a number: nothing wraps. -/
theorem toNat_publishedNext (s : State) :
    s.publishedNext.toNat = min s.published.toNat s.progress.toNat
      + Config.freeCount s.draws % (s.progress.toNat - min s.published.toNat s.progress.toNat + 1) := by
  have hlt := s.progress.isLt
  have hmod := Nat.mod_lt (Config.freeCount s.draws)
    (Nat.add_one_pos (s.progress.toNat - min s.published.toNat s.progress.toNat))
  rw [State.publishedNext, BitVec.toNat_ofNat, Nat.mod_eq_of_lt (by omega)]

theorem publishedNext_le (s : State) : s.publishedNext ≤ s.progress := by
  have hmod := Nat.mod_lt (Config.freeCount s.draws)
    (Nat.add_one_pos (s.progress.toNat - min s.published.toNat s.progress.toNat))
  rw [BitVec.le_def, toNat_publishedNext]
  omega

theorem le_publishedNext {s : State} (h : s.published ≤ s.progress) : s.published ≤ s.publishedNext := by
  rw [BitVec.le_def] at h ⊢
  rw [toNat_publishedNext, Nat.min_eq_left h]
  exact Nat.le_add_right _ _

/-! ## The shown value over the acts of the host -/

/-- The value shown is at most the internal one. -/
def State.ShownLe (s : State) : Prop := s.published ≤ s.progress

/-- A new phase has shown nothing yet. -/
theorem shownLe_of_published_zero {s : State} (h : s.published = 0) : s.ShownLe := by
  rw [State.ShownLe, h, BitVec.le_def]
  exact Nat.zero_le _

theorem readLoc_shownLe (l : Loc) {s : State} (h : s.ShownLe) : (readLoc l s).ShownLe := by
  cases l <;> simp only [readLoc]
  case progress hi =>
    by_cases hb : s.state = .busy
    · rw [readProgress_of_busy hb]
      exact publishedNext_le s
    · rw [readProgress_of_ready hb]
      exact h
  case outData => unfold State.popOut; split <;> exact h
  case size | treeInfo | freq | node | codeLen | weight | codeBits => unfold State.answerIf; split <;> exact h
  all_goals exact h

theorem pushIn_shownLe (t : Token) {s : State} (h : s.ShownLe) : (s.pushIn t).ShownLe := by
  unfold State.pushIn; split <;> exact h

theorem resetBlock_shownLe (s : State) : s.resetBlock.ShownLe := shownLe_of_published_zero rfl

theorem writeLoc_shownLe (l : Loc) (v : Word) {s : State} (h : s.ShownLe) : (writeLoc l v s).ShownLe := by
  cases l <;> simp only [writeLoc]
  case cmd =>
    unfold writeIllegal; split
    · exact h
    · exact shownLe_of_published_zero rfl
  case ctrl =>
    unfold writeCtrl; split
    · exact resetBlock_shownLe s
    · exact h
  case size hi => unfold writeSize; split <;> exact h
  case freq b hi => unfold writeFreq; split <;> exact h
  case inData | inEos => exact pushIn_shownLe _ h
  all_goals exact h

/-- No act of the host shows more than the internal value. -/
theorem hostAct_shownLe (a : HostAct) {s : State} (h : s.ShownLe) : (hostAct a s).ShownLe := by
  cases a with
  | reset => exact resetBlock_shownLe s
  | read bits off =>
    simp only [hostAct]; split
    · exact readLoc_shownLe _ h
    · exact h
  | write bits off v =>
    simp only [hostAct]; split
    · exact writeLoc_shownLe _ v h
    · exact h

/-- An act of the host leaves the count of a BUSY engine, so only the value shown is to be bounded. -/
theorem HostEffect.keeps_progress {s u : State} (hu : HostEffect s u) (hshown : s.ShownLe → u.ShownLe)
    (h : s.ProgressInv) : u.ProgressInv := by
  cases hu with
  | resetDone r => exact fun hb => nomatch hb
  | illegal v _ => exact fun hb => nomatch hb
  | sized r n hb => exact fun hb' => absurd hb' hb
  | published r p hb => exact fun _ => ⟨hshown (h hb).1, (h hb).2⟩
  | _ => exact h

theorem hostAct_progressInv (a : HostAct) {s : State} (h : s.ProgressInv) : (hostAct a s).ProgressInv :=
  (hostAct_effect a s).keeps_progress (hostAct_shownLe a) h

/-! ## The shown value over the engine's steps -/

/-- A stretch that leads on: to a shown value at most the internal one where it returned, to the invariant where the engine
stops. -/
abbrev Run.KeepsProgress (todo : List Proc) (r : Run) : Prop := r.Leads (fun _ => State.ShownLe) State.ProgressInv todo

/-- A stretch of a procedure that counts nothing owes the bound only. -/
theorem StopsIn.leads_progress {p : Proc} {r : Run} (hr : StopsIn p r) (hp : p ≠ .count ∧ p ≠ .encode ∧ p ≠ .decode)
    (todo : List Proc) (h : r.final.ShownLe) : r.KeepsProgress todo := by
  obtain ⟨hcount, hencode, hdecode⟩ := hp
  cases r with
  | done s => exact h
  | failed e s => exact fun hb => nomatch hb
  | endless s => exact fun _ => ⟨h, trivial⟩
  | waitIn k s =>
    refine fun _ => ⟨h, ?_⟩
    cases k
    case count => exact absurd hr.symm hcount
    case encode => exact absurd hr.symm hencode
    case decode => exact absurd hr.symm hdecode
    all_goals trivial
  | waitOut b k s =>
    refine fun _ => ⟨h, ?_⟩
    cases k
    case codeBits => exact absurd hr.symm hencode
    case rootSymbol | leafReached => exact absurd hr.symm hdecode
    all_goals trivial

theorem encodeEnd_leads_progress (todo : List Proc) {s : State} (h : s.ShownLe) :
    (encodeEnd s).KeepsProgress todo := by
  unfold encodeEnd; split
  · exact h
  · exact fun hb => nomatch hb

theorem le_add_one_of_ne_allOnes {a c : DWord} (h : a ≤ c) (hc : c ≠ BitVec.allOnes 64) : a ≤ c + 1 := by
  rw [BitVec.le_def] at h ⊢
  rw [toNat_add_one (toNat_add_one_lt hc)]
  exact Nat.le_succ_of_le h

/-- The bits of a code: CNT and PROGRESS count the byte together, and below 2^64 (45 R204). -/
theorem encodeBits_leads_progress (todo : List Proc) (b : Byte) (n : Nat) (s : State) (h : s.ShownLe)
    (hcnt : s.progress = s.cnt) (hmax : s.cnt ≠ BitVec.allOnes 64) :
    (encodeBits b n s).KeepsProgress todo := by
  induction n generalizing s with
  | zero => exact fun _ => ⟨le_add_one_of_ne_allOnes (hcnt ▸ h) hmax, rfl⟩
  | succ n ih =>
    simp only [encodeBits]; split
    · exact fun _ => ⟨h, hcnt, hmax⟩
    · exact ih _ h hcnt hmax

/-- DECODE between two symbols: CNT is the internal value, and at most SIZE. -/
def State.DecodesUpTo (s : State) : Prop := s.ShownLe ∧ s.progress = s.cnt ∧ s.cnt ≤ s.size

/-- DECODE inside a symbol: CNT is below SIZE. -/
def State.DecodesBelow (s : State) : Prop := s.ShownLe ∧ s.progress = s.cnt ∧ s.cnt < s.size

theorem State.DecodesBelow.upTo {s : State} (h : s.DecodesBelow) : s.DecodesUpTo := by
  obtain ⟨hshown, hcnt, hlt⟩ := h
  exact ⟨hshown, hcnt, BitVec.le_of_lt hlt⟩

theorem countSymbol_decodesUpTo {s : State} (h : s.DecodesBelow) : s.countSymbol.DecodesUpTo := by
  obtain ⟨hshown, hcnt, hlt⟩ := h
  have hmax : s.cnt ≠ BitVec.allOnes 64 := by
    intro hc
    rw [hc, BitVec.lt_def, BitVec.toNat_allOnes] at hlt
    have := s.size.isLt
    omega
  refine ⟨le_add_one_of_ne_allOnes (hcnt ▸ hshown) hmax, rfl, ?_⟩
  rw [BitVec.lt_def] at hlt
  rw [BitVec.le_def]
  exact (toNat_add_one (toNat_add_one_lt hmax)).trans_le hlt

theorem decodeBit_leads_progress (todo : List Proc) {next : State → Run} {s : State} (h : s.DecodesBelow)
    (hnext : ∀ u : State, u.DecodesBelow → (next u).KeepsProgress todo) :
    (decodeBit next s).KeepsProgress todo := by
  unfold decodeBit decodeAt
  split
  · exact fun _ => h
  · split
    · exact fun _ => h
    · exact hnext _ h

theorem decodeLoop_leads_progress (todo : List Proc) (n : Nat) (s : State) (h : s.DecodesUpTo) :
    (decodeLoop n s).KeepsProgress todo := by
  have hbelow : ∀ u : State, u.DecodesUpTo → u.cnt ≠ u.size → u.DecodesBelow :=
    fun u ⟨hshown, hcnt, hle⟩ hne => ⟨hshown, hcnt, BitVec.lt_of_le_ne hle hne⟩
  induction n generalizing s with
  | zero =>
    simp only [decodeLoop]; split
    · exact h.1
    · exact fun _ => hbelow s h ‹_›
  | succ n ih =>
    simp only [decodeLoop]; split
    · exact h.1
    · exact decodeBit_leads_progress todo (hbelow s h ‹_›) fun u hu => ih u hu.upTo

theorem decodeToken_leads_progress (todo : List Proc) (t : Token) {s : State} (h : s.DecodesBelow) :
    (decodeToken t s).KeepsProgress todo := by
  unfold decodeToken; split
  · exact fun hb => nomatch hb
  · exact decodeBit_leads_progress todo h fun u hu => decodeLoop_leads_progress todo 7 u hu.upTo

theorem countToken_leads_progress (todo : List Proc) (t : Token) {s : State} (h : s.ShownLe) (hsize : s.progress = s.size) :
    (countToken t s).KeepsProgress todo := by
  unfold countToken; split
  · split
    · exact fun hb => nomatch hb
    · exact h
  · split
    · exact fun hb => nomatch hb
    · exact fun _ => ⟨le_add_one_of_ne_allOnes (hsize ▸ h) ‹_›, rfl⟩

theorem encodeToken_leads_progress (todo : List Proc) (t : Token) {s : State} (h : s.ShownLe) (hcnt : s.progress = s.cnt) :
    (encodeToken t s).KeepsProgress todo := by
  unfold encodeToken; split
  · split
    · exact fun _ => ⟨h, trivial⟩
    · exact encodeEnd_leads_progress todo h
  · split_ifs with hlen hmax
    · exact fun hb => nomatch hb
    · exact fun hb => nomatch hb
    · exact encodeBits_leads_progress todo _ _ s h hcnt hmax

theorem destreeMarker_shownLe (t : Token) {s : State} (h : s.ShownLe) : (destreeMarker t s).final.ShownLe := by
  unfold destreeMarker; split
  · exact h
  · split_ifs <;> exact h

theorem destreeSymbol_shownLe (g : Handle) (t : Token) {s : State} (h : s.ShownLe) :
    (destreeSymbol g t s).final.ShownLe := by
  unfold destreeSymbol; split
  · exact h
  · exact attach_keeps State.ShownLe (fun _ _ _ h => h) (fun _ _ h => h) (fun _ _ h => h) _ _ _ h

theorem rdsizeToken_shownLe (i : Nat) (v : DWord) (t : Token) {s : State} (h : s.ShownLe) :
    (rdsizeToken i v t s).final.ShownLe := by
  unfold rdsizeToken; split
  · exact h
  · split <;> exact h

theorem serLoop_shownLe {s : State} (h : s.ShownLe) : (serLoop s).final.ShownLe := by
  unfold serLoop; split
  · exact h
  · split <;> exact h

theorem serAfterInnerMarker_shownLe (g : Handle) {s : State} (h : s.ShownLe) : (serAfterInnerMarker g s).final.ShownLe :=
  serLoop_shownLe (s := { s with stk := { h := s.leftOf g } :: { h := s.rightOf g } :: s.stk }) h

theorem encodeStart_leads_progress (todo : List Proc) (s : State) :
    (encodeStart s).KeepsProgress todo :=
  fun _ => ⟨shownLe_of_published_zero rfl, rfl⟩

theorem countStart_leads_progress (todo : List Proc) (s : State) :
    (countStart s).KeepsProgress todo :=
  fun _ => ⟨shownLe_of_published_zero rfl, rfl⟩

theorem decodeStart_leads_progress (todo : List Proc) (s : State) :
    (decodeStart s).KeepsProgress todo := by
  refine decodeLoop_leads_progress todo 0 _ ⟨shownLe_of_published_zero rfl, rfl, ?_⟩
  rw [BitVec.le_def]
  exact Nat.zero_le _

theorem setPhase_shownLe (p : Phase) (s : State) : (s.setPhase p).ShownLe := shownLe_of_published_zero rfl

/-- The procedures that count nothing leave PROGRESS, or start a new phase. -/
theorem startProc_shownLe {p : Proc} (hp : p ≠ .count ∧ p ≠ .encode ∧ p ≠ .decode) {s : State} (h : s.ShownLe) :
    (startProc p s).final.ShownLe := by
  obtain ⟨hcount, hencode, hdecode⟩ := hp
  cases p <;> simp only [startProc]
  case needTv => unfold needTvRun; split <;> exact h
  case needCv => unfold needCvRun; split <;> exact h
  case clear => exact shownLe_of_published_zero rfl
  case build =>
    exact buildRun_keeps State.ShownLe (fun u _ => setPhase_shownLe .build u) (fun _ _ _ h => h) (fun _ _ h => h)
      (fun _ h => h) s h
  case gencode =>
    exact gencodeRun_keeps State.ShownLe (fun u _ => setPhase_shownLe .gencode u) (fun _ _ _ _ h => h) (fun _ _ h => h)
      (fun _ h => h) s h
  case sertree => exact serLoop_shownLe (setPhase_shownLe .sertree s)
  case flush => exact setPhase_shownLe .flush s
  case wrsize => exact setPhase_shownLe .wrsize s
  case destree => exact setPhase_shownLe .destree s
  case rdsize => exact setPhase_shownLe .rdsize s
  case release => exact h
  all_goals contradiction

/-- COUNT, ENCODE and DECODE start with PROGRESS 0 (60 R252). -/
theorem startProc_leads_progress (p : Proc) (todo : List Proc) {s : State} (h : s.ShownLe) :
    (startProc p s).KeepsProgress todo := by
  by_cases hp : p = .count ∨ p = .encode ∨ p = .decode
  · rcases hp with rfl | rfl | rfl
    · exact countStart_leads_progress todo s
    · exact encodeStart_leads_progress todo s
    · exact decodeStart_leads_progress todo s
  · have hp : p ≠ .count ∧ p ≠ .encode ∧ p ≠ .decode := by simpa only [not_or] using hp
    exact (startProc_stops p s).leads_progress hp todo (startProc_shownLe hp h)

theorem afterIn_leads_progress (k : InPoint) (t : Token) (rest : List Token) (todo : List Proc) {s : State}
    (hb : s.state = .busy) (hr : s.resume = .inNext k todo) (h : s.ProgressInv) :
    (afterIn k t { s with inq := rest }).KeepsProgress todo := by
  obtain ⟨hshown, hpoint⟩ := h hb
  rw [hr] at hpoint
  cases k
  case count => exact countToken_leads_progress todo t hshown hpoint
  case encode => exact encodeToken_leads_progress todo t hshown hpoint
  case decode => exact decodeToken_leads_progress todo t ⟨hshown, hpoint⟩
  case marker =>
    exact (afterIn_stops .marker t _).leads_progress (by decide) todo (destreeMarker_shownLe t hshown)
  case symbol g =>
    exact (afterIn_stops (.symbol g) t _).leads_progress (by simp [procOfIn]) todo (destreeSymbol_shownLe g t hshown)
  case sizeByte i v =>
    exact (afterIn_stops (.sizeByte i v) t _).leads_progress (by simp [procOfIn]) todo (rdsizeToken_shownLe i v t hshown)

theorem afterOut_leads_progress (b : Byte) (k : OutPoint) (todo : List Proc) {s : State}
    (hb : s.state = .busy) (hr : s.resume = .outPut b k todo) (h : s.ProgressInv) :
    (afterOut k { s with outq := s.outq ++ [b] }).KeepsProgress todo := by
  obtain ⟨hshown, hpoint⟩ := h hb
  rw [hr] at hpoint
  cases k
  case leafMarker g => exact fun _ => ⟨hshown, trivial⟩
  case leafSymbol =>
    exact (afterOut_stops .leafSymbol _).leads_progress (by decide) todo (serLoop_shownLe hshown)
  case innerMarker g =>
    exact (afterOut_stops (.innerMarker g) _).leads_progress (by simp [procOfOut]) todo
      (serAfterInnerMarker_shownLe g hshown)
  case sizeByte i =>
    refine (afterOut_stops (.sizeByte i) _).leads_progress (by simp [procOfOut]) todo ?_
    simp only [afterOut, wrsizeAfter]
    split <;> exact hshown
  case codeBits c n => exact encodeBits_leads_progress todo c n _ hshown hpoint.1 hpoint.2
  case padded => exact encodeEnd_leads_progress todo hshown
  case rootSymbol => exact decodeLoop_leads_progress todo _ _ (countSymbol_decodesUpTo ⟨hshown, hpoint⟩)
  case leafReached =>
    exact decodeLoop_leads_progress todo _ _ (countSymbol_decodesUpTo (s := { s with cur := s.root }) ⟨hshown, hpoint⟩)

/-- The engine keeps the value shown at most the internal one. -/
theorem progress_carries : Carries (fun _ => State.ShownLe) State.ProgressInv where
  complete _ _ := fun hb => nomatch hb
  proc p todo _ h := startProc_leads_progress p todo h
  start _ _ hb _ h := (h hb).1
  input _ k todo t rest hb hr h := afterIn_leads_progress k t rest todo hb hr h
  output _ b k todo hb hr h := afterOut_leads_progress b k todo hb hr h

/-- An accepted command has shown nothing yet. -/
theorem accept_progressInv (s : State) (op : Byte) (todo : List Proc) : (s.accept op todo).ProgressInv :=
  fun _ => ⟨shownLe_of_published_zero rfl, trivial⟩

/-- Every step keeps the bounds. `HostEffect` leaves the published value open, so the acts of the host are taken from
`hostAct` itself. -/
theorem step_keeps_progress (s t : State) (h : s.ProgressInv) (hst : step s = .next t) : t.ProgressInv := by
  have hturn := takeTurn_keeps State.ProgressInv progress_carries.engineStep (fun _ _ h => h)
  cases hhost : s.host with
  | nil =>
    rw [step_of_no_act hhost] at hst
    cases hst
    exact hturn s h
  | cons a rest =>
    cases hc : commandOf a with
    | none =>
      rw [step_of_other_act hhost hc] at hst
      cases hst
      exact hturn _ (hostAct_progressInv a (s := { s with host := rest }) h)
    | some i =>
      rw [step_of_command hhost hc] at hst
      by_cases hb : s.state = .busy
      · rw [exec_busy { s with host := rest } i hb] at hst
        cases hst
        exact hturn _ h
      · rw [exec_ready { s with host := rest } i hb] at hst
        cases hst
        refine hturn _ ?_
        split_ifs
        · exact fun hb => nomatch hb
        · exact accept_progressInv _ _ _

/-- Settles O59: a read publishes a value between the last one and the internal one, and the invariant is kept. -/
theorem progressReadsAreBounded : Obligations.ProgressReadsAreBounded := by
  unfold Obligations.ProgressReadsAreBounded
  refine ⟨fun s hb => ?_, fun s hb hle => ?_, step_keeps_progress⟩
  · obtain ⟨hlow, hhigh⟩ := hostAct_read_progress s
    rw [hlow, hhigh, readProgress_of_ready hb, readProgress_of_ready hb]
    exact ⟨rfl, rfl⟩
  · obtain ⟨hlow, hhigh⟩ := hostAct_read_progress s
    refine ⟨s.publishedNext, le_publishedNext hle, publishedNext_le s, ?_⟩
    rw [hlow, hhigh, readProgress_of_busy hb, readProgress_of_busy hb]
    exact ⟨rfl, rfl⟩

end Sys2Proof.Machine

/-! PROOFS. `fail` and the two resets, field by field (O38, O60). -/

namespace Sys2Proof.Machine

/-- Settles O38: a macro also releases the tree. -/
theorem failChangesOnlyItsFields : Obligations.FailChangesOnlyItsFields := by
  unfold Obligations.FailChangesOnlyItsFields
  exact fun e s => ⟨fail_of_macro e, fail_of_not_macro e⟩

theorem hostAct_write_ctrl (v : Word) (s : State) : hostAct (.write 32 0x0008 v) s = writeCtrl v s :=
  hostAct_write_offset (l := .ctrl) trivial v s

/-- Settles O60: both kinds of reset are `resetBlock`, and a CTRL write without SRST sets IE. -/
theorem resetsGiveTheResetState : Obligations.ResetsGiveTheResetState := by
  unfold Obligations.ResetsGiveTheResetState
  refine ⟨fun s => rfl, fun s v h => ?_, fun s v h => ?_⟩
  · rw [hostAct_write_ctrl, writeCtrl, if_pos h]
    rfl
  · rw [hostAct_write_ctrl, writeCtrl, if_neg (by rw [h]; decide)]
    rfl

end Sys2Proof.Machine
